-- ==== Sys2Proof/Word.lean ====
section
/-! DEFINITION. The words of the machine: 32-bit registers and instruction words, 64-bit pairs and
lane masks, bytes (R3, R35, R96). -/

namespace Sys2Proof

/-- A 32-bit word (an instruction word, a register payload). -/
abbrev Word := BitVec 32
/-- One byte of memory. -/
abbrev Byte := BitVec 8
/-- A 64-bit value: a register pair, an address while it is computed. -/
abbrev Dword := BitVec 64
/-- A 33-bit register lane (R96): the sticky bit S is the top bit, the payload the low 32. -/
abbrev Img := BitVec 33
/-- One bit per lane of a swarm of WIDTH = 64 (R2, R10). -/
abbrev Mask := BitVec 64

end Sys2Proof
end

