-- ==== Sys2Proof/Config.lean ====
section
/-! DEFINITION. What the part fixes (R1, R2) and the free values: constants without a body for every
value the spec leaves open. -/

namespace Sys2Proof.Config

/-- Swarm width, status register WIDTH (R2, R79). -/
abbrev width : Nat := 64
/-- Registers of the lanes of one core: the sum of the windows of its resident swarms (R11). -/
abbrev windowSum : Nat := 6144
/-- Core cycles of one control period, 10 µs at 2.0 GHz (R4, R242). -/
abbrev periodCycles : Nat := 20000
/-- Core cycles of one microsecond (R4). -/
abbrev usecCycles : Nat := 2000
/-- Live fibres of one colony (R17). -/
abbrev colonyFibres : Nat := 16384
/-- Queued tag updates the device holds while tables are frozen (R238). -/
abbrev frozenUpdates : Nat := 65536

/-- FREE VALUE: one open choice between two outcomes (R25, R177, R210), fresh for every counter value,
lane and register. -/
opaque freeBit : Nat → Nat → Nat → Bool
/-- FREE VALUE: an open 32-bit value (R25: a fixed result written over an outstanding late one). -/
opaque freeWord : Nat → Nat → Nat → Word
/-- FREE VALUE: a byte read from another device through a peer port (R301). -/
opaque freeByte : Nat → Nat → Byte
/-- FREE VALUE: which of k outcomes the n-th open choice takes: the free lane of each merged fibre in normal
mode (R31), the value a matrix operation reads of a register written after its issue (R210). -/
opaque freeIndex : Nat → Nat → Nat → Nat
/-- The digest R303 and R304 name without stating it. -/
opaque sha256 : List Byte → BitVec 256
/-- The attestation signature of R304 (per-device key, leaf index, message). -/
opaque lmsSign : Nat → List Byte → List Byte
/-- The check of an LMS signature (R303): public key, message, signature. -/
opaque lmsVerify : List Byte → List Byte → List Byte → Bool
/-- The magic word of a firmware header, which R303 names without stating it. -/
opaque fwMagic : Word
/-- The bytes of a table that firmware loads (R304): which table, and the numbers it holds. -/
opaque tableImage : Nat → List Nat → List Byte
/-- What the debug fuse changes in the key digest that a part reports (R328). -/
opaque debugMask : BitVec 256
/-- FREE VALUE: a sensed temperature (R258), fresh for every counter value and vault. -/
opaque freeTemp : Nat → Nat → Int

end Sys2Proof.Config
end

