-- ==== Sys2Proof/Syntax.lean ====
section
/-! DEFINITION. The syntax: one constructor of `Instr` per row of spec/opcode_table.json: the encoded
instructions, with their operands as the instruction chapters give them, and the operations and events
of the machine (95_what_each_step_holds), with what they are about. -/

namespace Sys2Proof

/-- What every encoded instruction carries in word 0 beside its operands (R36): its length code, switch
marker, guard, and the scalar-form bit S. -/
structure Hdr where
  len : BitVec 2
  y : Bool
  pg : BitVec 3
  pn : Bool
  sc : Bool
  deriving DecidableEq, Repr

/-- A source operand (R42, R43): a vector register, a scalar register (a broadcast in the vector form),
or the literal of word 2. -/
inductive Src
  | v (n : BitVec 8)
  | s (n : BitVec 9)
  | lit (w : Word)
  deriving DecidableEq, Repr

/-- A predicate source with its negate bit (R42). -/
structure PSrc where
  p : BitVec 3
  neg : Bool
  deriving DecidableEq, Repr

/-- The rounding modifier (R126, R136). -/
inductive RMod | fmode | rn | rz | rd | ru | ra
  deriving DecidableEq, Repr

/-- The format codes of R126. -/
inductive Fmt | fp32 | bf16 | fp16 | e4m3 | e5m2 | e2m1 | int8 | uint8 | int4 | int32
  deriving DecidableEq, Repr

/-- Scopes (R160). -/
inductive Scope | fibre | swarm | colony | cluster | device | system
  deriving DecidableEq, Repr

/-- Ordering kinds of loads and stores (R160): `sync` is acquire on a load and release on a store. -/
inductive Ordk
  | weak
  | strong (sc : Scope)
  | sync (sc : Scope)
  deriving DecidableEq, Repr

/-- An operand in square brackets (R46): base, optional offset register, displacement. -/
structure MemOpd where
  base : Src
  off : Option Src
  disp : Word
  deriving DecidableEq, Repr

/-- The entry address of FORK (R57): an offset from its own address, or a pair. -/
inductive Tgt
  | off (w : Word)
  | pair (a : Src)
  deriving DecidableEq, Repr

/-- The count operand of BAR (R63). -/
inductive Cnt
  | allLive
  | reg (n : BitVec 9)
  | lit (w : Word)
  deriving DecidableEq, Repr

/-- The mode of VCALL and VPEEK (R70): which two of time, energy and quality are limits. -/
inductive VMode | tq | eq | te
  deriving DecidableEq, Repr

/-- The plain and the carry forms of IADD and ISUB (R115, R116). -/
inductive AddForm
  | plain (sat u : Bool)
  | cc (p : PSrc)
  deriving DecidableEq, Repr

/-- The conditions of the integer comparisons (R121). -/
inductive Cond | eq | ne | lt | le | gt | ge
  deriving DecidableEq, Repr

/-- The conditions of FCMP (R141). -/
inductive FCond | eq | ne | lt | le | gt | ge | un | ord
  deriving DecidableEq, Repr

/-- An operand modifier (R136): the absolute value first, then the negation. -/
structure OMod where
  neg : Bool
  abs : Bool
  deriving DecidableEq, Repr

/-- The integer types of F2I and I2F (R128, R129). -/
inductive IKind | s32 | u32 | s64 | u64
  deriving DecidableEq, Repr

/-- STKW's three forms (R134). -/
inductive StkForm
  | bit (b : Src)
  | clr
  | set
  deriving DecidableEq, Repr

/-- SHFL's modes (R148). -/
inductive ShMode | at | back | fwd | flip | rot
  deriving DecidableEq, Repr

/-- SHFL's offset (R148): an operand, or WIDTH shifted right by r. -/
inductive ShOff
  | opd (b : Src)
  | wrel (r : BitVec 3)
  deriving DecidableEq, Repr

/-- SHFLB's source lane (R149). -/
inductive ShbSel
  | lane (b : Src)
  | lo
  deriving DecidableEq, Repr

/-- VOTE's forms (R151). -/
inductive VoteForm
  | every (pd : BitVec 3)
  | some (pd : BitVec 3)
  | same (pd : BitVec 3)
  | mask (d : BitVec 8)
  deriving DecidableEq, Repr

/-- MATCH's forms (R152). -/
inductive MatchForm
  | mask (d : BitVec 8)
  | one (pd : BitVec 3)
  deriving DecidableEq, Repr

/-- The operations of REDX and SCANX (R153). -/
inductive ROp | fadd | fmin | fmax | iadd | imin | imax | umin | umax | and | or | xor
  deriving DecidableEq, Repr

/-- The element types of LD and LDS (R165). -/
inductive LdT | b32 | u8 | s8 | u16 | s16 | b64 | b128 | bf16 | fp16 | e4m3 | e5m2
  deriving DecidableEq, Repr

/-- The element types of ST and STS (R166): the raw ones, and the commits from a source format. -/
inductive StT
  | b32 | b8 | b16 | b64 | b128
  | commit (g : Fmt) (f : Fmt) (rm : RMod)
  deriving DecidableEq, Repr

/-- STB's forms (R169). -/
inductive StbForm
  | block (g f : Fmt) (rm : RMod) (as sp : Bool)
  | frag
  deriving DecidableEq, Repr

/-- The operations of ATOM and ATOMS (R170). -/
inductive AtOp | add | fadd | min | max | umin | umax | and | or | xor | exch | cas
  deriving DecidableEq, Repr

/-- The engine classes (R174). -/
inductive EngClass | copy | mtx | post | child
  deriving DecidableEq, Repr

/-- The tile operand (R180): a number, or bits 7..0 of a scalar register. -/
inductive TileSel
  | imm (t : BitVec 8)
  | reg (n : BitVec 9)
  deriving DecidableEq, Repr

/-- What the residue check of a matrix operation finds (R221, R222): an input of its retirement. -/
inductive Residue
  | pass
  | replay
  | twice (rows : Mask)
  deriving DecidableEq, Repr

/-- Permissions and master of an access-table entry (R302): 4 KiB granules base to limit, the master
(none for any), and R, W, X. -/
structure AccEntry where
  base : Nat
  limit : Nat
  master : Option Nat
  r : Bool
  w : Bool
  x : Bool
  deriving DecidableEq, Repr

/-- The targets of R291 and R302. DRAM's access tables are those of its vault controllers. -/
inductive Target
  | dram
  | vault (v : Nat)
  | host
  | peer (p : Nat)
  | status
  | firmware
  deriving DecidableEq, Repr

/-- The placement parameters (R242). -/
structure PlaceParams where
  rot : List Nat
  ht : List Nat
  ks : Nat
  ke : Nat
  kd : Nat
  floor : Nat
  rw : Nat
  deriving DecidableEq, Repr

/-- What the management core loads at bring-up (R234, R242, R261, R271, R275, R302, R304, R325), with the space for
staged stores that it reserves (R252, R255). -/
structure FwLoad where
  weights : List Nat
  place : PlaceParams
  vmin : List Nat
  handlerEntry : List (Nat × Nat)
  group : BitVec 16
  acc : List (Target × List AccEntry)
  slow : List (Nat × Nat)
  staging : Nat
  deriving DecidableEq, Repr

/-- An access from outside the part (R204): a read of n bytes, or a write. A host address below 2^40 is an
offset of its window (R291), one of host memory's physical range is the host's own memory; a peer's is
physical. -/
inductive ExtAcc
  | read (addr n : Nat)
  | write (addr : Nat) (bytes : List Byte)
  deriving DecidableEq, Repr

/-- What a shoot-down covers (R286). -/
inductive Shoot
  | page (q : Nat) (va : Nat)
  | queue (q : Nat)
  | all
  deriving DecidableEq, Repr

/-- The instructions and events of the opcode table, one constructor per row, in the table's order. -/
inductive Instr
  -- control (R53 to R77)
  | nop (h : Hdr)
  | nopLong (h : Hdr)
  | bra (h : Hdr) (u : Bool) (off : Word)
  | brx (h : Hdr) (u : Bool) (a : Src)
  | call (h : Hdr) (u : Bool) (d : BitVec 8) (off : Word)
  | callx (h : Hdr) (u : Bool) (d : BitVec 8) (a : Src)
  | ret (h : Hdr) (u : Bool) (a : Src)
  | rcv (h : Hdr)
  | fork (h : Hdr) (pd : BitVec 3) (t : Tgt) (c : BitVec 8)
  | endf (h : Hdr)
  | sleep (h : Hdr) (m : MemOpd) (d : BitVec 8) (t : BitVec 5)
  | barWait (h : Hdr) (b : BitVec 4) (c : Cnt)
  | barPass (h : Hdr) (b : BitVec 4) (c : Cnt)
  | vcall (h : Hdr) (tab : BitVec 9) (disp : Word) (m : VMode) (l1 l2 : Src)
  | vret (h : Hdr)
  | vqual (h : Hdr) (q : Src)
  | vpeek (h : Hdr) (d : BitVec 8) (tab : BitVec 9) (disp : Word) (m : VMode) (l1 l2 : Src)
  | vbud (h : Hdr) (energy : Bool) (x : Src)
  | launch (h : Hdr) (m : MemOpd) (arg : Option Src)
  | lwait (h : Hdr) (n : BitVec 6)
  | brk (h : Hdr) (code : BitVec 8)
  | trap (h : Hdr) (code : BitVec 16)
  | eret (h : Hdr)
  | prio (h : Hdr) (x : Src)
  | csrr (h : Hdr) (d : BitVec 9) (n : BitVec 12)
  | csrw (h : Hdr) (a : Src) (n : BitVec 12)
  | tlbiVa (h : Hdr) (m : MemOpd)
  | tlbiAs (h : Hdr)
  | tlbiAll (h : Hdr)
  | savec (h : Hdr) (m : MemOpd)
  | rstc (h : Hdr) (m : MemOpd)
  | waiti (h : Hdr)
  -- integer, logic, predicates (R113 to R125)
  | iadd (h : Hdr) (d : BitVec 9) (a b : Src) (f : AddForm)
  | isub (h : Hdr) (d : BitVec 9) (a b : Src) (f : AddForm)
  | imul (h : Hdr) (d : BitVec 9) (a b : Src)
  | imulh (h : Hdr) (d : BitVec 9) (a b : Src) (u : Bool)
  | imad (h : Hdr) (d : BitVec 9) (a b c : Src)
  | imadw (h : Hdr) (d : BitVec 9) (a b c : Src) (u : Bool)
  | imin (h : Hdr) (d : BitVec 9) (a b : Src) (u : Bool)
  | imax (h : Hdr) (d : BitVec 9) (a b : Src) (u : Bool)
  | iabs (h : Hdr) (d : BitVec 9) (a : Src) (sat : Bool)
  | ineg (h : Hdr) (d : BitVec 9) (a : Src) (sat : Bool)
  | isetp (h : Hdr) (pd pq : BitVec 3) (a b : Src) (c : Cond) (u : Bool)
  | iset (h : Hdr) (d : BitVec 9) (a b : Src) (c : Cond) (u : Bool)
  | shl (h : Hdr) (d : BitVec 9) (a b : Src)
  | shr (h : Hdr) (d : BitVec 9) (a b : Src)
  | sar (h : Hdr) (d : BitVec 9) (a b : Src)
  | rol (h : Hdr) (d : BitVec 9) (a b : Src)
  | and (h : Hdr) (d : BitVec 9) (a b : Src)
  | or (h : Hdr) (d : BitVec 9) (a b : Src)
  | xor (h : Hdr) (d : BitVec 9) (a b : Src)
  | not (h : Hdr) (d : BitVec 9) (a : Src)
  | lop3 (h : Hdr) (d : BitVec 9) (a b c : Src) (t : BitVec 8)
  | bperm (h : Hdr) (d : BitVec 9) (a c b : Src)
  | bfx (h : Hdr) (d : BitVec 9) (a b : Src) (sx : Bool)
  | bfi (h : Hdr) (d : BitVec 9) (a b c : Src)
  | popc (h : Hdr) (d : BitVec 9) (a : Src)
  | clz (h : Hdr) (d : BitVec 9) (a : Src)
  | brev (h : Hdr) (d : BitVec 9) (a : Src)
  | sel (h : Hdr) (d : BitVec 9) (a b : Src) (p : PSrc)
  | mov (h : Hdr) (d : BitVec 9) (a : Src)
  | movl (h : Hdr) (d : BitVec 9) (w : Word)
  | lea (h : Hdr) (d : BitVec 9) (a b : Src) (sh : BitVec 5) (u a52 : Bool)
  | iadd64 (h : Hdr) (d : BitVec 9) (a b : Src) (sub u : Bool)
  | icmp64 (h : Hdr) (pd pq : BitVec 3) (a b : Src) (c : Cond) (u : Bool)
  | pget (h : Hdr) (d : BitVec 9)
  | pset (h : Hdr) (a b : Src)
  | plop (h : Hdr) (pd : BitVec 3) (pa pb pc : PSrc) (t : BitVec 8)
  -- floating point, conversions, sticky (R126 to R145)
  | fadd (h : Hdr) (d : BitVec 9) (a b : Src) (ma mb : OMod) (rm : RMod)
  | fsub (h : Hdr) (d : BitVec 9) (a b : Src) (ma mb : OMod) (rm : RMod)
  | fmul (h : Hdr) (d : BitVec 9) (a b : Src) (ma mb : OMod) (rm : RMod)
  | ffma (h : Hdr) (d : BitVec 9) (a b c : Src) (ma mb mc : OMod) (rm : RMod)
  | fmin (h : Hdr) (d : BitVec 9) (a b : Src) (ma mb : OMod)
  | fmax (h : Hdr) (d : BitVec 9) (a b : Src) (ma mb : OMod)
  | fcmp (h : Hdr) (pd pq : BitVec 3) (a b : Src) (ma mb : OMod) (c : FCond)
  | fclass (h : Hdr) (d : BitVec 9) (a : Src) (f : Fmt)
  | frnd (h : Hdr) (d : BitVec 9) (a : Src) (ma : OMod) (rm : RMod)
  | fscale (h : Hdr) (d : BitVec 9) (a b : Src) (ma : OMod) (rm : RMod)
  | flogb (h : Hdr) (d : BitVec 9) (a : Src)
  | rcp (h : Hdr) (d : BitVec 9) (a : Src) (ma : OMod) (rm : RMod)
  | rsq (h : Hdr) (d : BitVec 9) (a : Src) (ma : OMod) (rm : RMod)
  | sqrt (h : Hdr) (d : BitVec 9) (a : Src) (ma : OMod) (rm : RMod)
  | ex2 (h : Hdr) (d : BitVec 9) (a : Src) (ma : OMod)
  | lg2 (h : Hdr) (d : BitVec 9) (a : Src) (ma : OMod)
  | sin (h : Hdr) (d : BitVec 9) (a : Src) (ma : OMod)
  | cos (h : Hdr) (d : BitVec 9) (a : Src) (ma : OMod)
  | tanh (h : Hdr) (d : BitVec 9) (a : Src) (ma : OMod)
  | cvt (h : Hdr) (d : BitVec 9) (a : Src) (g f : Fmt)
  | f2i (h : Hdr) (d : BitVec 9) (a : Src) (u : Bool) (f : Fmt) (rm : RMod)
  | i2f (h : Hdr) (d : BitVec 9) (a : Src) (k : IKind) (rm : RMod)
  | fin (h : Hdr) (d : BitVec 9) (a : Src) (g f : Fmt) (rm : RMod)
  | pack (h : Hdr) (d : BitVec 8) (a : BitVec 8) (g f : Fmt) (rm : RMod) (as sp : Bool)
  | unpk (h : Hdr) (d : BitVec 8) (a : BitVec 8) (g : Fmt) (raw : Bool)
  | stkr (h : Hdr) (d : BitVec 9) (a : Src)
  | stkw (h : Hdr) (d : BitVec 9) (a : Src) (f : StkForm)
  -- cross-lane (R146 to R157)
  | shfl (h : Hdr) (d : BitVec 8) (a : Src) (m : ShMode) (n : ShOff) (p : PSrc)
  | shflb (h : Hdr) (d : BitVec 8) (a : Src) (l : ShbSel) (p : PSrc)
  | shflp (h : Hdr) (d : BitVec 8) (a b : Src) (p : PSrc)
  | vote (h : Hdr) (f : VoteForm) (pa : PSrc)
  | redx (h : Hdr) (d : BitVec 8) (a : Src) (o : ROp) (rm : RMod) (p : PSrc)
  | scanx (h : Hdr) (d : BitVec 8) (a : Src) (o : ROp) (rm : RMod) (exc : Bool) (p : PSrc)
  | gath (h : Hdr) (d a : BitVec 8) (b : Src) (n : BitVec 4) (p : PSrc)
  | rebal (h : Hdr) (d : BitVec 8) (a b : Src) (p : PSrc)
  | matchx (h : Hdr) (f : MatchForm) (a : Src) (p : PSrc)
  -- memory and engines (R158 to R184)
  | ld (h : Hdr) (t : LdT) (o : Ordk) (d : BitVec 9) (m : MemOpd)
  | st (h : Hdr) (t : StT) (tick : Bool) (o : Ordk) (d : BitVec 9) (m : MemOpd)
  | lds (h : Hdr) (t : LdT) (o : Ordk) (d : BitVec 9) (m : MemOpd)
  | sts (h : Hdr) (t : StT) (o : Ordk) (d : BitVec 9) (m : MemOpd)
  | ldb (h : Hdr) (g : Option Fmt) (spad : Bool) (o : Ordk) (d : BitVec 8) (m : MemOpd)
  | stb (h : Hdr) (f : StbForm) (spad : Bool) (o : Ordk) (d : BitVec 8) (m : MemOpd)
  | atom (h : Hdr) (o : AtOp) (w64 ar post : Bool) (sc : Scope) (d : BitVec 9) (b : Src) (m : MemOpd)
  | atoms (h : Hdr) (o : AtOp) (w64 ar post : Bool) (sc : Scope) (d : BitVec 9) (b : Src) (m : MemOpd)
  | fence (h : Hdr) (sc : Scope)
  | fenco (h : Hdr) (sc : Scope)
  | fencr (h : Hdr) (sc : Scope)
  | storeBufferSerialise (core : Nat)
  | spill (h : Hdr) (n : BitVec 5) (spad : Bool) (d : BitVec 8) (m : MemOpd)
  | fill (h : Hdr) (n : BitVec 5) (spad : Bool) (d : BitVec 8) (m : MemOpd)
  | cpyG2s (h : Hdr) (d : BitVec 8) (m : MemOpd) (n : Src)
  | cpyS2g (h : Hdr) (d : BitVec 8) (m : MemOpd) (n : Src)
  | cpyt (h : Hdr) (t : BitVec 8) (base : BitVec 9) (disp : Word) (stride : Option (BitVec 9)) (cnt : BitVec 10)
  | waitc (h : Hdr) (c : EngClass) (n : BitVec 6)
  | tset (h : Hdr) (t : BitVec 8) (so : BitVec 9) (x : Src)
  | trel (h : Hdr) (t : BitVec 8)
  | trel64 (h : Hdr) (t : TileSel)
  | tstat (h : Hdr) (d : BitVec 8) (t : TileSel)
  | ldtFrag (h : Hdr) (d : BitVec 8) (t : TileSel) (b : Src)
  | ldtWord (h : Hdr) (d : BitVec 8) (t : TileSel) (b : Src)
  | pref (h : Hdr) (l2 : Bool) (m : MemOpd)
  | cctlIc (h : Hdr) (m : MemOpd)
  | cctlInv (h : Hdr) (m : MemOpd)
  -- matrix (R205 to R224)
  | mma (h : Hdr) (d a b : BitVec 8) (fa fb : Fmt) (rm : RMod) (zc : Bool)
  | mmad (h : Hdr) (d e a b : BitVec 8) (fa fb : Fmt) (rm : RMod) (zc : Bool)
  | mcvt (h : Hdr) (d a : BitVec 8) (g : Fmt) (i32 : Bool) (rm : RMod) (as sp hi : Bool) (vh : Option (BitVec 8))
  | mzero (h : Hdr) (d : BitVec 8)
  | msclAdd (h : Hdr) (d : BitVec 8) (b : Src)
  | msclSet (h : Hdr) (d : BitVec 8) (b : Src)
  | mlease (h : Hdr)
  | mfree (h : Hdr)
  -- events of swarms, families, bins and grids
  | lateResultReturn (core slot k : Nat)
  | parkEnd (core slot mem : Nat)
  | swarmResidency (core : Nat)
  | familyRelease (core slot fam : Nat)
  | slotRetire (core slot : Nat)
  | binTimerExpiry (core bin : Nat)
  | binLaunchNoAdd (grid col : Nat)
  | gridComplete (grid : Nat)
  | doneAddition (grid : Nat)
  | childCountOut (core slot : Nat)
  | variantDispatch (core slot mem : Nat)
  | vcallMerge (core slot fam : Nat)
  | vretFramePop (core slot x : Nat)
  | tagUpdate (k : Nat)
  -- events of engines
  | copyRetire (core slot k : Nat)
  | tileReady (core tile : Nat)
  | tileDrainEmpty (core tile : Nat)
  | tileFree (core tile : Nat)
  | postedAtomicRetire (core slot : Nat)
  | matrixOpRetire (core slot : Nat) (r : Residue)
  | leaseGrant (core : Nat)
  | matrixBoostAck (core : Nat)
  | matrixBoostRemove (core : Nat)
  | rampDownFiller (core n : Nat)
  | sleepRecheck (core slot mem : Nat)
  | sleepTimeout (core slot mem : Nat)
  | handlerStart (core : Nat)
  | colonyRestore (core grid col : Nat)
  | tlbShootdown (what : Shoot)
  -- events of placement, heat and clocks
  | placementDecision
  | controlPeriodLatch (temps : List (Nat × Int)) (droop : List (Nat × Nat)) (next : Option PlaceParams)
  | peerNotice (port : Nat) (set : Bool)
  | clkreqWrite (core : Nat) (w : Word)
  | railChangeDone (core : Nat)
  | sliceClockSwitch (core slice : Nat)
  | ageingMeasure (core slow : Nat)
  -- events of queues and packets
  | kick (q : Nat) (w : Word)
  | packetRetry (q : Nat)
  | pktNop (q : Nat)
  | pktLaunch (q : Nat)
  | pktFence (q : Nat)
  | fenceCountersPass (q : Nat)
  | pktSignal (q : Nat)
  | pktCopy (q : Nat)
  | vtabFreeze (q : Nat)
  | vtabThaw (q : Nat)
  | vtabReset (q : Nat)
  | pktMode (q : Nat)
  | qcmdEnable (q : Nat)
  | qcmdPreempt (q : Nat)
  | qcmdResume (q : Nat)
  | qcmdDiscard (q : Nat)
  | qcmdDisable (q : Nat)
  | fserv (q : Nat) (n : Word)
  | fqhead (q : Nat) (n : Word)
  | registerWrite (off : Nat) (w : Word)
  -- events of the outside world and bring-up
  | hostAccess (a : ExtAcc)
  | peerAccess (port : Nat) (a : ExtAcc)
  | peerPortDown (port : Nat)
  | attestationRequest (nonce : List Byte)
  | powerOnReset
  | dramTrainingDone (ok : Bool)
  | firmwareVerify (key : List Byte)
  | firmwareLoadDone (f : FwLoad)
  | bypass
  | idcode
  | samplePreload
  | extest (selected : Bool)
  | peerPortUp (port : Nat)
  | noticeRelease (port : Nat)
  | firmwareEvent (core : Nat)
  | copyPacketDone (q : Nat)
  | railsUp
  | powerLoss
  deriving DecidableEq, Repr

end Sys2Proof
end

