-- ==== Sys2Proof/Machine/State.lean ====
section
/-! DEFINITION. The state of the device as plain data: fibres, swarm slots, cores, colonies, grids,
queues and the package, with the state after reset. Sparse tables are lists of key and value in rising
key order; an unlisted key reads as the default its accessor names. -/

namespace Sys2Proof.Machine

/-- A variant frame above the base frame (R69). The report is the lane's latest VQUAL value. `x` names
the record of the sub-swarm X_e that pushed it. -/
structure Frame where
  vtb : Nat
  veb : Nat
  vql : Nat
  entry : Nat
  tier : Nat
  table : Dword
  ret : Dword
  tchg : Nat
  echg : Nat
  report : Option Nat
  x : Nat
  deriving DecidableEq, Repr

/-- A fibre in its lane (R6, R8). Its pc is its member's. `done` marks the FORK being executed (R58),
`owed` the MCHK of a dropped store (R301). -/
structure Fibre where
  fid : Nat
  preds : BitVec 7
  regs : List (Nat × Img)
  frames : List Frame
  baseT : Nat
  baseE : Nat
  forks : Nat
  done : Bool
  owed : Bool
  deriving DecidableEq, Repr

/-- A trap that stopped a member (R273, R274). -/
structure TrapRec where
  cause : Nat
  pc : Dword
  mask : Mask
  addr : Dword
  info : Word
  deriving DecidableEq, Repr

/-- Why a member re-executes its instruction when it is unparked (R13). -/
inductive Redo
  | counter (c : EngClass)        -- a 64th outstanding operation of a class
  | tileEmpty (t : Nat)           -- CPYT
  | tileReady (t : Nat)           -- LDT, TREL
  | bin                           -- FORK with no bin free
  | drained (usec : Nat)          -- VCALL and VPEEK before selection, with USEC at issue (R230)
  | staging                       -- a `.t` store with no staging space (R255)
  deriving DecidableEq, Repr

/-- The states of a member (R13, R281). -/
inductive Park
  | ready
  | marker                                        -- switch marker (R23); an undivided RCV
  | rcv                                           -- parked at the RCV before pc
  | bar (b : Nat)                                 -- BAR.WAIT
  | sleep (limit : Nat) (watch : List (Nat × Nat × Word))  -- lane, virtual address, comparand
  | waitc (c : EngClass) (n : Nat)                -- WAITC, LWAIT
  | redo (r : Redo)
  | vret (x : Nat)                                -- until every fibre of X_e has executed VRET or ended
  | merge                                         -- at a VCALL return point
  | undispatched (e : Nat)                        -- a sub-swarm X_e that has not started
  | fence                                         -- FENCE: accesses performed
  | fencr (asked : Bool) (cores : List Nat)       -- FENCR: its fence, then, once asked, the cores yet to acknowledge
  | icinv                                         -- CCTL.IC: its invalidation
  | trap (t : TrapRec)                            -- awaiting service
  | fault (seq : Nat) (addr : Dword)              -- lanes awaiting fault service, with the address of the lowest
  | ringFull (kind access : Nat) (addr : Dword) (malformed : Bool)   -- its record waits for FQHEAD (R298)
  | tlbi                                          -- handler: invalidation
  | savec (a : Nat)                               -- handler: SAVEC waits for the drain
  | rstc (a : Nat)                                -- handler: RSTC's transfer
  | waiti                                         -- handler idle (R85)
  deriving DecidableEq, Repr

/-- A member: a swarm, or a sub-swarm of a family (R27, R28). `ent` is the entry of the X_e it is, in the
family that its VCALL formed; `last` the cycle of its last issue and `since` that it became READY (R250);
`y` remembers that the switch marker of the instruction it parked in is still to come (R23), `src` and
`len` that instruction's address and length in bytes; `usec` is USEC at the issue of a VCALL or VPEEK whose
selection is still to come (R230), `waited` the cycles that an instruction has waited for a tile (R323), and `left` what a
SLEEP restored at its pc has left of its timeout (R280, R281). -/
structure Member where
  id : Nat
  mask : Mask
  pc : Dword
  st : Park
  fam : Nat
  ent : Option Nat
  last : Nat
  since : Nat
  y : Bool
  len : Nat
  src : Dword
  usec : Option Nat := none
  left : Option Nat := none
  waited : Nat := 0
  deriving DecidableEq, Repr

/-- The kinds of family (R281): formed by a branch or page fault, by a VCALL and not yet merged at its
return point, or by a VCALL and merged. -/
inductive FamKind
  | branch
  | vcall (level : Nat) (ret : Dword)
  | merged
  deriving DecidableEq, Repr

/-- A family: family 0 stands for the whole swarm and is not listed. `ent` is the entry of the X_e it
grew from, for the VCALL family that encloses it. -/
structure Family where
  id : Nat
  outer : Nat
  kind : FamKind
  ent : Option Nat
  deriving DecidableEq, Repr

/-- Where a late value goes. -/
inductive Dest
  | v (lane reg : Nat)
  | s (reg : Nat)
  | p (lane pred : Nat)
  deriving DecidableEq, Repr

/-- A late write (R24): the value delivered, with the code of R288 or R301 when it is uncorrectable, and
whether a fixed write has gone over it (R25). -/
structure LateWrite where
  dst : Dest
  val : Img
  bad : Option Nat
  clobbered : Bool
  deriving DecidableEq, Repr

/-- The outstanding results of one instruction, with the flags they raise at delivery (R81). `sample`
says that its latency is a monitor sample (R323), and `load` that they come from memory (R172). -/
structure LateOp where
  seq : Nat
  writes : List LateWrite
  flags : BitVec 6
  sample : Bool
  issued : Nat
  load : Bool := false
  deriving DecidableEq, Repr

/-- A byte of physical memory, or of a core's scratchpad. -/
inductive Loc
  | phys (a : Nat)
  | spad (core a : Nat)
  deriving DecidableEq, Repr

/-- Where a copied byte comes from: zero fill, a byte not read yet, or a byte already read (R177). -/
inductive CopySrc
  | zero
  | loc (l : Loc)
  | got (b : Byte)
  deriving DecidableEq, Repr

/-- Where a copied header comes from: zero, a physical block not read yet, or a word already read. -/
inductive HdrSrc
  | zero
  | block (n : Nat)
  | got (w : Word)
  deriving DecidableEq, Repr

/-- One byte a copy moves. `touched` says a store reached the destination after issue (R177). -/
structure CopyByte where
  dst : Loc
  src : CopySrc
  touched : Bool
  deriving DecidableEq, Repr

/-- What a transfer has been granted of its queue's budgets (R249): how many of its requests, and its place among the
transfers that wait for the next period. -/
structure Toll where
  paid : Nat := 0
  ask : Option Nat := none
  deriving DecidableEq, Repr

/-- A copy outstanding in COPY (R175, R176). `tile` names a CPYT's tile, and `hdrs` the headers it writes, by
scratchpad block. `lanes` are a CPY's lanes, 32 bytes each; `pages` the pages it was translated in (R286). -/
structure CopyOp where
  bytes : List CopyByte
  tile : Option Nat
  hdrs : List (Nat × HdrSrc)
  finished : Bool
  lanes : List Nat := []
  pages : List (Nat × Nat) := []
  toll : Toll := {}
  deriving DecidableEq, Repr

/-- A source register of an outstanding matrix operation as it was before a later write (R210). `of` names the older
operation whose result that is, while it is still to come (R209). -/
structure Shadow where
  lane : Nat
  reg : Nat
  old : Img
  of : Option Nat := none
  deriving DecidableEq, Repr

/-- A matrix operation outstanding in MTX (R209). `fm` is FMODE.RM at issue; `xs` names the records of the
sub-swarms X_e it counts in (R234), and `void` the source registers whose present value it does not read (R210). `ret` is what the engine has returned, on its way
through the inbound FIFO (R265). -/
structure MtxOp where
  seq : Nat
  op : Instr
  pc : Dword
  rows : Mask
  cols : Mask
  fm : Nat
  xs : List Nat
  shadows : List Shadow
  clobbered : List (Nat × Nat)
  leased : Bool
  void : List (Nat × Nat) := []
  ret : Option Residue := none
  deriving DecidableEq, Repr

/-- An MCHK to raise when the swarm next waits for the operation (R222, R289). `after` counts the operations of
its class that the slot has issued since. -/
structure MchkDue where
  info : Word
  mask : Mask
  addr : Dword
  after : Nat := 0
  deriving DecidableEq, Repr

/-- The record of a sub-swarm X_e (R69, R233, R234): its energy in 1/16 pJ, its refresh share in pJ, and
the time metered before a save. `start` is set at dispatch, and `vret` is the issue of its last VRET (R237). -/
structure XRec where
  id : Nat
  entry : Nat
  table : Dword
  start : Option Nat
  before : Nat
  energy : Nat
  share : Nat
  vret : Nat := 0
  deriving DecidableEq, Repr

/-- A monitor's figures (R323, R324). -/
structure MonFig where
  min : Nat
  max : Nat
  bins : List Nat
  deriving DecidableEq, Repr

/-- The lease state of a slot (R220): what it may still issue after a suspension. -/
structure LeaseSt where
  suspended : Option Nat
  requested : Option Nat
  deriving DecidableEq, Repr

/-- A swarm slot (R10), resident or waiting, and the handler slot (R275). `resumed` says that an ERET has resumed it from a
PREEMPT unsaved (R279). -/
structure Slot where
  grid : Nat
  col : Nat
  rank : Nat
  slice : Nat
  win : Nat
  form : Nat
  lanes : List (Nat × Fibre)
  sregs : List (Nat × Img)
  fmode : BitVec 3
  fflags : BitVec 6
  prio : Nat
  cychi : Word
  latch : MonFig
  members : List Member
  fams : List Family
  nextId : Nat
  late : List LateOp
  copies : List CopyOp
  mtx : List MtxOp
  posts : Nat
  kids : List Nat
  xs : List XRec
  lease : LeaseSt
  due : List MchkDue
  badRegs : List (Dest × Nat)
  last : Nat
  stopped : Bool
  resumed : Bool := false
  deriving DecidableEq, Repr

/-- A created fibre waiting in a bin (R14, R58). -/
structure BinFibre where
  fid : Option Nat
  parent : Nat
  seq : Nat
  args : List Img
  deriving DecidableEq, Repr

/-- A brood bin; numbers 16 and up are overflow bins (R14). `limit` is the end of its timer. -/
structure Bin where
  grid : Nat
  col : Nat
  entry : Dword
  fibres : List BinFibre
  limit : Nat
  deriving DecidableEq, Repr

/-- The states of a tile that is not FREE (R178). -/
inductive TileSt | empty | filling | ready | draining
  deriving DecidableEq, Repr

/-- A tile record (R178). -/
structure Tile where
  grid : Nat
  col : Nat
  off : Nat
  size : Nat
  readers : Nat
  count : Nat
  st : TileSt
  deriving DecidableEq, Repr

/-- A scratchpad allocation (R18, R244). -/
structure Alloc where
  grid : Nat
  col : Nat
  rank : Nat
  off : Nat
  size : Nat
  deriving DecidableEq, Repr

/-- A cached translation (R284): the queue, the page's base and size, the physical base and attributes. -/
structure TlbEntry where
  q : Nat
  va : Nat
  size : Nat
  pa : Nat
  typ : Bool
  ord : Nat
  x : Bool
  w : Bool
  r : Bool
  deriving DecidableEq, Repr

/-- A clock-unit step still to come (R263, R326, R267). `plan` stands for the steps of R326 of a boundary that came
while a request was being carried out. -/
inductive ClkAct
  | rail (v : Nat)
  | switch (slice n : Nat)
  | plan (g : Nat)
  | ageing (g : Nat)
  | done
  deriving DecidableEq, Repr

/-- One slice's clock and stall counts (R260, R262, R269). `past` holds the clocks before the last switch, each
with its first cycle, its ratio and its freeze edge; `frozen` the freeze edge of a switch under way (R265);
`goal` the ratio that it leads to; `capped` says that the ratio was lowered for a cap (R267). `who` names the slots that issued at
`lastIssue` (R12). `inbox` is the inbound FIFO, a result by its slot and operation, and `lastIn` the cycle of its last
delivery (R265). `counted` is the cycle of the last edge that counts as issued (R269). -/
structure SliceClk where
  ratio : Nat
  want : Nat
  origin : Nat
  edges : Nat
  issued : Nat
  memStall : Nat
  lastIssue : Option Nat
  stall : Word
  past : List (Nat × Nat × Nat) := []
  frozen : Option Nat := none
  capped : Bool := false
  goal : Nat := 16
  who : List Nat := []
  inbox : List (Nat × Nat) := []
  lastIn : Option Nat := none
  counted : Option Nat := none
  deriving DecidableEq, Repr

/-- The power block of a core (R262, R266, R325). -/
structure Power where
  vset : Nat
  guard : Nat
  boost : Bool
  seq : Nat
  code : Nat
  todo : List ClkAct
  slices : List SliceClk
  newG : Option Nat
  dead : Bool
  deriving DecidableEq, Repr

/-- The matrix engine of a core (R219, R220, R266, R268). `ramp` counts the filler operations of the ramp-down under
way. -/
structure Engine where
  holder : Option (Nat × Nat)
  requests : List (Nat × Nat)
  drainTo : Nat
  lastOp : Option Nat
  busySince : Option Nat
  lastClass : Option (Nat × Nat × Nat)
  waitBoost : Bool
  slowUntil : Nat
  replays : Nat
  ramp : Nat := 0
  deriving DecidableEq, Repr

/-- A trap waiting for the handler (R275): a member's, or a slot's PREEMPT (no member); `cyc` is the core cycle
it was raised in. -/
structure Pend where
  cyc : Nat
  slot : Nat
  mem : Option Nat
  tr : TrapRec
  deriving DecidableEq, Repr

/-- The handler of a core beside its slot (R274, R275, R276). `owner` is the grid and colony of the swarm whose trap
is under service: the slot itself may be gone (R276); `subj` is that swarm once SAVEC has released its slot (R79, R85). -/
structure Handler where
  slot : Slot
  service : Option Pend
  saved : Bool
  pending : List Pend
  tcause : Word
  tpc : Word
  tpchi : Word
  tmask : Word
  tmaskhi : Word
  taddrlo : Word
  taddrhi : Word
  tinfo : Word
  fault : Option (Nat × Dword × Word)
  owner : Option (Nat × Nat) := none
  subj : Option Slot := none
  deriving DecidableEq, Repr

/-- A core. `monAt` is the cycle of the last MONSEL write (R324). -/
structure Core where
  slots : List (Nat × Slot)
  waiting : List Slot
  bins : List (Nat × Bin)
  tiles : List (Nat × Tile)
  allocs : List Alloc
  spad : List (Nat × Byte)
  spadHdr : List (Nat × Word)
  badSpad : List Nat
  tlb : List TlbEntry
  icache : List (Nat × List Byte)
  marks : Nat
  serialise : Bool
  engine : Engine
  handler : Handler
  monSel : Word
  mon : MonFig
  power : Power
  restoring : List (Nat × Nat)
  monAt : Option Nat := none
  deriving DecidableEq, Repr

/-- A colony barrier (R19, R64). `allLive` is the count form "all live fibres". -/
structure Barrier where
  expected : Nat
  form : Nat
  arrived : Nat
  fids : List Nat
  deriving DecidableEq, Repr

/-- A colony (R18, R234, R248). `forms` counts the swarms formed; `saved` lists those in SAVED (R13), by the
lowest FID of each with its number of formation, and `owes` the MCHKs of theirs that no member took (R222). `away` lists the
cores whose record is saved, each with the swarms its bins stand for and their fibres without a FID (R16, R18, R282); `unsaid` lists the saved fibres that owe
the MCHK of a dropped store (R301). -/
structure Colony where
  grid : Nat
  col : Nat
  cores : List Nat
  live : Nat
  nextFid : Nat
  bars : List Barrier
  energy : Nat
  refresh : Nat
  heat : Nat
  forced : Bool
  forms : Nat
  saved : List (Nat × Nat)
  owes : List (Nat × MchkDue) := []
  away : List (Nat × Nat × Nat) := []
  unsaid : List Nat := []
  deriving DecidableEq, Repr

/-- The fields of a launch record (R66). -/
structure LaunchRec where
  entry : Nat
  colonies : Nat
  fibres : Nat
  cores : Nat
  win : Nat
  spad : Nat
  heat : Nat
  dn : Bool
  arg : Dword
  done : Nat
  deriving DecidableEq, Repr

/-- The contribution of a comb cell (R252): colony, rounding mode and FP32 value, and the page it was translated in
(R286). -/
structure Comb where
  addr : Nat
  col : Nat
  rm : Nat
  val : Word
  page : Nat × Nat := (0, 0)
  deriving DecidableEq, Repr

/-- A posted integer atomic held to the flush (R254), and the page it was translated in (R286). -/
structure BufOp where
  col : Nat
  form : Nat
  lane : Nat
  seq : Nat
  op : AtOp
  w64 : Bool
  addr : Nat
  val : Dword
  page : Nat × Nat := (0, 0)
  deriving DecidableEq, Repr

/-- A staged `.t` store (R255): bytes at physical addresses, the pages it was translated in (R286), and the fibres that made it. -/
structure Staged where
  col : Nat
  cells : List (Nat × Byte)
  pages : List (Nat × Nat) := []
  fids : List Nat := []
  deriving DecidableEq, Repr

/-- A tag update requested by VRET (R236, R237); `home` is the physical address of the frozen table that holds it
(R238). -/
structure TagReq where
  q : Nat
  grid : Nat
  col : Nat
  form : Nat
  seq : Nat
  table : Dword
  entry : Nat
  t : Nat
  en : Nat
  qual : Option Nat
  toll : Toll := {}
  home : Option Nat := none
  deriving DecidableEq, Repr

/-- The states of a grid (R21). -/
inductive GridSt | queued | running | children | complete
  deriving DecidableEq, Repr

/-- A grid (R21, R66, R251). `gone` says that its DONE addition is made or not needed; `doneSeq` is the
fault its DONE addition waits for (R68); `usec` is USEC when it entered RUNNING (R230). -/
structure Grid where
  id : Nat
  q : Nat
  depth : Nat
  parent : Option Nat
  launch : LaunchRec
  prio : Nat
  det : Bool
  debug : Bool
  lease : Bool
  st : GridSt
  usec : Nat
  nextCol : Nat
  ended : List Nat
  refusals : Nat
  forced : Bool
  combs : List Comb
  bufs : List BufOp
  staged : List Staged
  updates : List TagReq
  gone : Bool
  doneSeq : Option Nat
  toll : Toll := {}
  deriving DecidableEq, Repr

/-- The states of a queue (R292). -/
inductive QSt | disabled | running | stopping | preempted | faulted
  deriving DecidableEq, Repr

/-- What the parser of a queue is doing (R294 to R296), and the COPY packets under way: moving, with DONE to
come, and with DONE waiting for the service of a page fault (R68). -/
inductive Parse
  | idle
  | retry (n : Nat)
  | fence (counters : List (Nat × Nat))
  | copy (bytes : List CopyByte) (hdrs : List (Nat × HdrSrc)) (done : Nat) (toll : Toll)
  | copyDone (done : Nat)
  | copyWait (done seq : Nat)
  | fault (seq : Nat)
  | fenceFault (seq : Nat) (counters : List (Nat × Nat))
  deriving DecidableEq, Repr

/-- A queue (R292), its mode bits, budgets and parser. `outcome` is the state that STOPPING ends in, `heldTo` the
period until which a refusal holds its placement (R247), and `asks` numbers the requests that wait for its
budgets, in their order (R249). -/
structure Queue where
  prio : Nat
  cres : Nat
  freason : Nat
  st : QSt
  outcome : QSt
  logN : Nat
  ring : Nat
  head : Nat
  tail : Nat
  root : Nat
  fq : Nat
  logF : Nat
  fqTail : Nat
  fqHead : Nat
  sdir : Nat
  sreg : Nat
  sregSz : Nat
  seq : Nat
  nextFault : Nat
  served : List Nat
  det : Bool
  debug : Bool
  lease : Bool
  vbw : Nat
  cby : Nat
  bint : Nat
  vbwUsed : Nat
  cbyUsed : Nat
  parse : Parse
  copies : List Parse
  heldTo : Nat := 0
  asks : List Nat := []
  nextAsk : Nat := 0
  deriving DecidableEq, Repr

/-- A vault (R245, R248, R258): its latched temperature and band, and the rise predicted since. -/
structure Vault where
  temp : Int
  band : Nat
  rise : Nat
  deriving DecidableEq, Repr

/-- An interrupt sent to the host (R296). -/
structure Irq where
  q : Nat
  vector : Nat
  deriving DecidableEq, Repr

/-- The reply of an attestation request (R304), with the key digest of R328; none when it was refused with status
3. -/
structure AttReply where
  devId : Dword
  nonce : List Byte
  leaf : Nat
  clusters : Nat
  mreg0 : BitVec 256
  mreg1 : BitVec 256
  keyDigest : BitVec 256
  signature : List Byte
  deriving DecidableEq, Repr

/-- A firmware image as the host stages it (R303): the header with its signature, and the body. -/
structure FwImage where
  magic : Word
  version : Word
  length : Nat
  digest : BitVec 256
  sig : List Byte
  body : List Byte
  deriving DecidableEq, Repr

/-- What agents outside the instruction stream do that no row of the opcode table names: the host's staging of
firmware (R321), the firmware's migration of a page (R286) and its trap records (R298), the I3C bus (R322), the
device's own scan instructions (R328), and a single error corrected on a read (R287). -/
inductive Deed
  | stageFirmware (f : FwImage)
  | trackPage (q va : Nat)
  | copyPage (q va new : Nat)
  | movePage (q va new : Nat)
  | trapRecord (core : Nat)
  | i3cWrite (off : Nat) (l : List Byte)
  | scan
  | correctedError
  deriving DecidableEq, Repr

/-- The instruction of the test port (R328). -/
inductive Jtag | bypass | idcode | sample | extest
  deriving DecidableEq, Repr

/-- The package (R258, R270, R271). `dieStop` lists the vaults that stop their die; `inbox` the ports whose set notice is
to be applied at the next latch; `stale` the ports that have gone down with their notice held, until firmware releases it. -/
structure Thermal where
  period : Nat
  vaults : List (Nat × Vault)
  coolFor : Nat
  slow : Bool
  own : Bool
  dieStop : List Nat
  held : BitVec 16
  inbox : List Nat
  group : BitVec 16
  peerUp : BitVec 16
  sent : List (Nat × Bool)
  stale : BitVec 16 := 0
  deriving DecidableEq, Repr

/-- Who issues the instruction in hand: a member of a slot; slot 64 is the handler (R79). -/
structure Cur where
  core : Nat
  slot : Nat
  mem : Nat
  deriving DecidableEq, Repr

/-- What the next step does: an event of the opcode table, an issue on a slice (R250), or an outside deed. -/
inductive Act
  | ev (i : Instr)
  | issue (core slice : Nat)
  | deed (d : Deed)
  deriving DecidableEq, Repr

/-- One entry of the agenda: core cycles that pass first, then the act. -/
structure Move where
  dt : Nat
  act : Act
  deriving DecidableEq, Repr

/-- The device. `agenda`, `cur`, `ctr` and `seq` are the model's own: what comes next and when, who issues,
the counter that the free values are applied to, and the order of issue. `dropped` counts the stores
dropped at each port that is down (R301); `staging` is the space for staged stores, in bytes, that firmware has
reserved (R252, R255), and `corrected` counts the single errors corrected (R287). -/
structure State where
  now : Nat
  phase : Nat
  bootErr : Nat
  clMask : Word
  worn : Word
  live : List Nat
  devId : Dword
  cert : List Byte
  mreg0 : BitVec 256
  mreg1 : BitVec 256
  leaf : Nat
  nonce : List Byte
  attStatus : Nat
  attReply : Option AttReply
  jtag : Jtag
  mem : List Host.Cell
  hdrs : List (Nat × Word)
  badMem : List Nat
  cores : List (Nat × Core)
  clTlbs : List (Nat × List TlbEntry)
  shoots : Nat
  queues : List (Nat × Queue)
  lastQ : Nat
  grids : List Grid
  nextGrid : Nat
  colonies : List Colony
  updates : List TagReq
  frozen : List TagReq
  place : PlaceParams
  thermal : Thermal
  weights : List Nat
  vmin : List Nat
  handlerEntry : List (Nat × Nat)
  acc : List (Target × List AccEntry)
  irqs : List Irq
  dropped : List (Nat × Nat)
  agenda : List Move
  cur : Option Cur
  ctr : Nat
  seq : Nat
  staged : Option FwImage := none
  keyDigest : BitVec 256 := 0
  rollback : Nat := 0
  debugFuse : Bool := false
  staging : Nat := 0
  corrected : Nat := 0
  deriving DecidableEq, Repr

/-- The reasons the machine stops. -/
inductive Fault
  /-- Raised by `exec` of an encoded instruction when no member issues it (`cur` is none or names nothing).
  Safe: the device issues no instruction without an issuing member. -/
  | noIssuer
  deriving DecidableEq, Repr

/-- The reasons an instruction is refused. -/
inductive Refusal
  /-- Raised by an arm of `exec` whose instruction has no meaning yet. Safe: nothing is claimed of it. -/
  | notModelled (mnemonic : String)
  deriving DecidableEq, Repr

/-- Energy weights and parameters the spec gives reset values for (R242, R261). -/
def vminReset : List Nat := [55, 57, 59, 60, 62, 64, 65, 67, 69, 70, 72, 74, 75]

def placeReset : PlaceParams :=
  { rot := List.range 30, ht := (List.range 8).map (16 * ·), ks := 192, ke := 48, kd := 24, floor := 75, rw := 1500 }

def monReset : MonFig := { min := 0xFFFFFFFF, max := 0, bins := List.replicate 16 0 }

def sliceReset : SliceClk :=
  { ratio := 16, want := 16, origin := 0, edges := 0, issued := 0, memStall := 0, lastIssue := none,
    stall := 0x1000#32 }

def powerReset : Power :=
  { vset := 75, guard := 0, boost := false, seq := 0, code := 0, todo := [], slices := List.replicate 8 sliceReset,
    newG := none, dead := false }

def engineReset : Engine :=
  { holder := none, requests := [], drainTo := 0, lastOp := none, busySince := none, lastClass := none,
    waitBoost := false, slowUntil := 0, replays := 0 }

/-- A fibre as an initial fibre of a colony starts (R6, R69; the zeros are the log's). -/
def fibreReset : Fibre :=
  { fid := 0xFFFFFFFF, preds := 0, regs := [], frames := [], baseT := 0xFFFFFFFF, baseE := 0xFFFFFFFF, forks := 0,
    done := false, owed := false }

/-- The handler slot as formed: 64 lanes, window 64, every register 0 (R275; the zeros are the log's). -/
def handlerSlot : Slot :=
  { grid := 0, col := 0, rank := 0, slice := 0, win := 64, form := 0,
    lanes := (List.range 64).map fun l => (l, fibreReset), sregs := [], fmode := 0,
    fflags := 0, prio := 0, cychi := 0, latch := monReset,
    members := [{ id := 0, mask := BitVec.allOnes 64, pc := 0, st := .waiti, fam := 0, ent := none, last := 0,
                  since := 0, y := false, len := 0, src := 0 }],
    fams := [], nextId := 1, late := [], copies := [], mtx := [], posts := 0, kids := [], xs := [],
    lease := ⟨none, none⟩, due := [], badRegs := [], last := 0, stopped := false }

def handlerReset : Handler :=
  { slot := handlerSlot, service := none, saved := false, pending := [], tcause := 0, tpc := 0,
    tpchi := 0, tmask := 0, tmaskhi := 0, taddrlo := 0, taddrhi := 0, tinfo := 0, fault := none }

def coreReset : Core :=
  { slots := [], waiting := [], bins := [], tiles := [], allocs := [], spad := [], spadHdr := [], badSpad := [],
    tlb := [], icache := [], marks := 0, serialise := false, engine := engineReset, handler := handlerReset,
    monSel := 0, mon := monReset, power := powerReset, restoring := [] }

def queueReset : Queue :=
  { prio := 0, cres := 0, freason := 0, st := .disabled, outcome := .disabled, logN := 4, ring := 0, head := 0,
    tail := 0, root := 0, fq := 0, logF := 4, fqTail := 0, fqHead := 0, sdir := 0, sreg := 0, sregSz := 0, seq := 0,
    nextFault := 1, served := [], det := false, debug := false, lease := false, vbw := 0, cby := 0, bint := 512,
    vbwUsed := 0, cbyUsed := 0, parse := .idle, copies := [] }

def thermalReset : Thermal :=
  { period := 0, vaults := [], coolFor := 0, slow := false, own := false, dieStop := [], held := 0, inbox := [],
    group := 0, peerUp := 0, sent := [] }

/-- The device right after power-on or a module reset (R321: phase 1). -/
def State.reset : State :=
  { now := 0, phase := 1, bootErr := 0, clMask := 0x3FFFFFFF#32, worn := 0, live := [], devId := 0, cert := [],
    mreg0 := 0, mreg1 := 0, leaf := 0, nonce := [], attStatus := 0, attReply := none, jtag := .idcode,
    mem := [], hdrs := [], badMem := [], cores := [], clTlbs := [], shoots := 0, queues := [], lastQ := 63,
    grids := [], nextGrid := 0, colonies := [], updates := [], frozen := [], place := placeReset,
    thermal := thermalReset, weights := List.replicate 16 0, vmin := vminReset,
    handlerEntry := [], acc := [], irqs := [], dropped := [], agenda := [], cur := none, ctr := 0, seq := 0 }

end Sys2Proof.Machine
end

