-- ==== Sys2Proof/WellFormed.lean ====
section
/-! DEFINITION. Well-formed instructions: the operands and modifiers the encodings of R35 to R52 and of
the instruction chapters admit. Events carry no encoding and are not well-formed as instruction words. -/

namespace Sys2Proof

/-- The never-true guard (R48). -/
def Hdr.never (h : Hdr) : Bool := h.pg == 7 && h.pn

/-- A header with one of the allowed lengths, no never-true guard, and S only where allowed. -/
def Hdr.ok (h : Hdr) (lens : List (BitVec 2)) (scalar : Bool) : Bool :=
  lens.contains h.len && !h.never && (scalar || !h.sc)

/-- A source that cannot be a literal (A, C, or B of a 64-bit-only form). -/
def Src.okReg (h : Hdr) : Src → Bool
  | .v _ => !h.sc
  | .s _ => true
  | .lit _ => false

/-- Operand B of an opcode whose word 2 has role B: the literal exactly in the 96-bit form (R38). -/
def Src.okB (h : Hdr) : Src → Bool
  | .v _ => h.len == 1 && !h.sc
  | .s _ => h.len == 1
  | .lit _ => h.len == 2

/-- A pair operand names an even register (R42). -/
def Src.even : Src → Bool
  | .v n => n.getLsbD 0 == false
  | .s n => n.getLsbD 0 == false
  | .lit _ => true

/-- A destination register: nine bits only in the scalar form (R42, R43). -/
def okD (h : Hdr) (d : BitVec 9) : Bool := h.sc || !d.msb

/-- An even first register of a pair. -/
def evenD (d : BitVec 9) : Bool := d.getLsbD 0 == false
def evenV (d : BitVec 8) : Bool := d.getLsbD 0 == false

/-- A memory operand (R46): an even base unless it is a scratchpad one, an offset register, and no
displacement in the 64-bit form. -/
def MemOpd.ok (h : Hdr) (spad : Bool) (m : MemOpd) : Bool :=
  m.base.okReg h && (spad || m.base.even) &&
  (match m.off with | none => true | some o => o.okReg h) && (h.len != 1 || m.disp == 0)

def Fmt.code : Fmt → BitVec 4
  | .fp32 => 0 | .bf16 => 1 | .fp16 => 2 | .e4m3 => 3 | .e5m2 => 4
  | .e2m1 => 5 | .int8 => 6 | .uint8 => 7 | .int4 => 8 | .int32 => 9

/-- A floating format: a source code of R126, 0 to 5. -/
def Fmt.isFloat (f : Fmt) : Bool := f.code.ult 6

def Ordk.ok : Ordk → Bool
  | .weak => true
  | .strong s => s != .fibre
  | .sync s => s != .fibre

/-- The pairs of operand formats of the matrix engine (R208). -/
def mmaPair (fa fb : Fmt) : Bool :=
  let f8 := fun f => f == Fmt.e4m3 || f == Fmt.e5m2
  let f16 := fun f => f == Fmt.bf16 || f == Fmt.fp16
  let i8 := fun f => f == Fmt.int8 || f == Fmt.uint8
  (f8 fa && f8 fb) || (f16 fa && f16 fb) || (fa == .e2m1 && fb == .e2m1) || (i8 fa && i8 fb)

/-- The integer pairs give an INT32 accumulator (R208). -/
def mmaInt (fa : Fmt) : Bool := fa == .int8 || fa == .uint8

/-- T = 5 needs an even register, T = 6 a multiple of 4 (R165, R166). -/
def LdT.okD (t : LdT) (d : BitVec 9) : Bool :=
  match t with
  | .b64 => d.getLsbD 0 == false
  | .b128 => d.getLsbD 0 == false && d.getLsbD 1 == false
  | _ => true

def StT.okD (t : StT) (d : BitVec 9) : Bool :=
  match t with
  | .b64 => d.getLsbD 0 == false
  | .b128 => d.getLsbD 0 == false && d.getLsbD 1 == false
  | .commit g f _ => g.code.ult 5 && f.isFloat
  | _ => true

/-- A `.t` store is weak or a release (R166). -/
def okTick (tick : Bool) : Ordk → Bool
  | .strong _ => !tick
  | _ => true

/-- A limit operand of VCALL and VPEEK is a register (R70). -/
def Src.isReg : Src → Bool
  | .lit _ => false
  | _ => true

def AtOp.ok (o : AtOp) (w64 post : Bool) : Bool :=
  match o with
  | .fadd => !w64
  | .exch => !post
  | .cas => !post
  | _ => true

def atomOk (h : Hdr) (o : AtOp) (w64 post : Bool) (sc : Scope) (d : BitVec 9) (b : Src) (m : MemOpd)
    (spad : Bool) : Bool :=
  h.ok [1, 2] true && m.ok h spad && m.off == none && o.ok w64 post && sc != .fibre && okD h d &&
  b.okReg h && (!w64 || (evenD d && b.even)) && (!post || d == 0)

/-- Every operand and modifier of an encoded instruction is one its encoding admits. -/
def Instr.wf : Instr → Bool
  | .nop h => h.len == 0 && !h.sc
  | .nopLong h => h.len != 0 && !h.sc
  | .bra h _ off => h.ok [2] false && off.getLsbD 0 == false && off.getLsbD 1 == false
  | .brx h _ a => h.ok [1] false && a.okReg h && a.even
  | .call h _ d off => h.ok [2] false && evenV d && off.getLsbD 0 == false && off.getLsbD 1 == false
  | .callx h _ d a => h.ok [1] false && evenV d && a.okReg h && a.even
  | .ret h _ a => h.ok [1] false && a.okReg h && a.even
  | .rcv h => h.ok [0] false
  | .fork h _ t _ => h.ok [1, 2] false &&
      (match t with
       | .off w => h.len == 2 && w.getLsbD 0 == false && w.getLsbD 1 == false
       | .pair a => h.len == 1 && a.okReg h && a.even)
  | .endf h => h.ok [0] false
  | .sleep h m _ t => h.ok [1, 2] false && m.ok h false && t.ule 20
  | .barWait h _ c => h.ok [1, 2] false && cntOk h c
  | .barPass h _ c => h.ok [1, 2] false && cntOk h c
  | .vcall h t _ _ l1 l2 => h.ok [3] false && evenD t && l1.isReg && l2.isReg
  | .vret h => h.ok [0] false
  | .vqual h q => h.ok [1, 2] false && q.okB h
  | .vpeek h _ t _ _ l1 l2 => h.ok [3] false && evenD t && l1.isReg && l2.isReg
  | .vbud h _ x => h.ok [1, 2] false && x.okB h
  | .launch h m arg => h.ok [3] false && m.ok h false &&
      (match arg with | none => true | some a => a.isReg && a.even)
  | .lwait h _ => h.ok [0] false
  | .brk h _ => h.ok [0] false
  | .trap h _ => h.ok [0] false
  | .eret h => h.ok [0] false
  | .prio h x => h.ok [1, 2] false && x.okB h && (match x with | .v _ => false | _ => true)
  | .csrr h d _ => h.ok [2] true && okD h d
  | .csrw h a _ => h.ok [2] true && a.okReg h && (match a with | .s _ => h.sc | _ => true)
  | .tlbiVa h m => h.ok [1, 2] false && m.ok h false
  | .tlbiAs h => h.ok [1, 2] false
  | .tlbiAll h => h.ok [1, 2] false
  | .savec h m => h.ok [1, 2] false && m.ok h false
  | .rstc h m => h.ok [1, 2] false && m.ok h false
  | .waiti h => h.ok [0] false
  | .iadd h d a b f => h.ok [1, 2] true && okD h d && a.okReg h && b.okB h && addOk h f
  | .isub h d a b f => h.ok [1, 2] true && okD h d && a.okReg h && b.okB h && addOk h f
  | .imul h d a b => ab h d a b
  | .imulh h d a b _ => ab h d a b
  | .imad h d a b c => ab h d a b && c.okReg h
  | .imadw h d a b c _ => ab h d a b && c.okReg h && evenD d && c.even
  | .imin h d a b _ => ab h d a b
  | .imax h d a b _ => ab h d a b
  | .iabs h d a _ => a1 h d a
  | .ineg h d a _ => a1 h d a
  | .isetp h _ _ a b _ _ => h.ok [1, 2] true && a.okReg h && b.okB h
  | .iset h d a b _ _ => ab h d a b
  | .shl h d a b => ab h d a b
  | .shr h d a b => ab h d a b
  | .sar h d a b => ab h d a b
  | .rol h d a b => ab h d a b
  | .and h d a b => ab h d a b
  | .or h d a b => ab h d a b
  | .xor h d a b => ab h d a b
  | .not h d a => a1 h d a
  | .lop3 h d a b c _ => ab h d a b && c.okReg h
  | .bperm h d a c b => ab h d a b && c.okReg h
  | .bfx h d a b _ => ab h d a b
  | .bfi h d a b c => ab h d a b && c.okReg h
  | .popc h d a => a1 h d a
  | .clz h d a => a1 h d a
  | .brev h d a => a1 h d a
  | .sel h d a b _ => ab h d a b
  | .mov h d a => a1 h d a
  | .movl h d _ => h.ok [2] true && okD h d
  | .lea h d a b _ _ _ => ab h d a b && evenD d && a.even
  | .iadd64 h d a b _ u => ab h d a b && evenD d && a.even && b.even && (!u || h.len == 2)
  | .icmp64 h _ _ a b _ _ => h.ok [1, 2] true && a.okReg h && b.okB h && a.even && b.even
  | .pget h d => h.ok [1] true && okD h d
  | .pset h a b => h.ok [1] true && a.okReg h && b.okReg h
  | .plop h _ _ _ _ _ => h.ok [1] true
  | .fadd h d a b _ _ _ => ab h d a b
  | .fsub h d a b _ _ _ => ab h d a b
  | .fmul h d a b _ _ _ => ab h d a b
  | .ffma h d a b c _ _ _ _ => ab h d a b && c.okReg h
  | .fmin h d a b _ _ => ab h d a b
  | .fmax h d a b _ _ => ab h d a b
  | .fcmp h _ _ a b _ _ _ => h.ok [1, 2] true && a.okReg h && b.okB h
  | .fclass h d a f => a1 h d a && f.isFloat
  | .frnd h d a _ _ => a1 h d a
  | .fscale h d a b _ _ => ab h d a b
  | .flogb h d a => a1 h d a
  | .rcp h d a _ _ => a1 h d a
  | .rsq h d a _ _ => a1 h d a
  | .sqrt h d a _ _ => a1 h d a
  | .ex2 h d a _ => a1 h d a
  | .lg2 h d a _ => a1 h d a
  | .sin h d a _ => a1 h d a
  | .cos h d a _ => a1 h d a
  | .tanh h d a _ => a1 h d a
  | .cvt h d a g f => a1 h d a && g.isFloat && f.isFloat
  | .f2i h d a _ f _ => a1 h d a && f.isFloat
  | .i2f h d a k _ => a1 h d a && (k == .s32 || k == .u32 || a.even)
  | .fin h d a g f _ => a1 h d a && g.isFloat && f.isFloat
  | .pack h _ _ g f _ _ sp => h.ok [1] false && f.isFloat && (!sp || g == .e2m1)
  | .unpk h _ _ _ _ => h.ok [1] false
  | .stkr h d a => a1 h d a
  | .stkw h d a f => a1 h d a && (match f with | .bit b => b.okReg h | _ => true)
  | .shfl h _ a _ n _ => h.ok [1, 2] false && a.okReg h &&
      (match n with | .opd b => b.okB h | .wrel r => h.len == 1 && r != 0)
  | .shflb h _ a l _ => h.ok [1, 2] false && a.okReg h &&
      (match l with | .lane b => b.okB h && (match b with | .v _ => false | _ => true) | .lo => h.len == 1)
  | .shflp h _ a b _ => h.ok [1] false && a.okReg h && b.okReg h
  | .vote h f _ => h.ok [1] false && (match f with | .mask d => evenV d | _ => true)
  | .redx h _ a o rm _ => h.ok [1] false && a.okReg h && (o == .fadd || rm == .fmode)
  | .scanx h _ a o rm _ _ => h.ok [1] false && a.okReg h && (o == .fadd || rm == .fmode)
  | .gath h _ _ b _ _ => h.ok [1] false && b.okReg h
  | .rebal h d a b _ => h.ok [1] false && evenV d && a.okReg h && b.okReg h
  | .matchx h f a _ => h.ok [1] false && a.okReg h && (match f with | .mask d => evenV d | _ => true)
  | .ld h t o d m => h.ok [1, 2] true && okD h d && t.okD d && o.ok && m.ok h false
  | .st h t k o d m => h.ok [1, 2] true && okD h d && t.okD d && o.ok && m.ok h false && okTick k o
  | .lds h t o d m => h.ok [1, 2] true && okD h d && t.okD d && o.ok && m.ok h true
  | .sts h t o d m => h.ok [1, 2] true && okD h d && t.okD d && o.ok && m.ok h true
  | .ldb h _ spad o _ m => h.ok [1, 2] false && o.ok && m.ok h spad
  | .stb h f spad o _ m => h.ok [1, 2] false && o.ok && m.ok h spad &&
      (match f with | .block g f _ _ sp => f.isFloat && (!sp || g == .e2m1) | .frag => true)
  | .atom h o w64 _ post sc d b m => atomOk h o w64 post sc d b m false
  | .atoms h o w64 _ post sc d b m => atomOk h o w64 post sc d b m true
  | .fence h _ => h.ok [0] false
  | .fenco h sc => h.ok [0] false && (sc == .colony || sc == .cluster || sc == .device)
  | .fencr h sc => h.ok [0] false && (sc == .colony || sc == .cluster || sc == .device)
  | .spill h _ spad _ m => h.ok [1, 2] false && m.ok h spad
  | .fill h _ spad _ m => h.ok [1, 2] false && m.ok h spad
  | .cpyG2s h _ m n => h.ok [1, 2] false && m.ok h false && m.off == none && n.isReg
  | .cpyS2g h _ m n => h.ok [1, 2] false && m.ok h false && m.off == none && n.isReg
  | .cpyt h _ b _ _ _ => h.ok [3] false && evenD b
  | .waitc h _ _ => h.ok [0] false
  | .tset h _ _ x => h.ok [1, 2] false && x.okB h && (match x with | .v _ => false | _ => true)
  | .trel h _ => h.ok [0] false
  | .trel64 h _ => h.ok [1] false
  | .tstat h _ _ => h.ok [1] false
  | .ldtFrag h _ _ b => h.ok [1, 2] false && b.okB h
  | .ldtWord h _ _ b => h.ok [1, 2] false && b.okB h
  | .pref h _ m => h.ok [1, 2] false && m.ok h false
  | .cctlIc h m => h.ok [1, 2] false && m.ok h false
  | .cctlInv h m => h.ok [1, 2] false && m.ok h false
  | .mma h _ _ _ fa fb rm _ => h.ok [3] false && mmaPair fa fb && (!mmaInt fa || rm == .fmode)
  | .mmad h _ _ _ _ fa fb rm _ => h.ok [3] false && mmaPair fa fb && (!mmaInt fa || rm == .fmode)
  | .mcvt h _ _ g i32 _ _ sp hi vh => h.ok [3] false && g != .fp32 && g != .int32 && (!sp || g == .e2m1) &&
      (!hi || g == .bf16 || g == .fp16) && (!i32 || g == .int8 || g == .uint8 || g == .int4) &&
      (vh == none || g == .e2m1 || g == .int4)
  | .mzero h _ => h.ok [1] false
  | .msclAdd h _ b => h.ok [1, 2] false && b.okB h
  | .msclSet h _ b => h.ok [1, 2] false && b.okB h
  | .mlease h => h.ok [0] false
  | .mfree h => h.ok [0] false
  | .storeBufferSerialise _ | .lateResultReturn _ _ _ | .parkEnd _ _ _ | .swarmResidency _
  | .familyRelease _ _ _ | .slotRetire _ _ | .binTimerExpiry _ _ | .binLaunchNoAdd _ _
  | .gridComplete _ | .doneAddition _ | .childCountOut _ _ | .variantDispatch _ _ _
  | .vcallMerge _ _ _ | .vretFramePop _ _ _ | .tagUpdate _ | .copyRetire _ _ _ | .tileReady _ _
  | .tileDrainEmpty _ _ | .tileFree _ _ | .postedAtomicRetire _ _ | .matrixOpRetire _ _ _
  | .leaseGrant _ | .matrixBoostAck _ | .matrixBoostRemove _ | .rampDownFiller _ _
  | .sleepRecheck _ _ _ | .sleepTimeout _ _ _ | .handlerStart _ | .colonyRestore _ _ _
  | .tlbShootdown _ | .placementDecision | .controlPeriodLatch _ _ _ | .peerNotice _ _
  | .clkreqWrite _ _ | .railChangeDone _ | .sliceClockSwitch _ _ | .ageingMeasure _ _ | .kick _ _
  | .packetRetry _ | .pktNop _ | .pktLaunch _ | .pktFence _ | .fenceCountersPass _ | .pktSignal _
  | .pktCopy _ | .vtabFreeze _ | .vtabThaw _ | .vtabReset _ | .pktMode _ | .qcmdEnable _
  | .qcmdPreempt _ | .qcmdResume _ | .qcmdDiscard _ | .qcmdDisable _ | .fserv _ _ | .fqhead _ _
  | .registerWrite _ _ | .hostAccess _ | .peerAccess _ _ | .peerPortDown _ | .attestationRequest _
  | .powerOnReset | .dramTrainingDone _ | .firmwareVerify _ | .firmwareLoadDone _ | .bypass
  | .idcode | .samplePreload | .extest _ | .peerPortUp _ | .noticeRelease _ | .firmwareEvent _
  | .copyPacketDone _ | .railsUp | .powerLoss => false
where
  ab (h : Hdr) (d : BitVec 9) (a b : Src) : Bool := h.ok [1, 2] true && okD h d && a.okReg h && b.okB h
  a1 (h : Hdr) (d : BitVec 9) (a : Src) : Bool := h.ok [1] true && okD h d && a.okReg h
  addOk (h : Hdr) : AddForm → Bool
    | .plain _ _ => true
    | .cc _ => h.len == 1
  cntOk (h : Hdr) : Cnt → Bool
    | .allLive => h.len == 1
    | .reg _ => h.len == 1
    | .lit _ => h.len == 2

end Sys2Proof
end

