-- ==== Sys2Proof/Machine/Flags.lean ====
section
/-! DEFINITION. The flags of FFLAGS (R81) and the rounding modes (R80, R100, R126). -/

namespace Sys2Proof.Machine

/-- A set of FFLAGS bits (R81). -/
abbrev Fl := BitVec 6

def fNV : Fl := 1
def fDZ : Fl := 2
def fOF : Fl := 4
def fUF : Fl := 8
def fNX : Fl := 16
def fDR : Fl := 32

/-- A flag raised on a condition. -/
def flIf (b : Bool) (f : Fl) : Fl := if b then f else 0

/-- The rounding modes of FMODE.RM (R80). -/
inductive Mode | ne | tz | dn | up | na
  deriving DecidableEq, Repr

/-- FMODE.RM; 5 to 7 cannot be written (R78). -/
def Mode.of (n : BitVec 3) : Mode :=
  match n.toNat with
  | 1 => .tz | 2 => .dn | 3 => .up | 4 => .na
  | _ => .ne

/-- The mode a modifier names: FMODE's, or its own (R100, R126). -/
def modeOf (fmode : BitVec 3) : RMod → Mode
  | .fmode => .of fmode
  | .rn => .ne | .rz => .tz | .rd => .dn | .ru => .up | .ra => .na

/-- Rounding away from zero takes place: `half` compares what is cut off with half a step (R100). -/
def Mode.bump (m : Mode) (neg odd exact : Bool) (half : Ordering) : Bool :=
  !exact && (match m with
    | .ne => half == .gt || (half == .eq && odd)
    | .na => half == .gt || half == .eq
    | .tz => false
    | .up => !neg
    | .dn => neg)

end Sys2Proof.Machine
end

