-- ==== Sys2Proof/Decode.lean ====
section
/-! DEFINITION. The decoder (R35 to R52 and the encoding rows of the instruction chapters), total on any
bytes and rejecting by the reason codes of R50, and the encoder. Both go through `Raw`, the fields of the
frame of R36 to R38. -/

namespace Sys2Proof

/-- The fields of words 0 to 3 (R36, R37, R38). Fields of absent words are zero. -/
structure Raw where
  len : BitVec 2 := 0
  y : Bool := false
  pg : BitVec 3 := 0
  pn : Bool := false
  op : BitVec 8 := 0
  s : Bool := false
  d8 : BitVec 8 := 0
  a8 : BitVec 8 := 0
  b9 : BitVec 9 := 0
  c9 : BitVec 9 := 0
  ka : Bool := false
  kb : Bool := false
  kc : Bool := false
  dh : Bool := false
  ah : Bool := false
  sub : BitVec 5 := 0
  mod : BitVec 4 := 0
  w2 : Word := 0
  w3 : Word := 0
  deriving DecidableEq, Repr

/-- Word 0 (R36). -/
def Raw.word0 (r : Raw) : Word :=
  r.a8 ++ r.d8 ++ BitVec.ofBool r.s ++ r.op ++ BitVec.ofBool r.pn ++ r.pg ++ BitVec.ofBool r.y ++ r.len

/-- Word 1 (R37). -/
def Raw.word1 (r : Raw) : Word :=
  r.mod ++ r.sub ++ BitVec.ofBool r.ah ++ BitVec.ofBool r.dh ++ BitVec.ofBool r.kc ++ BitVec.ofBool r.kb ++
    BitVec.ofBool r.ka ++ r.c9 ++ r.b9

/-- The words of an instruction, as many as LEN says (R35, R36). -/
def Raw.words (r : Raw) : List Word :=
  match r.len.toNat with
  | 0 => [r.word0]
  | 1 => [r.word0, r.word1]
  | 2 => [r.word0, r.word1, r.w2]
  | _ => [r.word0, r.word1, r.w2, r.w3]

/-- The fields of four words; words beyond LEN read as zero (R37). -/
def Raw.ofWords (x0 x1 x2 x3 : Word) : Raw :=
  let len := x0.extractLsb' 0 2
  let v1 := if len = 0 then 0#32 else x1
  { len := len, y := x0.getLsbD 2, pg := x0.extractLsb' 3 3, pn := x0.getLsbD 6,
    op := x0.extractLsb' 7 8, s := x0.getLsbD 15, d8 := x0.extractLsb' 16 8, a8 := x0.extractLsb' 24 8,
    b9 := v1.extractLsb' 0 9, c9 := v1.extractLsb' 9 9, ka := v1.getLsbD 18, kb := v1.getLsbD 19,
    kc := v1.getLsbD 20, dh := v1.getLsbD 21, ah := v1.getLsbD 22, sub := v1.extractLsb' 23 5,
    mod := v1.extractLsb' 28 4,
    w2 := if len = 2 ∨ len = 3 then x2 else 0, w3 := if len = 3 then x3 else 0 }

/-- The legal lengths of a major opcode, as LEN codes; none for an unassigned one (R52). -/
def opLens (op : Nat) : List (BitVec 2) :=
  match op with
  | 0x00 => [0, 1, 2, 3]
  | 0x01 | 0x03 => [2]
  | 0x02 | 0x04 | 0x05 => [1]
  | 0x06 | 0x08 | 0x0C | 0x11 | 0x12 | 0x13 | 0x14 => [0]
  | 0x07 | 0x09 | 0x0A | 0x0D | 0x0F | 0x15 => [1, 2]
  | 0x0B | 0x0E | 0x10 => [3]
  | 0xF0 | 0xF1 => [2]
  | 0xF2 | 0xF3 | 0xF4 => [1, 2]
  | 0xF5 => [0]
  | 0x28 | 0x29 | 0x33 | 0x38 | 0x39 | 0x3A | 0x3C | 0x41 | 0x42 | 0x43 => [1]
  | 0x3D => [2]
  | 0x20 | 0x21 | 0x22 | 0x23 | 0x24 | 0x25 | 0x26 | 0x27 | 0x2A | 0x2B | 0x2C | 0x2D | 0x2E | 0x2F
  | 0x30 | 0x31 | 0x32 | 0x34 | 0x35 | 0x36 | 0x37 | 0x3B | 0x3E | 0x3F | 0x40 => [1, 2]
  | 0x60 | 0x61 | 0x62 | 0x63 | 0x64 | 0x65 | 0x66 | 0x69 => [1, 2]
  | 0x67 | 0x68 | 0x6A | 0x6B | 0x6C | 0x6D | 0x6E | 0x6F | 0x70 | 0x71 | 0x72 | 0x73 | 0x74 | 0x75
  | 0x76 | 0x77 | 0x78 | 0x79 | 0x7A => [1]
  | 0x90 | 0x91 => [1, 2]
  | 0x92 | 0x93 | 0x94 | 0x95 | 0x96 | 0x97 | 0x98 => [1]
  | 0xB0 | 0xB1 | 0xB2 | 0xB3 | 0xB4 | 0xB5 | 0xB6 | 0xB7 | 0xBB | 0xBC | 0xBD => [1, 2]
  | 0xB8 | 0xB9 | 0xBA | 0xBF => [0]
  | 0xBE => [3]
  | 0xC0 | 0xC3 | 0xC4 | 0xC5 => [1, 2]
  | 0xC1 => [0, 1]
  | 0xC2 => [1]
  | 0xE0 | 0xE1 | 0xE2 => [3]
  | 0xE3 => [1]
  | 0xE4 => [1, 2]
  | 0xE5 | 0xE6 => [0]
  | _ => []

/-- The opcodes whose S column reads "yes" (R52). -/
def opScalar (op : Nat) : Bool :=
  op == 0xF0 || op == 0xF1 || (0x20 ≤ op && op ≤ 0x43) || (0x60 ≤ op && op ≤ 0x7A && op != 0x77 && op != 0x78) ||
  op == 0xB0 || op == 0xB1 || op == 0xB2 || op == 0xB3 || op == 0xB6 || op == 0xB7

/-- A decoding: an instruction, or the ILL reason of R50 that refuses it. -/
abbrev Dec := Except Nat Instr

/-- One check of R50: the reason when it fails. -/
def chk (c : Bool) (e : Nat) (k : Dec) : Dec := if c then k else .error e

/-- A checked field: the reason when it holds no value. -/
def opt {α : Type} (x : Option α) (e : Nat) (k : α → Dec) : Dec :=
  match x with
  | some a => k a
  | none => .error e

def Raw.hdr (r : Raw) : Hdr := ⟨r.len, r.y, r.pg, r.pn, r.s⟩

-- step 5: which fields hold what (R42, R43)
def Raw.a0 (r : Raw) : Bool := r.a8 == 0 && !r.ah && !r.ka
def Raw.b0 (r : Raw) : Bool := r.b9 == 0 && !r.kb
def Raw.c0 (r : Raw) : Bool := r.c9 == 0 && !r.kc
def Raw.d0 (r : Raw) : Bool := r.d8 == 0 && !r.dh
def Raw.aR (r : Raw) : Bool := if r.s then !r.ka else r.ka || !r.ah
def Raw.bReg (r : Raw) : Bool := if r.s then !r.kb else r.kb || !r.b9.msb
def Raw.bR (r : Raw) : Bool := if r.len == 2 then r.b0 else r.bReg
def Raw.cR (r : Raw) : Bool := if r.s then !r.kc else r.kc || !r.c9.msb
def Raw.dR (r : Raw) : Bool := r.s || !r.dh
def Raw.dP (r : Raw) : Bool := r.d8.extractLsb' 3 5 == 0 && !r.dh
def Raw.dP2 (r : Raw) : Bool := !r.d8.getLsbD 3 && !r.d8.getLsbD 7 && !r.dh
def Raw.dV (r : Raw) : Bool := !r.dh
def Raw.aV (r : Raw) : Bool := !r.ka && !r.ah
def Raw.aP (r : Raw) : Bool := r.a8.extractLsb' 4 4 == 0 && !r.ah && !r.ka
def Raw.bP (r : Raw) : Bool := r.b9.extractLsb' 4 5 == 0 && !r.kb
def Raw.cP (r : Raw) : Bool := r.c9.extractLsb' 4 5 == 0 && !r.kc
/-- A memory operand in A, B, C bit 8 and word 2 (R46); C bits 7..0 are the opcode's own. -/
def Raw.mOk (r : Raw) : Bool := r.aR && !r.kc && (if r.c9.msb then r.bReg else r.b0)
/-- C bits 7..0 are zero. -/
def Raw.cLow0 (r : Raw) : Bool := r.c9.extractLsb' 0 8 == 0

def Raw.a9 (r : Raw) : BitVec 9 := BitVec.ofBool r.ah ++ r.a8
def Raw.d9 (r : Raw) : BitVec 9 := BitVec.ofBool r.dh ++ r.d8
def Raw.srcA (r : Raw) : Src := if r.s || r.ka then .s r.a9 else .v r.a8
def Raw.srcBReg (r : Raw) : Src := if r.s || r.kb then .s r.b9 else .v (r.b9.extractLsb' 0 8)
def Raw.srcB (r : Raw) : Src := if r.len == 2 then .lit r.w2 else r.srcBReg
def Raw.srcC (r : Raw) : Src := if r.s || r.kc then .s r.c9 else .v (r.c9.extractLsb' 0 8)
def Raw.pA (r : Raw) : PSrc := ⟨r.a8.extractLsb' 0 3, r.a8.getLsbD 3⟩
def Raw.pB (r : Raw) : PSrc := ⟨r.b9.extractLsb' 0 3, r.b9.getLsbD 3⟩
def Raw.pC (r : Raw) : PSrc := ⟨r.c9.extractLsb' 0 3, r.c9.getLsbD 3⟩
def Raw.pd (r : Raw) : BitVec 3 := r.d8.extractLsb' 0 3
def Raw.pq (r : Raw) : BitVec 3 := r.d8.extractLsb' 4 3
def Raw.mem (r : Raw) : MemOpd := ⟨r.srcA, if r.c9.msb then some r.srcBReg else none, r.w2⟩

def RMod.code : RMod → BitVec 3
  | .fmode => 0 | .rn => 1 | .rz => 2 | .rd => 3 | .ru => 4 | .ra => 5

def RMod.of (c : BitVec 3) : Option RMod :=
  match c.toNat with
  | 0 => some .fmode | 1 => some .rn | 2 => some .rz | 3 => some .rd | 4 => some .ru | 5 => some .ra
  | _ => none

def Fmt.of (c : BitVec 4) : Option Fmt :=
  match c.toNat with
  | 0 => some .fp32 | 1 => some .bf16 | 2 => some .fp16 | 3 => some .e4m3 | 4 => some .e5m2
  | 5 => some .e2m1 | 6 => some .int8 | 7 => some .uint8 | 8 => some .int4 | 9 => some .int32
  | _ => none

/-- A source format: codes 0 to 5 (R126). -/
def Fmt.ofSrc (c : BitVec 3) : Option Fmt := if c.ult 6 then Fmt.of (c.setWidth 4) else none

/-- A target format held in SUB, codes 0 to 5, SUB bit 4 zero (R127, R130). -/
def Fmt.ofSub (c : BitVec 5) : Option Fmt := if c.ult 6 then Fmt.of (c.setWidth 4) else none

def Scope.code : Scope → BitVec 3
  | .fibre => 0 | .swarm => 1 | .colony => 2 | .cluster => 3 | .device => 4 | .system => 5

def Scope.of (c : BitVec 3) : Option Scope :=
  match c.toNat with
  | 0 => some .fibre | 1 => some .swarm | 2 => some .colony | 3 => some .cluster | 4 => some .device
  | 5 => some .system
  | _ => none

/-- The ordering kinds of R160. -/
def Ordk.code : Ordk → BitVec 4
  | .weak => 0
  | .strong s => 0#1 ++ s.code
  | .sync s => 1#1 ++ s.code

def Ordk.of (m : BitVec 4) : Option Ordk :=
  if m == 0 then some .weak
  else match Scope.of (m.extractLsb' 0 3) with
    | some .fibre => none
    | some s => some (if m.msb then .sync s else .strong s)
    | none => none

def Cond.code : Cond → BitVec 5
  | .eq => 0 | .ne => 1 | .lt => 2 | .le => 3 | .gt => 4 | .ge => 5

def Cond.of (c : BitVec 5) : Option Cond :=
  match c.toNat with
  | 0 => some .eq | 1 => some .ne | 2 => some .lt | 3 => some .le | 4 => some .gt | 5 => some .ge
  | _ => none

def FCond.code : FCond → BitVec 4
  | .eq => 0 | .ne => 1 | .lt => 2 | .le => 3 | .gt => 4 | .ge => 5 | .un => 6 | .ord => 7

def FCond.of (c : BitVec 4) : Option FCond :=
  match c.toNat with
  | 0 => some .eq | 1 => some .ne | 2 => some .lt | 3 => some .le | 4 => some .gt | 5 => some .ge
  | 6 => some .un | 7 => some .ord
  | _ => none

def ROp.code : ROp → BitVec 5
  | .fadd => 0 | .fmin => 1 | .fmax => 2 | .iadd => 3 | .imin => 4 | .imax => 5 | .umin => 6 | .umax => 7
  | .and => 8 | .or => 9 | .xor => 10

def ROp.of (c : BitVec 5) : Option ROp :=
  match c.toNat with
  | 0 => some .fadd | 1 => some .fmin | 2 => some .fmax | 3 => some .iadd | 4 => some .imin | 5 => some .imax
  | 6 => some .umin | 7 => some .umax | 8 => some .and | 9 => some .or | 10 => some .xor
  | _ => none

def ShMode.code : ShMode → BitVec 5
  | .at => 0 | .back => 1 | .fwd => 2 | .flip => 3 | .rot => 4

def ShMode.of (c : BitVec 5) : Option ShMode :=
  match c.toNat with
  | 0 => some .at | 1 => some .back | 2 => some .fwd | 3 => some .flip | 4 => some .rot
  | _ => none

def LdT.code : LdT → BitVec 5
  | .b32 => 0 | .u8 => 1 | .s8 => 2 | .u16 => 3 | .s16 => 4 | .b64 => 5 | .b128 => 6 | .bf16 => 7 | .fp16 => 8
  | .e4m3 => 9 | .e5m2 => 10

def LdT.of (c : BitVec 5) : Option LdT :=
  match c.toNat with
  | 0 => some .b32 | 1 => some .u8 | 2 => some .s8 | 3 => some .u16 | 4 => some .s16 | 5 => some .b64
  | 6 => some .b128 | 7 => some .bf16 | 8 => some .fp16 | 9 => some .e4m3 | 10 => some .e5m2
  | _ => none

def AtOp.code : AtOp → BitVec 5
  | .add => 0 | .fadd => 1 | .min => 2 | .max => 3 | .umin => 4 | .umax => 5 | .and => 6 | .or => 7 | .xor => 8
  | .exch => 9 | .cas => 10

def AtOp.of (c : BitVec 5) : Option AtOp :=
  match c.toNat with
  | 0 => some .add | 1 => some .fadd | 2 => some .min | 3 => some .max | 4 => some .umin | 5 => some .umax
  | 6 => some .and | 7 => some .or | 8 => some .xor | 9 => some .exch | 10 => some .cas
  | _ => none

def EngClass.code : EngClass → BitVec 2
  | .copy => 0 | .mtx => 1 | .post => 2 | .child => 3

def EngClass.of (c : BitVec 2) : EngClass :=
  match c.toNat with
  | 0 => .copy | 1 => .mtx | 2 => .post | _ => .child

def IKind.code : IKind → BitVec 5
  | .s32 => 0 | .u32 => 1 | .s64 => 2 | .u64 => 3

def IKind.of (c : BitVec 5) : Option IKind :=
  match c.toNat with
  | 0 => some .s32 | 1 => some .u32 | 2 => some .s64 | 3 => some .u64
  | _ => none

def VMode.code : VMode → BitVec 4
  | .tq => 1 | .eq => 2 | .te => 3

def VMode.of (m : BitVec 4) : Option VMode :=
  match m.toNat with
  | 1 => some .tq | 2 => some .eq | 3 => some .te
  | _ => none

/-- The stored type of ST and STS: T in SUB bits 3..0, F and the rounding modifier in C (R166). -/
def StT.of (t : BitVec 4) (f : BitVec 3) (m : BitVec 3) : Option StT :=
  match t.toNat with
  | 0 => some .b32 | 1 => some .b8 | 2 => some .b16 | 3 => some .b64 | 4 => some .b128
  | n + 5 => match Fmt.of (BitVec.ofNat 4 n), Fmt.ofSrc f, RMod.of m with
    | some g, some f, some m => if n < 5 then some (.commit g f m) else none
    | _, _, _ => none

def StT.code : StT → BitVec 4
  | .b32 => 0 | .b8 => 1 | .b16 => 2 | .b64 => 3 | .b128 => 4
  | .commit g _ _ => g.code + 5

/-- Operand modifiers of a and b (R136). -/
def Raw.ma (r : Raw) : OMod := ⟨r.sub.getLsbD 0, r.sub.getLsbD 1⟩
def Raw.mb (r : Raw) : OMod := ⟨r.sub.getLsbD 2, r.sub.getLsbD 3⟩
def Raw.mlow (r : Raw) : BitVec 3 := r.mod.extractLsb' 0 3
/-- The truth table of LOP3 and PLOP (R118, R125). -/
def Raw.table (r : Raw) : BitVec 8 := r.mod ++ r.sub.extractLsb' 0 4
def Raw.sm0 (r : Raw) : Bool := r.sub == 0 && r.mod == 0
/-- C bits 8..3 and KC zero: the source format F in C bits 2..0 (R126). -/
def Raw.cF (r : Raw) : Bool := r.c9.extractLsb' 3 6 == 0 && !r.kc
def Raw.srcF (r : Raw) : Option Fmt := Fmt.ofSrc (r.c9.extractLsb' 0 3)
/-- A tile operand in A (R180). -/
def Raw.tile (r : Raw) : TileSel := if r.ka then .reg r.a9 else .imm r.a8
def Raw.tileOk (r : Raw) : Bool := r.ka || !r.ah

/-- Control and system opcodes (R53 to R85). -/
def Raw.decCtl (r : Raw) : Dec :=
  let h := r.hdr
  let sc := !r.s
  let al (w : Word) : Bool := !w.getLsbD 0 && !w.getLsbD 1
  let vm := VMode.of r.mod
  let lim (n : BitVec 9) (k : Bool) : Src := if k then .s n else .v (n.extractLsb' 0 8)
  let k1 := r.w3.getLsbD 9
  let l1 := r.w3.extractLsb' 0 9
  let k2 := r.w3.getLsbD 19
  let l2 := r.w3.extractLsb' 10 9
  let limOk := (k1 || !l1.msb) && (k2 || !l2.msb) && r.w3.extractLsb' 20 12 == 0
  match r.op.toNat with
  | 0x00 => chk (r.a0 && r.b0 && r.c0 && r.d0 && r.sm0 && r.w2 == 0 && r.w3 == 0) 3 <| chk sc 5 <|
      .ok (if r.len == 0 then .nop h else .nopLong h)
  | 0x01 => chk (r.a0 && r.b0 && r.c0 && r.d0 && al r.w2) 3 <| chk sc 5 <|
      chk (r.sub == 0 && r.mod.extractLsb' 1 3 == 0) 6 <| .ok (.bra h (r.mod.getLsbD 0) r.w2)
  | 0x02 => chk (r.aR && r.b0 && r.c0 && r.d0) 3 <| chk sc 5 <|
      chk (r.sub == 0 && r.mod.extractLsb' 1 3 == 0) 6 <| chk r.srcA.even 4 <| .ok (.brx h (r.mod.getLsbD 0) r.srcA)
  | 0x03 => chk (r.a0 && r.b0 && r.c0 && r.dV && al r.w2) 3 <| chk sc 5 <|
      chk (r.sub == 0 && r.mod.extractLsb' 1 3 == 0) 6 <| chk (evenV r.d8) 4 <|
      .ok (.call h (r.mod.getLsbD 0) r.d8 r.w2)
  | 0x04 => chk (r.aR && r.b0 && r.c0 && r.dV) 3 <| chk sc 5 <|
      chk (r.sub == 0 && r.mod.extractLsb' 1 3 == 0) 6 <| chk (evenV r.d8 && r.srcA.even) 4 <|
      .ok (.callx h (r.mod.getLsbD 0) r.d8 r.srcA)
  | 0x05 => chk (r.aR && r.b0 && r.c0 && r.d0) 3 <| chk sc 5 <|
      chk (r.sub == 0 && r.mod.extractLsb' 1 3 == 0) 6 <| chk r.srcA.even 4 <| .ok (.ret h (r.mod.getLsbD 0) r.srcA)
  | 0x06 => chk (r.a0 && r.d0) 3 <| chk sc 5 <| .ok (.rcv h)
  | 0x07 => chk (r.dP && r.b0 && !r.kc && !r.c9.msb && (if r.len == 2 then r.a0 && al r.w2 else r.aR)) 3 <|
      chk sc 5 <| chk r.sm0 6 <| chk (r.len == 2 || r.srcA.even) 4 <|
      .ok (.fork h r.pd (if r.len == 2 then .off r.w2 else .pair r.srcA) (r.c9.extractLsb' 0 8))
  | 0x08 => chk (r.a0 && r.d0) 3 <| chk sc 5 <| .ok (.endf h)
  | 0x09 => chk (r.mOk && r.dV && r.c9.extractLsb' 5 3 == 0 && (r.c9.extractLsb' 0 5).ule 20) 3 <| chk sc 5 <|
      chk r.sm0 6 <| chk r.srcA.even 4 <| .ok (.sleep h r.mem r.d8 (r.c9.extractLsb' 0 5))
  | 0x0A => chk (r.a0 && r.c0 && r.d8.extractLsb' 4 4 == 0 && !r.dh && (if r.len == 2 then r.b0 else r.kb || r.b9 == 0)) 3 <|
      chk sc 5 <| chk (r.sub.ult 2 && r.mod == 0) 6 <|
      let c : Cnt := if r.len == 2 then .lit r.w2 else if r.kb then .reg r.b9 else .allLive
      .ok (if r.sub == 0 then .barWait h (r.d8.extractLsb' 0 4) c else .barPass h (r.d8.extractLsb' 0 4) c)
  | 0x0B => chk (r.ka && r.b0 && r.c0 && r.d0 && limOk) 3 <| chk sc 5 <| chk (r.sub == 0) 6 <|
      opt vm 6 fun m => chk (evenD r.a9) 4 <| .ok (.vcall h r.a9 r.w2 m (lim l1 k1) (lim l2 k2))
  | 0x0C => chk (r.a0 && r.d0) 3 <| chk sc 5 <| .ok (.vret h)
  | 0x0D => chk (r.a0 && r.bR && r.c0 && r.d0) 3 <| chk sc 5 <| chk r.sm0 6 <| .ok (.vqual h r.srcB)
  | 0x0E => chk (r.ka && r.b0 && r.c0 && r.dV && limOk) 3 <| chk sc 5 <| chk (r.sub == 0) 6 <|
      opt vm 6 fun m => chk (evenD r.a9) 4 <| .ok (.vpeek h r.d8 r.a9 r.w2 m (lim l1 k1) (lim l2 k2))
  | 0x0F => chk (r.a0 && r.bR && r.c0 && r.d0) 3 <| chk sc 5 <| chk (r.sub == 0 && r.mod.extractLsb' 1 3 == 0) 6 <|
      .ok (.vbud h (r.mod.getLsbD 0) r.srcB)
  | 0x10 =>
      let av := r.w3.getLsbD 10
      chk (r.mOk && r.cLow0 && r.d0 && r.w3.extractLsb' 11 21 == 0 &&
        (if av then k1 || !l1.msb else r.w3.extractLsb' 0 10 == 0)) 3 <| chk sc 5 <| chk r.sm0 6 <|
      chk (r.srcA.even && (!av || (lim l1 k1).even)) 4 <| .ok (.launch h r.mem (if av then some (lim l1 k1) else none))
  | 0x11 => chk (r.a0 && r.d8.extractLsb' 6 2 == 0) 3 <| chk sc 5 <| .ok (.lwait h (r.d8.extractLsb' 0 6))
  | 0x12 => chk r.a0 3 <| chk sc 5 <| .ok (.brk h r.d8)
  | 0x13 => chk sc 5 <| .ok (.trap h (r.a8 ++ r.d8))
  | 0x14 => chk (r.a0 && r.d0) 3 <| chk sc 5 <| .ok (.eret h)
  | 0x15 => chk (r.a0 && r.c0 && r.d0 && (if r.len == 2 then r.b0 else r.kb)) 3 <| chk sc 5 <| chk r.sm0 6 <|
      .ok (.prio h (if r.len == 2 then .lit r.w2 else .s r.b9))
  | 0xF0 => chk (r.a0 && r.b0 && r.c0 && r.dR && r.w2.extractLsb' 12 20 == 0) 3 <| chk r.sm0 6 <|
      .ok (.csrr h r.d9 (r.w2.extractLsb' 0 12))
  | 0xF1 => chk ((if r.s then !r.ka else r.aV) && r.b0 && r.c0 && r.d0 && r.w2.extractLsb' 12 20 == 0) 3 <| chk r.sm0 6 <|
      .ok (.csrw h r.srcA (r.w2.extractLsb' 0 12))
  | 0xF2 => chk (r.d0 && r.cLow0 && (if r.sub == 1 || r.sub == 2 then r.a0 && r.b0 && r.c0 && r.w2 == 0 else r.mOk)) 3 <|
      chk sc 5 <| chk (r.sub.ult 3 && r.mod == 0) 6 <| chk (r.sub != 0 || r.srcA.even) 4 <|
      .ok (if r.sub == 0 then .tlbiVa h r.mem else if r.sub == 1 then .tlbiAs h else .tlbiAll h)
  | 0xF3 => chk (r.d0 && r.cLow0 && r.mOk) 3 <| chk sc 5 <| chk r.sm0 6 <| chk r.srcA.even 4 <| .ok (.savec h r.mem)
  | 0xF4 => chk (r.d0 && r.cLow0 && r.mOk) 3 <| chk sc 5 <| chk r.sm0 6 <| chk r.srcA.even 4 <| .ok (.rstc h r.mem)
  | 0xF5 => chk (r.a0 && r.d0) 3 <| chk sc 5 <| .ok (.waiti h)
  | _ => .error 1

/-- Integer, logic and predicate opcodes (R113 to R125). -/
def Raw.decInt (r : Raw) : Dec :=
  let h := r.hdr
  let d := r.d9
  let a := r.srcA
  let b := r.srcB
  let c := r.srcC
  let u := r.mod.getLsbD 1
  let sat := r.mod.getLsbD 0
  let onlyU := r.mod &&& 0xD == 0
  let ab (ok : Bool) (k : Dec) : Dec := chk (r.aR && r.bR && r.c0 && r.dR) 3 <| chk ok 6 k
  let abc (ok : Bool) (k : Dec) : Dec := chk (r.aR && r.bR && r.cR && r.dR) 3 <| chk ok 6 k
  let a1 (ok : Bool) (k : Dec) : Dec := chk (r.aR && r.b0 && r.c0 && r.dR) 3 <| chk ok 6 k
  let addf (mk : AddForm → Instr) : Dec :=
    if r.sub == 1 then chk (r.aR && r.dR && r.len == 1 && r.bR && r.cP) 3 <| chk (r.mod == 0) 6 <| .ok (mk (.cc r.pC))
    else if r.sub == 0 then ab (r.mod.extractLsb' 2 2 == 0) <| .ok (mk (.plain sat u))
    else chk (r.aR && r.bR && r.cP && r.dR) 3 <| .error 6
  match r.op.toNat with
  | 0x20 => addf (.iadd h d a b)
  | 0x21 => addf (.isub h d a b)
  | 0x22 => ab r.sm0 <| .ok (.imul h d a b)
  | 0x23 => ab (r.sub == 0 && onlyU) <| .ok (.imulh h d a b u)
  | 0x24 => abc r.sm0 <| .ok (.imad h d a b c)
  | 0x25 => abc (r.sub == 0 && onlyU) <| chk (evenD d && c.even) 4 <| .ok (.imadw h d a b c u)
  | 0x26 => ab (r.sub == 0 && onlyU) <| .ok (.imin h d a b u)
  | 0x27 => ab (r.sub == 0 && onlyU) <| .ok (.imax h d a b u)
  | 0x28 => a1 (r.sub == 0 && r.mod.extractLsb' 1 3 == 0) <| .ok (.iabs h d a sat)
  | 0x29 => a1 (r.sub == 0 && r.mod.extractLsb' 1 3 == 0) <| .ok (.ineg h d a sat)
  | 0x2A => chk (r.aR && r.bR && r.c0 && r.dP2) 3 <| chk onlyU 6 <| opt (Cond.of r.sub) 6 fun k =>
      .ok (.isetp h r.pd r.pq a b k u)
  | 0x2B => ab onlyU <| opt (Cond.of r.sub) 6 fun k => .ok (.iset h d a b k u)
  | 0x2C => ab r.sm0 <| .ok (.shl h d a b)
  | 0x2D => ab r.sm0 <| .ok (.shr h d a b)
  | 0x2E => ab r.sm0 <| .ok (.sar h d a b)
  | 0x2F => ab r.sm0 <| .ok (.rol h d a b)
  | 0x30 => ab r.sm0 <| .ok (.and h d a b)
  | 0x31 => ab r.sm0 <| .ok (.or h d a b)
  | 0x32 => ab r.sm0 <| .ok (.xor h d a b)
  | 0x33 => a1 r.sm0 <| .ok (.not h d a)
  | 0x34 => abc (!r.sub.msb) <| .ok (.lop3 h d a b c r.table)
  | 0x35 => abc r.sm0 <| .ok (.bperm h d a c b)
  | 0x36 => ab (r.sub == 0 && r.mod.extractLsb' 1 3 == 0) <| .ok (.bfx h d a b sat)
  | 0x37 => abc r.sm0 <| .ok (.bfi h d a b c)
  | 0x38 => a1 r.sm0 <| .ok (.popc h d a)
  | 0x39 => a1 r.sm0 <| .ok (.clz h d a)
  | 0x3A => a1 r.sm0 <| .ok (.brev h d a)
  | 0x3B => chk (r.aR && r.bR && r.cP && r.dR) 3 <| chk r.sm0 6 <| .ok (.sel h d a b r.pC)
  | 0x3C => a1 r.sm0 <| .ok (.mov h d a)
  | 0x3D => chk (r.a0 && r.b0 && r.c0 && r.dR) 3 <| chk r.sm0 6 <| .ok (.movl h d r.w2)
  | 0x3E => ab (r.mod.extractLsb' 2 2 == 0) <| chk (evenD d && a.even) 4 <| .ok (.lea h d a b r.sub sat u)
  | 0x3F => ab (r.sub.ult 2 && onlyU && (!u || r.len == 2)) <| chk (evenD d && a.even && b.even) 4 <|
      .ok (.iadd64 h d a b (r.sub == 1) u)
  | 0x40 => chk (r.aR && r.bR && r.c0 && r.dP2) 3 <| chk onlyU 6 <| opt (Cond.of r.sub) 6 fun k =>
      chk (a.even && b.even) 4 <| .ok (.icmp64 h r.pd r.pq a b k u)
  | 0x41 => chk (r.a0 && r.b0 && r.c0 && r.dR) 3 <| chk r.sm0 6 <| .ok (.pget h d)
  | 0x42 => chk (r.aR && r.bReg && r.c0 && r.d0) 3 <| chk r.sm0 6 <| .ok (.pset h a r.srcBReg)
  | 0x43 => chk (r.aP && r.bP && r.cP && r.dP) 3 <| chk (!r.sub.msb) 6 <| .ok (.plop h r.pd r.pA r.pB r.pC r.table)
  | _ => .error 1

/-- Floating-point, conversion and sticky opcodes (R126 to R145). DEDUCED, log 113: A of PACK and UNPK names
the first register of a block of lanes, so its broadcast bit (KA) is refused with reason 3. -/
def Raw.decFlt (r : Raw) : Dec :=
  let h := r.hdr
  let d := r.d9
  let a := r.srcA
  let b := r.srcB
  let sc := !r.s
  let m3 := !r.mod.getLsbD 3
  let ab (ok : Bool) (k : Dec) : Dec := chk (r.aR && r.bR && r.c0 && r.dR) 3 <| chk ok 6 k
  let a1 (ok : Bool) (k : Dec) : Dec := chk (r.aR && r.b0 && r.c0 && r.dR) 3 <| chk ok 6 k
  let arith (mk : RMod → Instr) : Dec := ab (!r.sub.msb && m3) <| opt (RMod.of r.mlow) 6 fun m => .ok (mk m)
  let una (mk : RMod → Instr) : Dec := a1 (r.sub.extractLsb' 2 3 == 0 && m3) <| opt (RMod.of r.mlow) 6 fun m => .ok (mk m)
  let trans (mk : Instr) : Dec := a1 (r.sub.extractLsb' 2 3 == 0 && r.mod == 0) <| .ok mk
  let cf (k : Dec) : Dec := chk (r.aR && r.b0 && r.cF && r.dR) 3 k
  match r.op.toNat with
  | 0x60 => arith (.fadd h d a b r.ma r.mb)
  | 0x61 => arith (.fsub h d a b r.ma r.mb)
  | 0x62 => arith (.fmul h d a b r.ma r.mb)
  | 0x63 => chk (r.aR && r.bR && r.cR && r.dR) 3 <| opt (RMod.of r.mlow) 6 fun m =>
      .ok (.ffma h d a b r.srcC r.ma r.mb ⟨r.sub.getLsbD 4, r.mod.getLsbD 3⟩ m)
  | 0x64 => ab (!r.sub.msb && r.mod == 0) <| .ok (.fmin h d a b r.ma r.mb)
  | 0x65 => ab (!r.sub.msb && r.mod == 0) <| .ok (.fmax h d a b r.ma r.mb)
  | 0x66 => chk (r.aR && r.bR && r.c0 && r.dP2) 3 <| chk (!r.sub.msb) 6 <| opt (FCond.of r.mod) 6 fun k =>
      .ok (.fcmp h r.pd r.pq a b r.ma r.mb k)
  | 0x67 => cf <| chk r.sm0 6 <| opt r.srcF 6 fun f => .ok (.fclass h d a f)
  | 0x68 => una (.frnd h d a r.ma)
  | 0x69 => ab (r.sub.extractLsb' 2 3 == 0 && m3) <| opt (RMod.of r.mlow) 6 fun m => .ok (.fscale h d a b r.ma m)
  | 0x6A => a1 r.sm0 <| .ok (.flogb h d a)
  | 0x6B => una (.rcp h d a r.ma)
  | 0x6C => una (.rsq h d a r.ma)
  | 0x6D => una (.sqrt h d a r.ma)
  | 0x6E => trans (.ex2 h d a r.ma)
  | 0x6F => trans (.lg2 h d a r.ma)
  | 0x70 => trans (.sin h d a r.ma)
  | 0x71 => trans (.cos h d a r.ma)
  | 0x72 => trans (.tanh h d a r.ma)
  | 0x73 => cf <| chk (r.mod == 0) 6 <| opt (Fmt.ofSub r.sub) 6 fun g => opt r.srcF 6 fun f => .ok (.cvt h d a g f)
  | 0x74 => cf <| chk (r.sub.ult 2 && m3) 6 <| opt r.srcF 6 fun f => opt (RMod.of r.mlow) 6 fun m =>
      .ok (.f2i h d a (r.sub == 1) f m)
  | 0x75 => a1 m3 <| opt (IKind.of r.sub) 6 fun k => opt (RMod.of r.mlow) 6 fun m =>
      chk (k == .s32 || k == .u32 || a.even) 4 <| .ok (.i2f h d a k m)
  | 0x76 => cf <| chk m3 6 <| opt (Fmt.ofSub r.sub) 6 fun g => opt r.srcF 6 fun f => opt (RMod.of r.mlow) 6 fun m =>
      .ok (.fin h d a g f m)
  | 0x77 => chk (r.aV && r.b0 && r.cF && r.dV) 3 <| chk sc 5 <|
      opt (Fmt.of (r.sub.extractLsb' 0 4)) 6 fun g => opt r.srcF 6 fun f => opt (RMod.of r.mlow) 6 fun m =>
      chk (!r.sub.msb || g == .e2m1) 6 <| .ok (.pack h r.d8 r.a8 g f m (r.mod.getLsbD 3) r.sub.msb)
  | 0x78 => chk (r.aV && r.b0 && r.c0 && r.dV) 3 <| chk sc 5 <| chk (!r.sub.msb && r.mod.extractLsb' 1 3 == 0) 6 <|
      opt (Fmt.of (r.sub.extractLsb' 0 4)) 6 fun g => .ok (.unpk h r.d8 r.a8 g (r.mod.getLsbD 0))
  | 0x79 => a1 r.sm0 <| .ok (.stkr h d a)
  | 0x7A => chk (r.aR && r.c0 && r.dR && (if r.sub == 1 || r.sub == 2 then r.b0 else r.bReg)) 3 <|
      chk (r.sub.ult 3 && r.mod == 0) 6 <|
      .ok (.stkw h d a (if r.sub == 0 then .bit r.srcBReg else if r.sub == 1 then .clr else .set))
  | _ => .error 1

/-- Cross-lane opcodes (R146 to R156). DEDUCED, log 114: the 96-bit form of `shflb.lo`, which R149 has in
64 bits only, is refused with reason 3. -/
def Raw.decXl (r : Raw) : Dec :=
  let h := r.hdr
  let a := r.srcA
  let sc := !r.s
  let p := r.pC
  let m3 := !r.mod.getLsbD 3
  match r.op.toNat with
  | 0x90 => chk (r.aR && r.cP && r.dV && (if r.mlow == 0 then r.bR else r.len == 1 && r.b0)) 3 <| chk sc 5 <| chk m3 6 <|
      opt (ShMode.of r.sub) 6 fun m => .ok (.shfl h r.d8 a m (if r.mlow == 0 then .opd r.srcB else .wrel r.mlow) p)
  | 0x91 => chk (r.aR && r.cP && r.dV && (if r.sub == 1 then r.len == 1 && r.b0 else if r.len == 2 then r.b0 else r.sub != 0 || r.kb)) 3 <|
      chk sc 5 <| chk (r.sub.ult 2 && r.mod == 0) 6 <|
      .ok (.shflb h r.d8 a (if r.sub == 1 then .lo else .lane r.srcB) p)
  | 0x92 => chk (r.aR && r.bReg && r.cP && r.dV) 3 <| chk sc 5 <| chk r.sm0 6 <| .ok (.shflp h r.d8 a r.srcBReg p)
  | 0x93 => chk (r.aP && r.b0 && r.c0 && (if r.sub.ult 3 then r.dP else r.dV)) 3 <| chk sc 5 <|
      chk (r.sub.ult 4 && r.mod == 0) 6 <| chk (r.sub != 3 || evenV r.d8) 4 <|
      .ok (.vote h (if r.sub == 0 then .every r.pd else if r.sub == 1 then .some r.pd else if r.sub == 2 then .same r.pd
        else .mask r.d8) r.pA)
  | 0x94 => chk (r.aR && r.b0 && r.cP && r.dV) 3 <| chk sc 5 <| chk m3 6 <| opt (ROp.of r.sub) 6 fun o =>
      opt (RMod.of r.mlow) 6 fun m => chk (o == .fadd || m == .fmode) 6 <| .ok (.redx h r.d8 a o m p)
  | 0x95 => chk (r.aR && r.b0 && r.cP && r.dV) 3 <| chk sc 5 <| opt (ROp.of r.sub) 6 fun o =>
      opt (RMod.of r.mlow) 6 fun m => chk (o == .fadd || m == .fmode) 6 <|
      .ok (.scanx h r.d8 a o m (r.mod.getLsbD 3) p)
  | 0x96 => chk (r.aV && r.bReg && r.cP && r.dV) 3 <| chk sc 5 <| chk (!r.sub.msb && r.mod == 0) 6 <|
      .ok (.gath h r.d8 r.a8 r.srcBReg (r.sub.extractLsb' 0 4) p)
  | 0x97 => chk (r.aR && r.bReg && r.cP && r.dV) 3 <| chk sc 5 <| chk r.sm0 6 <| chk (evenV r.d8) 4 <|
      .ok (.rebal h r.d8 a r.srcBReg p)
  | 0x98 => chk (r.aR && r.b0 && r.cP && (if r.sub == 1 then r.dP else r.dV)) 3 <| chk sc 5 <|
      chk (r.sub.ult 2 && r.mod == 0) 6 <| chk (r.sub == 1 || evenV r.d8) 4 <|
      .ok (.matchx h (if r.sub == 1 then .one r.pd else .mask r.d8) a p)
  | _ => .error 1

/-- Memory and engine opcodes (R158 to R183). -/
def Raw.decMem (r : Raw) : Dec :=
  let h := r.hdr
  let sc := !r.s
  let m := r.mem
  let spadBit := r.c9.getLsbD 7
  let evenB := m.base.even
  let noOff := !r.c9.msb
  let load (spad : Bool) : Dec := chk (r.mOk && r.cLow0 && r.dR) 3 <| opt (LdT.of r.sub) 6 fun t =>
    opt (Ordk.of r.mod) 6 fun o => chk ((spad || evenB) && t.okD r.d9) 4 <|
    .ok (if spad then .lds h t o r.d9 m else .ld h t o r.d9 m)
  let store (spad : Bool) : Dec :=
    chk (r.mOk && r.c9.extractLsb' 6 2 == 0 && r.dR && (!spad || !r.sub.msb) &&
      (!(r.sub.extractLsb' 0 4).ult 5 || r.c9.extractLsb' 0 6 == 0)) 3 <|
    opt (StT.of (r.sub.extractLsb' 0 4) (r.c9.extractLsb' 0 3) (r.c9.extractLsb' 3 3)) 6 fun t =>
    opt (Ordk.of r.mod) 6 fun o => chk (okTick r.sub.msb o) 6 <| chk ((spad || evenB) && t.okD r.d9) 4 <|
    .ok (if spad then .sts h t o r.d9 m else .st h t r.sub.msb o r.d9 m)
  let atomic (spad : Bool) : Dec :=
    let w64 := r.c9.getLsbD 1
    let post := r.c9.getLsbD 0
    chk (r.aR && r.bReg && !r.kc && noOff && r.c9.extractLsb' 2 6 == 0 && (if post then r.d0 else r.dR)) 3 <|
    opt (AtOp.of r.sub) 6 fun o => opt (Scope.of r.mlow) 6 fun s => chk (s != .fibre && o.ok w64 post) 6 <|
    chk ((spad || evenB) && (!w64 || (evenD r.d9 && r.srcBReg.even))) 4 <|
    let mo : MemOpd := ⟨r.srcA, none, r.w2⟩
    .ok (if spad then .atoms h o w64 (r.mod.getLsbD 3) post s r.d9 r.srcBReg mo
      else .atom h o w64 (r.mod.getLsbD 3) post s r.d9 r.srcBReg mo)
  let fnc (mk : Scope → Instr) (all : Bool) : Dec := chk (r.a8 == 0 && r.d8.extractLsb' 3 5 == 0) 3 <|
    opt (Scope.of (r.d8.extractLsb' 0 3)) 3 fun s => chk (all || s == .colony || s == .cluster || s == .device) 3 <|
    chk sc 5 <| .ok (mk s)
  match r.op.toNat with
  | 0xB0 => load false
  | 0xB1 => store false
  | 0xB2 => load true
  | 0xB3 => store true
  | 0xB4 => chk (r.mOk && r.c9.extractLsb' 0 7 == 0 && r.dV) 3 <| chk sc 5 <| opt (Ordk.of r.mod) 6 fun o =>
      if r.sub == 15 then chk (spadBit || evenB) 4 <| .ok (.ldb h none spadBit o r.d8 m)
      else chk (!r.sub.msb) 6 <| opt (Fmt.of (r.sub.extractLsb' 0 4)) 6 fun g => chk (spadBit || evenB) 4 <|
        .ok (.ldb h (some g) spadBit o r.d8 m)
  | 0xB5 =>
      if r.sub == 15 then chk (r.mOk && r.c9.extractLsb' 0 7 == 0 && r.dV) 3 <| chk sc 5 <| opt (Ordk.of r.mod) 6 fun o =>
        chk (spadBit || evenB) 4 <| .ok (.stb h .frag spadBit o r.d8 m)
      else chk (r.mOk && r.dV) 3 <| chk sc 5 <| opt (Ordk.of r.mod) 6 fun o =>
        opt (Fmt.of (r.sub.extractLsb' 0 4)) 6 fun g => opt r.srcF 6 fun f => opt (RMod.of (r.c9.extractLsb' 3 3)) 6 fun rm =>
        chk (!r.sub.msb || g == .e2m1) 6 <| chk (spadBit || evenB) 4 <|
        .ok (.stb h (.block g f rm (r.c9.getLsbD 6) r.sub.msb) spadBit o r.d8 m)
  | 0xB6 => atomic false
  | 0xB7 => atomic true
  | 0xB8 => fnc (.fence h) true
  | 0xB9 => fnc (.fenco h) false
  | 0xBA => fnc (.fencr h) false
  | 0xBB => chk (r.mOk && r.c9.extractLsb' 0 7 == 0 && r.dV) 3 <| chk sc 5 <| chk (r.mod == 0) 6 <|
      chk (spadBit || evenB) 4 <| .ok (.spill h r.sub spadBit r.d8 m)
  | 0xBC => chk (r.mOk && r.c9.extractLsb' 0 7 == 0 && r.dV) 3 <| chk sc 5 <| chk (r.mod == 0) 6 <|
      chk (spadBit || evenB) 4 <| .ok (.fill h r.sub spadBit r.d8 m)
  | 0xBD => chk (r.aR && r.bReg && r.c0 && r.dV) 3 <| chk sc 5 <| chk (r.sub.ult 2 && r.mod == 0) 6 <| chk evenB 4 <|
      let mo : MemOpd := ⟨r.srcA, none, r.w2⟩
      .ok (if r.sub == 0 then .cpyG2s h r.d8 mo r.srcBReg else .cpyS2g h r.d8 mo r.srcBReg)
  | 0xBE => chk (r.ka && r.c0 && r.d0 && (r.kb || r.b9 == 0) && r.w3.extractLsb' 18 14 == 0) 3 <| chk sc 5 <| chk r.sm0 6 <|
      chk (evenD r.a9) 4 <|
      .ok (.cpyt h (r.w3.extractLsb' 0 8) r.a9 r.w2 (if r.kb then some r.b9 else none) (r.w3.extractLsb' 8 10))
  | 0xBF => chk (r.d8.extractLsb' 2 6 == 0 && r.a8.extractLsb' 6 2 == 0) 3 <| chk sc 5 <|
      .ok (.waitc h (EngClass.of (r.d8.extractLsb' 0 2)) (r.a8.extractLsb' 0 6))
  | 0xC0 => chk (r.ka && r.c0 && !r.dh && (if r.len == 2 then r.b0 else r.kb)) 3 <| chk sc 5 <| chk r.sm0 6 <|
      .ok (.tset h r.d8 r.a9 (if r.len == 2 then .lit r.w2 else .s r.b9))
  | 0xC1 => if r.len == 0 then chk (r.d8 == 0) 3 <| chk sc 5 <| .ok (.trel h r.a8)
      else chk (r.tileOk && r.b0 && r.c0 && r.d0) 3 <| chk sc 5 <| chk r.sm0 6 <| .ok (.trel64 h r.tile)
  | 0xC2 => chk (r.tileOk && r.b0 && r.c0 && r.dV) 3 <| chk sc 5 <| chk r.sm0 6 <| .ok (.tstat h r.d8 r.tile)
  | 0xC3 => chk (r.tileOk && r.bR && r.c0 && r.dV) 3 <| chk sc 5 <| chk (r.sub.ult 2 && r.mod == 0) 6 <|
      .ok (if r.sub == 0 then .ldtFrag h r.d8 r.tile r.srcB else .ldtWord h r.d8 r.tile r.srcB)
  | 0xC4 => chk (r.mOk && r.cLow0 && r.d0) 3 <| chk sc 5 <| chk (r.sub.ult 2 && r.mod == 0) 6 <| chk evenB 4 <|
      .ok (.pref h (r.sub == 1) m)
  | 0xC5 => chk (r.mOk && r.cLow0 && r.d0) 3 <| chk sc 5 <| chk (r.sub.ult 2 && r.mod == 0) 6 <| chk evenB 4 <|
      .ok (if r.sub == 0 then .cctlIc h m else .cctlInv h m)
  | _ => .error 1

/-- Matrix opcodes (R205 to R220, checks of R212). DEDUCED, log 87: SUB and MOD of MZERO are fields that it leaves
unused (R217), so a nonzero one is reason 3. -/
def Raw.decMtx (r : Raw) : Dec :=
  let h := r.hdr
  let sc := !r.s
  let k0 := !r.ka && !r.kb && !r.kc && !r.ah && !r.dh
  let b8 := r.b9.extractLsb' 0 8
  let m3 := !r.mod.getLsbD 3
  let pair (mk : Fmt → Fmt → RMod → Instr) : Dec := chk (r.sub == 0 && m3) 6 <|
    opt (Fmt.of (r.w3.extractLsb' 0 4)) 6 fun fa => opt (Fmt.of (r.w3.extractLsb' 4 4)) 6 fun fb =>
    opt (RMod.of r.mlow) 6 fun m => chk (mmaPair fa fb && (!mmaInt fa || m == .fmode)) 6 <| .ok (mk fa fb m)
  match r.op.toNat with
  | 0xE0 => chk (k0 && r.c9 == 0 && !r.b9.msb && r.w2 == 0 && r.w3.extractLsb' 9 23 == 0) 3 <| chk sc 5 <|
      pair fun fa fb m => .mma h r.d8 r.a8 b8 fa fb m (r.w3.getLsbD 8)
  | 0xE1 => chk (k0 && !r.c9.msb && !r.b9.msb && r.w2 == 0 && r.w3.extractLsb' 9 23 == 0) 3 <| chk sc 5 <|
      pair fun fa fb m => .mmad h r.d8 (r.c9.extractLsb' 0 8) r.a8 b8 fa fb m (r.w3.getLsbD 8)
  | 0xE2 =>
      let he := r.w3.getLsbD 8
      let vh := r.w3.extractLsb' 0 8
      let g := Fmt.of (r.sub.extractLsb' 0 4)
      let wide := g == some .e2m1 || g == some .int4
      let half := g == some .bf16 || g == some .fp16
      chk (k0 && r.c9 == 0 && r.b9 == 0 && r.w2 == 0 && r.w3.extractLsb' 11 21 == 0 && (he || vh == 0) && (!he || wide) &&
        (!r.w3.getLsbD 9 || half)) 3 <| chk sc 5 <| opt g 6 fun g => opt (RMod.of r.mlow) 6 fun m =>
      chk (g != .fp32 && g != .int32 && (!r.sub.msb || g == .e2m1) &&
        (!r.w3.getLsbD 10 || g == .int8 || g == .uint8 || g == .int4)) 6 <|
      .ok (.mcvt h r.d8 r.a8 g (r.w3.getLsbD 10) m (r.mod.getLsbD 3) r.sub.msb (r.w3.getLsbD 9) (if he then some vh else none))
  | 0xE3 => chk (r.a0 && r.b0 && r.c0 && r.dV && r.sm0) 3 <| chk sc 5 <| .ok (.mzero h r.d8)
  | 0xE4 => chk (r.a0 && r.bR && r.c0 && r.dV) 3 <| chk sc 5 <| chk (r.sub.ult 2 && r.mod == 0) 6 <|
      .ok (if r.sub == 0 then .msclAdd h r.d8 r.srcB else .msclSet h r.d8 r.srcB)
  | 0xE5 => chk (r.a0 && r.d0) 3 <| chk sc 5 <| .ok (.mlease h)
  | 0xE6 => chk (r.a0 && r.d0) 3 <| chk sc 5 <| .ok (.mfree h)
  | _ => .error 1

/-- The decoder on fields: steps 2 to 8 of R50. An instruction with the never-true guard is its NOP of
the same length (R48). For an opcode without scalar form the fields are judged as in the vector form. -/
def Raw.decode (r : Raw) : Dec :=
  let op := r.op.toNat
  chk (opLens op != []) 1 <| chk ((opLens op).contains r.len) 2 <|
  if r.pg == 7 && r.pn then
    let h : Hdr := ⟨r.len, r.y, r.pg, r.pn, false⟩
    .ok (if r.len == 0 then .nop h else .nopLong h)
  else
    if opScalar op || !r.s then pick op r
    else match pick op { r with s := false } with
      | .error 3 => .error 3
      | _ => .error 5
where
  pick (op : Nat) (r : Raw) : Dec :=
    if op < 0x20 then r.decCtl
    else if op < 0x60 then r.decInt
    else if op < 0x90 then r.decFlt
    else if op < 0xB0 then r.decXl
    else if op < 0xE0 then r.decMem
    else if op < 0xF0 then r.decMtx
    else r.decCtl

/-- Bytes of memory to a word, little-endian (R3). -/
def leWord (b0 b1 b2 b3 : Byte) : Word := b3 ++ b2 ++ b1 ++ b0

/-- A word's bytes, lowest address first (R3). -/
def wordBytes (w : Word) : List Byte :=
  [w.extractLsb' 0 8, w.extractLsb' 8 8, w.extractLsb' 16 8, w.extractLsb' 24 8]

/-- The first word of a byte list, and the rest; missing bytes read as zero. -/
def takeWord : List Byte → Word × List Byte
  | b0 :: b1 :: b2 :: b3 :: rest => (leWord b0 b1 b2 b3, rest)
  | l => (leWord (l.getD 0 0) (l.getD 1 0) (l.getD 2 0) (l.getD 3 0), [])

/-- The decoder on the bytes at an instruction's address, lowest first (R35). -/
def decodeBytes (l : List Byte) : Dec :=
  let (x0, l) := takeWord l
  let (x1, l) := takeWord l
  let (x2, l) := takeWord l
  let (x3, _) := takeWord l
  (Raw.ofWords x0 x1 x2 x3).decode

-- the encoder, written from the same encoding rows

/-- An empty frame of an opcode with a header. -/
def Raw.start (op : BitVec 8) (h : Hdr) : Raw :=
  { len := h.len, y := h.y, pg := h.pg, pn := h.pn, op := op, s := h.sc }

def Raw.setD (r : Raw) (d : BitVec 9) : Raw := { r with d8 := d.extractLsb' 0 8, dh := d.msb }
def Raw.setDv (r : Raw) (d : BitVec 8) : Raw := { r with d8 := d }
def Raw.setPd (r : Raw) (p : BitVec 3) : Raw := { r with d8 := 0#5 ++ p }
def Raw.setPd2 (r : Raw) (p q : BitVec 3) : Raw := { r with d8 := 0#1 ++ q ++ 0#1 ++ p }
def Raw.setA (r : Raw) : Src → Raw
  | .v n => { r with a8 := n }
  | .s n => { r with a8 := n.extractLsb' 0 8, ah := n.msb, ka := !r.s }
  | .lit _ => r
def Raw.setB (r : Raw) : Src → Raw
  | .v n => { r with b9 := 0#1 ++ n }
  | .s n => { r with b9 := n, kb := !r.s }
  | .lit w => { r with w2 := w }
def Raw.setC (r : Raw) : Src → Raw
  | .v n => { r with c9 := 0#1 ++ n }
  | .s n => { r with c9 := n, kc := !r.s }
  | .lit _ => r
def PSrc.code (p : PSrc) : BitVec 4 := BitVec.ofBool p.neg ++ p.p
def Raw.setPA (r : Raw) (p : PSrc) : Raw := { r with a8 := 0#4 ++ p.code }
def Raw.setPB (r : Raw) (p : PSrc) : Raw := { r with b9 := 0#5 ++ p.code }
def Raw.setPC (r : Raw) (p : PSrc) : Raw := { r with c9 := 0#5 ++ p.code }
/-- A memory operand; `low` is the opcode's own C bits 7..0 (R46). -/
def Raw.setM (r : Raw) (m : MemOpd) (low : BitVec 8) : Raw :=
  let r := (r.setA m.base)
  match m.off with
  | none => { r with c9 := 0#1 ++ low, w2 := m.disp }
  | some o => { r.setB o with c9 := 1#1 ++ low, w2 := m.disp }
def OMod.code (m : OMod) : BitVec 2 := BitVec.ofBool m.abs ++ BitVec.ofBool m.neg
def Raw.setT (r : Raw) (t : BitVec 8) : Raw := { r with mod := t.extractLsb' 4 4, sub := 0#1 ++ t.extractLsb' 0 4 }
def b1 (b : Bool) : BitVec 1 := BitVec.ofBool b
def Raw.setTile (r : Raw) : TileSel → Raw
  | .imm t => { r with a8 := t }
  | .reg n => { r with a8 := n.extractLsb' 0 8, ah := n.msb, ka := true }
def limBits : Src → BitVec 10
  | .v n => 0#2 ++ n
  | .s n => 1#1 ++ n
  | .lit _ => 0
def Raw.setU (r : Raw) (u : Bool) : Raw := { r with mod := 0#2 ++ b1 u ++ 0#1 }
def Raw.setFF (r : Raw) (f : Fmt) : Raw := { r with c9 := 0#5 ++ f.code }
def rmMod (rm : RMod) : BitVec 4 := 0#1 ++ rm.code

/-- The fields of an encoded instruction; none for an event. -/
def Instr.raw : Instr → Option Raw
  | .nop h => some (.start 0x00 h)
  | .nopLong h => some (.start 0x00 h)
  | .bra h u off => some { Raw.start 0x01 h with mod := 0#3 ++ b1 u, w2 := off }
  | .brx h u a => some { (Raw.start 0x02 h).setA a with mod := 0#3 ++ b1 u }
  | .call h u d off => some { (Raw.start 0x03 h).setDv d with mod := 0#3 ++ b1 u, w2 := off }
  | .callx h u d a => some { ((Raw.start 0x04 h).setDv d).setA a with mod := 0#3 ++ b1 u }
  | .ret h u a => some { (Raw.start 0x05 h).setA a with mod := 0#3 ++ b1 u }
  | .rcv h => some (.start 0x06 h)
  | .fork h pd t c =>
      let r := (Raw.start 0x07 h).setPd pd
      some (match t with
        | .off w => { r with w2 := w, c9 := 0#1 ++ c }
        | .pair a => { r.setA a with c9 := 0#1 ++ c })
  | .endf h => some (.start 0x08 h)
  | .sleep h m d t => some (((Raw.start 0x09 h).setDv d).setM m (0#3 ++ t))
  | .barWait h b c => some (cnt { Raw.start 0x0A h with d8 := 0#4 ++ b } c)
  | .barPass h b c => some (cnt { Raw.start 0x0A h with d8 := 0#4 ++ b, sub := 1 } c)
  | .vcall h t disp m l1 l2 => some { (Raw.start 0x0B h).setA (.s t) with
      w2 := disp, mod := m.code, w3 := 0#12 ++ limBits l2 ++ limBits l1 }
  | .vret h => some (.start 0x0C h)
  | .vqual h q => some ((Raw.start 0x0D h).setB q)
  | .vpeek h d t disp m l1 l2 => some { ((Raw.start 0x0E h).setDv d).setA (.s t) with
      w2 := disp, mod := m.code, w3 := 0#12 ++ limBits l2 ++ limBits l1 }
  | .vbud h e x => some { (Raw.start 0x0F h).setB x with mod := 0#3 ++ b1 e }
  | .launch h m arg => some { (Raw.start 0x10 h).setM m 0 with
      w3 := match arg with | none => 0 | some a => 0#21 ++ 1#1 ++ limBits a }
  | .lwait h n => some { Raw.start 0x11 h with d8 := 0#2 ++ n }
  | .brk h c => some { Raw.start 0x12 h with d8 := c }
  | .trap h c => some { Raw.start 0x13 h with d8 := c.extractLsb' 0 8, a8 := c.extractLsb' 8 8 }
  | .eret h => some (.start 0x14 h)
  | .prio h x => some ((Raw.start 0x15 h).setB x)
  | .csrr h d n => some { (Raw.start 0xF0 h).setD d with w2 := 0#20 ++ n }
  | .csrw h a n => some { (Raw.start 0xF1 h).setA a with w2 := 0#20 ++ n }
  | .tlbiVa h m => some ((Raw.start 0xF2 h).setM m 0)
  | .tlbiAs h => some { Raw.start 0xF2 h with sub := 1 }
  | .tlbiAll h => some { Raw.start 0xF2 h with sub := 2 }
  | .savec h m => some ((Raw.start 0xF3 h).setM m 0)
  | .rstc h m => some ((Raw.start 0xF4 h).setM m 0)
  | .waiti h => some (.start 0xF5 h)
  | .iadd h d a b f => some (addf (ab 0x20 h d a b) f)
  | .isub h d a b f => some (addf (ab 0x21 h d a b) f)
  | .imul h d a b => some (ab 0x22 h d a b)
  | .imulh h d a b u => some ((ab 0x23 h d a b).setU u)
  | .imad h d a b c => some ((ab 0x24 h d a b).setC c)
  | .imadw h d a b c u => some (((ab 0x25 h d a b).setC c).setU u)
  | .imin h d a b u => some ((ab 0x26 h d a b).setU u)
  | .imax h d a b u => some ((ab 0x27 h d a b).setU u)
  | .iabs h d a s => some { a1 0x28 h d a with mod := 0#3 ++ b1 s }
  | .ineg h d a s => some { a1 0x29 h d a with mod := 0#3 ++ b1 s }
  | .isetp h pd pq a b c u => some { ((((Raw.start 0x2A h).setPd2 pd pq).setA a).setB b).setU u with sub := c.code }
  | .iset h d a b c u => some { (ab 0x2B h d a b).setU u with sub := c.code }
  | .shl h d a b => some (ab 0x2C h d a b)
  | .shr h d a b => some (ab 0x2D h d a b)
  | .sar h d a b => some (ab 0x2E h d a b)
  | .rol h d a b => some (ab 0x2F h d a b)
  | .and h d a b => some (ab 0x30 h d a b)
  | .or h d a b => some (ab 0x31 h d a b)
  | .xor h d a b => some (ab 0x32 h d a b)
  | .not h d a => some (a1 0x33 h d a)
  | .lop3 h d a b c t => some (((ab 0x34 h d a b).setC c).setT t)
  | .bperm h d a c b => some ((ab 0x35 h d a b).setC c)
  | .bfx h d a b s => some { ab 0x36 h d a b with mod := 0#3 ++ b1 s }
  | .bfi h d a b c => some ((ab 0x37 h d a b).setC c)
  | .popc h d a => some (a1 0x38 h d a)
  | .clz h d a => some (a1 0x39 h d a)
  | .brev h d a => some (a1 0x3A h d a)
  | .sel h d a b p => some ((ab 0x3B h d a b).setPC p)
  | .mov h d a => some (a1 0x3C h d a)
  | .movl h d w => some { (Raw.start 0x3D h).setD d with w2 := w }
  | .lea h d a b sh u a52 => some { ab 0x3E h d a b with sub := sh, mod := 0#2 ++ b1 a52 ++ b1 u }
  | .iadd64 h d a b s u => some { (ab 0x3F h d a b).setU u with sub := 0#4 ++ b1 s }
  | .icmp64 h pd pq a b c u => some { ((((Raw.start 0x40 h).setPd2 pd pq).setA a).setB b).setU u with sub := c.code }
  | .pget h d => some ((Raw.start 0x41 h).setD d)
  | .pset h a b => some (((Raw.start 0x42 h).setA a).setB b)
  | .plop h pd pa pb pc t => some (((((Raw.start 0x43 h).setPd pd).setPA pa).setPB pb).setPC pc |>.setT t)
  | .fadd h d a b ma mb rm => some { ab 0x60 h d a b with sub := 0#1 ++ mb.code ++ ma.code, mod := rmMod rm }
  | .fsub h d a b ma mb rm => some { ab 0x61 h d a b with sub := 0#1 ++ mb.code ++ ma.code, mod := rmMod rm }
  | .fmul h d a b ma mb rm => some { ab 0x62 h d a b with sub := 0#1 ++ mb.code ++ ma.code, mod := rmMod rm }
  | .ffma h d a b c ma mb mc rm => some { (ab 0x63 h d a b).setC c with
      sub := b1 mc.neg ++ mb.code ++ ma.code, mod := b1 mc.abs ++ rm.code }
  | .fmin h d a b ma mb => some { ab 0x64 h d a b with sub := 0#1 ++ mb.code ++ ma.code }
  | .fmax h d a b ma mb => some { ab 0x65 h d a b with sub := 0#1 ++ mb.code ++ ma.code }
  | .fcmp h pd pq a b ma mb c => some { (((Raw.start 0x66 h).setPd2 pd pq).setA a).setB b with
      sub := 0#1 ++ mb.code ++ ma.code, mod := c.code }
  | .fclass h d a f => some ((a1 0x67 h d a).setFF f)
  | .frnd h d a ma rm => some (una 0x68 h d a ma rm)
  | .fscale h d a b ma rm => some { ab 0x69 h d a b with sub := 0#3 ++ ma.code, mod := rmMod rm }
  | .flogb h d a => some (a1 0x6A h d a)
  | .rcp h d a ma rm => some (una 0x6B h d a ma rm)
  | .rsq h d a ma rm => some (una 0x6C h d a ma rm)
  | .sqrt h d a ma rm => some (una 0x6D h d a ma rm)
  | .ex2 h d a ma => some (una 0x6E h d a ma .fmode)
  | .lg2 h d a ma => some (una 0x6F h d a ma .fmode)
  | .sin h d a ma => some (una 0x70 h d a ma .fmode)
  | .cos h d a ma => some (una 0x71 h d a ma .fmode)
  | .tanh h d a ma => some (una 0x72 h d a ma .fmode)
  | .cvt h d a g f => some { (a1 0x73 h d a).setFF f with sub := 0#1 ++ g.code }
  | .f2i h d a u f rm => some { (a1 0x74 h d a).setFF f with sub := 0#4 ++ b1 u, mod := rmMod rm }
  | .i2f h d a k rm => some { a1 0x75 h d a with sub := k.code, mod := rmMod rm }
  | .fin h d a g f rm => some { (a1 0x76 h d a).setFF f with sub := 0#1 ++ g.code, mod := rmMod rm }
  | .pack h d a g f rm as sp => some { ((Raw.start 0x77 h).setDv d).setFF f with
      a8 := a, sub := b1 sp ++ g.code, mod := b1 as ++ rm.code }
  | .unpk h d a g raw => some { (Raw.start 0x78 h).setDv d with a8 := a, sub := 0#1 ++ g.code, mod := 0#3 ++ b1 raw }
  | .stkr h d a => some (a1 0x79 h d a)
  | .stkw h d a f => some (match f with
      | .bit b => (a1 0x7A h d a).setB b
      | .clr => { a1 0x7A h d a with sub := 1 }
      | .set => { a1 0x7A h d a with sub := 2 })
  | .shfl h d a m n p =>
      let r := { ((xl 0x90 h d p).setA a) with sub := m.code }
      some (match n with
        | .opd b => r.setB b
        | .wrel k => { r with mod := 0#1 ++ k })
  | .shflb h d a l p =>
      let r := (xl 0x91 h d p).setA a
      some (match l with
        | .lane b => r.setB b
        | .lo => { r with sub := 1 })
  | .shflp h d a b p => some (((xl 0x92 h d p).setA a).setB b)
  | .vote h f pa =>
      let r := (Raw.start 0x93 h).setPA pa
      some (match f with
        | .every pd => r.setPd pd
        | .some pd => { r.setPd pd with sub := 1 }
        | .same pd => { r.setPd pd with sub := 2 }
        | .mask d => { r.setDv d with sub := 3 })
  | .redx h d a o rm p => some { (xl 0x94 h d p).setA a with sub := o.code, mod := rmMod rm }
  | .scanx h d a o rm exc p => some { (xl 0x95 h d p).setA a with sub := o.code, mod := b1 exc ++ rm.code }
  | .gath h d a b n p => some { (xl 0x96 h d p).setB b with a8 := a, sub := 0#1 ++ n }
  | .rebal h d a b p => some (((xl 0x97 h d p).setA a).setB b)
  | .matchx h f a p =>
      let r := ((Raw.start 0x98 h).setPC p).setA a
      some (match f with
        | .mask d => r.setDv d
        | .one pd => { r.setPd pd with sub := 1 })
  | .ld h t o d m => some { ((Raw.start 0xB0 h).setD d).setM m 0 with sub := t.code, mod := o.code }
  | .st h t k o d m => some { ((Raw.start 0xB1 h).setD d).setM m (stLow t) with sub := b1 k ++ t.code, mod := o.code }
  | .lds h t o d m => some { ((Raw.start 0xB2 h).setD d).setM m 0 with sub := t.code, mod := o.code }
  | .sts h t o d m => some { ((Raw.start 0xB3 h).setD d).setM m (stLow t) with sub := 0#1 ++ t.code, mod := o.code }
  | .ldb h g spad o d m => some { ((Raw.start 0xB4 h).setDv d).setM m (b1 spad ++ 0#7) with
      sub := match g with | none => 15 | some g => 0#1 ++ g.code, mod := o.code }
  | .stb h f spad o d m =>
      let r := (Raw.start 0xB5 h).setDv d
      some (match f with
        | .frag => { r.setM m (b1 spad ++ 0#7) with sub := 15, mod := o.code }
        | .block g f rm as sp => { r.setM m (b1 spad ++ b1 as ++ rm.code ++ f.code.extractLsb' 0 3) with
            sub := b1 sp ++ g.code, mod := o.code })
  | .atom h o w64 ar post sc d b m => some (atm 0xB6 h o w64 ar post sc d b m)
  | .atoms h o w64 ar post sc d b m => some (atm 0xB7 h o w64 ar post sc d b m)
  | .fence h sc => some { Raw.start 0xB8 h with d8 := 0#5 ++ sc.code }
  | .fenco h sc => some { Raw.start 0xB9 h with d8 := 0#5 ++ sc.code }
  | .fencr h sc => some { Raw.start 0xBA h with d8 := 0#5 ++ sc.code }
  | .spill h n spad d m => some { ((Raw.start 0xBB h).setDv d).setM m (b1 spad ++ 0#7) with sub := n }
  | .fill h n spad d m => some { ((Raw.start 0xBC h).setDv d).setM m (b1 spad ++ 0#7) with sub := n }
  | .cpyG2s h d m n => some ((((Raw.start 0xBD h).setDv d).setM m 0).setB n)
  | .cpyS2g h d m n => some { (((Raw.start 0xBD h).setDv d).setM m 0).setB n with sub := 1 }
  | .cpyt h t b disp sr n =>
      let r := { (Raw.start 0xBE h).setA (.s b) with w2 := disp, w3 := 0#14 ++ n ++ t }
      some (match sr with | none => r | some s => { r with b9 := s, kb := true })
  | .waitc h c n => some { Raw.start 0xBF h with d8 := 0#6 ++ c.code, a8 := 0#2 ++ n }
  | .tset h t so x => some (((Raw.start 0xC0 h).setDv t).setA (.s so) |>.setB x)
  | .trel h t => some { Raw.start 0xC1 h with a8 := t }
  | .trel64 h t => some ((Raw.start 0xC1 h).setTile t)
  | .tstat h d t => some (((Raw.start 0xC2 h).setDv d).setTile t)
  | .ldtFrag h d t b => some (((Raw.start 0xC3 h).setDv d).setTile t |>.setB b)
  | .ldtWord h d t b => some { (((Raw.start 0xC3 h).setDv d).setTile t).setB b with sub := 1 }
  | .pref h l2 m => some { (Raw.start 0xC4 h).setM m 0 with sub := 0#4 ++ b1 l2 }
  | .cctlIc h m => some ((Raw.start 0xC5 h).setM m 0)
  | .cctlInv h m => some { (Raw.start 0xC5 h).setM m 0 with sub := 1 }
  | .mma h d a b fa fb rm zc => some (mtx 0xE0 h d 0 a b fa fb rm zc)
  | .mmad h d e a b fa fb rm zc => some (mtx 0xE1 h d e a b fa fb rm zc)
  | .mcvt h d a g i32 rm as sp hi vh => some { Raw.start 0xE2 h with
      d8 := d, a8 := a, sub := b1 sp ++ g.code, mod := b1 as ++ rm.code,
      w3 := 0#21 ++ b1 i32 ++ b1 hi ++ (match vh with | none => 0#9 | some v => 1#1 ++ v) }
  | .mzero h d => some ((Raw.start 0xE3 h).setDv d)
  | .msclAdd h d b => some (((Raw.start 0xE4 h).setDv d).setB b)
  | .msclSet h d b => some { ((Raw.start 0xE4 h).setDv d).setB b with sub := 1 }
  | .mlease h => some (.start 0xE5 h)
  | .mfree h => some (.start 0xE6 h)
  | _ => none
where
  ab (op : BitVec 8) (h : Hdr) (d : BitVec 9) (a b : Src) : Raw := (((Raw.start op h).setD d).setA a).setB b
  a1 (op : BitVec 8) (h : Hdr) (d : BitVec 9) (a : Src) : Raw := ((Raw.start op h).setD d).setA a
  una (op : BitVec 8) (h : Hdr) (d : BitVec 9) (a : Src) (ma : OMod) (rm : RMod) : Raw :=
    { a1 op h d a with sub := 0#3 ++ ma.code, mod := rmMod rm }
  xl (op : BitVec 8) (h : Hdr) (d : BitVec 8) (p : PSrc) : Raw := ((Raw.start op h).setDv d).setPC p
  addf (r : Raw) : AddForm → Raw
    | .plain sat u => { r with mod := 0#2 ++ b1 u ++ b1 sat }
    | .cc p => { r.setPC p with sub := 1 }
  cnt (r : Raw) : Cnt → Raw
    | .allLive => r
    | .reg n => { r with b9 := n, kb := true }
    | .lit w => { r with w2 := w }
  stLow : StT → BitVec 8
    | .commit _ f rm => 0#2 ++ rm.code ++ f.code.extractLsb' 0 3
    | _ => 0
  atm (op : BitVec 8) (h : Hdr) (o : AtOp) (w64 ar post : Bool) (sc : Scope) (d : BitVec 9) (b : Src) (m : MemOpd) : Raw :=
    { (((Raw.start op h).setD d).setM m (0#6 ++ b1 w64 ++ b1 post)).setB b with
      w2 := m.disp, sub := o.code, mod := b1 ar ++ sc.code }
  mtx (op : BitVec 8) (h : Hdr) (d e a b : BitVec 8) (fa fb : Fmt) (rm : RMod) (zc : Bool) : Raw :=
    { Raw.start op h with
      d8 := d, a8 := a, b9 := 0#1 ++ b, c9 := 0#1 ++ e, mod := rmMod rm,
      w3 := 0#23 ++ b1 zc ++ fb.code ++ fa.code }

/-- The words of an encoded instruction, in memory order; empty for an event. -/
def Instr.encode (i : Instr) : List Word :=
  match i.raw with
  | some r => r.words
  | none => []

/-- The length in bytes that a length code gives (R36). -/
def lenBytes (l : BitVec 2) : Nat := 4 * (l.toNat + 1)

/-- Bytes of a list of words, lowest address first (R3, R35). -/
def wordsBytes (l : List Word) : List Byte := l.flatMap wordBytes

/-- The 16 bytes of an instruction of nbits bits numbered as the opcode table numbers them; every bit
above nbits is 0. -/
def tableBytes (nbits w : Nat) : List Byte :=
  (List.range 16).map fun i => BitVec.ofNat 8 ((w % 2 ^ nbits) / 2 ^ (8 * i))

/-- What the decoder reads from an instruction whose bits are w. -/
def decodeTableWord (nbits w : Nat) : Option Instr :=
  match decodeBytes (tableBytes nbits w) with
  | .ok i => some i
  | .error _ => none

end Sys2Proof
end

