-- ==== Sys2Proof/Machine/Mem.lean ====
section
/-! DEFINITION. Sparse tables, raw physical memory and headers, the physical map (R291), the access
tables (R302) and translation (R283, R284, R286). -/

namespace Sys2Proof.Machine

/-- The value a sparse table holds at a key; `d` where it lists none. -/
def lget {α : Type} (d : α) : List (Nat × α) → Nat → α
  | [], _ => d
  | (k, v) :: r, n => if k = n then v else lget d r n

/-- The value at a key, if listed. -/
def lfind {α : Type} : List (Nat × α) → Nat → Option α
  | [], _ => none
  | (k, v) :: r, n => if k = n then some v else lfind r n

/-- Writes a key, keeping keys in rising order. -/
def lput {α : Type} : List (Nat × α) → Nat → α → List (Nat × α)
  | [], n, x => [(n, x)]
  | (k, v) :: r, n, x => if n < k then (n, x) :: (k, v) :: r else if k = n then (n, x) :: r else (k, v) :: lput r n x

/-- Removes a key. -/
def ldel {α : Type} : List (Nat × α) → Nat → List (Nat × α)
  | [], _ => []
  | (k, v) :: r, n => if k = n then ldel r n else (k, v) :: ldel r n

/-- A write that lists nothing equal to the default. -/
def cset {α : Type} [DecidableEq α] (d : α) (m : List (Nat × α)) (n : Nat) (x : α) : List (Nat × α) :=
  if x = d then ldel m n else lput m n x

/-- Keys strictly rise from above `lo`, and no entry equals the default. -/
def cwfFrom {α : Type} [DecidableEq α] (d : α) : Option Nat → List (Nat × α) → Bool
  | _, [] => true
  | lo, (k, v) :: r => (match lo with | none => true | some l => decide (l < k)) && decide (v ≠ d) && cwfFrom d (some k) r

/-- The canonical form of a sparse table. -/
def cwf {α : Type} [DecidableEq α] (d : α) (m : List (Nat × α)) : Bool := cwfFrom d none m

/-- What an unlisted byte of memory reads as (DESIGN CHOICE, log 2). -/
abbrev memDefault : Byte := 0

/-- The canonical form of memory. -/
def Memory.wf (m : List Host.Cell) : Bool := cwf memDefault m

/-- A byte of physical DRAM or host memory. -/
def State.rdByte (s : State) (a : Nat) : Byte := lget memDefault s.mem a

def State.wrByte (s : State) (a : Nat) (b : Byte) : State := { s with mem := cset memDefault s.mem a b }

/-- Bytes to a number, lowest address first (R3). -/
def leNat : List Byte → Nat
  | [] => 0
  | b :: r => b.toNat + 256 * leNat r

/-- The n low bytes of a number, lowest address first (R3). -/
def natLe : Nat → Nat → List Byte
  | 0, _ => []
  | n + 1, x => BitVec.ofNat 8 x :: natLe n (x / 256)

def State.rdBytes (s : State) (a : Nat) : Nat → List Byte
  | 0 => []
  | n + 1 => s.rdByte a :: State.rdBytes s (a + 1) n

def State.wrBytes (s : State) (a : Nat) : List Byte → State
  | [] => s
  | b :: r => State.wrBytes (s.wrByte a b) (a + 1) r

/-- A little-endian number of n bytes in physical memory. -/
def State.rdNat (s : State) (a n : Nat) : Nat := leNat (s.rdBytes a n)
def State.wrNat (s : State) (a n x : Nat) : State := s.wrBytes a (natLe n x)

/-- The header of the 64-byte physical block that holds an address (R91). -/
def State.rdHdr (s : State) (a : Nat) : Word := lget 0 s.hdrs (a / 64)
def State.wrHdr (s : State) (a : Nat) (h : Word) : State := { s with hdrs := cset 0 s.hdrs (a / 64) h }

-- the physical map (R291)

def dramEnd : Nat := 0x6000000000
def hostBase : Nat := 0x1000000000000
def peerBase : Nat := 0x2000000000000
def statusBase : Nat := 0x3000000000000
def statusEnd : Nat := 0x3000001000000

/-- The target a physical address belongs to; none for an address in no range (R291). -/
def target (a : Nat) : Option Target :=
  if a < dramEnd then some .dram
  else if hostBase ≤ a ∧ a < peerBase then some .host
  else if peerBase ≤ a ∧ a < statusBase then some (.peer ((a - peerBase) / 2 ^ 44))
  else if statusBase ≤ a ∧ a < statusEnd then some .status
  else none

/-- The kinds of access. -/
inductive Acc | read | write | fetch
  deriving DecidableEq, Repr

def findTable (t : Target) : List (Target × List AccEntry) → List AccEntry
  | [] => []
  | (u, l) :: r => if u = t then l else findTable t r

/-- An access-table entry matches (R302): its 4 KiB granules, its master, and the permission. -/
def accMatches (e : AccEntry) (master a : Nat) (k : Acc) : Bool :=
  decide (e.base ≤ a / 4096) && decide (a / 4096 ≤ e.limit) && (e.master == none || e.master == some master) &&
  (match k with | .read => e.r | .write => e.w | .fetch => e.x)

/-- The target whose access table covers an address: for DRAM the controller of its vault (R302). PRESUMED, log
88: granule g of 4 KiB lies in vault g mod 256 (R259). -/
def tableOf (a : Nat) : Option Target :=
  match target a with
  | some .dram => some (.vault (a / 4096 % 256))
  | t => t

/-- An access of a master is allowed when some entry of the target's table matches (R302). -/
def State.allowed (s : State) (master a : Nat) (k : Acc) : Bool :=
  match tableOf a with
  | none => false
  | some t => (findTable t s.acc).any fun e => accMatches e master a k

/-- Every 4 KiB granule of a range is allowed. -/
def State.allowedRange (s : State) (master a n : Nat) (k : Acc) : Bool :=
  (List.range ((a + max n 1 - 1) / 4096 - a / 4096 + 1)).all fun i => s.allowed master (4096 * (a / 4096 + i)) k

/-- The masters of R302 other than the queues. -/
def mHandler : Nat := 64
def mCore : Nat := 65
def mHost : Nat := 66
def mPeer (p : Nat) : Nat := 67 + p

-- translation (R283, R284)

/-- Page attributes in the map of R283, with the page's own base and size. -/
structure Page where
  pa : Nat
  va : Nat
  size : Nat
  typ : Bool
  uo : Bool
  so : Bool
  deriving DecidableEq, Repr

/-- What a lookup gives (R284): a physical address with its page, no valid translation, or a denial with
its TINFO. -/
inductive Look
  | ok (p : Page)
  | invalid (malformed : Bool)
  | denied (info : Nat)
  deriving DecidableEq, Repr

def bitOf (x i : Nat) : Bool := x / 2 ^ i % 2 == 1

/-- A leaf of R283 at a level as a TLB entry, for a virtual address. -/
def leafEntry (q level va e : Nat) : TlbEntry :=
  let size := 2 ^ (16 + 9 * level)
  { q := q, va := va / size * size, size := size, pa := e / 65536 % 2 ^ 34 * 65536, typ := bitOf e 9, ord := e / 128 % 4,
    x := bitOf e 6, w := bitOf e 5, r := bitOf e 4 }

/-- The result of a walk: the leaf, its own address and its TRK bit; no valid translation; or a table that an access table
refuses (R302). -/
inductive Walk
  | leaf (t : TlbEntry) (at_ : Nat) (trk : Bool)
  | bad (malformed : Bool)
  | shut
  deriving DecidableEq, Repr

/-- The walker (R283, R284): `n` levels are left, the first of them level n - 1. DEDUCED, log 98: it reads the tables as its
queue (R302). -/
def walk (s : State) (q va : Nat) : Nat → Nat → Walk
  | 0, _ => .bad true
  | n + 1, tbl =>
    let a := tbl + 8 * (va / 2 ^ (16 + 9 * n) % 512)
    let e := s.rdNat a 8
    if !s.allowedRange q a 8 .read then .shut
    else if bitOf e 0 = false then .bad false
    else if e / 4 % 4 ≠ 0 then .bad true
    else if bitOf e 1 then
      if n = 3 ∨ e / 2 ^ 11 % 32 ≠ 0 ∨ e / 2 ^ 50 % 4 ≠ 0 ∨ e / 128 % 4 = 3 ∨ e / 65536 % 2 ^ (9 * n) ≠ 0 then .bad true
      else .leaf (leafEntry q n va e) a (bitOf e 10)
    else walk s q va n (e / 65536 % 2 ^ 34 * 65536)

def TlbEntry.hit (t : TlbEntry) (q va : Nat) : Bool := t.q == q && decide (t.va ≤ va) && decide (va < t.va + t.size)

def State.core (s : State) (c : Nat) : Core := lget coreReset s.cores c
def State.setCore (s : State) (c : Nat) (k : Core) : State := { s with cores := lput s.cores c k }
def State.queue (s : State) (q : Nat) : Queue := lget queueReset s.queues q
def State.setQueue (s : State) (q : Nat) (k : Queue) : State := { s with queues := lput s.queues q k }

/-- The TLB entry or walk for an address of a queue's space on a core: core TLB, cluster TLB, walker. A
valid untracked leaf is filled into both (R284, R286). -/
def State.lookup (s : State) (c q va : Nat) : Walk × State :=
  match (s.core c).tlb.find? (·.hit q va) with
  | some t => (.leaf t 0 false, s)
  | none =>
    match (lget [] s.clTlbs (c / 8)).find? (·.hit q va) with
    | some t => (.leaf t 0 false, s.setCore c { s.core c with tlb := t :: (s.core c).tlb })
    | none =>
      match walk s q va 4 (s.queue q).root with
      | .leaf t a false =>
        (.leaf t a false, { s.setCore c { s.core c with tlb := t :: (s.core c).tlb } with
          clTlbs := lput s.clTlbs (c / 8) (t :: lget [] s.clTlbs (c / 8)) })
      | w => (w, s)

/-- A write to a tracked page counts in its entry (R286), which the walker writes as its queue (R302; DEDUCED, log 98). -/
def State.mayCount (s : State) (q a : Nat) (k : Acc) : Bool := k != .write || s.allowedRange q a 8 .write

/-- What an access of a kind finds at an address (R284): the denial order is R, W or X, then the access
table. The second component is the leaf entry of a tracked page (R286). -/
def State.translate (s : State) (c q va : Nat) (k : Acc) : Look × Option Nat × State :=
  match s.lookup c q va with
  | (.bad m, s) => (.invalid m, none, s)
  | (.shut, s) => (.denied 5, none, s)
  | (.leaf t a trk, s) =>
    let pa := t.pa + (va - t.va)
    let ok := match k with | .read => t.r | .write => t.w | .fetch => t.x
    let leaf := if trk then some a else none
    if !ok then (.denied (match k with | .read => 2 | .write => 3 | .fetch => 4), leaf, s)
    else if !s.allowed q pa k || (trk && !s.mayCount q a k) then (.denied 5, leaf, s)
    else (.ok { pa := pa, va := t.va, size := t.size, typ := t.typ, uo := t.ord == 2, so := t.ord == 1 }, leaf, s)

/-- A store or atomic to a tracked page counts in WVER (R286). -/
def State.countWrite (s : State) (a : Nat) : State :=
  let e := s.rdNat a 8
  s.wrNat a 8 (e % 2 ^ 52 + min (e / 2 ^ 52 + 1) 0xFFF * 2 ^ 52)

/-- A translation on the device's own account, with no TLB: packets, DONE and tag updates (R68, R236,
R296). -/
def State.translateDev (s : State) (q va : Nat) (k : Acc) : Look :=
  match walk s q va 4 (s.queue q).root with
  | .bad m => .invalid m
  | .shut => if va ≥ 2 ^ 52 then .invalid false else .denied 5
  | .leaf t a trk =>
    let pa := t.pa + (va - t.va)
    let ok := match k with | .read => t.r | .write => t.w | .fetch => t.x
    if va ≥ 2 ^ 52 then .invalid false
    else if !ok then .denied (match k with | .read => 2 | .write => 3 | .fetch => 4)
    else if !s.allowed q pa k || (trk && !s.mayCount q a k) then .denied 5
    else .ok { pa := pa, va := t.va, size := t.size, typ := t.typ, uo := t.ord == 2, so := t.ord == 1 }

/-- A write on the device's own account counts in WVER of a tracked page (R286). -/
def State.devWrite (s : State) (q va : Nat) : State :=
  match walk s q va 4 (s.queue q).root with
  | .leaf _ a true => s.countWrite a
  | _ => s

end Sys2Proof.Machine
end

