-- ==== Sys2Proof/Machine/Slots.lean ====
section
/-! DEFINITION. Slots, members and lanes: accessors, register reads and writes with the rules on
outstanding results (R25, R210), divergence and merges (R27 to R31). -/

namespace Sys2Proof.Machine

def bitSet (i : Nat) : Mask := 1#64 <<< i
def lanesOf (m : Mask) : List Nat := (List.range 64).filter fun i => m.getLsbD i
def maskOf (l : List Nat) : Mask := l.foldl (fun m i => m ||| bitSet i) 0
def lowest (m : Mask) : Nat := (lanesOf m).headD 0
def countOf (m : Mask) : Nat := (lanesOf m).length

/-- The payload and the sticky bit of a register lane (R96). -/
def pay (x : Img) : Word := x.extractLsb' 0 32
def sticky (x : Img) : Bool := x.getLsbD 32
def img (st : Bool) (w : Word) : Img := BitVec.ofBool st ++ w
def pureImg (w : Word) : Img := img false w

/-- Slot 64 of a core is the handler's (R79). -/
def Core.slot? (k : Core) (n : Nat) : Option Slot := if n = 64 then some k.handler.slot else lfind k.slots n
def State.slot? (s : State) (c n : Nat) : Option Slot := (s.core c).slot? n
def Core.setSlot (k : Core) (n : Nat) (x : Slot) : Core :=
  if n = 64 then { k with handler := { k.handler with slot := x } } else { k with slots := lput k.slots n x }
def State.setSlot (s : State) (c n : Nat) (x : Slot) : State := s.setCore c ((s.core c).setSlot n x)
def State.onSlot (s : State) (c n : Nat) (f : Slot → Slot) : State :=
  match s.slot? c n with
  | some x => s.setSlot c n (f x)
  | none => s

def Slot.mem? (x : Slot) (id : Nat) : Option Member := x.members.find? (·.id == id)
def Slot.onMem (x : Slot) (id : Nat) (f : Member → Member) : Slot :=
  { x with members := x.members.map fun m => if m.id = id then f m else m }
/-- The slot undivided, its one member at an address in a state: the handler slot starting or idle. -/
def Slot.single (x : Slot) (pc : Dword) (st : Park) (now : Nat) : Slot :=
  { x with
    members := [{ id := 0, mask := BitVec.allOnes 64, pc := pc, st := st, fam := 0, ent := none, last := 0, since := now, y := false
                  len := 0, src := pc }]
    fams := [] }
def Slot.occupied (x : Slot) : Mask := maskOf (x.lanes.map (·.1))
def Slot.fibre? (x : Slot) (l : Nat) : Option Fibre := lfind x.lanes l
def Slot.fibre (x : Slot) (l : Nat) : Fibre := lget fibreReset x.lanes l

def State.grid? (s : State) (g : Nat) : Option Grid := s.grids.find? (·.id == g)
def State.onGrid (s : State) (g : Nat) (f : Grid → Grid) : State :=
  { s with grids := s.grids.map fun x => if x.id = g then f x else x }
def State.colony? (s : State) (g k : Nat) : Option Colony := s.colonies.find? fun x => x.grid == g && x.col == k
def State.onColony (s : State) (g k : Nat) (f : Colony → Colony) : State :=
  { s with colonies := s.colonies.map fun x => if x.grid = g ∧ x.col = k then f x else x }
def State.onCore (s : State) (c : Nat) (f : Core → Core) : State := s.setCore c (f (s.core c))
def State.onQueue (s : State) (q : Nat) (f : Queue → Queue) : State := s.setQueue q (f (s.queue q))

/-- The swarm whose grid and colony a slot's instructions see: its own, or for the handler the one under service, until ERET
(R79; DEDUCED, log 46). After SAVEC it is the swarm as it was saved. -/
def State.subject (s : State) (c n : Nat) : Option Slot :=
  if n = 64 then
    match (s.core c).handler.service with
    | some p => if (s.core c).handler.saved then (s.core c).handler.subj else s.slot? c p.slot
    | none => none
  else s.slot? c n

-- registers

def Fibre.v (f : Fibre) (n : Nat) : Img := lget 0 f.regs n
def Fibre.setV (f : Fibre) (n : Nat) (x : Img) : Fibre := { f with regs := cset 0 f.regs n x }
/-- p7 reads as true (R44). -/
def Fibre.p (f : Fibre) (n : BitVec 3) : Bool := n == 7 || f.preds.getLsbD n.toNat
/-- A write to p7 is discarded (R44). -/
def Fibre.setP (f : Fibre) (n : BitVec 3) (b : Bool) : Fibre :=
  if n = 7 then f
  else { f with preds := if b then f.preds ||| (1#7 <<< n.toNat) else f.preds &&& ~~~(1#7 <<< n.toNat) }

def Slot.v (x : Slot) (l n : Nat) : Img := (x.fibre l).v n
def Slot.s (x : Slot) (n : Nat) : Img := lget 0 x.sregs n
def Slot.p (x : Slot) (l : Nat) (n : BitVec 3) : Bool := (x.fibre l).p n
def Slot.psrc (x : Slot) (l : Nat) (p : PSrc) : Bool := x.p l p.p != p.neg
def Slot.onFibre (x : Slot) (l : Nat) (f : Fibre → Fibre) : Slot :=
  { x with lanes := x.lanes.map fun e => if e.1 = l then (l, f e.2) else e }

/-- The raw write of one destination. -/
def Slot.raw (x : Slot) (d : Dest) (w : Img) : Slot :=
  match d with
  | .v l n => x.onFibre l (·.setV n w)
  | .s n => { x with sregs := cset 0 x.sregs n w }
  | .p l n => x.onFibre l (·.setP (BitVec.ofNat 3 n) (w.getLsbD 0))

/-- Ranges (first register, length) of the sources and the destinations of a matrix operation (R213, R215,
R216). -/
def mtxSrc : Instr → List (Nat × Nat)
  | .mma _ d a b _ _ _ zc => [(a.toNat, 17), (b.toNat, 17)] ++ (if zc then [] else [(d.toNat, 64)])
  | .mmad _ d _ a b _ _ _ zc => [(a.toNat, 17), (b.toNat, 17)] ++ (if zc then [] else [(d.toNat, 64)])
  | .mcvt _ _ a g _ _ _ _ hi vh =>
      let half := g == .bf16 || g == .fp16
      [(if half && hi then a.toNat + 32 else a.toNat, if half then 32 else 64)] ++
        (match vh with | some h => [(h.toNat, 64)] | none => [])
  | _ => []

def mtxDst : Instr → List (Nat × Nat)
  | .mma _ d _ _ _ _ _ _ => [(d.toNat, 64)]
  | .mmad _ d e _ _ _ _ _ _ => [(d.toNat, 64), (e.toNat, 17)]
  | .mcvt _ d _ _ _ _ _ _ _ _ => [(d.toNat, 17)]
  | _ => []

/-- The sources that a matrix operation reads in every lane that holds a fibre: B's columns (R211). -/
def mtxCols : Instr → List (Nat × Nat)
  | .mma _ _ _ b _ _ _ _ => [(b.toNat, 17)]
  | .mmad _ _ _ _ b _ _ _ _ => [(b.toNat, 17)]
  | _ => []

def inRanges (n : Nat) (l : List (Nat × Nat)) : Bool := l.any fun r => decide (r.1 ≤ n) && decide (n < r.1 + r.2)

/-- A matrix operation reads lane l's vn (R211). -/
def MtxOp.reads (o : MtxOp) (l n : Nat) : Bool :=
  (o.rows.getLsbD l && inRanges n (mtxSrc o.op)) || (o.cols.getLsbD l && inRanges n (mtxCols o.op))

/-- A matrix operation writes lane l's vn (R211). -/
def MtxOp.writes (o : MtxOp) (l n : Nat) : Bool := o.rows.getLsbD l && inRanges n (mtxDst o.op)

/-- The latest outstanding operation before another that writes lane l's vn. -/
def Slot.writerOf (x : Slot) (o : MtxOp) (l n : Nat) : Option Nat :=
  (x.mtx.reverse.find? fun p => decide (p.seq < o.seq) && p.writes l n).map (·.seq)

/-- A change of lane l's vn by another instruction while a matrix operation is outstanding: a source it has not read keeps
each older value beside the new one (R210). Where an older operation `w` still writes the register, the value before the
change is that operation's result (R209), and the change adds its own. -/
def MtxOp.noteSrc (o : MtxOp) (l n : Nat) (old : Img) (w : Option Nat) : MtxOp :=
  if !inRanges n (mtxSrc o.op) then o
  else match w with
    | some k =>
      if o.void.contains (l, n) then { o with void := o.void.filter (· != (l, n)) }
      else if o.shadows.any fun h => h.lane == l && h.reg == n && h.of == some k then { o with shadows := ⟨l, n, old, none⟩ :: o.shadows }
      else { o with shadows := ⟨l, n, 0, some k⟩ :: o.shadows }
    | none =>
      if o.void.contains (l, n) then { o with void := o.void.filter (· != (l, n)) } else { o with shadows := ⟨l, n, old, none⟩ :: o.shadows }

/-- As `noteSrc`; and a destination becomes unspecified (R25). -/
def MtxOp.noteWrite (o : MtxOp) (l n : Nat) (old : Img) (w : Option Nat) : MtxOp :=
  let o := o.noteSrc l n old w
  if o.writes l n then { o with clobbered := (l, n) :: o.clobbered } else o

/-- A fixed write (R24): the register now, and the rules of R25 and R210 on what is outstanding. A write
re-encodes the lane, so an uncorrectable word is gone. -/
def Slot.put (x : Slot) (d : Dest) (w : Img) : Slot :=
  let x' := x.raw d w
  { x' with
    badRegs := x'.badRegs.filter (·.1 != d)
    late := x'.late.map fun o => { o with writes := o.writes.map fun e => if e.dst = d then { e with clobbered := true } else e }
    mtx := match d with
      | .v l n => x'.mtx.map fun o => o.noteWrite l n (x.v l n) (x'.writerOf o l n)
      | _ => x'.mtx }

def Slot.putV (x : Slot) (l : Nat) (n : Nat) (w : Img) : Slot := x.put (.v l n) w
def Slot.putS (x : Slot) (n : Nat) (w : Img) : Slot := x.put (.s n) w
def Slot.putP (x : Slot) (l : Nat) (n : BitVec 3) (b : Bool) : Slot :=
  if n = 7 then x else x.put (.p l n.toNat) (if b then 1 else 0)

def Dest.code : Dest → Nat × Nat
  | .v l n => (l, n)
  | .s n => (64, n)
  | .p l n => (l, 1024 + n)

/-- The registers as an instruction reads them: an outstanding late result is read as the old value or the
new one, in each lane on its own (R25). -/
def Slot.view (x : Slot) (ctr : Nat) : Slot :=
  x.late.foldl (fun x o => o.writes.foldl (fun x e =>
    if Config.freeBit ctr e.dst.code.1 e.dst.code.2 then x.raw e.dst e.val else x) x) x

/-- A destination has an outstanding result (R25). -/
def Slot.outstanding (x : Slot) (d : Dest) : Bool :=
  (x.late.any fun o => o.writes.any (·.dst == d)) ||
  (match d with
   | .v l n => x.mtx.any (·.writes l n)
   | _ => false)

/-- No register result of the slot is outstanding (R23). -/
def Slot.drained (x : Slot) : Bool := x.late.isEmpty && x.mtx.isEmpty

/-- Records the outstanding results of an instruction. -/
def Slot.addLate (x : Slot) (o : LateOp) : Slot := { x with late := x.late ++ [o] }

/-- Delivers one outstanding instruction's results (R25, R81): a clobbered register gets a free value, and
an older result that is still out to the same register is dropped. -/
def Slot.deliver (x : Slot) (k ctr : Nat) : Slot :=
  match x.late[k]? with
  | none => x
  | some o =>
    let x := { x with late := x.late.eraseIdx k }
    let x := o.writes.foldl (fun x e =>
      let w := if e.clobbered then img (Config.freeBit ctr e.dst.code.1 e.dst.code.2) (Config.freeWord ctr e.dst.code.1 e.dst.code.2)
        else e.val
      let x' := x.raw e.dst w
      { x' with
        badRegs := x'.badRegs.filter (·.1 != e.dst) ++ (match e.bad with | some b => [(e.dst, b)] | none => [])
        late := x'.late.map fun p => if p.seq < o.seq then { p with writes := p.writes.filter (·.dst != e.dst) } else p
        mtx := match e.dst with
          | .v l n => x'.mtx.map fun p => let w := x'.writerOf p l n
                             if p.seq < o.seq then p.noteWrite l n (x.v l n) w else p.noteSrc l n (x.v l n) w
          | _ => x'.mtx }) x
    { x with fflags := x.fflags ||| o.flags }

-- divergence (R27, R281)

def Slot.fam? (x : Slot) (f : Nat) : Option Family := x.fams.find? (·.id == f)
def Slot.onFam (x : Slot) (f : Nat) (g : Family → Family) : Slot :=
  { x with fams := x.fams.map fun a => if a.id = f then g a else a }

/-- Replaces a member by the members of a new family inside its own (R27). -/
def Slot.split (x : Slot) (m : Member) (kind : FamKind) (parts : List (Mask × Dword × Park × Option Nat)) : Slot :=
  let f := x.nextId
  let new := parts.zipIdx.map fun p =>
    { m with id := f + 1 + p.2, mask := p.1.1, pc := p.1.2.1, st := p.1.2.2.1, ent := p.1.2.2.2, fam := f }
  { x with
    fams := x.fams ++ [{ id := f, outer := m.fam, kind := kind, ent := m.ent }]
    members := x.members.filter (·.id != m.id) ++ new
    nextId := f + 1 + parts.length }

/-- The members of a family and of the families nested in it, to the depth of the list. -/
def Slot.subtree (x : Slot) : Nat → Nat → List Member
  | 0, _ => []
  | n + 1, f => x.members.filter (·.fam == f) ++ (x.fams.filter (·.outer == f)).flatMap fun g => x.subtree n g.id

def Slot.under (x : Slot) (f : Nat) : List Member := x.subtree (x.fams.length + 1) f

def Member.atBar (m : Member) : Bool := match m.st with | .bar _ => true | _ => false
def Member.isTrap (m : Member) : Bool :=
  match m.st with | .trap _ => true | .fault _ _ => true | .ringFull _ _ _ _ => true | _ => false

/-- A member awaits the service of a fault number (R285). -/
def Member.awaits (m : Member) (n : Nat) : Bool := match m.st with | .fault k _ => k == n | _ => false

/-- The families nested directly in a family. -/
def Slot.nested (x : Slot) (f : Nat) : List Family := if f = 0 then [] else x.fams.filter (·.outer == f)

/-- Every fibre of every nested family is at a colony barrier or has ended (R29). -/
def Slot.nestedSettled (x : Slot) (f : Nat) : Bool := (x.nested f).all fun g => (x.under g.id).all Member.atBar

/-- R29: a family whose last member is alone dissolves into the enclosing one, once that member is released
if it waits at the family's RCV; a VCALL family lasts until it has merged (R71); a family with no member is
gone. Repeated up to the number of families. -/
def Slot.dissolve : Nat → Slot → Slot
  | 0, x => x
  | n + 1, x =>
    match x.fams.find? fun f =>
        let ms := x.members.filter (·.fam == f.id)
        let ns := x.fams.filter (·.outer == f.id)
        ms.length + ns.length == 0 || (ms.length + ns.length == 1 && !(ms.any (·.st == .rcv)) && (match f.kind with | .vcall _ _ => false | _ => true)) with
    | none => x
    | some f =>
      Slot.dissolve n { x with
        fams := (x.fams.filter (·.id != f.id)).map fun g => if g.outer = f.id then { g with outer := f.outer, ent := f.ent } else g
        members := x.members.map fun m => if m.fam = f.id then { m with fam := f.outer, ent := f.ent } else m }

def Slot.tidy (x : Slot) : Slot := Slot.dissolve x.fams.length { x with members := x.members.filter (·.mask != 0) }

/-- Lanes in ascending order of their fibres' FIDs. -/
def insFid (e : Nat × Fibre) : List (Nat × Fibre) → List (Nat × Fibre)
  | [] => [e]
  | a :: r => if e.2.fid ≤ a.2.fid then e :: a :: r else a :: insFid e r

/-- Which of the free lanes the fibres of a merge take in normal mode: a free choice (R31). -/
def pickLanes (ctr : Nat) : Nat → List Nat → List Nat
  | 0, _ => []
  | n + 1, free =>
    let i := Config.freeIndex ctr n free.length % free.length
    free.getD i 0 :: pickLanes ctr n (free.eraseIdx i)

/-- Merges members into one of a family (R29, R31, R71): in deterministic mode the fibres take the lowest
lanes not held by others, in FID order; in normal mode any such lanes. An uncorrectable word follows its
register's fibre (R30). -/
def Slot.merge (x : Slot) (det : Bool) (ctr : Nat) (ids : List Nat) (fam : Nat) (ent : Option Nat) (pc : Dword) (st : Park)
    (now : Nat) : Slot :=
  let grp := x.members.filter fun m => ids.contains m.id
  let mask := grp.foldl (fun a m => a ||| m.mask) 0
  let mine := x.lanes.filter fun e => mask.getLsbD e.1
  let others := x.lanes.filter fun e => !mask.getLsbD e.1
  let fibs := mine.foldl (fun l e => insFid e l) []
  let free := (List.range 64).filter fun i => !(others.any (·.1 == i))
  let dest := if det then free.take fibs.length else pickLanes ctr fibs.length free
  let placed := (dest.zip fibs).foldl (fun l e => lput l e.1 e.2.2) others
  let at_ (l : Nat) : Nat := (((dest.zip fibs).find? fun e => e.2.1 == l).map (·.1)).getD l
  let y := (grp.any (·.y))
  { x with
    lanes := placed
    badRegs := x.badRegs.map fun b => (match b.1 with | .v l n => .v (at_ l) n | .p l n => .p (at_ l) n | .s n => .s n, b.2)
    members := x.members.filter (fun m => !ids.contains m.id) ++
      [{ id := x.nextId, mask := maskOf dest, pc := pc, st := st, fam := fam, ent := ent,
         last := grp.foldl (fun a m => max a m.last) 0, since := now, y := y,
         len := 4, src := (grp.head?.map (·.src)).getD pc }]
    nextId := x.nextId + 1 }

end Sys2Proof.Machine
end

