-- ==== Sys2Proof/Machine/Num.lean ====
section
/-! DEFINITION. Number formats (R86 to R90), typed blocks (R91 to R95), round-to-odd (R99), rounding
(R100, R101), commits (R102 to R107), decided comparison (R109) and exact sums (R110). A finite value is
a sign, an integer and a power of two, exactly. -/

namespace Sys2Proof.Machine

/-- The exact value an image stands for: a finite one is (-1)^neg × m × 2^e. -/
inductive Val
  | nan
  | inf (neg : Bool)
  | fin (neg : Bool) (m : Nat) (e : Int)
  deriving DecidableEq, Repr

def Val.isNan : Val → Bool | .nan => true | _ => false
def Val.isInf : Val → Bool | .inf _ => true | _ => false
def Val.neg : Val → Bool | .nan => false | .inf n => n | .fin n _ _ => n
def Val.isZero : Val → Bool | .fin _ m _ => m == 0 | _ => false

def p2 (n : Int) : Nat := 2 ^ n.toNat

/-- Compares m × 2^e with n × 2^f. -/
def cmpMag (m : Nat) (e : Int) (n : Nat) (f : Int) : Ordering :=
  if e ≤ f then compare m (n * p2 (f - e)) else compare (m * p2 (e - f)) n

/-- Exponent field width, fraction width, bias (R86). -/
structure FmtP where
  eb : Nat
  mb : Nat
  bias : Nat
  deriving DecidableEq, Repr

def fmtP : Fmt → FmtP
  | .fp32 => ⟨8, 23, 127⟩
  | .bf16 => ⟨8, 7, 127⟩
  | .fp16 => ⟨5, 10, 15⟩
  | .e4m3 => ⟨4, 3, 7⟩
  | .e5m2 => ⟨5, 2, 15⟩
  | _ => ⟨2, 1, 1⟩

/-- Bits of an element (R126). -/
def fmtBits : Fmt → Nat
  | .fp32 | .int32 => 32
  | .bf16 | .fp16 => 16
  | .e4m3 | .e5m2 | .int8 | .uint8 => 8
  | .e2m1 | .int4 => 4

def fmtInt : Fmt → Bool
  | .int8 | .uint8 | .int4 | .int32 => true
  | _ => false

/-- The format has infinities (R86). -/
def fmtInf : Fmt → Bool
  | .fp32 | .bf16 | .fp16 | .e5m2 => true
  | _ => false

/-- The code of the largest finite magnitude (R86). -/
def maxCode : Fmt → Nat
  | .fp32 => 0x7F7FFFFF
  | .bf16 => 0x7F7F
  | .fp16 => 0x7BFF
  | .e4m3 => 0x7E
  | .e5m2 => 0x7B
  | _ => 7

/-- The canonical NaN (R86, R88). -/
def nanCode : Fmt → Nat
  | .fp32 => 0x7FC00000
  | .bf16 => 0x7FC0
  | .fp16 => 0x7E00
  | .e4m3 => 0x7F
  | .e5m2 => 0x7E
  | _ => 7

def signBit (f : Fmt) (neg : Bool) : Nat := if neg then 2 ^ (fmtBits f - 1) else 0
def infCode (f : Fmt) (neg : Bool) : Nat := signBit f neg + maxCode f + 1

/-- The magnitude of a code on a grid of fraction width `mb` and least exponent `emin`, with no top. -/
def magOf (mb : Nat) (emin : Int) (c : Nat) : Nat × Int :=
  if c < 2 ^ mb then (c, emin - mb) else (2 ^ mb + c % 2 ^ mb, emin - mb + (c / 2 ^ mb : Nat) - 1)

def eminOf (f : Fmt) : Int := 1 - ((fmtP f).bias : Int)

/-- The value of a code of a floating format, its low bits (R86, R87). -/
def decodeF (f : Fmt) (w : Nat) : Val :=
  let p := fmtP f
  let c := w % 2 ^ fmtBits f
  let neg := c / 2 ^ (fmtBits f - 1) == 1
  let a := c % 2 ^ (fmtBits f - 1)
  if f = .e2m1 ∧ c = 8 then .fin false 0 0
  else if a > maxCode f then (if fmtInf f ∧ a = maxCode f + 1 then .inf neg else .nan)
  else let v := magOf p.mb (eminOf f) a; .fin neg v.1 v.2

/-- The value of a code of an integer format (R89). -/
def decodeI (f : Fmt) (w : Nat) : Int :=
  let b := fmtBits f
  let c := w % 2 ^ b
  if f = .uint8 ∨ c < 2 ^ (b - 1) then (c : Int) else (c : Int) - 2 ^ b

def valI (x : Int) : Val := .fin (decide (x < 0)) x.natAbs 0

/-- What truncation onto a grid leaves: the code, whether it is exact, and the cut part against half a
step. -/
structure Cut where
  code : Nat
  exact : Bool
  half : Ordering
  deriving DecidableEq, Repr

/-- m × 2^e truncated onto a grid with no top (R99, R100). -/
def cutTo (mb : Nat) (emin : Int) (m : Nat) (e : Int) : Cut :=
  if m = 0 then ⟨0, true, .lt⟩
  else
    let q := max ((Nat.log2 m : Int) + e) emin - mb
    let base := (q - emin + mb).toNat * 2 ^ mb
    if q ≤ e then ⟨base + m * p2 (e - q), true, .lt⟩
    else
      let d := (q - e).toNat
      let r := m % 2 ^ d
      ⟨base + m / 2 ^ d, r == 0, compare (2 * r) (2 ^ d)⟩

def cutF (f : Fmt) (m : Nat) (e : Int) : Cut := cutTo (fmtP f).mb (eminOf f) m e

/-- A code with flags. -/
structure Rnd where
  code : Nat
  fl : Fl
  deriving DecidableEq, Repr

/-- What an overflow gives (R101). -/
def overflowOf (f : Fmt) (m : Mode) (neg : Bool) : Nat :=
  if fmtInf f && (match m with | .ne | .na => true | .tz => false | .up => !neg | .dn => neg) then infCode f neg
  else signBit f neg + maxCode f

/-- RoundMode for a floating format without a special point (R101): a tie between the greatest finite value
and the overflow point goes to the even code in both nearest modes. DEDUCED, log 84: an infinity stays an
infinity in every mode where the format has one. -/
def roundF (f : Fmt) (m : Mode) (x : Val) : Rnd :=
  match x with
  | .nan => ⟨nanCode f, 0⟩
  | .inf neg => if fmtInf f then ⟨infCode f neg, 0⟩ else ⟨signBit f neg + maxCode f, fOF ||| fNX⟩
  | .fin neg mm e =>
    let c := cutF f mm e
    let tie : Mode := if m = .na ∧ c.code = maxCode f then .ne else m
    let r := if tie.bump neg (c.code % 2 == 1) c.exact c.half then c.code + 1 else c.code
    let sg := if f = .e2m1 ∧ r = 0 then 0 else signBit f neg
    if r > maxCode f then ⟨overflowOf f m neg, fOF ||| fNX⟩
    else ⟨sg + r, flIf (!c.exact) fNX ||| flIf (!c.exact && decide (r < 2 ^ (fmtP f).mb)) fUF⟩

/-- The result of an FP32 operation: payload and S (R97), flags. -/
def fp32Res (m : Mode) (x : Val) : Img × Fl :=
  let r := roundF .fp32 m x
  (img (r.fl &&& fNX != 0) (BitVec.ofNat 32 r.code), r.fl)

/-- RoundToOdd (R99): the code, and whether it is inexact. -/
def roundOdd (f : Fmt) (x : Val) : Nat × Bool :=
  match x with
  | .nan => (nanCode f, f == .e2m1)
  | .inf neg =>
    if fmtInf f then (infCode f neg, false)
    else if f = .e4m3 then (signBit f neg + 0x7F, false)
    else (signBit f neg + 7, true)
  | .fin neg m e =>
    let c := cutF f m e
    if c.code > maxCode f ∨ (c.code = maxCode f ∧ !c.exact) then (signBit f neg + maxCode f, true)
    else
      let r := if c.exact ∨ c.code % 2 = 1 then c.code else c.code + 1
      ((if f = .e2m1 ∧ r = 0 then 0 else signBit f neg) + r, !c.exact)

/-- A finite value rounded to an integer, and whether it was inexact. -/
def roundInt (m : Mode) (neg : Bool) (mm : Nat) (e : Int) : Int × Bool :=
  let c : Cut := if 0 ≤ e then ⟨mm * p2 e, true, .lt⟩ else
    let d := p2 (-e)
    ⟨mm / d, mm % d == 0, compare (2 * (mm % d)) d⟩
  let r := if m.bump neg (c.code % 2 == 1) c.exact c.half then c.code + 1 else c.code
  (if neg then -(r : Int) else r, !c.exact)

-- the E2M1 grid with a special point (R104), in units of 2^-10

/-- Magnitudes of the sign `neg` with their codes; the special point's is 8. The units leave room for
midpoints. -/
def e2m1Pts (sp : Option Nat) (neg : Bool) : List (Nat × Nat) :=
  let own : List (Nat × Nat) := [(0, 0), (512, 1), (1024, 2), (1536, 3), (2048, 4), (3072, 5), (4096, 6), (6144, 7)]
  match sp with
  | none => own
  | some c =>
    match decodeF .e4m3 c with
    | .fin n m e =>
      let u := m * p2 (e + 10)
      if n = neg ∧ u ≠ 0 ∧ !(own.any (·.1 == u)) then (own.filter (·.1 < u)) ++ [(u, 8)] ++ (own.filter (u < ·.1)) else own
    | _ => own

/-- The overflow point V of a grid (R101). DEDUCED, log 83: the grid is that of x's own sign. -/
def topOf (pts : List (Nat × Nat)) : Nat :=
  let l := ((pts.getLast?).map (·.1)).getD 0
  if l > 6144 then 2 * l - 6144 else 8192

/-- RoundMode onto the E2M1 grid with a special point (R101, R104). -/
def roundSp (sp : Nat) (m : Mode) (x : Val) : Rnd :=
  match x with
  | .nan => ⟨7, fNV⟩
  | .inf neg => ⟨(match (e2m1Pts (some sp) neg).getLast? with | some (_, 8) => 8 | _ => signBit .e2m1 neg + 7), fOF ||| fNX⟩
  | .fin neg mm e =>
    let pts := e2m1Pts (some sp) neg
    let last := (pts.getLast?).getD (6144, 7)
    let code (c : Nat) : Nat := if c = 8 ∨ c = 0 then c else signBit .e2m1 neg + c
    let lo := ((pts.filter fun p => cmpMag p.1 (-10) mm e != .gt).getLast?).getD (0, 0)
    let exact := cmpMag lo.1 (-10) mm e == .eq
    let hi := ((pts.filter fun p => cmpMag p.1 (-10) mm e == .gt).head?).getD (topOf pts, 16)
    if cmpMag (topOf pts) (-10) mm e != .gt then ⟨code last.2, fOF ||| fNX⟩
    else if exact then ⟨code lo.2, 0⟩
    else
      let half := cmpMag mm e (lo.1 + hi.1) (-11)
      let tieUp := if lo.2 = 8 then false else if hi.2 = 8 then true else lo.2 % 2 == 1
      let up : Bool := match m with
        | .ne => half == .gt || (half == .eq && tieUp)
        | .na => half == .gt || (half == .eq && lo.2 != 8)
        | .tz => false
        | .up => !neg
        | .dn => neg
      let r := if up then hi else lo
      if r.2 = 16 then ⟨code last.2, fOF ||| fNX⟩
      else ⟨code r.2, fNX ||| flIf (decide (r.1 < 1024)) fUF⟩

-- integer targets

def intMin (f : Fmt) : Int := if f = .uint8 then 0 else -(2 ^ (fmtBits f - 1))
def intMax (f : Fmt) : Int := if f = .uint8 then 255 else 2 ^ (fmtBits f - 1) - 1
def intCode (f : Fmt) (x : Int) : Nat := (x % 2 ^ fmtBits f).toNat

/-- A commit's rounding to an integer format, with whether it saturated (R105). -/
def roundI (f : Fmt) (m : Mode) (x : Val) : Rnd × Bool :=
  match x with
  | .nan => (⟨0, fNV⟩, true)
  | .inf neg => (⟨intCode f (if neg then intMin f else intMax f), fNV⟩, true)
  | .fin neg mm e =>
    let r := roundInt m neg mm e
    if r.1 < intMin f then (⟨intCode f (intMin f), fNV⟩, true)
    else if r.1 > intMax f then (⟨intCode f (intMax f), fNV⟩, true)
    else (⟨intCode f r.1, flIf r.2 fNX⟩, false)

/-- The value times 2^-k. -/
def Val.scale (x : Val) (k : Int) : Val := match x with | .fin n m e => .fin n m (e - k) | v => v

-- double rounding (R103)

/-- A point of a list of exact magnitudes lies strictly between two. -/
def insideAny (lo : Nat × Int) (loNeg : Bool) (hi : Nat × Int) (l : List (Nat × Int)) : Bool :=
  l.any fun p => (loNeg || cmpMag lo.1 lo.2 p.1 p.2 == .lt) && cmpMag p.1 p.2 hi.1 hi.2 == .lt

/-- A magnitude m·2^e plus or minus one unit 2^u, on a common exponent. -/
def addU (m : Nat) (e u : Int) : Nat × Int := let f := min e u; (m * p2 (e - f) + p2 (u - f), f)
def subU (m : Nat) (e u : Int) : Nat × Int × Bool :=
  let f := min e u
  (m * p2 (e - f) - p2 (u - f), f, decide (m * p2 (e - f) < p2 (u - f)))

/-- DoubleRoundRisk(v, F, G, k) of R103; `sp` is the special point of an E2M1 block. DEDUCED, log 81:
where R108's table and R103's formula disagree, the formula stands; of an infinity, which has no spacing, R130 and the table speak alone. DESIGN CHOICE, log 112: the grid of an
integer G ends at the range end of v's sign plus one half, the last midpoint that R105's rounding sees. -/
def doubleRisk (f g : Fmt) (sp : Option Nat) (k : Int) (v : Val) : Bool :=
  match v with
  | .inf _ => g == .fp32 || f == .e5m2 && g.isFloat || f == .bf16 && (g == .bf16 || g == .fp16) || f == .fp16 && g == .fp16
  | .fin neg m e =>
    let pf := fmtP f
    let u : Int := max ((if m = 0 then 0 else (Nat.log2 m : Int) + e)) (eminOf f) - pf.mb
    let u := if m = 0 then eminOf f - pf.mb else u
    let hi := addU m e u
    let lo := subU m e u
    let isMax := cmpMag m e (magOf pf.mb (eminOf f) (maxCode f)).1 (magOf pf.mb (eminOf f) (maxCode f)).2 == .eq
    if g = .e2m1 then
      let pts := (e2m1Pts sp neg).map (·.1)
      let all := pts ++ [topOf (e2m1Pts sp neg)]
      let mids := (pts.zip all.tail).map fun p => p.1 + p.2
      insideAny (lo.1, lo.2.1) lo.2.2 hi (pts.map (fun p => (p, -10 + k)) ++ mids.map fun p => (p, -11 + k)) ||
        (isMax && cmpMag m e (pts.getLastD 6144) (-10 + k) == .lt)
    else if fmtInt g then
      let top := if neg then (intMin g).natAbs else (intMax g).natAbs
      let h : Nat := if 0 ≤ hi.2 - k + 1 then hi.1 * p2 (hi.2 - k + 1) else hi.1 / p2 (-(hi.2 - k + 1))
      let ex := 0 ≤ hi.2 - k + 1 || hi.1 % p2 (-(hi.2 - k + 1)) == 0
      let h := min (if ex then h - 1 else h) (2 * top + 1)
      (lo.2.2 || cmpMag lo.1 lo.2.1 h (k - 1) == .lt) ||
        (isMax && cmpMag m e top k == .lt)
    else
      let pg := fmtP g
      let c := cutTo (pg.mb + 1) (eminOf g) hi.1 (hi.2 - k)
      let h := min (if c.exact then c.code - 1 else c.code) (2 * maxCode g + 1)
      let w := magOf (pg.mb + 1) (eminOf g) h
      let big := magOf pg.mb (eminOf g) (maxCode g)
      (lo.2.2 || cmpMag lo.1 lo.2.1 w.1 (w.2 + k) == .lt) || (isMax && cmpMag m e big.1 (big.2 + k) == .lt)
  | _ => false

/-- F is one of the five pending formats (R96). -/
def pending (f : Fmt) : Bool := f.isFloat && f != .fp32

/-- The special point lies below E2M1's smallest normal, 1 (R101, R103). -/
def specialTiny (c : Nat) : Bool :=
  match decodeF .e4m3 c with
  | .fin _ m e => cmpMag m e 1 0 == .lt
  | _ => false

/-- CommitRound (R103, R105): x as a code of F, its S, to G in a mode under block exponent k; `sp` the
special point of an E2M1 block. -/
def commitRound (x : Img) (f g : Fmt) (m : Mode) (k : Int) (sp : Option Nat) : Rnd :=
  let v := decodeF f (pay x).toNat
  let s := sticky x
  if v.isNan then (if fmtInt g then ⟨0, fNV⟩ else if g = .e2m1 then ⟨7, fNV⟩ else ⟨nanCode g, 0⟩)
  else
    let w := v.scale k
    let dr := flIf (s && pending f && doubleRisk f g sp k v) fDR
    if fmtInt g then
      let r := roundI g m w
      ⟨r.1.code, r.1.fl ||| flIf (s && !r.2) fNX ||| dr⟩
    else
      let r := match sp with | some c => roundSp c m w | none => roundF g m w
      let mag := if g = .e2m1 ∧ sp.isSome ∧ r.code = 8 then (if specialTiny (sp.getD 0) then 1 else 2) else r.code % 2 ^ (fmtBits g - 1)
      ⟨r.code, r.fl ||| flIf s fNX ||| flIf (s && decide (mag < 2 ^ (fmtP g).mb)) fUF ||| dr⟩

-- blocks

/-- Elements of a block (R126). -/
def elems (g : Fmt) : Nat := 512 / fmtBits g
/-- The FMT code of a format (R92). -/
def fmtNum (g : Fmt) : Nat := g.code.toNat + 1

def hdrFmt (h : Word) : Nat := (h.extractLsb' 0 8).toNat
def hdrScale (h : Word) : Nat := (h.extractLsb' 8 8).toNat
def hdrSpecial (h : Word) : Nat := (h.extractLsb' 16 8).toNat
def hdrSpe (h : Word) : Bool := h.getLsbD 24
def mkHdr (fmt scale special : Nat) (spe : Bool) : Word :=
  BitVec.ofNat 32 (fmt + 256 * scale + 65536 * special + (if spe then 2 ^ 24 else 0))

/-- A malformed header (R94). -/
def badHdr (h : Word) : Bool :=
  decide (10 < hdrFmt h) || h.extractLsb' 25 7 != 0 || (hdrSpe h && hdrFmt h != 6) || (hdrFmt h == 0 && h != 0)

/-- The shift t of R106. -/
def scaleShift : Fmt → Option Nat
  | .e2m1 | .int4 => some 2
  | .int8 => some 6
  | .e4m3 | .uint8 => some 7
  | .e5m2 | .fp16 => some 14
  | _ => none

/-- BlockScale (R106) for a greatest magnitude m × 2^e. -/
def blockScale (m : Nat) (e : Int) (g : Fmt) : Nat :=
  match scaleShift g with
  | none => 127
  | some t => if m = 0 then 127 else (min (max ((Nat.log2 m : Int) + e - t + 127) 0) 254).toNat

/-- The element of greatest finite magnitude, the lowest-numbered on a tie (R106, R107). DEDUCED, log 80:
an infinity is not R107's element of greatest magnitude. -/
def greatest : List Val → Bool × Nat × Int
  | [] => (false, 0, 0)
  | v :: r =>
    let g := greatest r
    match v with
    | .fin n m e => if cmpMag m e g.2.1 g.2.2 == .lt then g else (n, m, e)
    | _ => g

/-- The bits of a block's codes as one number (R92). -/
def layCodes (b : Nat) : List Nat → Nat
  | [] => 0
  | c :: r => c + 2 ^ b * layCodes b r

/-- The 16 data words of a number of 512 bits. -/
def blockWords (x : Nat) : List Word := (List.range 16).map fun i => BitVec.ofNat 32 (x / 2 ^ (32 * i))

/-- A committed block: its codes, header and flags. -/
structure Block where
  codes : List Nat
  hdr : Word
  fl : Fl
  deriving DecidableEq, Repr

/-- The block that PACK forms from values of format F with their S (R131, R106, R107). -/
def packBlock (xs : List Img) (f g : Fmt) (m : Mode) (as sp : Bool) : Block :=
  let vs := xs.map fun x => decodeF f (pay x).toNat
  let big := greatest vs
  let scale := if as then blockScale big.2.1 big.2.2 g else 127
  let k : Int := (scale : Int) - 127
  if g = .e2m1 ∧ (vs.any Val.isNan ∨ (as ∧ vs.any Val.isInf)) then
    ⟨xs.map fun _ => 0, mkHdr (fmtNum g) 255 0 false, fNV⟩
  else
    let special := if sp then some (roundF .e4m3 .ne (Val.scale (.fin big.1 big.2.1 big.2.2) k)).code else none
    let rs := xs.map fun x => commitRound x f g m k special
    ⟨rs.map (·.code), mkHdr (fmtNum g) scale (special.getD 0) special.isSome, rs.foldl (fun a r => a ||| r.fl) 0⟩

/-- INT32 images committed to an integer block: PACK's rounding of their integer values, where a set S
raises NX unless the element saturated (R216, R103, R105). -/
def packInts (xs : List Img) (g : Fmt) (m : Mode) (as : Bool) : Block :=
  let big := greatest (xs.map fun x => valI (pay x).toInt)
  let scale := if as then blockScale big.2.1 big.2.2 g else 127
  let k : Int := (scale : Int) - 127
  let rs := xs.map fun x =>
    let r := roundI g m ((valI (pay x).toInt).scale k)
    (⟨r.1.code, r.1.fl ||| flIf (sticky x && !r.2) fNX⟩ : Rnd)
  ⟨rs.map (·.code), mkHdr (fmtNum g) scale 0 false, rs.foldl (fun a r => a ||| r.fl) 0⟩

/-- A block's 17 fragment words (R131, R206). -/
def Block.frag (b : Block) (g : Fmt) : List Word := blockWords (layCodes (fmtBits g) b.codes) ++ [b.hdr]

/-- Element i's code of a block of 16 words (R92). -/
def elemCode (ws : List Word) (g : Fmt) (i : Nat) : Nat :=
  let b := fmtBits g
  ((ws.getD (i * b / 32) 0).toNat / 2 ^ (i * b % 32)) % 2 ^ b

/-- The value of a block's element under its header (R93, R95); format 0 reads as +0. -/
def elemVal (h : Word) (g : Fmt) (code : Nat) : Val :=
  if hdrFmt h = 0 then .fin false 0 0
  else if fmtInt g then valI (decodeI g code)
  else if hdrScale h = 255 then .nan
  else
    let v := if g = .e2m1 ∧ code % 16 = 8 ∧ hdrSpe h then decodeF .e4m3 (hdrSpecial h) else decodeF g code
    v.scale (127 - (hdrScale h : Int))

-- exact sums (R110)

/-- A product of two values; an infinity times zero is NaN. -/
def Val.mul : Val → Val → Val
  | .nan, _ => .nan
  | _, .nan => .nan
  | .inf a, y => if y.isZero then .nan else .inf (a != y.neg)
  | x, .inf b => if x.isZero then .nan else .inf (x.neg != b)
  | .fin a m e, .fin b n f => .fin (a != b) (m * n) (e + f)

/-- The exact sum of finite terms: a signed integer and its exponent. -/
def sumFin : List Val → Int × Int
  | [] => (0, 0)
  | .fin n m e :: r =>
    let t := sumFin r
    let f := min e t.2
    ((if n then -(m : Int) else m) * (p2 (e - f) : Int) + t.1 * (p2 (t.2 - f) : Int), f)
  | _ :: r => sumFin r

/-- ExactSum of terms (R110): `opNan` says that an operand of some term was NaN. -/
def exactSum (ts : List Val) (opNan : Bool) (m : Mode) : Img × Fl :=
  let pinf := ts.contains (.inf false)
  let ninf := ts.contains (.inf true)
  if ts.any Val.isNan || (pinf && ninf) then (pureImg 0x7FC00000#32, flIf (!opNan) fNV)
  else if pinf then (pureImg 0x7F800000#32, 0)
  else if ninf then (pureImg 0xFF800000#32, 0)
  else
    let s := sumFin ts
    if s.1 = 0 then (0, 0) else fp32Res m (.fin (decide (s.1 < 0)) s.1.natAbs s.2)

/-- The FP32 value of a payload (R98). -/
def f32 (x : Img) : Val := decodeF .fp32 (pay x).toNat

/-- ExactSum of FP32 images. -/
def sum32 (xs : List Img) (m : Mode) : Img × Fl :=
  let vs := xs.map f32
  exactSum vs (vs.any Val.isNan) m

/-- Compares two values that are not NaN; zeros are equal. -/
def cmpVal (a b : Val) : Ordering :=
  let s := sumFin [a, match b with | .fin n m e => .fin (!n) m e | v => v]
  match a, b with
  | .inf x, .inf y => if x = y then .eq else if x then .lt else .gt
  | .inf x, _ => if x then .lt else .gt
  | _, .inf y => if y then .gt else .lt
  | _, _ => compare s.1 0

end Sys2Proof.Machine
end

