-- ==== Sys2Proof/Machine/MatSum.lean ====
section
/-! DEFINITION. What the matrix engine computes: fragments (R206, R208), the sums of MMA (R214), the drain
of MMAD (R215), the commits of MCVT (R216), and the registers an instruction reads while matrix operations
are outstanding (R25, R210). -/

namespace Sys2Proof.Machine

/-- A register as a matrix operation reads it: where it was written after issue, one of the values it has had
since (R210). -/
def MtxOp.read (o : MtxOp) (ctr : Nat) (x : Slot) (l n : Nat) : Img :=
  let vs := (if o.void.contains (l, n) then [] else [x.v l n]) ++
    (o.shadows.filter fun h => h.lane == l && h.reg == n).map fun h => if h.of.isSome then x.v l n else h.old
  if vs.length = 1 then vs.headD 0 else vs.getD (Config.freeIndex ctr (1024 * (128 + l) + n) vs.length % vs.length) 0

/-- The elements of the fragment of a lane at a register (R206, R208). -/
def MtxOp.frag (o : MtxOp) (ctr : Nat) (x : Slot) (f : Fmt) (base l : Nat) : List Val :=
  let ws := (List.range 16).map fun i => pay (o.read ctr x l (base + i))
  let hd := pay (o.read ctr x l (base + 16))
  (List.range (elems f)).map fun i => elemVal hd f (elemCode ws f i)

/-- Results of a matrix operation: lane, register, image; and its flags. -/
structure MtxRes where
  regs : List (Nat × Nat × Img)
  fl : Fl
  deriving DecidableEq, Repr

def MtxRes.join (a b : MtxRes) : MtxRes := ⟨a.regs ++ b.regs, a.fl ||| b.fl⟩

/-- The integer a value stands for; the elements of integer blocks and INT32 words are integers. -/
def Val.int : Val → Int
  | .fin n m e => if n then -((m * p2 e : Nat) : Int) else ((m * p2 e : Nat) : Int)
  | _ => 0

/-- One output element (R214): the terms' products and the old accumulator. -/
def mmaElem (isInt : Bool) (m : Mode) (a b : List Val) (acc : Option Img) : Img × Fl :=
  if isInt then
    let t := ((a.zip b).map fun p => p.1.int * p.2.int).sum + (match acc with | some c => (pay c).toInt | none => 0)
    (pureImg (BitVec.ofInt 32 t), flIf (decide (t < -(2 ^ 31)) || decide (2 ^ 31 - 1 < t)) fOF)
  else
    let accs := match acc with | some c => [f32 c] | none => []
    exactSum (((a.zip b).map fun p => p.1.mul p.2) ++ accs) ((a ++ b ++ accs).any Val.isNan) m

/-- The rows of MMA (R211, R214): the new accumulator of each row, and the flags. -/
def MtxOp.mma (o : MtxOp) (ctr : Nat) (x : Slot) (d a b : BitVec 8) (fa fb : Fmt) (rm : RMod) (zc : Bool) : List (Nat × List Img) × Fl :=
  let mode := modeOf (BitVec.ofNat 3 o.fm) rm
  let cols := (List.range 64).map fun j =>
    if o.cols.getLsbD j then o.frag ctr x fb b.toNat j else List.replicate (elems fb) (.fin false 0 0)
  (lanesOf o.rows).foldl (fun r i =>
    let row := o.frag ctr x fa a.toNat i
    let out := cols.zipIdx.map fun c => mmaElem (mmaInt fa) mode row c.1 (if zc then none else some (o.read ctr x i (d.toNat + c.2)))
    (r.1 ++ [(i, out.map (·.1))], out.foldl (fun f e => f ||| e.2) r.2)) ([], 0)

def rowRegs (l base : Nat) (is : List Img) : List (Nat × Nat × Img) := is.zipIdx.map fun e => (l, base + e.2, e.1)

/-- A committed block as the registers of a fragment, S clear. -/
def fragRegs (l base : Nat) (b : Block) (g : Fmt) : List (Nat × Nat × Img) := rowRegs l base ((b.frag g).map pureImg)

/-- What a matrix operation writes, from the registers as they stand. -/
def MtxOp.result (o : MtxOp) (ctr : Nat) (x : Slot) : MtxRes :=
  match o.op with
  | .mma _ d a b fa fb rm zc =>
    let r := o.mma ctr x d a b fa fb rm zc
    ⟨r.1.flatMap fun e => rowRegs e.1 d.toNat e.2, r.2⟩
  | .mmad _ d e a b fa fb rm zc =>
    let r := o.mma ctr x d a b fa fb rm zc
    r.1.foldl (fun t row =>
      let k := packBlock row.2 .fp32 .e4m3 (Mode.of (BitVec.ofNat 3 o.fm)) true false
      t.join ⟨rowRegs row.1 d.toNat row.2 ++ fragRegs row.1 e.toNat k .e4m3, k.fl⟩) ⟨[], r.2⟩
  | .mcvt _ d a g i32 rm as sp hi vh =>
    let mode := modeOf (BitVec.ofNat 3 o.fm) rm
    (lanesOf o.rows).foldl (fun t l =>
      let rd (base n : Nat) : List Img := (List.range n).map fun i => o.read ctr x l (base + i)
      let xs := match g with
        | .bf16 | .fp16 => rd (a.toNat + if hi then 32 else 0) 32
        | .e2m1 | .int4 => rd a.toNat 64 ++ (match vh with | some h => rd h.toNat 64 | none => List.replicate 64 0)
        | _ => rd a.toNat 64
      let k := if i32 then packInts xs g mode as else packBlock xs .fp32 g mode as sp
      t.join ⟨fragRegs l d.toNat k g, k.fl⟩) ⟨[], 0⟩
  | _ => ⟨[], 0⟩

/-- The registers as an instruction reads them beside outstanding matrix operations: of each register and
lane they write, the old value or the new one (R25, R209). -/
def Slot.mtxView (x : Slot) (ctr : Nat) : Slot :=
  (x.mtx.foldl (fun t o =>
    (o.result ctr t.1).regs.foldl (fun t r =>
      (t.1.raw (.v r.1 r.2.1) r.2.2, if Config.freeBit ctr (256 + r.1) r.2.1 then t.2.raw (.v r.1 r.2.1) r.2.2 else t.2)) t) (x, x)).2

end Sys2Proof.Machine
end

