-- ==== Sys2Proof/Machine/SaveFmt.lean ====
section
/-! DEFINITION. The save area of a swarm (R281) and the core record of a colony (R282): their layouts,
writing and reading. A field is an offset, a size in bytes and a value. -/

namespace Sys2Proof.Machine

/-- Offset, size in bytes, value. -/
abbrev Field := Nat × Nat × Nat

/-- Writes an area: zeros, then its fields. -/
def State.wrArea (s : State) (a len : Nat) (fs : List Field) : State :=
  fs.foldl (fun s f => s.wrNat (a + f.1) f.2.1 f.2.2) (s.wrBytes a (List.replicate len 0))

def b2n (b : Bool) : Nat := if b then 1 else 0

def swarmLen (w : Nat) : Nat := 0x12300 + 264 * w
def coreRecLen (spad : Nat) : Nat := 0x9600 + spad + spad / 16

/-- The number of a family within an area: 0 for the whole swarm, else its place in the list. -/
def Slot.famNum (x : Slot) (f : Nat) : Nat :=
  if f = 0 then 0 else 1 + (x.fams.findIdx (·.id == f))

/-- OUTER of a family: 0xFF for none. -/
def Slot.outerNum (x : Slot) (f : Nat) : Nat :=
  match x.fam? f with
  | none => 0xFF
  | some g => if g.outer = 0 then 0xFF else x.famNum g.outer

/-- STATE, ARG, LEFT, TCAUSE, TINFO, TADDR and fault number of a member (R281). -/
def Member.saveState (m : Member) (now : Nat) : Nat × Nat × Nat × Nat × Nat × Nat × Nat :=
  match m.st with
  | .rcv => (1, 0, 0, 0, 0, 0, 0)
  | .bar b => (2, b, 0, 0, 0, 0, 0)
  | .sleep l _ => (3, 0, l - now, 0, 0, 0, 0)
  | .merge => (4, 0, 0, 0, 0, 0, 0)
  | .undispatched e => (5, e, 0, 0, 0, 0, 0)
  | .trap t => (6, 0, 0, t.cause, t.info.toNat, t.addr.toNat, 0)
  | .fault q a => (7, 0, 0, 8, 0, a.toNat, q)
  | .ringFull _ _ a _ => (7, 0, 0, 8, 0, a.toNat, 0)
  | _ => match m.left with
    | some n => (3, 0, n, 0, 0, 0, 0)
    | none => (0, 0, 0, 0, 0, 0, 0)

/-- The barriers a fibre has arrived at in their current rounds. -/
def arrivedBits (col : Colony) (fid : Nat) : Nat :=
  (col.bars.zipIdx.map fun b => if b.1.fids.contains fid then 2 ^ b.2 else 0).sum

/-- The frame fields of R281; `k` counts from the base. -/
def frameFields (x : Slot) (now l : Nat) (f : Frame) (k : Nat) : List Field :=
  let o := 0x02300 + 1024 * l + 64 * k
  let r := x.xs.find? (·.id == f.x)
  let t := match r with
    | some r => r.before + (match r.start with | some t0 => now - t0 | none => 0)
    | none => 0
  [(o, 4, f.vtb), (o + 4, 4, f.veb), (o + 8, 2, f.vql), (o + 0xA, 1, f.entry + 16 * f.tier),
   (o + 0xB, 1, b2n f.report.isSome), (o + 0xC, 2, f.report.getD 0), (o + 0x10, 8, f.table.toNat), (o + 0x18, 8, f.ret.toNat),
   (o + 0x20, 4, min t 0xFFFFFFFF), (o + 0x28, 8, (r.map (·.energy)).getD 0), (o + 0x30, 4, (r.map (·.share)).getD 0),
   (o + 0x34, 4, f.tchg), (o + 0x38, 4, f.echg)]

/-- The fields of a swarm's save area (R281). -/
def swarmFields (s : State) (x : Slot) : List Field :=
  let col := (s.colony? x.grid x.col).getD ⟨0, 0, [], 0, 0, [], 0, 0, 0, false, 0, [], [], [], []⟩
  [(0, 4, 1), (4, 1, x.win / 32), (5, 1, x.members.length), (6, 1, x.prio),
   (7, 1, b2n x.lease.suspended.isSome + 2 * b2n x.lease.requested.isSome), (8, 4, x.fflags.toNat), (0xC, 4, x.fmode.toNat),
   (0x10, 4, x.kids.length * 2 ^ 24), (0x14, 2, (x.lease.suspended.orElse fun _ => x.lease.requested).getD 0),
   (0x18, 4, x.col), (0x1C, 4, x.grid % 2 ^ 32), (0x20, 1, x.rank)] ++
  (x.kids.zipIdx.map fun k => (0x100 + 4 * k.2, 4, k.1 % 2 ^ 32)) ++
  (x.members.zipIdx.flatMap fun m =>
    let o := 0x200 + 64 * m.2
    let v := m.1.saveState s.now
    [(o, 8, m.1.mask.toNat), (o + 8, 8, m.1.pc.toNat), (o + 0x10, 1, v.1), (o + 0x11, 1, x.famNum m.1.fam),
     (o + 0x12, 1, x.outerNum m.1.fam), (o + 0x13, 1, v.2.1), (o + 0x14, 4, v.2.2.1), (o + 0x18, 4, v.2.2.2.1),
     (o + 0x1C, 4, v.2.2.2.2.1), (o + 0x20, 8, v.2.2.2.2.2.1), (o + 0x28, 4, v.2.2.2.2.2.2)]) ++
  (x.lanes.flatMap fun e =>
    let o := 0x1200 + 32 * e.1
    let f := e.2
    [(o, 4, f.fid), (o + 4, 1, 1 + 2 * b2n f.done), (o + 5, 1, f.preds.toNat), (o + 6, 1, f.frames.length),
     (o + 7, 1, x.members.findIdx (·.mask.getLsbD e.1)), (o + 8, 4, f.forks), (o + 0xC, 2, arrivedBits col f.fid)] ++
    (f.frames.reverse.zipIdx.flatMap fun g => frameFields x s.now e.1 g.1 g.2)) ++
  (x.sregs.flatMap fun e => [(0x1A00 + 4 * e.1, 4, (pay e.2).toNat)]) ++
  [(0x2200, 64, (x.sregs.map fun e => if sticky e.2 then 2 ^ e.1 else 0).sum)] ++
  (x.fams.zipIdx.flatMap fun g =>
    let o := 0x2240 + 3 * (g.2 + 1)
    let k := match g.1.kind with | .branch => (1, 0) | .vcall l _ => (2, l) | .merged => (3, 0)
    [(o, 1, x.outerNum g.1.id), (o + 1, 1, k.1), (o + 2, 1, k.2)]) ++
  ((List.range x.win).flatMap fun n =>
    (x.lanes.map fun e => (0x12300 + 256 * n + 4 * e.1, 4, (pay (e.2.v n)).toNat)) ++
    [(0x12300 + 256 * x.win + 8 * n, 8, (x.lanes.map fun e => if sticky (e.2.v n) then 2 ^ e.1 else 0).sum)])

/-- Saves a swarm at a physical address. -/
def State.saveSwarm (s : State) (a : Nat) (x : Slot) : State := s.wrArea a (swarmLen x.win) (swarmFields s x)

/-- The reserved bytes of a swarm area (R281): base, stride, count, first and last byte. -/
def swarmReserved : List (Nat × Nat × Nat × Nat × Nat) :=
  [(0, 256, 1, 0x16, 0x17), (0, 256, 1, 0x21, 0xFF), (0x200, 64, 64, 0x2C, 0x3F), (0x1200, 32, 64, 0x0E, 0x1F),
   (0x2300, 64, 1024, 0x0E, 0x0F), (0x2300, 64, 1024, 0x24, 0x27), (0x2300, 64, 1024, 0x3C, 0x3F)]

def State.zeroRange (s : State) (a n : Nat) : Bool := (s.rdBytes a n).all (· == 0)

def State.reservedOk (s : State) (a : Nat) (l : List (Nat × Nat × Nat × Nat × Nat)) : Bool :=
  l.all fun r => (List.range r.2.2.1).all fun i => s.zeroRange (a + r.1 + r.2.1 * i + r.2.2.2.1) (r.2.2.2.2 + 1 - r.2.2.2.1)

/-- A frame read back; `x` names its record. -/
def State.readFrame (s : State) (a l k x : Nat) : Frame :=
  let o := a + 0x02300 + 1024 * l + 64 * k
  let eb := s.rdNat (o + 0xA) 1
  { vtb := s.rdNat o 4, veb := s.rdNat (o + 4) 4, vql := s.rdNat (o + 8) 2, entry := eb % 16, tier := eb / 16 % 4,
    table := BitVec.ofNat 64 (s.rdNat (o + 0x10) 8), ret := BitVec.ofNat 64 (s.rdNat (o + 0x18) 8),
    tchg := s.rdNat (o + 0x34) 4, echg := s.rdNat (o + 0x38) 4,
    report := if s.rdNat (o + 0xB) 1 % 2 = 1 then some (s.rdNat (o + 0xC) 2) else none, x := x }

/-- The families of an area, as numbers and descriptors. -/
def State.readFams (s : State) (a : Nat) : List Family :=
  (List.range 63).filterMap fun i =>
    let o := a + 0x2240 + 3 * (i + 1)
    let k := s.rdNat (o + 1) 1
    let out := s.rdNat o 1
    let mk (kind : FamKind) : Family := { id := i + 1, outer := if out = 0xFF then 0 else out, kind := kind, ent := none }
    if k = 1 then some (mk .branch) else if k = 2 then some (mk (.vcall (s.rdNat (o + 2) 1) 0)) else if k = 3 then some (mk .merged)
    else none

/-- The VCALL family of a level among the families enclosing one (R281). -/
def enclosing (fams : List Family) (level : Nat) : Nat → Nat → Option Nat
  | 0, _ => none
  | n + 1, f =>
    match fams.find? (·.id == f) with
    | none => none
    | some g => match g.kind with
      | .vcall l _ => if l = level then some f else enclosing fams level n g.outer
      | _ => enclosing fams level n g.outer

/-- The level of the nearest VCALL family among the families that hold one, itself included. -/
def nearestCall (fams : List Family) : Nat → Nat → Option Nat
  | 0, _ => none
  | n + 1, f =>
    match fams.find? (·.id == f) with
    | none => none
    | some g => match g.kind with
      | .vcall l _ => some l
      | _ => nearestCall fams n g.outer

/-- A family stands within another, or is it. -/
def famIn (fams : List Family) (f : Nat) : Nat → Nat → Bool
  | 0, _ => false
  | n + 1, g => g == f || (match fams.find? (·.id == g) with | none => false | some x => famIn fams f n x.outer)

/-- The park state of an entry read back (R281). -/
def State.readPark (s : State) (o : Nat) (pc : Dword) (mask : Mask) : Park :=
  let arg := s.rdNat (o + 0x13) 1
  match s.rdNat (o + 0x10) 1 with
  | 1 => .rcv
  | 2 => .bar arg
  | 4 => .merge
  | 5 => .undispatched arg
  | 6 => .trap { cause := s.rdNat (o + 0x18) 4, pc := pc, mask := mask, addr := BitVec.ofNat 64 (s.rdNat (o + 0x20) 8),
                 info := BitVec.ofNat 32 (s.rdNat (o + 0x1C) 4) }
  | 7 => .fault (s.rdNat (o + 0x28) 4) (BitVec.ofNat 64 (s.rdNat (o + 0x20) 8))
  | _ => .ready

/-- The lowest lane whose frame k agrees with lane l's in what an X_e's frames share (R281): entry, table, return
address, time, energy and refresh share. -/
def State.frameTwin (s : State) (a l k : Nat) : Nat :=
  let key (i : Nat) : Nat × Nat × Nat × Nat × Nat × Nat :=
    let o := a + 0x02300 + 1024 * i + 64 * k
    (s.rdNat (o + 0xA) 1 % 16, s.rdNat (o + 0x10) 8, s.rdNat (o + 0x18) 8, s.rdNat (o + 0x20) 4, s.rdNat (o + 0x28) 8, s.rdNat (o + 0x30) 4)
  ((List.range 64).find? fun i =>
    s.rdNat (a + 0x1200 + 32 * i + 4) 1 % 2 == 1 && decide (k < s.rdNat (a + 0x1200 + 32 * i + 6) 1) && key i == key l).getD l

/-- A swarm read back from its area (R281), for grid id `g`: lanes, members, families, records. -/
def State.loadSwarm (s : State) (a g : Nat) (kids : List Nat) : Slot :=
  let win := 32 * s.rdNat (a + 4) 1
  let fams := s.readFams a
  let nm := s.rdNat (a + 5) 1
  let sp := s.rdNat (a + 0x2200) 64
  let memOf (l : Nat) : Nat := s.rdNat (a + 0x1200 + 32 * l + 7) 1
  let famOf (l : Nat) : Nat := s.rdNat (a + 0x200 + 64 * memOf l + 0x11) 1
  let xid (l k : Nat) : Nat :=
    match enclosing fams (k + 1) (fams.length + 1) (famOf l) with
    | some f => 10000 + 256 * f + 16 * k + s.rdNat (a + 0x02300 + 1024 * l + 64 * k + 0xA) 1 % 16
    | none => 30000 + 16 * s.frameTwin a l k + k
  let lanes := (List.range 64).filterMap fun l =>
    let o := a + 0x1200 + 32 * l
    let oc := s.rdNat (o + 4) 1
    if oc % 2 = 0 then none
    else some (l, { fibreReset with
      fid := s.rdNat o 4, preds := BitVec.ofNat 7 (s.rdNat (o + 5) 1), done := oc / 2 % 2 == 1, forks := s.rdNat (o + 8) 4
      frames := ((List.range (s.rdNat (o + 6) 1)).map fun k => s.readFrame a l k (xid l k)).reverse
      regs := (List.range win).foldl (fun r n =>
        cset 0 r n (img (bitOf (s.rdNat (a + 0x12300 + 256 * win + 8 * n) 8) l)
          (BitVec.ofNat 32 (s.rdNat (a + 0x12300 + 256 * n + 4 * l) 4)))) [] : Fibre })
  let members := (List.range nm).map fun i =>
    let o := a + 0x200 + 64 * i
    let pc := BitVec.ofNat 64 (s.rdNat (o + 8) 8)
    let mask := BitVec.ofNat 64 (s.rdNat o 8)
    ({ id := 64 + i, mask := mask, pc := pc, st := s.readPark o pc mask, fam := s.rdNat (o + 0x11) 1, ent := none,
       last := 0, since := s.now, y := false, len := 4, src := pc
       left := if s.rdNat (o + 0x10) 1 = 3 then some (s.rdNat (o + 0x14) 4) else none } : Member)
  let retOf (f l : Nat) : Dword :=
    match lanes.find? fun e => decide (l ≤ e.2.frames.length) && enclosing fams l (fams.length + 1) (famOf e.1) == some f with
    | some e => (e.2.frames.reverse.getD (l - 1) ⟨0, 0, 0, 0, 0, 0, 0, 0, 0, none, 0⟩).ret
    | none =>
      match members.find? fun m => m.fam == f && m.st == .merge with
      | some m => m.pc
      | none => 0
  let fams' := fams.map fun f => match f.kind with
    | .vcall l _ => { f with kind := FamKind.vcall l (retOf f.id l) }
    | _ => f
  let undisp := (members.filter fun m => match m.st with | .undispatched _ => true | _ => false).foldl (fun k m => k ||| m.mask) 0#64
  let xs := lanes.foldl (fun (xs : List XRec) e =>
    e.2.frames.reverse.zipIdx.foldl (fun xs f =>
      if xs.any (·.id == f.1.x) then xs
      else
        let o := a + 0x02300 + 1024 * e.1 + 64 * f.2
        let top := f.2 + 1 == e.2.frames.length
        xs ++ [{ id := f.1.x, entry := f.1.entry, table := f.1.table,
                 start := if top && undisp.getLsbD e.1 then none else some s.now,
                 before := s.rdNat (o + 0x20) 4, energy := s.rdNat (o + 0x28) 8, share := s.rdNat (o + 0x30) 4 }]) xs) []
  -- the X_e that the lanes of a member or family stand in: the entry of their frame at the nearest VCALL's level
  let entAt (f : Nat) (mine : Nat → Bool) : Option Nat :=
    (nearestCall fams (fams.length + 1) f).bind fun l =>
      ((lanes.find? fun e => mine e.1 && decide (l ≤ e.2.frames.length)).map fun e =>
        (e.2.frames.reverse.getD (l - 1) ⟨0, 0, 0, 0, 0, 0, 0, 0, 0, none, 0⟩).entry)
  let fams'' := fams'.map fun f => { f with ent := entAt f.outer fun l => famIn fams f.id (fams.length + 1) (famOf l) }
  let lse := s.rdNat (a + 7) 1
  let ops := s.rdNat (a + 0x14) 2
  { grid := g, col := s.rdNat (a + 0x18) 4, rank := s.rdNat (a + 0x20) 1, slice := 0, win := win, form := 0, lanes := lanes
    sregs := (List.range 512).foldl (fun r n => cset 0 r n (img (bitOf sp n) (BitVec.ofNat 32 (s.rdNat (a + 0x1A00 + 4 * n) 4)))) []
    fmode := BitVec.ofNat 3 (s.rdNat (a + 0xC) 4), fflags := BitVec.ofNat 6 (s.rdNat (a + 8) 4), prio := s.rdNat (a + 6) 1
    cychi := 0, latch := monReset, members := members.map fun m => { m with ent := entAt m.fam m.mask.getLsbD }, fams := fams'', nextId := 40000, late := []
    copies := [], mtx := [], posts := 0, kids := kids, xs := xs
    lease := ⟨if lse % 2 = 1 then some ops else none, if lse / 2 % 2 = 1 then some ops else none⟩
    due := [], badRegs := [], last := 0, stopped := false }

-- core records (R282)

def tileCode : TileSt → Nat
  | .ready => 2
  | _ => 0

/-- The fields of the record of a colony on a core, at rank `r`, for the allocation `al`. -/
def coreFields (s : State) (c : Nat) (g k : Nat) (al : Alloc) : List Field :=
  let x := s.core c
  let colo := s.colony? g k
  let head := [(0, 4, 2), (4, 4, k), (8, 4, g % 2 ^ 32), (0xC, 1, al.rank), (0xD, 1, (colo.map (·.cores.length)).getD 0), (0x10, 4, al.size)]
  let r0 := match al.rank, colo with
    | 0, some z => [(0x14, 4, z.live), (0x18, 4, z.nextFid), (0x1C, 8, z.energy), (0x24, 8, z.refresh)] ++
        (z.bars.zipIdx.flatMap fun b => [(0x40 + 16 * b.2, 4, b.1.expected), (0x44 + 16 * b.2, 4, b.1.arrived), (0x48 + 16 * b.2, 4, b.1.form)])
    | _, _ => []
  let tiles := (x.tiles.filter fun t => t.2.grid == g && t.2.col == k).flatMap fun t =>
    let o := 0x200 + 16 * t.1
    [(o, 1, 128 + tileCode t.2.st), (o + 2, 2, t.2.count), (o + 4, 2, t.2.readers), (o + 6, 2, t.2.size), (o + 8, 4, t.2.off)]
  let bins := ((x.bins.filter fun b => b.1 < 16 ∧ b.2.grid = g ∧ b.2.col = k).flatMap fun b =>
    let o := 0x1200 + 0x840 * b.1
    [(o, 8, b.2.entry.toNat), (o + 8, 1, min b.2.fibres.length 64), (o + 0xC, 4, b.2.limit - s.now)] ++
    ((b.2.fibres.take 64).zipIdx.flatMap fun f =>
      let p := o + 0x40 + 32 * f.2
      [(p, 4, f.1.fid.getD 0xFFFFFFFF), (p + 4, 4, f.1.parent), (p + 8, 4, f.1.seq),
       (p + 0xC, 1, (f.1.args.zipIdx.map fun a => if sticky a.1 then 2 ^ a.2 else 0).sum)] ++
      (f.1.args.zipIdx.map fun a => (p + 0x10 + 4 * a.2, 4, (pay a.1).toNat))))
  let data := (x.spad.filter fun e => al.off ≤ e.1 ∧ e.1 < al.off + al.size).map fun e => (0x9600 + (e.1 - al.off), 1, e.2.toNat)
  let hdrs := (x.spadHdr.filter fun e => al.off ≤ 64 * e.1 ∧ 64 * e.1 < al.off + al.size).map fun e =>
    (0x9600 + al.size + 4 * (e.1 - al.off / 64), 4, e.2.toNat)
  head ++ r0 ++ tiles ++ bins ++ data ++ hdrs

/-- Writes a colony's core record and releases its allocation, tiles and bins of the core (R279). The
fibres of its overflow parts and overflow bins stay in the backing region (R14), their timers stopped (R280). The colony keeps
count of what the saved bins stand for (R16, R18). -/
def State.saveCoreRec (s : State) (c g k a : Nat) : State :=
  match (s.core c).allocs.find? fun x => x.grid == g && x.col == k with
  | none => s
  | some al =>
    let own := ((s.core c).bins.filter fun b => b.1 < 16 ∧ b.2.grid = g ∧ b.2.col = k).map fun b => b.2.fibres.take 64
    let s := (s.wrArea a (coreRecLen al.size) (coreFields s c g k al)).onColony g k fun z =>
      { z with away := z.away.filter (·.1 != c) ++ [(c, own.length, (own.map fun l => l.countP (·.fid == none)).sum)] }
    s.onCore c fun x =>
      { x with
        allocs := x.allocs.filter fun y => !(y.grid == g && y.col == k)
        tiles := x.tiles.filter fun t => !(t.2.grid == g && t.2.col == k)
        bins := x.bins.filterMap fun b =>
          if b.2.grid ≠ g ∨ b.2.col ≠ k then some b
          else if 16 ≤ b.1 then some (b.1, { b.2 with limit := b.2.limit - s.now })
          else if b.2.fibres.length > 64 then some (b.1 + 1024, { b.2 with fibres := b.2.fibres.drop 64 })
          else none }

def coreReserved : List (Nat × Nat × Nat × Nat × Nat) :=
  (List.range 64).map (fun j => (0x1240 + 32 * j, 0x840, 16, 0xD, 0xF)) ++
  [(0, 64, 1, 0x0E, 0x0F), (0, 64, 1, 0x2C, 0x3F), (0x40, 16, 16, 0x0C, 0x0F), (0x140, 192, 1, 0, 0xBF), (0x200, 16, 256, 1, 1),
   (0x200, 16, 256, 0xC, 0xF), (0x1200, 0x840, 16, 9, 0xB), (0x1200, 0x840, 16, 0x10, 0x3F)]

/-- Restores a colony on a core from its record, at scratchpad offset `off` (R280). The barriers and counters of rank 0
stand in the colony once a core of it is restored: what its swarms have changed there since holds. -/
def State.loadCoreRec (s : State) (c g k a off : Nat) : State :=
  let others := s.cores.any fun x => x.1 != c && x.2.allocs.any fun y => y.grid == g && y.col == k
  let rank := s.rdNat (a + 0xC) 1
  let size := s.rdNat (a + 0x10) 4
  let tiles := (List.range 256).filterMap fun t =>
    let o := a + 0x200 + 16 * t
    let b := s.rdNat o 1
    if b < 128 then none
    else some (t, ({ grid := g, col := k, off := s.rdNat (o + 8) 4, size := s.rdNat (o + 6) 2, readers := s.rdNat (o + 4) 2
                     count := s.rdNat (o + 2) 2, st := if b % 4 = 2 then .ready else .empty } : Tile))
  let spare := (s.core c).bins.filter fun b => b.1 ≥ 1024 ∧ b.2.grid = g ∧ b.2.col = k
  let bins := (List.range 16).filterMap fun i =>
    let o := a + 0x1200 + 0x840 * i
    let n := s.rdNat (o + 8) 1
    if n = 0 then none
    else
      let fs := (List.range n).map fun j =>
        let p := o + 0x40 + 32 * j
        let fid := s.rdNat p 4
        ({ fid := if fid = 0xFFFFFFFF then none else some fid, parent := s.rdNat (p + 4) 4, seq := s.rdNat (p + 8) 4
           args := (List.range 4).map fun r => img (bitOf (s.rdNat (p + 0xC) 1) r) (BitVec.ofNat 32 (s.rdNat (p + 0x10 + 4 * r) 4)) } : BinFibre)
      some (i, ({ grid := g, col := k, entry := BitVec.ofNat 64 (s.rdNat o 8), limit := s.now + s.rdNat (o + 0xC) 4
                  fibres := fs ++ ((spare.find? (·.1 == i + 1024)).map (·.2.fibres)).getD [] } : Bin))
  -- a bin takes a free number, and where another colony holds all sixteen one of the overflow region (log 97)
  let free := (List.range (32 + (s.core c).bins.length)).filter fun i => !((s.core c).bins.any (·.1 == i))
  let placed := bins.zipIdx.map fun b => (free.getD b.2 b.1.1, b.1.2)
  let s := s.onCore c fun x =>
    { x with
      allocs := x.allocs ++ [{ grid := g, col := k, rank := rank, off := off, size := size }]
      tiles := tiles.foldl (fun l t => lput l t.1 t.2) x.tiles
      bins := placed.foldl (fun l b => lput l b.1 b.2) (x.bins.filterMap fun b =>
        if b.2.grid ≠ g ∨ b.2.col ≠ k then some b
        else if 1024 ≤ b.1 then none
        else some (b.1, { b.2 with limit := b.2.limit + s.now }))
      spad := (List.range size).foldl (fun m i => cset 0 m (off + i) (s.rdByte (a + 0x9600 + i))) x.spad
      spadHdr := (List.range (size / 64)).foldl (fun m i => cset 0 m (off / 64 + i) (BitVec.ofNat 32 (s.rdNat (a + 0x9600 + size + 4 * i) 4))) x.spadHdr
      restoring := x.restoring.filter (· != (g, k)) }
  let s := s.onColony g k fun z => { z with away := z.away.filter (·.1 != c) }
  if rank = 0 && !others then
    s.onColony g k fun z =>
      { z with live := s.rdNat (a + 0x14) 4, nextFid := s.rdNat (a + 0x18) 4, energy := s.rdNat (a + 0x1C) 8, refresh := s.rdNat (a + 0x24) 8
               bars := z.bars.zipIdx.map fun b =>
                 { b.1 with expected := s.rdNat (a + 0x40 + 16 * b.2) 4, arrived := s.rdNat (a + 0x44 + 16 * b.2) 4, form := s.rdNat (a + 0x48 + 16 * b.2) 4 } }
  else s

end Sys2Proof.Machine
end

