-- ==== Sys2Proof/Machine/Records.lean ====
section
/-! DEFINITION. Fault records (R298), queue faults (R297), the save layout (R299) and the pre-emption of a
queue's slots (R279). -/

namespace Sys2Proof.Machine

/-- A fault record (R298). The defaults are those of a record on the device's own account. -/
structure FaultRec where
  kind : Nat
  acc : Nat := 0
  core : Nat := 0
  seq : Nat := 0
  gridid : Nat := 0
  colid : Nat := 0xFFFFFFFF
  swid : Nat := 0xFF
  tcause : Nat := 0
  pc : Nat := 0
  mask : Nat := 0
  addr : Nat := 0
  info : Nat := 0
  deriving DecidableEq, Repr

/-- The ring of a queue is full (R298). -/
def Queue.full (x : Queue) : Bool := decide (2 ^ x.logF ≤ (x.fqTail + 2 ^ 32 - x.fqHead) % 2 ^ 32)

def recFields (q : Nat) (r : FaultRec) : List Field :=
  [(0, 1, r.kind), (1, 1, r.acc), (2, 2, r.core), (4, 4, r.seq), (8, 4, r.gridid % 2 ^ 32), (0xC, 4, r.colid), (0x10, 1, r.swid),
   (0x11, 1, q), (0x14, 4, r.tcause), (0x18, 8, r.pc), (0x20, 8, r.mask), (0x28, 8, r.addr), (0x30, 4, r.info)]

/-- Where the next record of a queue goes. -/
def Queue.recAddr (x : Queue) : Nat := x.fq + 64 * (x.fqTail % 2 ^ x.logF)

/-- Writes a fault record and advances FQTAIL; none without a ring, and none while the ring is full. -/
def State.writeRecord (s : State) (q : Nat) (r : FaultRec) : State :=
  let x := s.queue q
  if x.fq = 0 ∨ x.full ∨ !s.allowedRange q x.recAddr 64 .write then s
  else (s.wrArea x.recAddr 64 (recFields q r)).onQueue q fun x => { x with fqTail := (x.fqTail + 1) % 2 ^ 32 }

def State.queueOf (s : State) (g : Nat) : Nat := ((s.grid? g).map (·.q)).getD 0

/-- The resident slots of a queue: core, SWID, slot, in ascending core and SWID. -/
def State.slotsOf (s : State) (q : Nat) : List (Nat × Nat × Slot) :=
  s.cores.flatMap fun c => (c.2.slots.filter fun n => s.queueOf n.2.grid == q).map fun n => (c.1, n.1, n.2)

/-- Inserts an allocation in launch order of its grid and then COLID (R299). -/
def insAlloc (a : Alloc) : List Alloc → List Alloc
  | [] => [a]
  | b :: r => if a.grid < b.grid ∨ (a.grid = b.grid ∧ a.col ≤ b.col) then a :: b :: r else b :: insAlloc a r

/-- A record to be saved: kind, core, SWID or rank, GRIDID, COLID, length (R299). -/
structure SaveItem where
  kind : Nat
  core : Nat
  id : Nat
  grid : Nat
  col : Nat
  len : Nat
  deriving DecidableEq, Repr

/-- The records of a queue in the order of R299. -/
def State.saveItems (s : State) (q : Nat) (skip : Option (Nat × Nat)) : List SaveItem :=
  s.cores.flatMap fun c =>
    ((c.2.slots.filter fun n => s.queueOf n.2.grid == q && skip != some (c.1, n.1)).map fun n =>
      (⟨1, c.1, n.1, n.2.grid, n.2.col, swarmLen n.2.win⟩ : SaveItem)) ++
    (((c.2.allocs.filter fun a => s.queueOf a.grid == q).foldl (fun l a => insAlloc a l) []).map fun a =>
      (⟨2, c.1, a.rank, a.grid, a.col, coreRecLen a.size⟩ : SaveItem))

/-- The offsets of the records, each at the lowest 64 KiB boundary after the one before, and the end. -/
def layOut : Nat → List SaveItem → List (Nat × SaveItem) × Nat
  | o, [] => ([], o)
  | o, i :: r =>
    let p := (o + 65535) / 65536 * 65536
    let rest := layOut (p + i.len) r
    ((p, i) :: rest.1, rest.2)

/-- The directory entry of a record, its fields packed in the order R299 lists them. -/
def dirFields (base : Nat) (e : Nat × SaveItem) : List Field :=
  [(0, 1, e.2.kind), (1, 2, e.2.core), (3, 1, e.2.id), (4, 4, e.2.grid % 2 ^ 32), (8, 4, e.2.col), (12, 8, base + e.1), (20, 4, e.2.len)]

/-- The address the save directory gives a record; the search reads at most `n` entries, for the handler or the core as the
handler's master (R302, log 98). -/
def State.dirFind (s : State) (d kind core id grid col : Nat) : Nat → Option Nat
  | 0 => none
  | n + 1 =>
    if s.rdNat d 1 = 0 || !s.allowedRange mHandler d 32 .read then none
    else if s.rdNat d 1 = kind ∧ s.rdNat (d + 1) 2 = core ∧ s.rdNat (d + 3) 1 = id ∧ s.rdNat (d + 4) 4 = grid % 2 ^ 32 ∧ s.rdNat (d + 8) 4 = col
    then some (s.rdNat (d + 12) 8)
    else State.dirFind s (d + 32) kind core id grid col n

/-- The number of directory entries a search may need: every slot and every colony of every core. -/
def dirMax : Nat := 240 * 128

def State.dirAddr (s : State) (q kind core id grid col : Nat) : Option Nat := s.dirFind (s.queue q).sdir kind core id grid col dirMax

/-- A save directory lists an area at a physical address; the search reads at most `n` entries, as the handler (R302, log 98). -/
def State.dirLists (s : State) (d a : Nat) : Nat → Bool
  | 0 => false
  | n + 1 => s.rdNat d 1 != 0 && s.allowedRange mHandler d 32 .read && ((s.rdNat d 1 == 1 && s.rdNat (d + 12) 8 == a) || State.dirLists s (d + 32) a n)

/-- STOPPING ends once no slot of the queue awaits or is in the service of a PREEMPT, and none that an ERET has resumed is
still to be saved or to end (R279, R297; log 99). -/
def State.finishStop (s : State) (q : Nat) : State :=
  let waits (c : Nat) (p : Pend) : Bool := p.mem == none && ((s.slot? c p.slot).map fun x => s.queueOf x.grid == q).getD false
  let busy := s.cores.any fun c =>
    c.2.handler.pending.any (waits c.1) || (c.2.slots.any fun n => n.2.resumed && s.queueOf n.2.grid == q) || (match c.2.handler.service with | some p => waits c.1 p && !c.2.handler.saved | none => false)
  if (s.queue q).st = .stopping ∧ busy = false then s.onQueue q fun x => { x with st := x.outcome } else s

/-- A lease or an ungranted request that a trap or pre-emption stops is suspended (R220). -/
def Core.suspendLease (k : Core) (n seq : Nat) : Core :=
  let e := k.engine
  let held := match e.holder with | some (m, left) => if m = n then some left else none | none => none
  let asked := (e.requests.find? (·.1 == n)).map (·.2)
  if held.isNone && asked.isNone then k
  else
    let k := { k with engine := { e with
      holder := if held.isSome then none else e.holder
      drainTo := if held.isSome then seq else e.drainTo
      requests := e.requests.filter (·.1 != n) } }
    match k.slot? n with
    | some x => k.setSlot n { x with lease := ⟨held.orElse fun _ => x.lease.suspended, asked.orElse fun _ => x.lease.requested⟩ }
    | none => k

/-- A raised trap joins the pending list: traps of one cycle stand in ascending SWID (R275). -/
def addPend (p : Pend) : List Pend → List Pend
  | [] => [p]
  | a :: r => if a.cyc = p.cyc ∧ p.slot < a.slot then p :: a :: r else a :: addPend p r

/-- PREEMPT for a slot (R279): one trap for all its members, after those already pending. -/
def Core.preemptSlot (k : Core) (n q seq now : Nat) : Core :=
  match k.slot? n with
  | none => k
  | some x =>
    let pc := ((x.members.find? fun m => m.mask.getLsbD (lowest x.occupied)).map (·.pc)).getD 0
    let k := (k.setSlot n { x with stopped := true, resumed := false }).suspendLease n seq
    let tr : TrapRec := { cause := 0x13, pc := pc, mask := x.occupied, addr := 0, info := BitVec.ofNat 32 q }
    { k with handler := { k.handler with pending := addPend { cyc := now, slot := n, mem := none, tr := tr } k.handler.pending } }

/-- Stops a queue's slots: the layout first (R299), then one PREEMPT per slot in ascending core and SWID;
a colony with no swarm resident on a core is recorded there at once (R279). The management core and the core reach memory as
the masters of R302 (log 98). -/
def State.stopQueue (s : State) (q : Nat) (outcome : QSt) (skip : Option (Nat × Nat)) : State :=
  let x := s.queue q
  let lay := layOut 0 (s.saveItems q skip)
  if lay.2 > 65536 * x.sregSz then
    let s := s.onQueue q fun x => { x with st := .faulted, freason := 7, parse := .idle }
    let s := s.writeRecord q { kind := 3, tcause := 7 }
    (s.slotsOf q).foldl (fun s e => s.onSlot e.1 e.2.1 fun y => { y with stopped := true, resumed := false }) s
  else
    let entry (i : Nat) (f : List Field) (s : State) : State :=
      if s.allowedRange mCore (x.sdir + 32 * i) 32 .write then s.wrArea (x.sdir + 32 * i) 32 f else s
    let s := lay.1.zipIdx.foldl (fun s e => entry e.2 (dirFields x.sreg e.1) s) s
    let s := entry lay.1.length [] s
    let s := s.onQueue q fun x => { x with st := .stopping, outcome := outcome }
    let s := ((s.slotsOf q).filter fun e => skip != some (e.1, e.2.1)).foldl (fun s e => s.onCore e.1 (·.preemptSlot e.2.1 q s.seq s.now)) s
    let s := (lay.1.filter fun e => e.2.kind == 2 &&
        !((s.core e.2.core).slots.any fun n => n.2.grid == e.2.grid && n.2.col == e.2.col) &&
        s.allowedRange mHandler (x.sreg + e.1) e.2.len .write).foldl
      (fun s e => s.saveCoreRec e.2.core e.2.grid e.2.col (x.sreg + e.1)) s
    s.finishStop q

/-- The pending PREEMPT of a slot is given up: the slot of a handler fault is left out (R297), resumed or not. -/
def State.dropPreempt (s : State) (skip : Option (Nat × Nat)) : State :=
  match skip with
  | none => s
  | some e => (s.onSlot e.1 e.2 fun x => { x with resumed := false }).onCore e.1 fun k =>
      { k with handler := { k.handler with pending := k.handler.pending.filter fun p => !(p.slot == e.2 && p.mem.isNone) } }

/-- A queue fault (R297): parsing stops and the slots are pre-empted. `skip` is the slot of a handler fault, and
`addr` the address that an access of the device's own concerns (R298). -/
def State.queueFault (s : State) (q reason : Nat) (skip : Option (Nat × Nat)) (addr : Nat := 0) : State :=
  match (s.queue q).st with
  | .running =>
    let s := s.onQueue q fun x => { x with freason := reason, parse := .idle }
    (s.writeRecord q { kind := 3, tcause := reason, addr := addr }).stopQueue q .faulted skip
  | .stopping =>
    let s := s.onQueue q fun x => { x with freason := reason, parse := .idle, outcome := .faulted }
    ((s.writeRecord q { kind := 3, tcause := reason, addr := addr }).dropPreempt skip).finishStop q
  | _ => s

/-- The next fault sequence number of a queue (R285). -/
def State.takeFault (s : State) (q : Nat) : Nat × State :=
  ((s.queue q).nextFault, s.onQueue q fun x => { x with nextFault := (x.nextFault + 1) % 2 ^ 32 })

end Sys2Proof.Machine
end

