-- ==== Sys2Proof/Machine/Clock.lean ====
section
/-! DEFINITION. Rails and slice clocks (R260 to R267), ageing (R325 to R327), with the events CLKREQ_WRITE,
RAIL_CHANGE_DONE, SLICE_CLOCK_SWITCH, AGEING_MEASURE, MATRIX_BOOST_ACK and MATRIX_BOOST_REMOVE. -/

namespace Sys2Proof.Machine

abbrev Out := Host.Outcome State Fault Refusal

/-- VMIN(n) of R261. -/
def State.vminAt (s : State) (n : Nat) : Nat := s.vmin.getD (n - 4) 0
/-- CEIL of a guard band (R325). -/
def ceilOf (g : Nat) : Nat := 85 - g / 2
def Power.ceil (p : Power) : Nat := ceilOf p.guard
/-- A request, or the steps of R326, is being carried out (R262, R326). -/
def Power.busy (p : Power) : Bool := !p.todo.isEmpty
def Power.slice (p : Power) (i : Nat) : SliceClk := p.slices.getD i sliceReset
def Power.setSlice (p : Power) (i : Nat) (x : SliceClk) : Power := { p with slices := p.slices.set i x }

def Power.mapSlices (p : Power) (f : Nat → SliceClk → SliceClk) : Power :=
  { p with slices := p.slices.zipIdx.map fun e => f e.2 e.1 }

/-- The greatest of Required(n) over the slices' ratios (R261). -/
def State.required (s : State) (g : Nat) (ratios : List Nat) : Nat := (ratios.map fun n => s.vminAt n + g).foldl max 0

/-- The highest ratio of at most `n` that a rail supports (R267, R326). -/
def State.highest (s : State) (v g : Nat) : Nat → Nat
  | 0 => 4
  | n + 1 => if n + 1 ≤ 4 then 4 else if s.vminAt (n + 1) + g ≤ v then n + 1 else s.highest v g n

/-- A slice edge falls on a core cycle (R260). -/
def SliceClk.edge (x : SliceClk) (now : Nat) : Bool :=
  let c := now - x.origin
  c == 0 || decide ((c - 1) * x.ratio / 16 < c * x.ratio / 16)

/-- The first slice edge from a core cycle on: a ratio is at least 4, so one falls within four cycles. -/
def SliceClk.nextEdge (x : SliceClk) (now : Nat) : Nat := (((List.range 4).map (now + ·)).find? x.edge).getD (now + 4)

/-- A slice is in a clock switch (R265): it has passed its freeze edge. -/
def SliceClk.isFrozen (x : SliceClk) (now : Nat) : Bool := match x.frozen with | some f => decide (f ≤ now) | none => false

/-- The ratio a slice has once a switch under way is over (R265). -/
def SliceClk.coming (x : SliceClk) : Nat := if x.frozen.isSome then x.goal else x.ratio

/-- A slice of the core is in a switch, or about to be. -/
def Power.switching (p : Power) : Bool := p.slices.any (·.frozen.isSome)

/-- A forced colony has a swarm on the core, resident or waiting (R247, R267). -/
def State.forcedOn (s : State) (c : Nat) : Bool :=
  let k := s.core c
  s.colonies.any fun x => x.forced && (k.slots.any (fun n => n.2.grid == x.grid && n.2.col == x.col) || k.waiting.any fun w => w.grid == x.grid && w.col == x.col)

/-- The cap of the slices of a core (R267). -/
def State.cap (s : State) (c : Nat) : Nat := if s.forcedOn c || s.thermal.slow then 8 else 16

/-- The ratio a slice is to take under its cap (R267): down to it when it falls, and when it rises back to the last
ratio that CLKREQ set, as far as VSET supports it. -/
def State.capTarget (s : State) (c i : Nat) : Nat :=
  let p := (s.core c).power
  let x := p.slice i
  if s.cap c < x.ratio then s.cap c
  else if x.capped && decide (x.ratio < s.cap c) then max x.ratio (min (min x.want (s.cap c)) (s.highest p.vset p.guard 16))
  else x.ratio

/-- CEIL(c) under a new guard band drops a boost that would stand above it (R264, R266). -/
def Power.publish (p : Power) (g : Nat) : Power := { p with guard := g, boost := p.boost && decide (p.vset < ceilOf g) }

/-- Ends a request, and publishes G' and CEIL', when their steps are done (R262, R263, R326), the switch of a cap among them
(R261; log 100). -/
def popMarks : List ClkAct → Power → Power
  | .done :: r, p => popMarks r { p with seq := (p.seq + 1) % 256, code := 0 }
  | .ageing g :: r, p => if p.switching then { p with todo := .ageing g :: r } else popMarks r (p.publish g)
  | l, p => { p with todo := l }

/-- The steps 1 to 3 of R326 to a guard band, from the rail as it stands and the ratios that the slices have or come to,
and its publication. A slice's requested ratio falls with it. -/
def State.agePlan (s : State) (p : Power) (g : Nat) : Power :=
  let ceil := ceilOf g
  let goal (n : Nat) : Nat := if s.vminAt n + g > ceil then s.highest ceil g n else n
  let sw := (List.range 8).filter fun i => goal (p.slice i).coming != (p.slice i).coming
  let need := s.required g (p.slices.map fun x => goal x.coming)
  let v1 := min p.vset ceil
  let steps := sw.map (fun i => ClkAct.switch i (goal (p.slice i).coming)) ++ (if p.vset > ceil then [.rail ceil] else []) ++
    (if v1 < need then [.rail need] else []) ++ [.ageing g]
  { p.mapSlices fun _ x => { x with want := min x.want (goal x.want) } with todo := steps }

/-- What follows a finished step: the marks passed, and the steps of a boundary that came meanwhile. -/
def State.settle (s : State) (p : Power) : Power :=
  let p := popMarks p.todo p
  match p.todo with
  | .plan g :: _ => let p := s.agePlan p g; popMarks p.todo p
  | _ => p

/-- The status code of a request (R263): none when it passes every check. DEDUCED, log 100: a slice in a switch for its cap
counts with the ratio that it comes to. -/
def State.clkCode (s : State) (c : Nat) (w : Word) : Option Nat :=
  let p := (s.core c).power
  let vreq := (w.extractLsb' 24 7).toNat
  let smask := w.extractLsb' 16 8
  let ratio := (w.extractLsb' 0 5).toNat
  let v := if vreq = 0 then p.vset else vreq
  let ratios := (List.range 8).map fun i => if smask.getLsbD i && ratio != 0 then ratio else (p.slice i).coming
  let raises := (List.range 8).any fun i => smask.getLsbD i && ratio != 0 && decide ((p.slice i).coming < ratio)
  if p.busy then some 1
  else if w.getLsbD 31 || w.extractLsb' 5 11 != 0 || !(ratio == 0 || (4 ≤ ratio && ratio ≤ 16)) || (ratio != 0 && smask == 0) then some 7
  else if v < 55 then some 2
  else if v > p.ceil then some 3
  else if (List.range 8).any fun i => smask.getLsbD i && decide (s.cap c < ratio) then some 6
  else if v < s.required p.guard ratios then some (if raises then 4 else 5)
  else none

/-- A logical core of the device (R1). DESIGN CHOICE, log 117: what is asked of another core has no effect. -/
def State.isCore (s : State) (c : Nat) : Bool := decide (c < 8 * s.live.length)

/-- A CLKREQ write (R262, R263). -/
def State.clkreq (s : State) (c : Nat) (w : Word) : State :=
  let p := (s.core c).power
  match s.clkCode c w with
  | some 1 => s.onCore c fun k => { k with power := { p with code := 1 } }
  | some e => s.onCore c fun k => { k with power := { p with code := e, seq := (p.seq + 1) % 256 } }
  | none =>
    let vreq := (w.extractLsb' 24 7).toNat
    let smask := w.extractLsb' 16 8
    let ratio := (w.extractLsb' 0 5).toNat
    let v := if vreq = 0 then p.vset else vreq
    let sets (i : Nat) : Bool := smask.getLsbD i && ratio != 0
    let sw := (List.range 8).filter fun i => sets i && (p.slice i).coming != ratio
    -- a cap that has risen without letting a slice rise has had its effect (R267)
    let late (i : Nat) (x : SliceClk) : Bool := x.capped && (x.frozen.isSome || !(decide (x.ratio < s.cap c) && s.capTarget c i == x.ratio))
    let p := p.mapSlices fun i x => if sets i then { x with want := ratio, capped := false } else { x with capped := late i x }
    let todo := (if v > p.vset then [ClkAct.rail v] else []) ++ sw.map (fun i => ClkAct.switch i ratio) ++
      (if v < p.vset then [ClkAct.rail v] else []) ++ [.done]
    s.onCore c fun k => { k with power := s.settle { p with todo := todo } }

def execClkreqWrite (core : Nat) (w : Word) (s : State) : Out := .next (if s.isCore core then s.clkreq core w else s)

/-- The cluster of a core that can no longer reach ratio 16 is marked (R327): bit 8d + q of its physical
cluster. -/
def State.markWorn (s : State) (c : Nat) : State :=
  { s with worn := s.worn ||| (1#32 <<< (s.live.getD (c / 8) 0)) }

/-- A core's power block changes. The cluster is marked once the guard band in effect keeps it from ratio 16 (R327). -/
def State.putPower (s : State) (c : Nat) (p : Power) : State :=
  let s := s.onCore c fun k => { k with power := p }
  if p.ceil < 75 + p.guard then s.markWorn c else s

/-- A rail change is acknowledged (R263, R264, R266): a boost is dropped when the new rail is the ceiling. A fall waits for
the switch of a cap under way (R261; log 100). -/
def execRailChangeDone (core : Nat) (s : State) : Out :=
  let p := (s.core core).power
  match p.todo with
  | .rail v :: r =>
    .next (if p.switching && decide (v < p.vset) then s
      else s.putPower core (s.settle { p with todo := r, vset := v, boost := p.boost && v != p.ceil }))
  | _ => .next s

/-- A slice under its new clock (R260, R265): its first edge is now, and the edges before its freeze edge stay
counted. -/
def SliceClk.switched (x : SliceClk) (n f now : Nat) : SliceClk :=
  { x with ratio := n, origin := now, frozen := none, past := (x.origin, x.ratio, f) :: x.past }

/-- The core cycles of a switch after its freeze edge before the first edge of the new clock can fall: the cycle in
which the outbound FIFO is empty, and the four of the switch (R265). -/
def switchCycles : Nat := 5

/-- The first edge on which a slice that begins a switch issues nothing (R265): the next one, and not the one on which it
has issued. -/
def SliceClk.freezeEdge (x : SliceClk) (now : Nat) : Nat := x.nextEdge (if x.lastIssue = some now then now + 1 else now)

/-- The step in hand of a request, or of R326, is the switch that a slice is in. -/
def Power.stepDone (p : Power) (slice : Nat) : Bool := p.todo.head? == some (.switch slice (p.slice slice).goal)

/-- A slice's clock switch (R265), in two acts. The first, when the step in hand of a request or of R326 names the
slice, or a change of cap does once no request is being carried out (R267), sets its freeze edge and the ratio it leads
to; the second gives it the new clock, when the FIFO has drained and the clock has switched. -/
def execSliceClockSwitch (core slice : Nat) (s : State) : Out :=
  let p := (s.core core).power
  let x := p.slice slice
  if 8 ≤ slice then .next s
  else match x.frozen with
    | none =>
      let goal : Option Nat := match p.todo with
        | .switch i n :: _ => if i = slice then some n else none
        | [] => if s.capTarget core slice = x.ratio then none else some (s.capTarget core slice)
        | _ => none
      .next (match goal with
        | some n => s.putPower core (p.setSlice slice { x with frozen := some (x.freezeEdge s.now), goal := n })
        | none => s)
    | some f =>
      .next (if s.now < f + switchCycles then s
        else if p.stepDone slice then s.putPower core (s.settle { p.setSlice slice (x.switched x.goal f s.now) with todo := p.todo.tail })
        else s.putPower core (s.settle (p.setSlice slice { x.switched x.goal f s.now with capped := decide (x.goal < x.want) })))

/-- A colony of a queue is resident in a cluster (R248), or one of its slots. -/
def State.usesCluster (s : State) (q cl : Nat) : Bool :=
  ((s.slotsOf q).any fun e => e.1 / 8 == cl) ||
  s.colonies.any fun z => s.queueOf z.grid == q && z.cores.any fun k => k / 8 == cl && (s.core k).allocs.any fun a => a.grid == z.grid && a.col == z.col

/-- A core that can reach no ratio under G' (R326): it is dead, its queues fault, and the step in hand is given
up. -/
def State.wearOut (s : State) (c g : Nat) : State :=
  let p := (s.core c).power
  let p := { p with todo := p.todo.filter fun a => match a with | .done => true | _ => false }
  let s := (s.putPower c { (popMarks p.todo p).publish g with newG := none, dead := true }).markWorn c
  ((List.range 64).filter fun q => s.usesCluster q (c / 8)).foldl (fun s q => s.queueFault q 6 none) s

/-- The guard band of a core at a period boundary (R326). Where a request is being carried out, the steps follow
it with BUSY still set (log 94); where the steps of an earlier boundary are, the new pair waits for the next. -/
def State.applyAgeing (s : State) (c : Nat) : State :=
  let p := (s.core c).power
  match p.newG with
  | none => s
  | some g =>
    if g ≤ p.guard then s.onCore c fun k => { k with power := { p with newG := none } }
    else if s.vminAt 4 + g > ceilOf g then s.wearOut c g
    else if p.todo.any fun a => match a with | .plan _ | .ageing _ => true | _ => false then s
    else s.putPower c (s.settle { p with newG := none, todo := p.todo ++ [.plan g] })

/-- A ring-oscillator measurement of `slow` tenths of a per cent (R325), which firmware makes in phase 4 and after: G only
rises, at the next boundary. -/
def execAgeingMeasure (core slow : Nat) (s : State) : Out :=
  let p := (s.core core).power
  let g := max (slow / 10) (p.newG.getD 0)
  .next (if s.isCore core && (s.phase == 4 || s.phase == 5) && decide (p.guard < g) then s.onCore core fun k => { k with power := { p with newG := some g } } else s)

/-- The regulator acknowledges the burst step (R266): the held operation may start. A rail that a request has
brought to the ceiling meanwhile takes no step, and the engine starts slowly. -/
def execMatrixBoostAck (core : Nat) (s : State) : Out :=
  .next (if (s.core core).engine.waitBoost then
      s.onCore core fun k =>
        let e := { k.engine with waitBoost := false, busySince := some s.now }
        if k.power.vset + 1 ≤ k.power.ceil then { k with engine := e, power := { k.power with boost := true } }
        else { k with engine := { e with slowUntil := s.now + Config.usecCycles } }
    else s)

/-- The burst step is removed 1 µs after the engine goes idle (R266). -/
def execMatrixBoostRemove (core : Nat) (s : State) : Out :=
  let k := s.core core
  let idle := (((64, k.handler.slot) :: k.slots).all fun x => x.2.mtx.all (·.ret.isSome)) && (match k.engine.lastOp with | some t => decide (t + Config.usecCycles ≤ s.now) | none => true)
  .next (if k.power.boost && idle then s.onCore core fun k => { k with power := { k.power with boost := false } } else s)

end Sys2Proof.Machine
end

