-- ==== Sys2Proof/Machine/QueueOps.lean ====
section
/-! DEFINITION. Queue registers, commands and reports (R291 to R293, R297, R298) and the status space
(R291, R322, R262, R269, R271), with the events KICK, QCMD_*, FSERV, FQHEAD and REGISTER_WRITE. -/

namespace Sys2Proof.Machine

/-- A KICK write (R293): the tail is kept modulo 2N (R292). -/
def State.kick (s : State) (q : Nat) (w : Word) : State :=
  s.onQueue q fun x =>
    let n : Nat := 2 ^ x.logN
    let past (v : Nat) : Int := ((v : Int) - x.tail) % (2 * n)
    if 0 < past w.toNat ∧ past w.toNat ≤ past (x.head + n) then { x with tail := w.toNat % (2 * n) } else x

def execKick (q : Nat) (w : Word) (s : State) : Out := .next (s.kick q w)

/-- A command's result: ignored before phase 5 (R321), busy while STOPPING, where a DISCARD still takes effect (log
66), illegal in its state, or done (R297). -/
def State.command (s : State) (q : Nat) (legal : Queue → Bool) (f : State → State) : State :=
  let x := s.queue q
  let res (n : Nat) : State := s.onQueue q fun x => { x with cres := n }
  if s.phase ≠ 5 then res 2
  else if x.st = .stopping then (if legal x then f (res 1) else res 1)
  else if legal x then f (res 0)
  else res 2

def State.qEnable (s : State) (q : Nat) : State :=
  s.command q (·.st == .disabled) fun s => s.onQueue q fun x => { x with st := .running, head := 0, tail := 0, seq := 0, parse := .idle }

def State.qPreempt (s : State) (q : Nat) : State :=
  s.command q (·.st == .running) fun s => s.stopQueue q .preempted none

/-- The colonies of a queue that hold no allocation on a core of theirs are to be restored there (R280). -/
def State.markRestores (s : State) (q : Nat) : State :=
  s.colonies.foldl (fun s z =>
    if s.queueOf z.grid ≠ q then s
    else z.cores.foldl (fun s c =>
      if (s.core c).allocs.any fun a => a.grid == z.grid && a.col == z.col then s
      else s.onCore c fun k => { k with restoring := (k.restoring.filter (· != (z.grid, z.col))) ++ [(z.grid, z.col)] }) s) s

def State.qResume (s : State) (q : Nat) : State :=
  s.command q (fun x => x.st == .preempted || (x.st == .faulted && x.freason != 6)) fun s =>
    let s := s.onQueue q fun x => { x with st := .running }
    ((s.slotsOf q).foldl (fun s e => s.onSlot e.1 e.2.1 fun y => { y with stopped := false, resumed := false }) s).markRestores q

/-- Drops what a queue's grids hold on a core (R256, R297). -/
def Core.dropGrids (k : Core) (seq : Nat) (own : Nat → Bool) : Core :=
  let gone (n : Nat) : Bool := ((k.slot? n).map fun x => own x.grid).getD false && n != 64
  let h := k.handler
  let stop := match h.service, h.owner with | some p, some o => own o.1 || gone p.slot | some p, none => gone p.slot | none, _ => false
  let h := { h with
    pending := h.pending.filter fun p => !gone p.slot
    service := if stop then none else h.service
    owner := if stop then none else h.owner
    subj := if stop then none else h.subj
    slot := if stop then h.slot.single 0 .waiti 0 else h.slot }
  { k with
    slots := k.slots.filter fun x => !own x.2.grid
    waiting := k.waiting.filter fun x => !own x.grid
    bins := k.bins.filter fun x => !own x.2.grid
    tiles := k.tiles.filter fun x => !own x.2.grid
    allocs := k.allocs.filter fun x => !own x.grid
    restoring := k.restoring.filter fun x => !own x.1
    engine := { k.engine with
      holder := k.engine.holder.filter fun x => !gone x.1
      drainTo := if (match k.engine.holder with | some x => gone x.1 | none => false) then seq else k.engine.drainTo
      requests := k.engine.requests.filter fun x => !gone x.1 }
    handler := h }

def State.qDiscard (s : State) (q : Nat) : State :=
  s.command q (·.st != .disabled) fun s =>
    let own (g : Nat) : Bool := (s.grids.any fun x => x.id == g && x.q == q)
    let s : State := { s with
      cores := s.cores.map fun c => (c.1, c.2.dropGrids s.seq own)
      colonies := s.colonies.filter fun z => !own z.grid
      grids := s.grids.filter fun x => x.q != q }
    s.onQueue q fun x => { x with st := .disabled, parse := .idle, copies := [], asks := [] }

def State.qDisable (s : State) (q : Nat) : State :=
  s.command q (fun x => x.st == .running && s.grids.all fun g => g.q != q || g.st == .complete) fun s =>
    s.onQueue q fun x => { x with st := .disabled, parse := .idle }

def execQcmdEnable (q : Nat) (s : State) : Out := .next (s.qEnable q)
def execQcmdPreempt (q : Nat) (s : State) : Out := .next (s.qPreempt q)
def execQcmdResume (q : Nat) (s : State) : Out := .next (s.qResume q)
def execQcmdDiscard (q : Nat) (s : State) : Out := .next (s.qDiscard q)
def execQcmdDisable (q : Nat) (s : State) : Out := .next (s.qDisable q)

def Slot.served (x : Slot) (n now : Nat) : Slot :=
  { x with members := x.members.map fun m => if m.awaits n then { m with st := .ready, since := now } else m }

/-- A fault sequence number is reported serviced (R285, R298): its member executes its instruction again,
its DONE addition or packet operand is tried again. -/
def State.fserv (s : State) (q : Nat) (n : Word) : State :=
  let own (x : Slot) : Bool := s.queueOf x.grid == q
  let up (x : Slot) : Slot := if own x then x.served n.toNat s.now else x
  let s : State := { s with
    cores := s.cores.map fun c => (c.1, { c.2 with slots := c.2.slots.map fun e => (e.1, up e.2), waiting := c.2.waiting.map up })
    grids := s.grids.map fun g => if g.q = q ∧ g.doneSeq = some n.toNat then { g with doneSeq := none } else g }
  s.onQueue q fun x => { x with
    served := n.toNat :: x.served
    parse := match x.parse with
      | .fault k => if k = n.toNat then .idle else x.parse
      | .fenceFault k l => if k = n.toNat then .fence l else x.parse
      | p => p
    copies := x.copies.map fun c => match c with | .copyWait d k => if k = n.toNat then .copyDone d else c | c => c }

def execFserv (q : Nat) (n : Word) (s : State) : Out := .next (s.fserv q n)

/-- The host consumed records up to n (R298). -/
def State.fqhead (s : State) (q : Nat) (n : Word) : State := s.onQueue q fun x => { x with fqHead := n.toNat }

def execFqhead (q : Nat) (n : Word) (s : State) : Out := .next (s.fqhead q n)

-- budgets (R249)

/-- A request for `c` bytes of CBY and `v` of VBW fits in what a period has left. -/
def Queue.fits (x : Queue) (c v : Nat) : Bool :=
  (x.cby == 0 || decide (x.cbyUsed + c ≤ x.cby)) && (x.vbw == 0 || decide (x.vbwUsed + v ≤ x.vbw))

/-- Grants requests in their order until one does not fit; the second component counts those granted. -/
def payAll : List (Nat × Nat) → Queue → Nat → Queue × Nat × Bool
  | [], x, n => (x, n, true)
  | r :: l, x, n =>
    if x.fits r.1 r.2 then payAll l { x with cbyUsed := x.cbyUsed + r.1, vbwUsed := x.vbwUsed + r.2 } (n + 1) else (x, n, false)

/-- It is a transfer's turn: none that waits stands before it. -/
def Toll.first (t : Toll) (asks : List Nat) : Bool := asks.all fun a => match t.ask with | some b => decide (b ≤ a) | none => false

/-- A transfer asks its queue's budgets for its requests that are not yet granted (R249): granted in whole, or it
waits in its order. -/
def Queue.grant (x : Queue) (t : Toll) (costs : List (Nat × Nat)) : Queue × Toll × Bool :=
  let p := if t.first x.asks then payAll (costs.drop t.paid) x t.paid else (x, t.paid, decide (costs.length ≤ t.paid))
  if p.2.2 then ({ p.1 with asks := p.1.asks.filter fun a => t.ask != some a }, { paid := p.2.1, ask := none }, true)
  else match t.ask with
    | some _ => (p.1, { t with paid := p.2.1 }, false)
    | none => ({ p.1 with asks := p.1.asks ++ [x.nextAsk], nextAsk := x.nextAsk + 1 }, { paid := p.2.1, ask := some x.nextAsk }, false)

def Loc.inVault : Loc → Bool
  | .phys a => target a == some .dram
  | _ => false

/-- The bytes of vault reads and writes in a part of a copy. -/
def vaultBytes (l : List CopyByte) : Nat :=
  (l.countP fun p => match p.src with | .loc a => a.inVault | _ => false) + l.countP (·.dst.inVault)

/-- The requests of a copy: at most 2048 bytes to the destination each, so at most 4096 of the vaults. -/
def copyCosts (l : List CopyByte) : List (Nat × Nat) :=
  (List.range ((l.length + 2047) / 2048)).map fun i => let b := (l.drop (2048 * i)).take 2048; (b.length, vaultBytes b)

-- attestation (R304)

/-- The 32 bytes of a digest, most significant first. -/
def digestBytes (d : BitVec 256) : List Byte := (List.range 32).map fun i => d.extractLsb' (8 * (31 - i)) 8

/-- The key digest that a part reports: another one when its debug fuse is blown (R328, log 92). -/
def State.reportedDigest (s : State) : BitVec 256 :=
  if s.debugFuse then s.keyDigest ^^^ (if Config.debugMask = 0 then 1 else Config.debugMask) else s.keyDigest

/-- What an attestation signs: the fields of the reply in their order. -/
def attMessage (devId : Dword) (clusters : Nat) (m0 m1 : BitVec 256) (nonce : List Byte) (leaf : Nat) (key : BitVec 256) : List Byte :=
  natLe 8 devId.toNat ++ natLe 4 clusters ++ digestBytes m0 ++ digestBytes m1 ++ nonce ++ natLe 4 leaf ++ digestBytes key

/-- A nonce reaches the attestation block (R304): the leaf counter advances before the signature is released; past
leaf 32767 the request is refused with status 3. Before phase 4 nothing answers. -/
def State.attest (s : State) (nonce : List Byte) : State :=
  if s.phase ≠ 4 ∧ s.phase ≠ 5 then s
  else
    let n := (nonce ++ List.replicate 32 0).take 32
    let s := { s with nonce := n }
    if 32767 < s.leaf then { s with attStatus := 3, attReply := none }
    else
      let m := attMessage s.devId s.live.length s.mreg0 s.mreg1 n s.leaf s.reportedDigest
      { s with
        leaf := s.leaf + 1, attStatus := 0
        attReply := some { devId := s.devId, nonce := n, leaf := s.leaf, clusters := s.live.length, mreg0 := s.mreg0, mreg1 := s.mreg1
                           keyDigest := s.reportedDigest, signature := Config.lmsSign s.leaf m } }

/-- A write into the attestation block. Its layout is open (log 93): 32 bytes written at once are the nonce of a
request, and any other write is dropped. -/
def State.attWrite (s : State) (l : List Byte) : State := if l.length = 32 then s.attest l else s

/-- A write of a 32-bit register of the status space (R291, R292, R262): the ring, root, fault-ring and save
registers only in DISABLED; a write anywhere else is dropped. -/
def State.statusWrite (s : State) (off : Nat) (w : Word) : State :=
  let lo (old : Nat) : Nat := old / 2 ^ 32 * 2 ^ 32 + w.toNat
  let hi (old : Nat) : Nat := old % 2 ^ 32 + w.toNat * 2 ^ 32
  if 0x10000 ≤ off ∧ off < 0x14000 then
    let q := (off - 0x10000) / 256
    let set (f : Queue → Queue) : State := s.onQueue q fun x => if x.st = .disabled then f x else x
    match (off - 0x10000) % 256 with
    | 0x00 => s.onQueue q fun x => { x with prio := w.toNat % 8 }
    | 0x04 => match w.toNat % 8 with
      | 1 => s.qEnable q
      | 2 => s.qPreempt q
      | 3 => s.qResume q
      | 4 => s.qDiscard q
      | 5 => s.qDisable q
      | _ => s.onQueue q fun x => { x with cres := 2 }
    | 0x0C => set fun x => if 4 ≤ w.toNat % 16 then { x with logN := w.toNat % 16 } else x
    | 0x10 => set fun x => { x with ring := lo x.ring / 4096 * 4096 }
    | 0x14 => set fun x => { x with ring := hi x.ring }
    | 0x1C => s.kick q w
    | 0x20 => set fun x => { x with root := lo x.root }
    | 0x24 => set fun x => { x with root := hi x.root }
    | 0x28 => set fun x => { x with fq := lo x.fq / 4096 * 4096 }
    | 0x2C => set fun x => { x with fq := hi x.fq }
    | 0x30 => set fun x => if 4 ≤ w.toNat % 16 ∧ w.toNat % 16 ≤ 12 then { x with logF := w.toNat % 16 } else x
    | 0x38 => s.fqhead q w
    | 0x3C => s.fserv q w
    | 0x40 => set fun x => { x with sdir := lo x.sdir }
    | 0x44 => set fun x => { x with sdir := hi x.sdir }
    | 0x48 => set fun x => { x with sreg := lo x.sreg / 65536 * 65536 }
    | 0x4C => set fun x => { x with sreg := hi x.sreg }
    | 0x50 => set fun x => { x with sregSz := w.toNat }
    | _ => s
  else if 0x100000 ≤ off ∧ off < 0x100000 + 0x40 * (8 * s.live.length) ∧ (off - 0x100000) % 64 = 0 then
    s.clkreq ((off - 0x100000) / 64) w
  else s

def execRegisterWrite (off : Nat) (w : Word) (s : State) : Out := .next (if off % 4 = 0 then s.statusWrite off w else s)

/-- The physical vault or core index of a logical core: 64 per die, 8 per physical cluster (R243). -/
def State.phys (s : State) (c : Nat) : Nat := 8 * s.live.getD (c / 8) 0 + c % 8

def vaultReset : Vault := { temp := 0, band := 0, rise := 0 }
def State.vault (s : State) (v : Nat) : Vault := lget vaultReset s.thermal.vaults v

def qstCode : QSt → Nat
  | .disabled => 0 | .running => 1 | .stopping => 2 | .preempted => 3 | .faulted => 4

/-- THERM (R271). -/
def State.therm (s : State) : Word :=
  s.thermal.held ++ 0#13 ++ BitVec.ofBool (!s.thermal.dieStop.isEmpty) ++ BitVec.ofBool (s.thermal.vaults.any fun v => decide (920 ≤ v.2.temp)) ++ BitVec.ofBool s.thermal.slow

/-- A power-block word (R262, R269). -/
def State.powerWord (s : State) (c o : Nat) : Word :=
  let p := (s.core c).power
  match o with
  | 0x04 => BitVec.ofNat 32 (p.seq * 256 + b2n p.busy * 16 + p.code)
  | 0x08 => BitVec.ofNat 32 (p.ceil * 2 ^ 24 + p.guard * 2 ^ 16 + b2n p.boost * 256 + p.vset)
  | 0x0C => 0#16 ++ BitVec.ofInt 16 (s.vault (s.phys c)).temp
  | _ => if 0x10 ≤ o ∧ o < 0x30 ∧ o % 4 = 0 then (p.slice ((o - 0x10) / 4)).stall else 0

/-- A queue register (R292). -/
def queueWord (x : Queue) (o : Nat) : Word :=
  BitVec.ofNat 32 (match o with
    | 0x00 => x.prio
    | 0x08 => x.cres * 2 ^ 16 + x.freason * 256 + qstCode x.st
    | 0x0C => x.logN
    | 0x10 => x.ring
    | 0x14 => x.ring / 2 ^ 32
    | 0x18 => x.head
    | 0x1C => x.tail
    | 0x20 => x.root
    | 0x24 => x.root / 2 ^ 32
    | 0x28 => x.fq
    | 0x2C => x.fq / 2 ^ 32
    | 0x30 => x.logF
    | 0x34 => x.fqTail
    | 0x38 => x.fqHead
    | 0x40 => x.sdir
    | 0x44 => x.sdir / 2 ^ 32
    | 0x48 => x.sreg
    | 0x4C => x.sreg / 2 ^ 32
    | 0x50 => x.sregSz
    | _ => 0)

/-- A word of the status space (R291, R322): 0 outside its blocks, and outside the identity block in phase
1 (R321). The layout of the attestation block is open: its bytes are free values. -/
def State.statusRead (s : State) (off : Nat) : Word :=
  if off < 0x1000 then
    match off with
    | 0x00 => s.devId.extractLsb' 0 32
    | 0x04 => s.devId.extractLsb' 32 32
    | 0x08 => BitVec.ofNat 32 (s.live.length * 2 ^ 16 + s.bootErr * 256 + s.phase)
    | 0x0C => s.clMask
    | 0x10 => s.worn
    | _ => if 0x100 ≤ off then BitVec.ofNat 32 (leNat ((s.cert.drop (off - 0x100)).take 4)) else 0
  else if s.phase < 2 then 0
  else if off < 0x2000 then Config.freeWord s.ctr 1 off
  else if 0x10000 ≤ off ∧ off < 0x14000 then queueWord (s.queue ((off - 0x10000) / 256)) ((off - 0x10000) % 256)
  else if off = 0x80000 then s.therm
  else if 0x100000 ≤ off ∧ off < 0x100000 + 0x40 * (8 * s.live.length) then s.powerWord ((off - 0x100000) / 64) ((off - 0x100000) % 64)
  else 0

/-- A byte at a physical address as any agent reads it: DRAM and host memory, a peer's data (a free value,
R301), or a status register. -/
def State.busByte (s : State) (a : Nat) : Byte :=
  match target a with
  | some .dram | some .host => s.rdByte a
  | some (.peer _) => Config.freeByte s.ctr a
  | some .status => (s.statusRead ((a - statusBase) / 4 * 4)).extractLsb' (8 * (a % 4)) 8
  | _ => 0

/-- Bytes written at a physical address by any agent. A status register takes only an aligned 32-bit word,
part by part of the access, and the attestation block a nonce; a store to a port that is down is dropped (R301). -/
def State.busWrite (s : State) (a : Nat) (l : List Byte) : State :=
  match target a with
  | some .dram | some .host => s.wrBytes a l
  | some .status =>
    if statusBase + 0x1000 ≤ a ∧ a + l.length ≤ statusBase + 0x2000 then s.attWrite l
    else if a % 4 = 0 ∧ l.length % 4 = 0 then
      (List.range (l.length / 4)).foldl (fun s i => s.statusWrite (a - statusBase + 4 * i) (BitVec.ofNat 32 (leNat ((l.drop (4 * i)).take 4)))) s
    else s
  | _ => s

end Sys2Proof.Machine
end

