-- ==== Sys2Proof/Machine/Ops.lean ====
section
/-! DEFINITION. The operations every instruction shares: who issues it, the checks that come before its own
(R50 steps 8 and 9, R83, R25, R288, R47), what it leaves behind (R13, R23), metering (R234), taking an
exception (R273 to R276) and returning from one (R277), page faults (R285). -/

namespace Sys2Proof.Machine

-- monitors (R323)

def addSample (f : MonFig) (shift v : Nat) : MonFig :=
  let i := min (v / 2 ^ shift) 15
  { min := min f.min v, max := max f.max v, bins := f.bins.set i (min (f.bins.getD i 0 + 1) 0xFFFFFFFF) }

/-- A sample v of quantity q (R323). One taken in the cycle of a MONSEL write leaves nothing: it counts under the old
selection, which the write clears (R324). -/
def Core.sample (k : Core) (now q v : Nat) : Core :=
  if (k.monSel.extractLsb' 0 3).toNat = q && k.monAt != some now then { k with mon := addSample k.mon (k.monSel.extractLsb' 4 4).toNat v } else k

-- metering (R234)

/-- `cnt` events of class `cls` by a member: the colony's total, and every X_e its fibres stand in. The
handler's instructions are charged to no frame (R234). -/
def State.charge (s : State) (c n : Nat) (m : Member) (cls cnt : Nat) (outer : Bool) : State :=
  if n = 64 then s
  else match s.slot? c n with
    | none => s
    | some x =>
      let w := s.weights.getD cls 0 * cnt
      let fr := (x.fibre (lowest m.mask)).frames
      let ids := (if outer then fr.drop 1 else fr).map (·.x)
      (s.setSlot c n { x with xs := x.xs.map fun r => if ids.contains r.id then { r with energy := r.energy + w } else r }).onColony x.grid x.col
        fun z => { z with energy := z.energy + w }

-- leases (R220)

/-- Ends the lease a slot holds, without suspension. -/
def Core.endLease (k : Core) (n seq : Nat) : Core :=
  match k.engine.holder with
  | some (m, _) => if m = n then { k with engine := { k.engine with holder := none, drainTo := seq } } else k
  | none => k

/-- The parks that end a lease (R220), a wait for a tile among them where the tile is not READY. -/
def Park.endsLease : Park → Bool
  | .bar _ | .sleep _ _ | .redo (.tileEmpty _) | .redo (.tileReady _) | .redo .bin => true
  | .waitc c _ => c != .mtx
  | _ => false

/-- A park ends the lease its slot holds: a CPYT that waits for a READY tile keeps it (R220). -/
def Core.leaseEnds (k : Core) (p : Park) : Bool :=
  p.endsLease && (match p with | .redo (.tileEmpty t) => !((lfind k.tiles t).any (·.st == .ready)) | _ => true)

-- exceptions (R273 to R277)

/-- The handler stops at a handler fault and returns to idle, with its fault word written (R276). -/
def State.stopHandler (s : State) (c cause : Nat) (pc : Dword) (info : Word) : State := s.onCore c fun k =>
  { k with handler := { k.handler with fault := some (cause, pc, info), service := none, saved := false, owner := none, subj := none
                                       slot := k.handler.slot.single 0 .waiti s.now } }

/-- The queue that is being resumed on a core (R280): one that runs, and has a colony there with a saved swarm or a record still to
be restored. -/
def State.resumedQueue (s : State) (c : Nat) : Option Nat :=
  (s.colonies.find? fun z => z.cores.contains c && (s.queue (s.queueOf z.grid)).st == .running &&
    (!z.saved.isEmpty || (s.core c).restoring.contains (z.grid, z.col))).map fun z => s.queueOf z.grid

/-- A handler fault (R276): the handler stops, and the queue that owns the swarm under service faults with
reason 6. Once that swarm is saved its slot is no longer the one under service. With none under service, after a firmware event,
the queue that is being resumed on the core faults (DEDUCED, log 108). -/
def State.handlerFault (s : State) (c cause : Nat) (pc : Dword) (info : Word) : State :=
  let h := (s.core c).handler
  let t := s.stopHandler c cause pc info
  match h.service, h.owner with
  | some p, some o =>
    let q := s.queueOf o.1
    (t.writeRecord q { kind := 4, core := c, gridid := o.1, colid := o.2, swid := p.slot, tcause := cause, pc := pc.toNat, mask := p.tr.mask.toNat
                       addr := p.tr.addr.toNat, info := info.toNat }).queueFault q 6 (if h.saved then none else some (c, p.slot))
  | _, _ => match s.resumedQueue c with
    | some q => (t.writeRecord q { kind := 4, core := c, gridid := 0, colid := 0xFFFFFFFF, tcause := cause, pc := pc.toNat, info := info.toNat }).queueFault q 6 none
    | none => t

/-- TAKING AN EXCEPTION (R273, R275): the member is parked until its service and joins the core's pending
list; a lease of its slot is suspended (R220). A trap in the handler slot is a handler fault (R276). -/
def State.raiseTrap (s : State) (c n id : Nat) (t : TrapRec) : State :=
  if n = 64 then s.handlerFault c t.cause t.pc t.info
  else (s.onSlot c n fun x => x.onMem id fun m => { m with st := .trap t, pc := t.pc, src := t.pc, y := false, usec := none, waited := 0 }).onCore c fun k =>
    let k := k.suspendLease n s.seq
    { k with handler := { k.handler with pending := addPend { cyc := s.now, slot := n, mem := some id, tr := t } k.handler.pending } }

/-- The handler slot starts at its entry with the next pending trap in the trap registers (R274, R275). -/
def State.startHandler (s : State) (c : Nat) : State :=
  let h := (s.core c).handler
  match h.service, h.pending with
  | none, p :: r =>
    if h.slot.members.all (·.st == .waiti) then
      s.onCore c fun k => { k with handler := { h with
        service := some p, saved := false, owner := (s.slot? c p.slot).map fun x => (x.grid, x.col), pending := r, tcause := BitVec.ofNat 32 (p.tr.cause % 256), tpc := p.tr.pc.extractLsb' 0 32
        tpchi := 0#12 ++ p.tr.pc.extractLsb' 32 20, tmask := p.tr.mask.extractLsb' 0 32, tmaskhi := p.tr.mask.extractLsb' 32 32
        taddrlo := p.tr.addr.extractLsb' 0 32, taddrhi := p.tr.addr.extractLsb' 32 32, tinfo := p.tr.info
        slot := { h.slot.single (BitVec.ofNat 64 (lget 0 s.handlerEntry c)) .ready s.now with slice := ((s.slot? c p.slot).map (·.slice)).getD 0 } } }
    else s
  | _, _ => s

/-- The handler slot idles (R85). -/
def State.idleHandler (s : State) (c : Nat) : State :=
  s.onCore c fun k => { k with handler := { k.handler with service := none, saved := false, owner := none, subj := none
                                                           slot := k.handler.slot.single 0 .waiti s.now } }

/-- The resume address and mask of the trap registers (R277). -/
def Handler.resumePc (h : Handler) : Dword := 0#12 ++ h.tpchi.extractLsb' 0 20 ++ h.tpc
def Handler.resumeMask (h : Handler) : Mask := h.tmaskhi ++ h.tmask

/-- RETURNING FROM AN EXCEPTION (R277): the member the trap stopped resumes at TPCHI:TPC, of a VSEL only
the lanes of TMASKHI:TMASK; a PREEMPT resumes every member of the slot where it stood. The switch marker of
a BRK or TRAP parks the member first (R23, R47). -/
def Slot.resume (x : Slot) (p : Pend) (h : Handler) (now : Nat) : Slot :=
  match p.mem with
  | none => { x with stopped := false, resumed := true }
  | some id =>
    match x.mem? id with
    | none => x
    | some m =>
      let go (m : Member) : Member := { m with pc := h.resumePc, st := if m.y then .marker else .ready, since := now, y := false }
      if p.tr.cause = 0x0D then
        let up := m.mask &&& h.resumeMask
        if up = 0 then x
        else if up = m.mask then x.onMem id go
        else
          { x.onMem id fun m => { m with mask := m.mask &&& ~~~up } with
            members := (x.onMem id fun m => { m with mask := m.mask &&& ~~~up }).members ++ [go { m with id := x.nextId, mask := up }]
            nextId := x.nextId + 1 }
      else x.onMem id go

/-- ERET's effect (R85, R277, R279). -/
def State.eret (s : State) (c : Nat) : State :=
  let h := (s.core c).handler
  match h.service with
  | none => s.idleHandler c
  | some p =>
    let q := ((s.subject c 64).map fun x => s.queueOf x.grid).getD 0
    let s := if h.saved then s else s.onSlot c p.slot fun x => x.resume p h s.now
    let s := s.idleHandler c
    if p.mem = none then s.finishStop q else s

/-- Lanes without a translation (R284, R285). `acc` holds bits 2..0 of the record's access byte. -/
structure PageFault where
  mask : Mask
  addr : Dword
  acc : Nat
  malformed : Bool
  deriving DecidableEq, Repr

/-- The record of a page fault (R285, R298). -/
def pfRecord (c n : Nat) (x : Slot) (pc : Dword) (mask : Mask) (acc : Nat) (addr : Dword) (malformed : Bool) (seq : Nat) : FaultRec :=
  { kind := 1, acc := acc + 128 * b2n malformed, core := c, seq := seq, gridid := x.grid, colid := x.col, swid := n, tcause := 8,
    pc := pc.toNat, mask := mask.toNat, addr := addr.toNat }

/-- Parks a member for a page fault: it takes the queue's next number and writes its record, or waits for
room in the ring (R285, R298). -/
def State.faultMember (s : State) (c n id : Nat) (f : PageFault) : State :=
  match s.slot? c n with
  | none => s
  | some x =>
    match x.mem? id with
    | none => s
    | some m =>
      let q := s.queueOf x.grid
      let y := s.queue q
      if y.fq ≠ 0 ∧ y.full then
        s.onSlot c n fun x => x.onMem id fun m => { m with usec := none, left := none, st := .ringFull 1 f.acc f.addr f.malformed }
      else
        let t := s.takeFault q
        let s := t.2.onSlot c n fun x => x.onMem id fun m => { m with usec := none, left := none, st := .fault t.1 f.addr }
        if y.fq ≠ 0 ∧ !s.allowedRange q y.recAddr 64 .write then s.queueFault q 5 none y.recAddr
        else s.writeRecord q (pfRecord c n x m.pc m.mask f.acc f.addr f.malformed t.1)

/-- Splits the faulting lanes off as a member awaiting service (R27, R285). The result names the member
of the other lanes, if any. A lease of the slot ends (R220). -/
def State.pageFault (s : State) (c n id : Nat) (f : PageFault) : State × Option Nat :=
  match s.slot? c n with
  | none => (s, none)
  | some x =>
    match x.mem? id with
    | none => (s, none)
    | some m =>
      let s := s.onCore c (·.endLease n s.seq)
      if m.mask &&& ~~~f.mask = 0 then (s.faultMember c n id f, none)
      else
        let s := s.onSlot c n fun x => x.split m .branch [(f.mask, m.pc, .ready, none), (m.mask &&& ~~~f.mask, m.pc, .ready, none)]
        (s.faultMember c n (x.nextId + 1) f, some (x.nextId + 2))

-- issuing

/-- Where an instruction may be issued (R51, R83). -/
inductive Where | anywhere | handler | swarm
  deriving DecidableEq, Repr

/-- The member an instruction is issued for, with the slot as its registers read (R25). -/
structure Env where
  c : Nat
  n : Nat
  x : Slot
  m : Member
  act : Mask

/-- The registers an instruction reads and writes: vector, scalar and predicate numbers. `cols` are read in every
lane that holds a fibre (R211). `mtx` marks a matrix operation, whose reads of older matrix results are no hazard
(R209); `late` an instruction with late results (R24); `quiet` marks PREF, which never traps on them (R182);
`parked` VCALL and VPEEK, which read and write their registers after their park (R71, R74); `clash` a matrix
operation whose register ranges overlap (R212); `wpl` the predicates PSET writes in a lane (R125). -/
structure Uses where
  rv : List Nat := []
  rs : List Nat := []
  rp : List Nat := []
  wv : List Nat := []
  ws : List Nat := []
  wp : List Nat := []
  cols : List Nat := []
  mtx : Bool := false
  late : Bool := false
  quiet : Bool := false
  parked : Bool := false
  clash : Bool := false
  wpl : Env → Nat → List Nat := fun _ _ => []

/-- The same registers, with late results. -/
def Uses.later (u : Uses) : Uses := { u with late := true }

/-- What a trap states beside its pc (R273). -/
structure Tr where
  cause : Nat
  mask : Mask
  addr : Dword := 0
  info : Nat := 0
  deriving DecidableEq, Repr

/-- What an instruction does to the member that issued it. `go`: it is done, with the number of events of
its class; `part`: as `go`, and lanes split off for a page fault; `redo`: it parks and is executed again;
`wait`: it is done and parks; `hold`: it parks at its own address; `trap`: a trap at it; `after`: a trap at
the next instruction (R76); `moved`: it has placed its members itself; `fault`: the whole member waits for
a page; `partTrap` and `partWait`: lanes split off for a page fault, and the others trap or park (`next`: behind
the instruction); `hfault`: the handler fails (R276). -/
inductive Res
  | go (s : State) (cnt : Nat)
  | part (s : State) (cnt : Nat) (f : PageFault)
  | redo (s : State) (r : Redo)
  | wait (s : State) (p : Park)
  | hold (s : State) (p : Park)
  | trap (s : State) (t : Tr)
  | after (s : State) (t : Tr)
  | moved (s : State)
  | fault (s : State) (f : PageFault)
  | partTrap (s : State) (f : PageFault) (t : Tr)
  | partWait (s : State) (f : PageFault) (p : Park) (next : Bool)
  | hfault (s : State) (cause : Nat)

/-- ILL with a reason of R50, for the active mask. -/
def ill (m : Member) (reason : Nat) : Tr := { cause := 1, mask := m.mask, info := reason }

/-- The lanes in which an instruction reads a register with an outstanding result, writes a fixed result over one
or any result over an outstanding matrix result, or writes a source of an outstanding matrix operation (R25,
R210). A late result over an earlier late one is no hazard: the later stands. Of an instruction that reads its
registers after its park only the guard is judged. DESIGN CHOICE, log 103: every lane with a true guard counts as reading,
of a cross-lane instruction too. -/
def hazLanes (e : Env) (x : Slot) (u : Uses) (h : Hdr) : Mask :=
  let mtxOut (l n : Nat) : Bool := !u.mtx && x.mtx.any (·.writes l n)
  let lateOut (d : Dest) : Bool := x.late.any fun o => o.writes.any (·.dst == d)
  let srcOut (l n : Nat) : Bool := !u.mtx && x.mtx.any (·.reads l n)
  let fixed (l : List Nat) : List Nat := if u.late then [] else l
  let scalarOut : Bool := !u.parked && (u.rs ++ fixed u.ws).any fun n => lateOut (.s n)
  maskOf ((lanesOf (e.m.mask ||| x.occupied)).filter fun l =>
    (e.m.mask.getLsbD l && lateOut (.p l h.pg.toNat)) ||
    (e.act.getLsbD l && scalarOut) ||
    (e.act != 0 && u.cols.any fun n => lateOut (.v l n)) ||
    (e.act.getLsbD l && !u.parked &&
      ((u.rv ++ fixed u.wv).any (fun n => lateOut (.v l n)) || (u.rv ++ u.wv).any (mtxOut l) ||
        (u.rp ++ fixed (u.wp ++ u.wpl e l)).any (fun n => lateOut (.p l n)) || u.wv.any (srcOut l))))

/-- The lanes whose source registers hold an uncorrectable word (R288) or data from a dead port (R301), and
the code of the first. An instruction that parks before it reads them is judged once the slot has drained. DESIGN CHOICE,
log 103: every lane with a true guard counts as reading. -/
def badLanes (e : Env) (x : Slot) (u : Uses) : Mask × Nat :=
  let hit (d : Dest) : Bool := match d with
    | .v l n => (e.act.getLsbD l && u.rv.contains n) || (e.act != 0 && u.cols.contains n)
    | .s n => e.act != 0 && u.rs.contains n
    | .p l n => e.act.getLsbD l && u.rp.contains n
  let bad := x.badRegs.filter fun b => hit b.1 && (x.drained || !u.parked)
  (maskOf (bad.map fun b => match b.1 with | .v l _ => l | .p l _ => l | .s _ => lowest e.act), ((bad.head?).map (·.2)).getD 0)

/-- The member goes on behind its instruction, or parks at its switch marker (R23). -/
def State.passOn (s : State) (c n id : Nat) (h : Hdr) : State :=
  s.onSlot c n fun x => x.onMem id fun m =>
    { m with pc := m.pc + BitVec.ofNat 64 (lenBytes h.len), src := m.pc, len := lenBytes h.len, last := s.now, since := s.now, y := false, usec := none, left := none, waited := 0
             st := if h.y then .marker else .ready }

/-- A park after which the instruction is executed again: what it has noted of its waits is kept (R230, R323). -/
def Park.again : Park → Bool
  | .redo _ => true
  | _ => false

/-- The member parks; `next` says whether its pc moves on. -/
def State.parkMem (s : State) (c n id : Nat) (h : Hdr) (p : Park) (next : Bool) : State :=
  (s.onSlot c n fun x => x.onMem id fun m =>
    { m with pc := if next then m.pc + BitVec.ofNat 64 (lenBytes h.len) else m.pc, src := m.pc, len := lenBytes h.len, last := s.now
             y := h.y, st := p, usec := if p.again then m.usec else none, waited := if p.again then m.waited else 0, left := none }).onCore c fun k => if k.leaseEnds p then k.endLease n s.seq else k

/-- Puts a result into effect. -/
def Res.settle (r : Res) (e : Env) (h : Hdr) (cls : Nat) (outer : Bool) : State :=
  let tr (s : State) (t : Tr) (pc : Dword) : State :=
    s.raiseTrap e.c e.n e.m.id { cause := t.cause, pc := pc, mask := t.mask, addr := t.addr, info := BitVec.ofNat 32 t.info }
  match r with
  | .go s k => (s.charge e.c e.n e.m cls k outer).passOn e.c e.n e.m.id h
  | .part s k f =>
    match (s.charge e.c e.n e.m cls k outer).pageFault e.c e.n e.m.id f with
    | (s, some id) => s.passOn e.c e.n id h
    | (s, none) => s
  | .redo s r => s.parkMem e.c e.n e.m.id h (.redo r) false
  | .wait s p => (s.charge e.c e.n e.m cls 1 outer).parkMem e.c e.n e.m.id h p true
  | .hold s p => (s.charge e.c e.n e.m cls 1 outer).parkMem e.c e.n e.m.id h p false
  | .trap s t => tr s t e.m.pc
  | .after s t =>
    let s := s.charge e.c e.n e.m cls 1 outer
    (tr s t (e.m.pc + BitVec.ofNat 64 (lenBytes h.len))).onSlot e.c e.n fun x => x.onMem e.m.id fun m => { m with y := h.y }
  | .moved s => s
  | .fault s f => (s.pageFault e.c e.n e.m.id { f with mask := e.m.mask }).1
  | .partTrap s f t =>
    match s.pageFault e.c e.n e.m.id f with
    | (s, some id) => s.raiseTrap e.c e.n id { cause := t.cause, pc := e.m.pc, mask := t.mask, addr := t.addr, info := BitVec.ofNat 32 t.info }
    | (s, none) => s
  | .partWait s f p next =>
    match (s.charge e.c e.n e.m cls 1 outer).pageFault e.c e.n e.m.id f with
    | (s, some id) => s.parkMem e.c e.n id h p next
    | (s, none) => s
  | .hfault s c => s.handlerFault e.c c e.m.pc 0

/-- Classes of R234 that count instructions, not lanes. -/
def perInstr (cls : Nat) : Nat := if cls = 4 ∨ cls = 13 then 1 else 0

/-- The never-true guard (R48). -/
def Hdr.never (h : Hdr) : Bool := h.pg == 7 && h.pn

/-- The events of an instruction whose guard is false in every active lane: one with the never-true guard has
no effect at all (R48, R234), and an access of the scalar form counts once per instruction (log 27). -/
def idleCount (h : Hdr) (cls : Nat) : Nat :=
  if h.never then 0 else if h.sc && decide (5 ≤ cls) && decide (cls ≤ 7) then 1 else perInstr cls

/-- The issuing member and its environment. -/
def State.env (s : State) (h : Hdr) : Option Env :=
  match s.cur with
  | none => none
  | some u =>
    match s.slot? u.core u.slot with
    | none => none
    | some x =>
      match x.mem? u.mem with
      | none => none
      | some m =>
        let v := (x.view s.ctr).mtxView s.ctr
        some { c := u.core, n := u.slot, x := v, m := m,
               act := maskOf ((lanesOf m.mask).filter fun l => v.p l h.pg != h.pn) }

/-- The queue of a member is in debug mode (R25). -/
def State.debugOf (s : State) (e : Env) : Bool := e.n != 64 && ((s.grid? e.x.grid).map (·.debug)).getD false

/-- The checks before an instruction's own: the window (R7, R45), scalar numbers above s511 (R170), the ranges
of a matrix operation (R212), PRIV and R83, HAZ in debug mode, and uncorrectable source registers. -/
def precheck (e : Env) (h : Hdr) (u : Uses) (w : Where) (s : State) : Option (Tr × State) :=
  if u.clash || ((u.rv ++ u.wv).any fun n => decide (e.x.win ≤ n)) || ((u.rs ++ u.ws).any fun n => decide (512 ≤ n)) then some (ill e.m 4, s)
  else if w = .handler ∧ e.n ≠ 64 then some ({ cause := 3, mask := e.m.mask }, s)
  else if w = .swarm ∧ e.n = 64 then some (ill e.m 7, s)
  else
    let x := (s.slot? e.c e.n).getD e.x
    let hz := if s.debugOf e && !u.quiet then hazLanes e x u h else 0
    if hz ≠ 0 then some ({ cause := 5, mask := hz }, s)
    else
      let b := badLanes e x u
      if b.1 ≠ 0 ∧ u.quiet = false then
        some ({ cause := 0x12, mask := b.1, info := b.2 },
          s.onSlot e.c e.n fun x => { x with badRegs := x.badRegs.filter fun r => !(match r.1 with
            | .v l n => b.1.getLsbD l && (u.rv ++ u.cols).contains n
            | .s n => u.rs.contains n
            | .p l n => b.1.getLsbD l && u.rp.contains n) })
      else none

/-- What every encoded instruction goes through: its issuing member, the checks above, no effect where the
guard is false in every active lane (R47), and its own effect. -/
def issue (h : Hdr) (cls : Nat) (u : Uses) (w : Where) (outer : Bool) (k : Env → State → Res) (s : State) : Out :=
  match s.env h with
  | none => .fault .noIssuer
  | some e =>
    match precheck e h u w s with
    | some (t, s) => .next (Res.settle (.trap s t) e h cls outer)
    | none =>
      if e.act = 0 then .next (Res.settle (.go s (idleCount h cls)) e h cls false)
      else .next (Res.settle (k e { s with seq := s.seq + 1 }) e h cls outer)

end Sys2Proof.Machine
end

