-- ==== Sys2Proof/Machine/Operands.lean ====
section
/-! DEFINITION. Operand forms (R42 to R46, R114), the registers they use, and the shapes of register
instructions: results fixed or late (R24), vector or scalar form (R43). -/

namespace Sys2Proof.Machine

/-- A source operand in a lane (R42, R43): a literal has S clear. -/
def Env.src (e : Env) (l : Nat) : Src → Img
  | .v n => e.x.v l n.toNat
  | .s n => e.x.s n.toNat
  | .lit w => pureImg w

/-- The payload of a source (R98, R113). -/
def Env.pay (e : Env) (l : Nat) (a : Src) : Word := Machine.pay (e.src l a)

/-- A pair operand, low word in the lower register (R42); a literal is extended (R121, R123). -/
def Env.pair (e : Env) (l : Nat) (u : Bool) : Src → Dword
  | .v n => Machine.pay (e.x.v l (n.toNat + 1)) ++ Machine.pay (e.x.v l n.toNat)
  | .s n => Machine.pay (e.x.s (n.toNat + 1)) ++ Machine.pay (e.x.s n.toNat)
  | .lit w => if u then w.setWidth 64 else w.signExtend 64

/-- A predicate source in a lane (R42). -/
def Env.pred (e : Env) (l : Nat) (p : PSrc) : Bool := e.x.psrc l p

/-- The FMODE rounding mode an instruction uses (R100). -/
def Env.mode (e : Env) (rm : RMod) : Mode := modeOf e.x.fmode rm

def useV (k : Nat) : Src → List Nat
  | .v n => List.range' n.toNat k
  | _ => []
def useS (k : Nat) : Src → List Nat
  | .s n => List.range' n.toNat k
  | _ => []

/-- The registers of single sources, pair sources and predicate sources, and of `k` destinations from `d`. -/
def usesOf (h : Hdr) (one pair : List Src) (ps : List PSrc) (d : Option (BitVec 9)) (k : Nat) (wp : List Nat) : Uses :=
  let ds := match d with | some d => List.range' d.toNat k | none => []
  { rv := one.flatMap (useV 1) ++ pair.flatMap (useV 2), rs := one.flatMap (useS 1) ++ pair.flatMap (useS 2),
    rp := ps.map (·.p.toNat), wv := if h.sc then [] else ds, ws := if h.sc then ds else [], wp := wp }

/-- What a register instruction writes in one lane: registers, predicates and flags. -/
structure Outs where
  regs : List (Nat × Img) := []
  preds : List (BitVec 3 × Bool) := []
  fl : Fl := 0

/-- One 32-bit result with S clear. -/
def out1 (d : BitVec 9) (w : Word) : Outs := { regs := [(d.toNat, pureImg w)] }
/-- One image with flags. -/
def outI (d : BitVec 9) (x : Img × Fl) : Outs := { regs := [(d.toNat, x.1)], fl := x.2 }
/-- A 64-bit result in a pair, S clear. -/
def out2 (d : BitVec 9) (x : Dword) : Outs :=
  { regs := [(d.toNat, pureImg (x.extractLsb' 0 32)), (d.toNat + 1, pureImg (x.extractLsb' 32 32))] }

/-- Fixed results of one lane. -/
def Slot.writeLane (x : Slot) (l : Nat) (o : Outs) : Slot :=
  let x := o.regs.foldl (fun x r => x.putV l r.1 r.2) x
  let x := o.preds.foldl (fun x p => x.putP l p.1 p.2) x
  { x with fflags := x.fflags ||| o.fl }

/-- Fixed results of the scalar form: a predicate result goes to every lane taking part (R114). -/
def Slot.writeScalar (x : Slot) (act : Mask) (o : Outs) : Slot :=
  let x := o.regs.foldl (fun x r => x.putS r.1 r.2) x
  let x := (lanesOf act).foldl (fun x l => o.preds.foldl (fun x p => x.putP l p.1 p.2) x) x
  { x with fflags := x.fflags ||| o.fl }

/-- The results of an instruction in every lane taking part, or of its scalar form once. -/
def Slot.writeAll (x : Slot) (sc : Bool) (act : Mask) (f : Nat → Outs) : Slot :=
  if sc then x.writeScalar act (f (lowest act)) else (lanesOf act).foldl (fun x l => x.writeLane l (f l)) x

/-- A register instruction with fixed results (R24, R47, R113). -/
def regOp (h : Hdr) (cls : Nat) (u : Uses) (f : Env → Nat → Outs) (s : State) : Out :=
  issue h (if h.sc then 13 else cls) u .anywhere false (fun e s =>
    .go (s.onSlot e.c e.n fun x => x.writeAll h.sc e.act (f e)) (if h.sc then 1 else countOf e.act)) s

/-- The late writes of one lane. -/
def lateLane (l : Nat) (o : Outs) : List LateWrite :=
  o.regs.map (fun r => { dst := .v l r.1, val := r.2, bad := none, clobbered := false }) ++
  (o.preds.filter (·.1 != 7)).map fun p => { dst := .p l p.1.toNat, val := if p.2 then 1 else 0, bad := none, clobbered := false }

/-- The late writes of the scalar form. -/
def lateScalar (o : Outs) : List LateWrite := o.regs.map fun r => { dst := .s r.1, val := r.2, bad := none, clobbered := false }

/-- The outstanding results of an instruction (R24). -/
def lateOf (s : State) (sc : Bool) (act : Mask) (sample : Bool) (f : Nat → Outs) : LateOp :=
  let ls := lanesOf act
  { seq := s.seq, issued := s.now, sample := sample
    writes := if sc then lateScalar (f (lowest act)) else ls.flatMap fun l => lateLane l (f l)
    flags := if sc then (f (lowest act)).fl else ls.foldl (fun a l => a ||| (f l).fl) 0 }

/-- A register instruction with late results (R24). -/
def lateRegOp (h : Hdr) (cls : Nat) (u : Uses) (f : Env → Nat → Outs) (s : State) : Out :=
  issue h (if h.sc then 13 else cls) u.later .anywhere false (fun e s =>
    .go (s.onSlot e.c e.n fun x => x.addLate (lateOf s h.sc e.act false (f e))) (if h.sc then 1 else countOf e.act)) s

end Sys2Proof.Machine
end

