-- ==== Sys2Proof/Machine/Special.lean ====
section
/-! DEFINITION. The special functions (R111, R145): reciprocal, roots, and the nearest-rounded functions,
computed in fixed point of `fp` fraction bits with a last bit that marks an inexact value. That this
precision decides every FP32 rounding is PRESUMED (log 17). -/

namespace Sys2Proof.Machine

/-- Fraction bits of the fixed point. -/
def fp : Nat := 320
def one : Nat := 2 ^ fp

/-- The integer square root: the greatest r with r × r ≤ n and r < 2^k. -/
def isqrt (n : Nat) : Nat → Nat
  | 0 => 0
  | k + 1 =>
    let r := 2 * isqrt (n / 4) k
    if (r + 1) * (r + 1) ≤ n then r + 1 else r

/-- A value with a sticky last bit: exact, or between m and m + 1 units. -/
def stickyVal (neg exact : Bool) (m : Nat) (e : Int) : Val := .fin neg (2 * m + (if exact then 0 else 1)) (e - 1)

/-- 1 / (m × 2^e). -/
def recipVal (neg : Bool) (m : Nat) (e : Int) : Val :=
  stickyVal neg (2 ^ 160 % m == 0) (2 ^ 160 / m) (-160 - e)

/-- √(m × 2^e). -/
def sqrtVal (m : Nat) (e : Int) : Val :=
  let odd := e % 2 != 0
  let m := if odd then 2 * m else m
  let e := if odd then e - 1 else e
  let r := isqrt (m * 2 ^ 160) 160
  stickyVal false (r * r == m * 2 ^ 160) r (e / 2 - 80)

/-- 1 / √(m × 2^e). -/
def rsqrtVal (m : Nat) (e : Int) : Val :=
  let odd := e % 2 != 0
  let m := if odd then 2 * m else m
  let e := if odd then e - 1 else e
  let r := isqrt (2 ^ 240 / m) 240
  stickyVal false (r * r * m == 2 ^ 240) r (-120 - e / 2)

/-- Σ x^(2k+1)/(2k+1), or alternating: arctangent and its hyperbolic form of 0 ≤ x < 1; `n` terms are left,
`k` is the next odd number and `t` the power. -/
def atanSeries (alt : Bool) (x2 : Nat) : Nat → Nat → Nat → Int
  | 0, _, _ => 0
  | n + 1, k, t =>
    let rest := atanSeries alt x2 n (k + 2) (t * x2 / one)
    (t / k : Nat) + (if alt then -rest else rest)

def atanFix (x : Nat) : Int := atanSeries true (x * x / one) 250 1 x
def atanhFix (x : Nat) : Int := atanSeries false (x * x / one) 250 1 x

/-- π in fixed point, by Machin's formula. -/
def piFix : Nat := (16 * atanFix (one / 5) - 4 * atanFix (one / 239)).toNat
/-- ln 2 = 2 artanh (1/3). -/
def ln2Fix : Nat := (2 * atanhFix (one / 3)).toNat

/-- Σ t: exponential series of x: the terms from number k on, the last being t. -/
def expSeries (x : Nat) : Nat → Nat → Nat → Nat
  | 0, _, _ => 0
  | n + 1, k, t => t + expSeries x n (k + 1) (t * x / one / k)

/-- e^x for 0 ≤ x ≤ 1. -/
def expFix (x : Nat) : Nat := expSeries x 90 1 one

/-- Alternating sine and cosine series. -/
def trigSeries (x2 : Nat) : Nat → Nat → Nat → Int
  | 0, _, _ => 0
  | n + 1, k, t => (t : Int) - trigSeries x2 n (k + 2) (t * x2 / one / (k * (k + 1)))

def sinFix (x : Nat) : Int := trigSeries (x * x / one) 50 2 x
def cosFix (x : Nat) : Int := trigSeries (x * x / one) 50 1 one

/-- A finite magnitude in fixed point, truncated. -/
def toFix (m : Nat) (e : Int) : Nat := if 0 ≤ e + fp then m * p2 (e + fp) else m / p2 (-(e + fp))

/-- A fixed-point magnitude as an inexact value. -/
def fixVal (neg : Bool) (x : Nat) : Val := stickyVal neg false x (-(fp : Int))

/-- 2^x (R111): n is the integer part and the rest is in [0, 1). -/
def ex2Val (neg : Bool) (m : Nat) (e : Int) : Val :=
  if m = 0 then .fin false 1 0
  else if (Nat.log2 m : Int) + e ≥ 10 then (if neg then .fin false 1 (-1000) else .fin false 1 1000)
  else
    let x := toFix m e
    let exact := m % p2 (-e) == 0 || 0 ≤ e
    let n : Int := if neg then -((x + one - 1) / one : Nat) else (x / one : Nat)
    let f : Nat := if neg then ((x + one - 1) / one) * one - x else x % one
    if exact then .fin false 1 n
    else stickyVal false false (expFix (f * ln2Fix / one)) (n - fp)

/-- log2 of m × 2^e, m > 0 (R111). -/
def lg2Val (m : Nat) (e : Int) : Val :=
  let n := Nat.log2 m
  let q : Int := (n : Int) + e
  if m = 2 ^ n then .fin (decide (q < 0)) q.natAbs 0
  else
    let x := m * one / 2 ^ n
    let l : Int := 2 * atanhFix ((x - one) * one / (x + one)) * one / ln2Fix
    let r := q * (one : Int) + l
    if r < 0 then fixVal true (r.natAbs - 1) else fixVal false r.natAbs

/-- Sine or cosine of m × 2^e, in nearest mode by its last bits (R111). -/
def trigVal (cos neg : Bool) (m : Nat) (e : Int) : Val :=
  let x := toFix m e
  let h := piFix / 2
  let q := x / h
  let r := x % h
  let k := q % 4
  let s := if cos then (if k % 2 = 0 then cosFix r else sinFix r) else (if k % 2 = 0 then sinFix r else cosFix r)
  let sg := if cos then k == 1 || k == 2 else (decide (2 ≤ k)) != neg
  if m ≠ 0 ∧ !cos ∧ (Nat.log2 m : Int) + e < -100 then .fin neg (4 * m - 1) (e - 2)
  else if s < 0 then fixVal (!sg) (s.natAbs - 1) else fixVal sg s.natAbs

/-- The FP32 constant of the reduction for |x| ≥ 2^17 (R111), 0x40C90FDB. -/
def tau32 : Nat × Int := (0xC90FDB, -21)

/-- R111's reduction of m × 2^e: the remainder r = x - n c with n the nearest integer, ties to even. -/
def reduceTau (neg : Bool) (m : Nat) (e : Int) : Val :=
  let f := min e tau32.2
  let x := m * p2 (e - f)
  let c := tau32.1 * p2 (tau32.2 - f)
  let n := x / c
  let r := x % c
  let up := 2 * r > c || (2 * r == c && n % 2 == 1)
  if up then .fin (!neg) (c - r) f else .fin (neg && r != 0) r f

/-- tanh of m × 2^e (R111). -/
def tanhVal (neg : Bool) (m : Nat) (e : Int) : Val :=
  if m = 0 then .fin neg 0 0
  else if (Nat.log2 m : Int) + e ≥ 6 then .fin neg (2 ^ 200 - 1) (-200)
  else if (Nat.log2 m : Int) + e < -100 then .fin neg (4 * m - 1) (e - 2)
  else
    let y := 2 * toFix m e
    let n := y / ln2Fix
    let ex := expFix (y % ln2Fix) * 2 ^ n
    fixVal neg ((ex - one) * one / (ex + one))

end Sys2Proof.Machine
end

