-- ==== Sys2Proof/Machine/Float.lean ====
section
/-! DEFINITION. Floating-point arithmetic, comparison, classification, rounding and the special functions
(R136 to R145). -/

namespace Sys2Proof.Machine

/-- The canonical NaN with S clear (R88). -/
def nan32 : Img := pureImg 0x7FC00000#32
def inf32 (neg : Bool) : Img := pureImg (if neg then 0xFF800000#32 else 0x7F800000#32)
def zero32 (neg : Bool) : Img := pureImg (if neg then 0x80000000#32 else 0#32)

/-- An operand under its modifiers (R136): absolute value, then negation; S stays. -/
def omod (o : OMod) (x : Img) : Img :=
  let w := if o.abs then pay x &&& 0x7FFFFFFF#32 else pay x
  img (sticky x) (if o.neg then w ^^^ 0x80000000#32 else w)

/-- The sum of two values in a mode, with ZeroSign (R139). -/
def addVals (m : Mode) (a b : Val) : Img × Fl :=
  match a, b with
  | .nan, _ | _, .nan => (nan32, 0)
  | .inf x, .inf y => if x = y then (inf32 x, 0) else (nan32, fNV)
  | .inf x, _ | _, .inf x => (inf32 x, 0)
  | .fin x _ _, .fin y _ _ =>
    let s := sumFin [a, b]
    if s.1 = 0 then (zero32 (if x = y then x else m == .dn), 0) else fp32Res m (.fin (decide (s.1 < 0)) s.1.natAbs s.2)

/-- An infinity times a zero (R139). -/
def infZero (a b : Val) : Bool := (a.isInf && b.isZero) || (a.isZero && b.isInf)

def Val.flip : Val → Val
  | .nan => .nan
  | .inf n => .inf (!n)
  | .fin n m e => .fin (!n) m e

/-- The product of two values (R139). -/
def mulVals (m : Mode) (a b : Val) : Img × Fl :=
  if a.isNan || b.isNan then (nan32, 0)
  else if infZero a b then (nan32, fNV)
  else fp32Res m (a.mul b)

/-- The fused product and sum (R139). -/
def fmaVals (m : Mode) (a b c : Val) : Img × Fl :=
  if infZero a b then (nan32, fNV) else addVals m (a.mul b) c

/-- A floating instruction of two operands. -/
def fbin (h : Hdr) (d : BitVec 9) (a b : Src) (ma mb : OMod) (f : Mode → Img → Img → Img × Fl) (rm : RMod) (s : State) : Out :=
  regOp h 1 (usesOf h [a, b] [] [] (some d) 1 []) (fun e l => outI d (f (e.mode rm) (omod ma (e.src l a)) (omod mb (e.src l b)))) s

def execFadd (h : Hdr) (d : BitVec 9) (a b : Src) (ma mb : OMod) (rm : RMod) (s : State) : Out :=
  fbin h d a b ma mb (fun m x y => addVals m (f32 x) (f32 y)) rm s

def execFsub (h : Hdr) (d : BitVec 9) (a b : Src) (ma mb : OMod) (rm : RMod) (s : State) : Out :=
  fbin h d a b ma mb (fun m x y => addVals m (f32 x) (f32 y).flip) rm s

def execFmul (h : Hdr) (d : BitVec 9) (a b : Src) (ma mb : OMod) (rm : RMod) (s : State) : Out :=
  fbin h d a b ma mb (fun m x y => mulVals m (f32 x) (f32 y)) rm s

def execFfma (h : Hdr) (d : BitVec 9) (a b c : Src) (ma mb mc : OMod) (rm : RMod) (s : State) : Out :=
  regOp h 1 (usesOf h [a, b, c] [] [] (some d) 1 []) (fun e l =>
    outI d (fmaVals (e.mode rm) (f32 (omod ma (e.src l a))) (f32 (omod mb (e.src l b))) (f32 (omod mc (e.src l c))))) s

/-- The order of R140, with -0 below +0; neither value is NaN. -/
def cmpSigned (a b : Val) : Ordering :=
  match cmpVal a b with
  | .eq => if a.neg = b.neg then .eq else if a.neg then .lt else .gt
  | o => o

/-- The selection of FMIN and FMAX (R140). -/
def selectF (mx : Bool) (x y : Img) : Img :=
  let a := f32 x
  let b := f32 y
  if a.isNan && b.isNan then nan32
  else if a.isNan then y
  else if b.isNan then x
  else if cmpSigned a b = (if mx then .lt else .gt) then y else x

def execFmin (h : Hdr) (d : BitVec 9) (a b : Src) (ma mb : OMod) (s : State) : Out :=
  fbin h d a b ma mb (fun _ x y => (selectF false x y, 0)) .fmode s

def execFmax (h : Hdr) (d : BitVec 9) (a b : Src) (ma mb : OMod) (s : State) : Out :=
  fbin h d a b ma mb (fun _ x y => (selectF true x y, 0)) .fmode s

/-- The condition of FCMP (R141). -/
def fcond (c : FCond) (a b : Val) : Bool :=
  let nan := a.isNan || b.isNan
  match c with
  | .un => nan
  | .ord => !nan
  | .ne => nan || cmpVal a b != .eq
  | .eq => !nan && cmpVal a b == .eq
  | .lt => !nan && cmpVal a b == .lt
  | .le => !nan && cmpVal a b != .gt
  | .gt => !nan && cmpVal a b == .gt
  | .ge => !nan && cmpVal a b != .lt

def FCond.signals : FCond → Bool
  | .lt | .le | .gt | .ge => true
  | _ => false

/-- Decided (R109). -/
def decided (x y : Img) : Bool :=
  let a := f32 x
  let b := f32 y
  a.isNan || b.isNan || cmpVal a b != .eq || (!sticky x && !sticky y)

def execFcmp (h : Hdr) (pd pq : BitVec 3) (a b : Src) (ma mb : OMod) (c : FCond) (s : State) : Out :=
  regOp h 1 (usesOf h [a, b] [] [] none 0 [pd.toNat, pq.toNat]) (fun e l =>
    let x := omod ma (e.src l a)
    let y := omod mb (e.src l b)
    { preds := [(pd, fcond c (f32 x) (f32 y)), (pq, decided x y)]
      fl := flIf (FCond.signals c && ((f32 x).isNan || (f32 y).isNan)) fNV }) s

/-- FCLASS's word (R143). -/
def classWord (f : Fmt) (x : Img) : Word :=
  let sub := decide ((pay x).toNat % 2 ^ (fmtBits f - 1) < 2 ^ (fmtP f).mb)
  let k : Nat := match decodeF f (pay x).toNat with
    | .nan => 8
    | .inf n => if n then 0 else 7
    | .fin n m _ => if m = 0 then (if n then 3 else 4) else if sub then (if n then 2 else 5) else if n then 1 else 6
  BitVec.ofNat 32 (2 ^ k + (if sticky x then 512 else 0))

def execFclass (h : Hdr) (d : BitVec 9) (a : Src) (f : Fmt) (s : State) : Out :=
  regOp h 1 (usesOf h [a] [] [] (some d) 1 []) (fun e l => out1 d (classWord f (e.src l a))) s

/-- FRND (R144). -/
def frndVal (m : Mode) (v : Val) : Img × Fl :=
  match v with
  | .nan => (nan32, 0)
  | .inf n => (inf32 n, 0)
  | .fin n k e =>
    let r := roundInt m n k e
    let c := roundF .fp32 .ne (.fin n r.1.natAbs 0)
    (img r.2 (BitVec.ofNat 32 c.code), flIf r.2 fNX)

def execFrnd (h : Hdr) (d : BitVec 9) (a : Src) (ma : OMod) (rm : RMod) (s : State) : Out :=
  regOp h 1 (usesOf h [a] [] [] (some d) 1 []) (fun e l => outI d (frndVal (e.mode rm) (f32 (omod ma (e.src l a))))) s

/-- FSCALE (R144). A scale beyond ±1000 rounds as ±1000 does: every finite FP32 value leaves the range by
then. -/
def fscaleVal (m : Mode) (v : Val) (n : Int) : Img × Fl :=
  match v with
  | .nan => (nan32, 0)
  | .inf s => (inf32 s, 0)
  | .fin s k e => if k = 0 then (zero32 s, 0) else fp32Res m (.fin s k (e + max (-1000) (min n 1000)))

def execFscale (h : Hdr) (d : BitVec 9) (a b : Src) (ma : OMod) (rm : RMod) (s : State) : Out :=
  regOp h 1 (usesOf h [a, b] [] [] (some d) 1 []) (fun e l =>
    outI d (fscaleVal (e.mode rm) (f32 (omod ma (e.src l a))) (e.pay l b).toInt)) s

/-- FLOGB (R144). -/
def flogbWord (v : Val) : Word :=
  match v with
  | .nan => 0x80000000#32
  | .inf _ => 0x7FFFFFFF#32
  | .fin _ m e => if m = 0 then 0x80000000#32 else BitVec.ofInt 32 ((Nat.log2 m : Int) + e)

def execFlogb (h : Hdr) (d : BitVec 9) (a : Src) (s : State) : Out :=
  regOp h 1 (usesOf h [a] [] [] (some d) 1 []) (fun e l => out1 d (flogbWord (f32 (e.src l a)))) s

-- special functions (R145, R111)

/-- A special function with a late result. -/
def special (h : Hdr) (d : BitVec 9) (a : Src) (ma : OMod) (rm : RMod) (f : Mode → Val → Img × Fl) (s : State) : Out :=
  lateRegOp h 2 (usesOf h [a] [] [] (some d) 1 []) (fun e l => outI d (f (e.mode rm) (f32 (omod ma (e.src l a))))) s

def rcpOf (m : Mode) (v : Val) : Img × Fl :=
  match v with
  | .nan => (nan32, 0)
  | .inf n => (zero32 n, 0)
  | .fin n k e => if k = 0 then (inf32 n, fDZ) else fp32Res m (recipVal n k e)

def rsqOf (m : Mode) (v : Val) : Img × Fl :=
  match v with
  | .nan => (nan32, 0)
  | .inf n => if n then (nan32, fNV) else (zero32 false, 0)
  | .fin n k e => if k = 0 then (inf32 n, fDZ) else if n then (nan32, fNV) else fp32Res m (rsqrtVal k e)

def sqrtOf (m : Mode) (v : Val) : Img × Fl :=
  match v with
  | .nan => (nan32, 0)
  | .inf n => if n then (nan32, fNV) else (inf32 false, 0)
  | .fin n k e => if k = 0 then (zero32 n, 0) else if n then (nan32, fNV) else fp32Res m (sqrtVal k e)

def ex2Of (_ : Mode) (v : Val) : Img × Fl :=
  match v with
  | .nan => (nan32, 0)
  | .inf n => if n then (zero32 false, 0) else (inf32 false, 0)
  | .fin n k e => fp32Res .ne (ex2Val n k e)

def lg2Of (_ : Mode) (v : Val) : Img × Fl :=
  match v with
  | .nan => (nan32, 0)
  | .inf n => if n then (nan32, fNV) else (inf32 false, 0)
  | .fin n k e => if k = 0 then (inf32 true, fDZ) else if n then (nan32, fNV) else fp32Res .ne (lg2Val k e)

/-- A result of the reduced range: S and NX in any case (R111). -/
def forceNX (r : Img × Fl) : Img × Fl := (img true (pay r.1), r.2 ||| fNX)

/-- Sine and cosine of a value below 2^17 (R111). -/
def trigSmall (cos : Bool) (v : Val) : Img × Fl :=
  match v with
  | .fin n m e => if m = 0 then (if cos then pureImg 0x3F800000#32 else zero32 n, 0) else fp32Res .ne (trigVal cos n m e)
  | _ => (nan32, 0)

def trigOf (cos : Bool) (_ : Mode) (v : Val) : Img × Fl :=
  match v with
  | .nan => (nan32, 0)
  | .inf _ => (nan32, fNV)
  | .fin n m e =>
    if m ≠ 0 ∧ 17 ≤ (Nat.log2 m : Int) + e then forceNX (trigSmall cos (reduceTau n m e)) else trigSmall cos v

def tanhOf (_ : Mode) (v : Val) : Img × Fl :=
  match v with
  | .nan => (nan32, 0)
  | .inf n => (pureImg (if n then 0xBF800000#32 else 0x3F800000#32), 0)
  | .fin n m e => if m = 0 then (zero32 n, 0) else fp32Res .ne (tanhVal n m e)

def execRcp (h : Hdr) (d : BitVec 9) (a : Src) (ma : OMod) (rm : RMod) (s : State) : Out := special h d a ma rm rcpOf s
def execRsq (h : Hdr) (d : BitVec 9) (a : Src) (ma : OMod) (rm : RMod) (s : State) : Out := special h d a ma rm rsqOf s
def execSqrt (h : Hdr) (d : BitVec 9) (a : Src) (ma : OMod) (rm : RMod) (s : State) : Out := special h d a ma rm sqrtOf s
def execEx2 (h : Hdr) (d : BitVec 9) (a : Src) (ma : OMod) (s : State) : Out := special h d a ma .rn ex2Of s
def execLg2 (h : Hdr) (d : BitVec 9) (a : Src) (ma : OMod) (s : State) : Out := special h d a ma .rn lg2Of s
def execSin (h : Hdr) (d : BitVec 9) (a : Src) (ma : OMod) (s : State) : Out := special h d a ma .rn (trigOf false) s
def execCos (h : Hdr) (d : BitVec 9) (a : Src) (ma : OMod) (s : State) : Out := special h d a ma .rn (trigOf true) s
def execTanh (h : Hdr) (d : BitVec 9) (a : Src) (ma : OMod) (s : State) : Out := special h d a ma .rn tanhOf s

end Sys2Proof.Machine
end

