-- ==== Sys2Proof/Machine/Convert.lean ====
section
/-! DEFINITION. Conversions, packing and sticky access (R126 to R134). -/

namespace Sys2Proof.Machine

/-- G contains F (R126). -/
def contains (g f : Fmt) : Bool :=
  g == f || g == .fp32 || ((g == .bf16 || g == .fp16) && (f == .e4m3 || f == .e5m2 || f == .e2m1)) ||
  ((g == .e4m3 || g == .e5m2) && f == .e2m1)

/-- CVT in one lane (R127). DEDUCED, log 79: a NaN source keeps its S. -/
def cvtImg (g f : Fmt) (x : Img) : Img × Fl :=
  let v := decodeF f (pay x).toNat
  if contains g f then
    (img (sticky x) (if f = .fp32 then (if v.isNan then 0x7FC00000#32 else pay x) else BitVec.ofNat 32 (roundF g .tz v).code), 0)
  else
    let r := roundOdd g v
    (img (sticky x || r.2) (BitVec.ofNat 32 r.1), flIf (v.isNan && g == .e2m1) fNV)

def execCvt (h : Hdr) (d : BitVec 9) (a : Src) (g f : Fmt) (s : State) : Out :=
  regOp h 3 (usesOf h [a] [] [] (some d) 1 []) (fun e l => outI d (cvtImg g f (e.src l a))) s

/-- F2I in one lane (R128). -/
def f2iImg (u : Bool) (f : Fmt) (m : Mode) (x : Img) : Img × Fl :=
  let lo : Int := if u then 0 else -2 ^ 31
  let hi : Int := if u then 2 ^ 32 - 1 else 2 ^ 31 - 1
  match decodeF f (pay x).toNat with
  | .nan => (img true 0, fNV)
  | .inf n => (img true (BitVec.ofInt 32 (if n then lo else hi)), fNV)
  | .fin n k e =>
    let r := roundInt m n k e
    if r.1 < lo then (img true (BitVec.ofInt 32 lo), fNV)
    else if hi < r.1 then (img true (BitVec.ofInt 32 hi), fNV)
    else (img (sticky x || r.2) (BitVec.ofInt 32 r.1), flIf r.2 fNX)

def execF2i (h : Hdr) (d : BitVec 9) (a : Src) (u : Bool) (f : Fmt) (rm : RMod) (s : State) : Out :=
  regOp h 3 (usesOf h [a] [] [] (some d) 1 []) (fun e l => outI d (f2iImg u f (e.mode rm) (e.src l a))) s

/-- I2F in one lane (R129). -/
def i2fImg (m : Mode) (x : Int) : Img × Fl := fp32Res m (valI x)

def execI2f (h : Hdr) (d : BitVec 9) (a : Src) (k : IKind) (rm : RMod) (s : State) : Out :=
  let wide := k == .s64 || k == .u64
  regOp h 3 (usesOf h (if wide then [] else [a]) (if wide then [a] else []) [] (some d) 1 []) (fun e l =>
    outI d (i2fImg (e.mode rm) (match k with
      | .s32 => (e.pay l a).toInt
      | .u32 => ((e.pay l a).toNat : Int)
      | .s64 => (e.pair l false a).toInt
      | .u64 => ((e.pair l true a).toNat : Int)))) s

/-- FIN in one lane (R130). DEDUCED, log 104: `fin.f32.f32` commits a NaN as every commit does (R103, R105). -/
def finImg (g f : Fmt) (m : Mode) (x : Img) : Img × Fl :=
  let r := commitRound x f g m 0 none
  (pureImg (BitVec.ofNat 32 r.code), r.fl)

def execFin (h : Hdr) (d : BitVec 9) (a : Src) (g f : Fmt) (rm : RMod) (s : State) : Out :=
  regOp h 3 (usesOf h [a] [] [] (some d) 1 []) (fun e l => outI d (finImg g f (e.mode rm) (e.src l a))) s

/-- n registers from a base, as numbers. -/
def regRange (b : BitVec 8) (n : Nat) : List Nat := List.range' b.toNat n

/-- Register writes of a list of images from a base. -/
def outL (b : Nat) (xs : List Img) : List (Nat × Img) := xs.zipIdx.map fun x => (b + x.2, x.1)

/-- PACK (R131). -/
def execPack (h : Hdr) (d : BitVec 8) (a : BitVec 8) (g f : Fmt) (rm : RMod) (as sp : Bool) (s : State) : Out :=
  lateRegOp h 3 { rv := regRange a (elems g), wv := regRange d 17 } (fun e l =>
    let b := packBlock ((regRange a (elems g)).map (e.x.v l)) f g (e.mode rm) as sp
    { regs := outL d.toNat ((b.frag g).map pureImg), fl := b.fl }) s

/-- UNPK of one element (R132). -/
def unpkElem (hd : Word) (g : Fmt) (raw : Bool) (ws : List Word) (i : Nat) : Img :=
  let c := elemCode ws g i
  if hdrFmt hd = 0 then 0
  else if fmtInt g then pureImg (BitVec.ofInt 32 (decodeI g c))
  else if raw then pureImg (BitVec.ofNat 32 c)
  else
    let r := roundOdd .fp32 (elemVal hd g c)
    img r.2 (BitVec.ofNat 32 r.1)

/-- Lanes with a header of R133, with the TINFO it gives. DEDUCED, log 82: malformed lanes go first and
are then reported alone. -/
def hdrFault (hd : Nat → Word) (lanes : List Nat) (g : Fmt) : Option (Mask × Nat) :=
  let bad := lanes.filter fun l => badHdr (hd l)
  let wrong := lanes.filter fun l => hdrFmt (hd l) ≠ 0 ∧ hdrFmt (hd l) ≠ fmtNum g
  if bad ≠ [] then some (maskOf bad, 1) else if wrong ≠ [] then some (maskOf wrong, 2) else none

/-- UNPK (R132, R133). -/
def execUnpk (h : Hdr) (d : BitVec 8) (a : BitVec 8) (g : Fmt) (raw : Bool) (s : State) : Out :=
  issue h 3 { rv := regRange a 17, wv := regRange d (elems g), late := true } .anywhere false (fun e s =>
    match hdrFault (fun l => pay (e.x.v l (a.toNat + 16))) (lanesOf e.act) g with
    | some (m, i) => .trap s { cause := 0x0B, mask := m, info := i }
    | none =>
      .go (s.onSlot e.c e.n fun x => x.addLate (lateOf s false e.act false fun l =>
        let ws := (regRange a 16).map fun n => pay (e.x.v l n)
        { regs := outL d.toNat ((List.range (elems g)).map (unpkElem (pay (e.x.v l (a.toNat + 16))) g raw ws)) }))
        (countOf e.act)) s

/-- The sticky bit as a number (R134). -/
def execStkr (h : Hdr) (d : BitVec 9) (a : Src) (s : State) : Out :=
  regOp h 0 (usesOf h [a] [] [] (some d) 1 []) (fun e l => out1 d (if sticky (e.src l a) then 1 else 0)) s

/-- Writes of the sticky bit (R134). -/
def execStkw (h : Hdr) (d : BitVec 9) (a : Src) (f : StkForm) (s : State) : Out :=
  let two := match f with | .bit b => [a, b] | _ => [a]
  regOp h 0 (usesOf h two [] [] (some d) 1 []) (fun e l =>
    outI d (img (match f with | .bit b => (e.pay l b).getLsbD 0 | .clr => false | .set => true) (e.pay l a), 0)) s

end Sys2Proof.Machine
end

