-- ==== Sys2Proof/Machine/Cross.lean ====
section
/-! DEFINITION. Cross-lane instructions (R146 to R157). -/

namespace Sys2Proof.Machine

/-- The members of a cross-lane instruction (R146). -/
def Env.members (e : Env) (p : PSrc) : List Nat := (lanesOf e.act).filter fun l => e.pred l p

/-- A cross-lane instruction: late results, one event of its class (R146, R234). -/
def xlane (h : Hdr) (u : Uses) (f : Env → Nat → Outs) (s : State) : Out :=
  issue h 4 u.later .anywhere false (fun e s =>
    .go (s.onSlot e.c e.n fun x => x.addLate (lateOf s false e.act false (f e))) 1) s

/-- The value of lane j's register where j is a member, else the reader's own (R146). -/
def Env.take (e : Env) (a : Src) (ms : List Nat) (l : Nat) (j : Option Nat) : Img :=
  match j with
  | some j => if ms.contains j then e.src j a else e.src l a
  | none => e.src l a

/-- The lane SHFL reads (R148); none beyond the swarm. -/
def shflLane (m : ShMode) (l n : Nat) : Option Nat :=
  match m with
  | .at => some (n % Config.width)
  | .back => if n ≤ l then some (l - n) else none
  | .fwd => if l + n < Config.width then some (l + n) else none
  | .flip => some (l ^^^ (n % Config.width))
  | .rot => some ((l + n) % Config.width)

def execShfl (h : Hdr) (d : BitVec 8) (a : Src) (m : ShMode) (n : ShOff) (p : PSrc) (s : State) : Out :=
  let srcs := match n with | .opd b => [a, b] | .wrel _ => [a]
  xlane h (usesOf h srcs [] [p] (some (d.setWidth 9)) 1 []) (fun e =>
    let ms := e.members p
    fun l =>
      let k := match n with | .opd b => (e.pay l b).toNat | .wrel r => Config.width >>> r.toNat
      outI (d.setWidth 9) (e.take a ms l (shflLane m l k), 0)) s

def execShflb (h : Hdr) (d : BitVec 8) (a : Src) (b : ShbSel) (p : PSrc) (s : State) : Out :=
  let srcs := match b with | .lane b => [a, b] | .lo => [a]
  xlane h (usesOf h srcs [] [p] (some (d.setWidth 9)) 1 []) (fun e =>
    let ms := e.members p
    fun l =>
      let j := match b with | .lane b => some ((e.pay l b).toNat % Config.width) | .lo => ms.head?
      outI (d.setWidth 9) (e.take a ms l j, 0)) s

/-- The push (R150): the highest-numbered sender wins. -/
def execShflp (h : Hdr) (d : BitVec 8) (a b : Src) (p : PSrc) (s : State) : Out :=
  xlane h (usesOf h [a, b] [] [p] (some (d.setWidth 9)) 1 []) (fun e =>
    let sent := (e.members p).map fun j => ((e.pay j b).toNat % Config.width, j)
    fun l => outI (d.setWidth 9)
      (match (sent.filter (·.1 == l)).getLast? with | some t => e.src t.2 a | none => e.src l a, 0)) s

/-- A lane mask in a pair (R147). -/
def outMask (d : BitVec 8) (m : Mask) : Outs := out2 (d.setWidth 9) m

def execVote (h : Hdr) (f : VoteForm) (pa : PSrc) (s : State) : Out :=
  let u : Uses := match f with
    | .mask d => { rp := [pa.p.toNat], wv := regRange d 2 }
    | .every pd | .some pd | .same pd => { rp := [pa.p.toNat], wp := [pd.toNat] }
  xlane h u (fun e =>
    let ls := lanesOf e.act
    let yes := ls.filter fun l => e.pred l pa
    fun _ => match f with
      | .every pd => { preds := [(pd, yes.length == ls.length)] }
      | .some pd => { preds := [(pd, yes.length != 0)] }
      | .same pd => { preds := [(pd, yes.length == 0 || yes.length == ls.length)] }
      | .mask d => outMask d (maskOf yes)) s

def execMatchx (h : Hdr) (f : MatchForm) (a : Src) (p : PSrc) (s : State) : Out :=
  let u := match f with
    | .mask d => usesOf h [a] [] [p] (some (d.setWidth 9)) 2 []
    | .one pd => usesOf h [a] [] [p] none 0 [pd.toNat]
  xlane h u (fun e =>
    let ms := e.members p
    fun l => match f with
      | .mask d => outMask d (maskOf (ms.filter fun j => e.pay j a == e.pay l a))
      | .one pd => { preds := [(pd, ms.all fun j => e.pay j a == e.pay (ms.headD 0) a)] }) s

/-- The integer combinations of R153 and their identities. -/
def ROp.comb (o : ROp) (x y : Word) : Word :=
  match o with
  | .iadd => x + y
  | .imin => if y.toInt < x.toInt then y else x
  | .imax => if x.toInt < y.toInt then y else x
  | .umin => if y.toNat < x.toNat then y else x
  | .umax => if x.toNat < y.toNat then y else x
  | .and => x &&& y
  | .or => x ||| y
  | .xor => x ^^^ y
  | _ => x

def ROp.ident : ROp → Word
  | .fmin => 0x7F800000#32
  | .fmax => 0xFF800000#32
  | .imin => 0x7FFFFFFF#32
  | .imax => 0x80000000#32
  | .umin | .and => 0xFFFFFFFF#32
  | _ => 0

/-- What a selection writes: a NaN becomes the canonical one with S clear (R88, R140). -/
def cleanNan (x : Img) : Img := if (f32 x).isNan then pureImg 0x7FC00000#32 else x

/-- A reduction over a list of images in ascending lane order (R154). -/
def reduce (o : ROp) (m : Mode) : List Img → Img × Fl
  | [] => (pureImg (ROp.ident o), 0)
  | x :: r =>
    match o with
    | .fadd => sum32 (x :: r) m
    | .fmin => (cleanNan (r.foldl (selectF false) x), 0)
    | .fmax => (cleanNan (r.foldl (selectF true) x), 0)
    | _ => (pureImg (r.foldl (fun w y => ROp.comb o w (pay y)) (pay x)), 0)

def execRedx (h : Hdr) (d : BitVec 8) (a : Src) (o : ROp) (rm : RMod) (p : PSrc) (s : State) : Out :=
  xlane h (usesOf h [a] [] [p] (some (d.setWidth 9)) 1 []) (fun e =>
    let r := reduce o (e.mode rm) ((e.members p).map fun j => e.src j a)
    fun _ => outI (d.setWidth 9) r) s

def execScanx (h : Hdr) (d : BitVec 8) (a : Src) (o : ROp) (rm : RMod) (exc : Bool) (p : PSrc) (s : State) : Out :=
  xlane h (usesOf h [a] [] [p] (some (d.setWidth 9)) 1 []) (fun e =>
    let ms := e.members p
    fun l => outI (d.setWidth 9)
      (reduce o (e.mode rm) ((ms.filter fun j => decide (j < l) || (j == l && !exc)).map fun j => e.src j a))) s

/-- The table lookup (R155). -/
def execGath (h : Hdr) (d a : BitVec 8) (b : Src) (n : BitVec 4) (p : PSrc) (s : State) : Out :=
  let u := usesOf h [b] [] [p] (some (d.setWidth 9)) 1 []
  xlane h { u with rv := u.rv ++ regRange a (n.toNat + 1) } (fun e =>
    let ms := e.members p
    fun l =>
      let x := (e.pay l b).toNat
      let k := x / Config.width
      outI (d.setWidth 9) (if n.toNat < k then 0 else e.x.v (if ms.contains (x % Config.width) then x % Config.width else l) (a.toNat + k), 0)) s

/-- The rows of REBAL: lane, start and length (R156). -/
def rows (len : Nat → Nat) : Nat → List Nat → List (Nat × Nat × Nat)
  | _, [] => []
  | p, j :: r => (j, p, len j) :: rows len (p + len j) r

def execRebal (h : Hdr) (d : BitVec 8) (a b : Src) (p : PSrc) (s : State) : Out :=
  xlane h (usesOf h [a, b] [] [p] (some (d.setWidth 9)) 2 []) (fun e =>
    let rs := rows (fun j => (e.pay j a).toNat) 0 (e.members p)
    let total := (rs.map (·.2.2)).sum
    fun l =>
      let t := (e.pay l b).toNat
      match rs.find? fun r => decide (r.2.1 ≤ t) && decide (t < r.2.1 + r.2.2) with
      | some r => { regs := outL d.toNat [pureImg (BitVec.ofNat 32 r.1), pureImg (BitVec.ofNat 32 (t - r.2.1))] }
      | none => { regs := outL d.toNat [pureImg 0xFFFFFFFF#32, pureImg (BitVec.ofInt 32 ((t : Int) - total))] }) s

end Sys2Proof.Machine
end

