-- ==== Sys2Proof/Machine/Int.lean ====
section
/-! DEFINITION. Integer, logic, move and predicate instructions (R113 to R125). -/

namespace Sys2Proof.Machine

/-- An exact result wrapped to 32 bits, or clamped under `.sat` (R115). -/
def clampI (sat u : Bool) (x : Int) : Word :=
  if sat then
    if u then BitVec.ofInt 32 (max 0 (min x (2 ^ 32 - 1))) else BitVec.ofInt 32 (max (-2 ^ 31) (min x (2 ^ 31 - 1)))
  else BitVec.ofInt 32 x

/-- An operand as signed or unsigned. -/
def asInt (u : Bool) {n : Nat} (w : BitVec n) : Int := if u then (w.toNat : Int) else w.toInt

/-- A register instruction of two sources and one result. -/
def bin (h : Hdr) (d : BitVec 9) (a b : Src) (f : Word → Word → Word) (s : State) : Out :=
  regOp h 0 (usesOf h [a, b] [] [] (some d) 1 []) (fun e l => out1 d (f (e.pay l a) (e.pay l b))) s

/-- A register instruction of one source and one result. -/
def una (h : Hdr) (d : BitVec 9) (a : Src) (f : Word → Word) (s : State) : Out :=
  regOp h 0 (usesOf h [a] [] [] (some d) 1 []) (fun e l => out1 d (f (e.pay l a))) s

/-- A register instruction of three sources and one result. -/
def tri (h : Hdr) (d : BitVec 9) (a b c : Src) (f : Word → Word → Word → Word) (s : State) : Out :=
  regOp h 0 (usesOf h [a, b, c] [] [] (some d) 1 []) (fun e l => out1 d (f (e.pay l a) (e.pay l b) (e.pay l c))) s

/-- The carry forms of IADD and ISUB (R116). -/
def carryOp (h : Hdr) (d : BitVec 9) (a b : Src) (p : PSrc) (sub : Bool) (s : State) : Out :=
  regOp h 0 (usesOf h [a, b] [] [p] (some d) 1 [p.p.toNat]) (fun e l =>
    let y := e.pay l b
    let x := (e.pay l a).toNat + (if sub then (~~~y).toNat else y.toNat) + (e.pred l p).toNat
    { regs := [(d.toNat, pureImg (BitVec.ofNat 32 x))], preds := [(p.p, decide (2 ^ 32 ≤ x))] }) s

def execIadd (h : Hdr) (d : BitVec 9) (a b : Src) (f : AddForm) (s : State) : Out :=
  match f with
  | .plain sat u => bin h d a b (fun x y => clampI sat u (asInt u x + asInt u y)) s
  | .cc p => carryOp h d a b p false s

def execIsub (h : Hdr) (d : BitVec 9) (a b : Src) (f : AddForm) (s : State) : Out :=
  match f with
  | .plain sat u => bin h d a b (fun x y => clampI sat u (asInt u x - asInt u y)) s
  | .cc p => carryOp h d a b p true s

def execImul (h : Hdr) (d : BitVec 9) (a b : Src) (s : State) : Out := bin h d a b (fun x y => x * y) s

/-- High 32 bits of the 64-bit product (R115). -/
def execImulh (h : Hdr) (d : BitVec 9) (a b : Src) (u : Bool) (s : State) : Out :=
  bin h d a b (fun x y => (BitVec.ofInt 64 (asInt u x * asInt u y)).extractLsb' 32 32) s

def execImad (h : Hdr) (d : BitVec 9) (a b c : Src) (s : State) : Out := tri h d a b c (fun x y z => x * y + z) s

/-- The full product plus a pair (R115). -/
def execImadw (h : Hdr) (d : BitVec 9) (a b c : Src) (u : Bool) (s : State) : Out :=
  regOp h 0 (usesOf h [a, b] [c] [] (some d) 2 []) (fun e l =>
    out2 d (BitVec.ofInt 64 (asInt u (e.pay l a) * asInt u (e.pay l b)) + e.pair l u c)) s

def execImin (h : Hdr) (d : BitVec 9) (a b : Src) (u : Bool) (s : State) : Out :=
  bin h d a b (fun x y => if asInt u y < asInt u x then y else x) s

def execImax (h : Hdr) (d : BitVec 9) (a b : Src) (u : Bool) (s : State) : Out :=
  bin h d a b (fun x y => if asInt u x < asInt u y then y else x) s

def execIabs (h : Hdr) (d : BitVec 9) (a : Src) (sat : Bool) (s : State) : Out :=
  una h d a (fun x => clampI sat false (x.toInt.natAbs : Int)) s

def execIneg (h : Hdr) (d : BitVec 9) (a : Src) (sat : Bool) (s : State) : Out :=
  una h d a (fun x => clampI sat false (-x.toInt)) s

/-- A comparison's outcome (R121). -/
def condHolds (c : Cond) (x y : Int) : Bool :=
  match c with
  | .eq => x == y | .ne => x != y | .lt => decide (x < y) | .le => decide (x ≤ y) | .gt => decide (y < x) | .ge => decide (y ≤ x)

/-- pd gets the comparison, then pq the equality (R121). -/
def execIsetp (h : Hdr) (pd pq : BitVec 3) (a b : Src) (c : Cond) (u : Bool) (s : State) : Out :=
  regOp h 0 (usesOf h [a, b] [] [] none 0 [pd.toNat, pq.toNat]) (fun e l =>
    { preds := [(pd, condHolds c (asInt u (e.pay l a)) (asInt u (e.pay l b))), (pq, e.pay l a == e.pay l b)] }) s

def execIset (h : Hdr) (d : BitVec 9) (a b : Src) (c : Cond) (u : Bool) (s : State) : Out :=
  bin h d a b (fun x y => if condHolds c (asInt u x) (asInt u y) then 1 else 0) s

def execShl (h : Hdr) (d : BitVec 9) (a b : Src) (s : State) : Out := bin h d a b (fun x y => x <<< y.toNat) s
def execShr (h : Hdr) (d : BitVec 9) (a b : Src) (s : State) : Out := bin h d a b (fun x y => x >>> y.toNat) s
def execSar (h : Hdr) (d : BitVec 9) (a b : Src) (s : State) : Out := bin h d a b (fun x y => x.sshiftRight y.toNat) s
def execRol (h : Hdr) (d : BitVec 9) (a b : Src) (s : State) : Out := bin h d a b (fun x y => x.rotateLeft (y.toNat % 32)) s
def execAnd (h : Hdr) (d : BitVec 9) (a b : Src) (s : State) : Out := bin h d a b (fun x y => x &&& y) s
def execOr (h : Hdr) (d : BitVec 9) (a b : Src) (s : State) : Out := bin h d a b (fun x y => x ||| y) s
def execXor (h : Hdr) (d : BitVec 9) (a b : Src) (s : State) : Out := bin h d a b (fun x y => x ^^^ y) s
def execNot (h : Hdr) (d : BitVec 9) (a : Src) (s : State) : Out := una h d a (fun x => ~~~x) s

/-- Bit i of a word made bit by bit. -/
def ofBits (f : Nat → Bool) : Word := (List.range 32).foldl (fun w i => if f i then w ||| (1#32 <<< i) else w) 0

/-- Three-operand logic by truth table (R118). -/
def lop3Word (t : BitVec 8) (x y z : Word) : Word :=
  ofBits fun i => t.getLsbD ((x.getLsbD i).toNat + 2 * (y.getLsbD i).toNat + 4 * (z.getLsbD i).toNat)

def execLop3 (h : Hdr) (d : BitVec 9) (a b c : Src) (t : BitVec 8) (s : State) : Out := tri h d a b c (lop3Word t) s

/-- Byte permute (R119). -/
def bpermWord (x z ctl : Word) : Word :=
  let byte (j : Nat) : Byte :=
    let g := ctl.extractLsb' (5 * j) 5
    let k := (g.extractLsb' 0 3).toNat
    let v : Byte := (z ++ x).extractLsb' (8 * k) 8
    match (g.extractLsb' 3 2).toNat with
    | 0 => v
    | 1 => 0
    | 2 => if v.msb then 0xFF else 0
    | _ => 0xFF
  byte 3 ++ byte 2 ++ byte 1 ++ byte 0

def execBperm (h : Hdr) (d : BitVec 9) (a c b : Src) (s : State) : Out := tri h d a c b bpermWord s

/-- Position and clamped length of a field (R120). -/
def fieldOf (b : Word) : Nat × Nat :=
  let pos := (b.extractLsb' 0 8).toNat
  let len := min (b.extractLsb' 8 8).toNat 32
  (pos, if 32 ≤ pos then 0 else min len (32 - pos))

def bfxWord (sx : Bool) (x b : Word) : Word :=
  let f := fieldOf b
  if f.2 = 0 then 0
  else
    let r := (x >>> f.1) &&& BitVec.ofNat 32 (2 ^ f.2 - 1)
    if sx && r.getLsbD (f.2 - 1) then r ||| ~~~(BitVec.ofNat 32 (2 ^ f.2 - 1)) else r

def bfiWord (x b z : Word) : Word :=
  let f := fieldOf b
  let m := BitVec.ofNat 32 (2 ^ f.2 - 1) <<< f.1
  (z &&& ~~~m) ||| ((x <<< f.1) &&& m)

def execBfx (h : Hdr) (d : BitVec 9) (a b : Src) (sx : Bool) (s : State) : Out := bin h d a b (bfxWord sx) s
def execBfi (h : Hdr) (d : BitVec 9) (a b c : Src) (s : State) : Out := tri h d a b c bfiWord s

def popcount (x : Word) : Nat := (List.range 32).countP fun i => x.getLsbD i
def leadZeros (x : Word) : Nat := if x = 0 then 32 else 31 - Nat.log2 x.toNat

def execPopc (h : Hdr) (d : BitVec 9) (a : Src) (s : State) : Out := una h d a (fun x => BitVec.ofNat 32 (popcount x)) s
def execClz (h : Hdr) (d : BitVec 9) (a : Src) (s : State) : Out := una h d a (fun x => BitVec.ofNat 32 (leadZeros x)) s
def execBrev (h : Hdr) (d : BitVec 9) (a : Src) (s : State) : Out := una h d a (fun x => ofBits fun i => x.getLsbD (31 - i)) s

/-- A copy with its S (R122). -/
def execSel (h : Hdr) (d : BitVec 9) (a b : Src) (p : PSrc) (s : State) : Out :=
  regOp h 0 (usesOf h [a, b] [] [p] (some d) 1 []) (fun e l => outI d (if e.pred l p then e.src l a else e.src l b, 0)) s

def execMov (h : Hdr) (d : BitVec 9) (a : Src) (s : State) : Out :=
  regOp h 0 (usesOf h [a] [] [] (some d) 1 []) (fun e l => outI d (e.src l a, 0)) s

def execMovl (h : Hdr) (d : BitVec 9) (w : Word) (s : State) : Out :=
  regOp h 0 (usesOf h [] [] [] (some d) 1 []) (fun _ _ => out1 d w) s

/-- Address formation (R124). -/
def execLea (h : Hdr) (d : BitVec 9) (a b : Src) (sh : BitVec 5) (u a52 : Bool) (s : State) : Out :=
  regOp h 0 (usesOf h [b] [a] [] (some d) 2 []) (fun e l =>
    let i : Dword := if u then (e.pay l b).setWidth 64 else (e.pay l b).signExtend 64
    let x := e.pair l u a + (i <<< sh.toNat)
    out2 d (if a52 then x &&& 0xFFFFFFFFFFFFF#64 else x)) s

/-- 64-bit addition and subtraction (R123). -/
def execIadd64 (h : Hdr) (d : BitVec 9) (a b : Src) (sub u : Bool) (s : State) : Out :=
  regOp h 0 (usesOf h [] [a, b] [] (some d) 2 []) (fun e l =>
    out2 d (if sub then e.pair l u a - e.pair l u b else e.pair l u a + e.pair l u b)) s

/-- 64-bit comparison (R121). -/
def execIcmp64 (h : Hdr) (pd pq : BitVec 3) (a b : Src) (c : Cond) (u : Bool) (s : State) : Out :=
  regOp h 0 (usesOf h [] [a, b] [] none 0 [pd.toNat, pq.toNat]) (fun e l =>
    { preds := [(pd, condHolds c (asInt u (e.pair l u a)) (asInt u (e.pair l u b))), (pq, e.pair l u a == e.pair l u b)] }) s

def allPreds : List PSrc := (List.range 7).map fun i => ⟨BitVec.ofNat 3 i, false⟩

/-- The predicate word (R125). -/
def execPget (h : Hdr) (d : BitVec 9) (s : State) : Out :=
  regOp h 0 (usesOf h [] [] allPreds (some d) 1 []) (fun e l => out1 d (0#24 ++ 1#1 ++ (e.x.fibre l).preds)) s

/-- The predicates that a PSET mask names (R125). -/
def psetOf (w : Word) : List Nat := (List.range 7).filter fun i => w.getLsbD i

def execPset (h : Hdr) (a b : Src) (s : State) : Out :=
  regOp h 0 { usesOf h [a, b] [] [] none 0 [] with wpl := fun e l => psetOf (e.pay l b) } (fun e l =>
    { preds := (psetOf (e.pay l b)).map fun i => (BitVec.ofNat 3 i, (e.pay l a).getLsbD i) }) s

def execPlop (h : Hdr) (pd : BitVec 3) (pa pb pc : PSrc) (t : BitVec 8) (s : State) : Out :=
  regOp h 0 (usesOf h [] [] [pa, pb, pc] none 0 [pd.toNat]) (fun e l =>
    { preds := [(pd, t.getLsbD ((e.pred l pa).toNat + 2 * (e.pred l pb).toNat + 4 * (e.pred l pc).toNat))] }) s

end Sys2Proof.Machine
end

