-- ==== Sys2Proof/Machine/Swarms.lean ====
section
/-! DEFINITION. Barriers (R19, R64), brood bins and forks (R14 to R18, R58), and the formation of swarms. -/

namespace Sys2Proof.Machine

/-- The member goes on from its park: to its switch marker if one is still to come (R23). -/
def Member.wake (m : Member) (now : Nat) : Member :=
  { m with st := if m.y then .marker else .ready, y := false, since := now }

/-- Applies a change to every slot of a colony, resident or waiting. -/
def State.onSwarms (s : State) (g k : Nat) (f : Slot → Slot) : State :=
  let up (x : Slot) : Slot := if x.grid = g ∧ x.col = k then f x else x
  { s with cores := s.cores.map fun c => (c.1, { c.2 with slots := c.2.slots.map fun e => (e.1, up e.2), waiting := c.2.waiting.map up }) }

-- barriers

def barrierReset : Barrier := { expected := 0, form := 0, arrived := 0, fids := [] }

def Colony.bar (z : Colony) (b : Nat) : Barrier := z.bars.getD b barrierReset
def Colony.setBar (z : Colony) (b : Nat) (x : Barrier) : Colony := { z with bars := z.bars.set b x }

/-- A barrier completes (R19): count and mask return to zero, and the fibres parked at it go on. -/
def State.completeBar (s : State) (g k b : Nat) : State :=
  (s.onColony g k (·.setBar b barrierReset)).onSwarms g k fun x =>
    { x with members := x.members.map fun m => if m.st = .bar b then m.wake s.now else m }

/-- Completes every barrier whose arrived count equals its expected count. -/
def State.checkBars (s : State) (g k : Nat) : State :=
  match s.colony? g k with
  | none => s
  | some z =>
    ((List.range 16).filter fun b => (z.bar b).arrived != 0 && (z.bar b).arrived == (z.bar b).expected).foldl
      (fun s b => s.completeBar g k b) s

/-- A fibre joins the open rounds opened with "all live fibres" (R64), or leaves those it has not arrived
in (R19). -/
def Colony.countFibre (z : Colony) (fid : Option Nat) : Colony :=
  { z with bars := z.bars.map fun b =>
      if b.arrived = 0 ∨ b.form ≠ 0 then b
      else match fid with
        | none => { b with expected := b.expected + 1 }
        | some f => if b.fids.contains f then b else { b with expected := b.expected - 1 } }

-- swarms

/-- Fibres in the lanes from 0 up, each with its FID and arguments (R14, R58). -/
def newLanes (l : List (Nat × List Img)) : List (Nat × Fibre) :=
  l.zipIdx.map fun e =>
    (e.2, { fibreReset with fid := e.1.1, regs := (e.1.2.zipIdx.filter (·.1 != 0)).map fun a => (a.2, a.1) })

/-- A swarm of a colony as it is formed (R10, R79): status registers, flags and counters at reset. -/
def newSlot (g k rank win prio form : Nat) (entry : Dword) (fs : List (Nat × List Img)) (now : Nat) : Slot :=
  { grid := g, col := k, rank := rank, slice := 0, win := win, form := form, lanes := newLanes fs, sregs := [], fmode := 0, fflags := 0
    prio := prio, cychi := 0, latch := monReset
    members := [{ id := 1, mask := maskOf (List.range fs.length), pc := entry, st := .ready, fam := 0, ent := none, last := 0, since := now
                  y := false, len := 4, src := entry }]
    fams := [], nextId := 2, late := [], copies := [], mtx := [], posts := 0, kids := [], xs := [], lease := ⟨none, none⟩, due := []
    badRegs := [], last := 0, stopped := false }

/-- Forms a swarm on a core, in WAITING (R13). -/
def State.formSwarm (s : State) (c g k : Nat) (entry : Dword) (fs : List (Nat × List Img)) : State :=
  match s.grid? g, s.colony? g k with
  | some gr, some z =>
    let rank := z.cores.findIdx (· == c)
    (s.onCore c fun x => { x with waiting := x.waiting ++ [newSlot g k rank gr.launch.win gr.prio z.forms entry fs s.now] }).onColony g k
      fun z => { z with forms := z.forms + 1 }
  | _, _ => s

/-- Launches a bin in normal mode (R15): one swarm in order of entry; the bin is empty. -/
def State.launchBin (s : State) (c n : Nat) : State :=
  match lfind (s.core c).bins n with
  | none => s
  | some b =>
    (s.onCore c fun x => { x with bins := ldel x.bins n }).formSwarm c b.grid b.col b.entry (b.fibres.map fun f => (f.fid.getD 0xFFFFFFFF, f.args))

/-- The swarms of a colony that R18 counts, those of bins in saved core records among them. -/
def State.swarmCount (s : State) (g k : Nat) : Nat :=
  ((s.cores.map fun c =>
    (c.2.slots.countP fun e => e.2.grid == g && e.2.col == k) + (c.2.waiting.countP fun x => x.grid == g && x.col == k) +
      ((c.2.bins.filter fun b => b.2.grid == g && b.2.col == k).map fun b => (b.2.fibres.length + 63) / 64).sum).sum) +
    ((s.colony? g k).map fun z => z.saved.length + (z.away.map (·.2.1)).sum).getD 0

/-- Fibres in bins, saved ones among them, that have no FID yet (R9, R16). -/
def State.unnamed (s : State) (g k : Nat) : Nat :=
  (s.cores.map fun c => ((c.2.bins.filter fun b => b.2.grid == g && b.2.col == k).map fun b => b.2.fibres.countP (·.fid == none)).sum).sum +
    ((s.colony? g k).map fun z => (z.away.map (·.2.2)).sum).getD 0

/-- The bin a new fibre goes to (R14): one that fits, else an empty one, in deterministic mode else an
overflow bin. -/
def Core.pickBin (x : Core) (det : Bool) (g k : Nat) (entry : Dword) : Option Nat :=
  match x.bins.find? fun b => b.2.grid == g && b.2.col == k && b.2.entry == entry && decide (b.1 < 1024) && (det || decide (b.2.fibres.length < 64)) with
  | some b => some b.1
  | none => (List.range (if det then 16 + x.bins.length + 1 else 16)).find? fun n => !(x.bins.any (·.1 == n))

/-- One lane of a FORK (R58): the state, or none when the swarm has to wait for a bin. -/
def State.forkLane (s : State) (c n : Nat) (pd : BitVec 3) (l : Nat) (entry : Dword) (args : List Img) : Option State :=
  match s.slot? c n with
  | none => some s
  | some x =>
    match s.grid? x.grid, s.colony? x.grid x.col with
    | some gr, some z =>
      let bin := (s.core c).pickBin gr.det x.grid x.col entry
      let have? := bin.bind (lfind (s.core c).bins)
      let raises := match have? with | some b => b.fibres.length % 64 == 0 | none => true
      let mark (ok : Bool) (s : State) : State :=
        s.onSlot c n fun x => (x.putP l pd ok).onFibre l fun f => { f with done := true }
      if Config.colonyFibres ≤ z.live || decide (0x80000000 ≤ z.nextFid + s.unnamed x.grid x.col) ||
          (raises && decide (256 ≤ s.swarmCount x.grid x.col)) then
        some (mark false s)
      else match bin with
        | none => none
        | some b =>
          let f := x.fibre l
          let new : BinFibre := { fid := if gr.det then none else some z.nextFid, parent := f.fid, seq := f.forks, args := args }
          let old : Bin := have?.getD { grid := x.grid, col := x.col, entry := entry, fibres := [], limit := s.now + (s.queue gr.q).bint }
          let s := s.onCore c fun k => { k with bins := lput k.bins b { old with fibres := old.fibres ++ [new] } }
          let s := s.onColony x.grid x.col fun z =>
            { (z.countFibre none) with live := z.live + 1, nextFid := if gr.det then z.nextFid else z.nextFid + 1 }
          let s := mark true s
          some (if !gr.det && decide (64 ≤ old.fibres.length + 1) then s.launchBin c b else s)
    | _, _ => some s

/-- The lanes of a FORK in ascending order; the second component says that it has to wait for a bin. -/
def State.forkAll (s : State) (c n : Nat) (pd : BitVec 3) : List (Nat × Dword × List Img) → State × Bool
  | [] => (s, false)
  | e :: r =>
    match s.forkLane c n pd e.1 e.2.1 e.2.2 with
    | none => (s, true)
    | some s => State.forkAll s c n pd r

/-- A colony can no longer add to its bins (R15): no fibre of its swarms could still fork. Nothing launches while a swarm or
a core record of it is saved out (R16, R280). -/
def State.cannotAdd (s : State) (g k : Nat) : Bool :=
  ((s.colony? g k).map fun z => z.saved.isEmpty && z.away.isEmpty).getD true &&
  s.cores.all fun c =>
    (c.2.slots.all fun e => !(e.2.grid == g && e.2.col == k) || e.2.members.all fun m => m.atBar || m.mask == 0) &&
    (c.2.waiting.all fun x => !(x.grid == g && x.col == k) || x.members.all fun m => m.atBar || m.mask == 0)

/-- Insertion by (parent FID, sequence number) (R16). -/
def insFork (f : BinFibre) : List BinFibre → List BinFibre
  | [] => [f]
  | a :: r => if f.parent < a.parent ∨ (f.parent = a.parent ∧ f.seq < a.seq) then f :: a :: r else a :: insFork f r

/-- Lists of at most 64, in order; `n` bounds their number. -/
def chunks {α : Type} : Nat → List α → List (List α)
  | 0, _ => []
  | n + 1, l => if l.isEmpty then [] else l.take 64 :: chunks n (l.drop 64)

/-- A swarm of a closing round: core, entry, fibres. -/
abbrev RoundSwarm := Nat × Dword × List (Nat × List Img)

def insRound (x : RoundSwarm) : List RoundSwarm → List RoundSwarm
  | [] => [x]
  | a :: r => if ((x.2.2.head?).map (·.1)).getD 0 < ((a.2.2.head?).map (·.1)).getD 0 then x :: a :: r else a :: insRound x r

/-- A round closes (R16): FIDs by (parent, sequence), bins launched in FID order as swarms of 64, in
ascending order of their lowest FID. -/
def State.closeRound (s : State) (g k : Nat) : State :=
  match s.colony? g k with
  | none => s
  | some z =>
    let own (b : Bin) : Bool := b.grid == g && b.col == k
    let all := s.cores.flatMap fun c => (c.2.bins.filter fun b => own b.2).flatMap fun b => b.2.fibres
    let order := (all.foldl (fun l f => insFork f l) []).zipIdx
    let fidOf (f : BinFibre) : Nat :=
      f.fid.getD (z.nextFid + ((order.find? fun e => e.1.parent == f.parent && e.1.seq == f.seq).map (·.2)).getD 0)
    let swarms : List RoundSwarm := s.cores.flatMap fun c => (c.2.bins.filter fun b => own b.2).flatMap fun b =>
      let fs := (b.2.fibres.foldl (fun l f => insFork f l) []).map fun f => (fidOf f, f.args)
      (chunks fs.length fs).map fun l => (c.1, b.2.entry, l)
    let s : State := { s with cores := s.cores.map fun c => (c.1, { c.2 with bins := c.2.bins.filter fun b => !own b.2 }) }
    let s := s.onColony g k fun z => { z with nextFid := z.nextFid + all.length }
    (swarms.foldl (fun l x => insRound x l) []).foldl (fun s x => s.formSwarm x.1 g k x.2.1 x.2.2) s

/-- The colony can no longer add to its bins, so they launch (R15, R16). -/
def execBinLaunchNoAdd (grid col : Nat) (s : State) : Out :=
  let own (b : Bin) : Bool := b.grid == grid && b.col == col
  if s.cannotAdd grid col && (s.cores.any fun c => c.2.bins.any fun b => own b.2 && decide (b.1 < 1024)) then
    .next (if ((s.grid? grid).map (·.det)).getD false then s.closeRound grid col
      else s.cores.foldl (fun s c => (c.2.bins.filter fun b => own b.2 && decide (b.1 < 1024)).foldl (fun s b => s.launchBin c.1 b.1) s) s)
  else .next s

/-- A bin timer expires in normal mode (R15): not while its colony is saved out (R280). -/
def execBinTimerExpiry (core bin : Nat) (s : State) : Out :=
  match lfind (s.core core).bins bin with
  | none => .next s
  | some b =>
    .next (if b.limit ≤ s.now && !((s.grid? b.grid).map (·.det)).getD false && ((s.core core).allocs.any fun a => a.grid == b.grid && a.col == b.col) then
        s.launchBin core bin else s)

end Sys2Proof.Machine
end

