-- ==== Sys2Proof/Machine/Control.lean ====
section
/-! DEFINITION. Control transfer (R53 to R55), reconvergence (R56, R29), fibre creation and end (R57 to
R60), barriers (R63, R64), counters waited for (R65, R174), software traps, priority, the handler's return
and idling (R76, R77, R84, R85). -/

namespace Sys2Proof.Machine

def execNop (h : Hdr) (s : State) : Out := issue h 13 {} .anywhere false (fun _ s => .go s 1) s
def execNopLong (h : Hdr) (s : State) : Out := issue h 13 {} .anywhere false (fun _ s => .go s 1) s

-- control transfer

/-- The FETCHX of misaligned and of too large targets (R40, R55). -/
def jumpFault (ts : List (Nat × Dword)) : Option Tr :=
  let odd := ts.filter fun t => t.2.extractLsb' 0 2 != 0
  let big := ts.filter fun t => t.2.extractLsb' 52 12 != 0
  match odd, big with
  | o :: _, _ => some { cause := 2, mask := maskOf (odd.map (·.1)), addr := o.2, info := 2 }
  | [], b :: _ => some { cause := 2, mask := maskOf (big.map (·.1)), addr := b.2, info := 3 }
  | [], [] => none

/-- The distinct targets, each with its lanes, in the order of the lowest lane (R27). -/
def groups : List (Nat × Dword) → List (Mask × Dword)
  | [] => []
  | (l, t) :: r =>
    let g := groups r
    match g.find? (·.2 == t) with
    | some m => (m.1 ||| bitSet l, t) :: g.filter (·.2 != t)
    | none => (bitSet l, t) :: g

/-- The state of a member behind an instruction that has moved it itself (R23). -/
def afterJump (h : Hdr) : Park := if h.y then .marker else .ready

/-- Continues a member at one target, or splits it by its targets (R27). -/
def State.divide (s : State) (e : Env) (h : Hdr) (gs : List (Mask × Dword)) : State :=
  s.onSlot e.c e.n fun x =>
    let m' : Member := { e.m with last := s.now, since := s.now, src := e.m.pc, len := lenBytes h.len, y := false, usec := none }
    match gs with
    | [g] => x.onMem e.m.id fun _ => { m' with pc := g.2, st := afterJump h }
    | _ => x.split m' .branch (gs.map fun g => (g.1, g.2, afterJump h, e.m.ent))

/-- A control transfer (R53, R55): `tgt` is the target of a lane whose guard is true, `link` the pair that
takes the return address. -/
def jump (h : Hdr) (u : Bool) (us : Uses) (link : Option (BitVec 8)) (tgt : Env → Nat → Dword) (s : State) : Out :=
  issue h 13 us .anywhere false (fun e s =>
    let next := e.m.pc + BitVec.ofNat 64 (lenBytes h.len)
    let ts := (lanesOf e.m.mask).map fun l => (l, if e.act.getLsbD l then tgt e l else next)
    match jumpFault ts with
    | some t => .trap s t
    | none =>
      let first := ((ts.head?).map (·.2)).getD next
      let off := ts.filter (·.2 != first)
      if u && !off.isEmpty then .trap s { cause := 4, mask := maskOf (off.map (·.1)) }
      else
        let s := match link with
          | some d => s.onSlot e.c e.n fun x => (lanesOf e.act).foldl (fun x l => x.writeLane l (out2 (d.setWidth 9) next)) x
          | none => s
        .moved ((s.charge e.c e.n e.m 13 1 false).divide e h (groups ts))) s

def linkUses (d : BitVec 8) (a : List Src) : Uses := { rv := a.flatMap (useV 2), rs := a.flatMap (useS 2), wv := regRange d 2 }

def execBra (h : Hdr) (u : Bool) (off : Word) (s : State) : Out :=
  jump h u {} none (fun e _ => e.m.pc + off.signExtend 64) s
def execBrx (h : Hdr) (u : Bool) (a : Src) (s : State) : Out :=
  jump h u { rv := useV 2 a, rs := useS 2 a } none (fun e l => e.pair l false a) s
def execCall (h : Hdr) (u : Bool) (d : BitVec 8) (off : Word) (s : State) : Out :=
  jump h u (linkUses d []) (some d) (fun e _ => e.m.pc + off.signExtend 64) s
def execCallx (h : Hdr) (u : Bool) (d : BitVec 8) (a : Src) (s : State) : Out :=
  jump h u (linkUses d [a]) (some d) (fun e l => e.pair l false a) s
/-- The same effect as BRX (R55). -/
def execRet (h : Hdr) (u : Bool) (a : Src) (s : State) : Out :=
  jump h u { rv := useV 2 a, rs := useS 2 a } none (fun e l => e.pair l false a) s

-- reconvergence (R29)

/-- A family whose members wait for each other at an RCV: a branch family, or one merged at its VCALL's
return point (R29, R71). -/
def Slot.rcvWaits (x : Slot) (f : Nat) : Bool :=
  match x.fam? f with
  | some g => (match g.kind with | .vcall _ _ => false | _ => true)
  | none => false

/-- RCV (R56). -/
def execRcv (h : Hdr) (s : State) : Out :=
  issue h 13 {} .anywhere false (fun e s =>
    let x := (s.slot? e.c e.n).getD e.x
    if x.rcvWaits e.m.fam then .hold s .rcv else .wait s .marker) s

def Member.atRcv (m : Member) : Bool := m.st == .rcv
def Member.atMerge (m : Member) : Bool := m.st == .merge

/-- The grid of a slot is in deterministic mode; the handler's slot is not. -/
def State.detSlot (s : State) (n : Nat) (x : Slot) : Bool := n != 64 && ((s.grid? x.grid).map (·.det)).getD false

/-- Merges the members of a family that are parked in the state `p`, by address: those of one address
become one member, which goes on at `pc` of it. DEDUCED, log 85: a member alone at its address keeps its
lanes. -/
def Slot.mergeBy (x : Slot) (det : Bool) (ctr now fam : Nat) (p : Member → Bool) (ent : Option Nat) (next : Dword → Dword) : Slot :=
  let ms := x.members.filter fun m => m.fam == fam && p m
  let pcs := (ms.map (·.pc)).eraseDups
  pcs.foldl (fun x pc =>
    let grp := x.members.filter fun m => m.fam == fam && p m && m.pc == pc
    match grp with
    | [m] => x.onMem m.id fun m => { m with pc := next pc, st := .ready, since := now, y := false, ent := ent }
    | _ => x.merge det (ctr + 64 * pc.toNat) (grp.map (·.id)) fam ent (next pc) .ready now) x

/-- An MCHK owed by the operations of a class, at a wait that leaves at most `n` of them outstanding (R222,
R289): the failed one is covered when `n` or more were issued after it. -/
def MchkDue.covers (d : MchkDue) (c : EngClass) (n : Nat) : Bool :=
  (match c with
  | .mtx => d.info.extractLsb' 0 8 == 1#8
  | .copy => d.info.extractLsb' 0 8 == 4#8
  | _ => false) && decide (n ≤ d.after)

/-- One more operation of a class is issued behind those whose MCHK is owed (R222). -/
def Slot.countDue (x : Slot) (c : EngClass) : Slot :=
  { x with due := x.due.map fun d => if d.covers c 0 then { d with after := d.after + 1 } else d }

/-- Raises an MCHK that a member's slot owes (R222, R289), at the address the member waits at: of one that is READY, at the
drain before a save, its next instruction. A matrix failure discards what the slot has issued since, and counts it. -/
def State.raiseDue (s : State) (c n : Nat) (m : Member) (d : MchkDue) : State :=
  let mtx := d.covers .mtx 0
  let s := s.onSlot c n fun x => { x with due := x.due.erase d, mtx := if mtx then [] else x.mtx }
  s.raiseTrap c n m.id { cause := 0x12, pc := if m.st = .ready then m.pc else m.src, mask := d.mask, addr := d.addr, info := d.info + BitVec.ofNat 32 (if mtx then 256 * min d.after 255 else 0) }

/-- A family is released at its RCVs (R29): every member waits at an RCV or a colony barrier or has ended,
and no result is outstanding (R30). An MCHK owed is raised there first (R222). -/
def execFamilyRelease (core slot fam : Nat) (s : State) : Out :=
  match s.slot? core slot with
  | none => .next s
  | some x =>
    let ms := x.members.filter (·.fam == fam)
    if x.rcvWaits fam && x.drained && x.nestedSettled fam && ms.any Member.atRcv && (ms.all fun m => m.atRcv || m.atBar || m.mask == 0) then
      let ent := ((x.fam? fam).bind (·.ent))
      match x.due, ms.find? Member.atRcv with
      | d :: _, some m => .next (s.raiseDue core slot m d)
      | _, _ => .next (s.setSlot core slot ((x.mergeBy (s.detSlot slot x) s.ctr s.now fam Member.atRcv ent (· + 4)).tidy))
    else .next s

-- fibres

/-- FORK (R57, R58). -/
def execFork (h : Hdr) (pd : BitVec 3) (t : Tgt) (c : BitVec 8) (s : State) : Out :=
  let a := match t with | .pair a => [a] | .off _ => []
  issue h 13 { rv := regRange c 4 ++ a.flatMap (useV 2), rs := a.flatMap (useS 2), wp := [pd.toNat] } .swarm false (fun e s =>
    let done := (lanesOf e.m.mask).filter fun l => (e.x.fibre l).done
    let ls := (lanesOf e.act).filter fun l => !done.contains l
    let entry (l : Nat) : Dword := match t with
      | .off w => e.m.pc + w.signExtend 64
      | .pair a => e.pair l false a
    match jumpFault (ls.map fun l => (l, entry l)) with
    | some t => .trap s t
    | none =>
      let r := s.forkAll e.c e.n pd (ls.map fun l => (l, entry l, (regRange c 4).map (e.x.v l)))
      if r.2 then .redo r.1 .bin
      else .go (r.1.onSlot e.c e.n fun x => (done ++ ls).foldl (fun x l => x.onFibre l fun f => { f with done := false, forks := f.forks + 1 }) x) 1) s

/-- The fibres of lanes end (R60). A matrix operation that has not read a lane yet may have read it by now
(R210, R211). -/
def Slot.endLanes (x : Slot) (ls : List Nat) : Slot :=
  let gone (d : Dest) : Bool := match d with | .v l _ => ls.contains l | .p l _ => ls.contains l | .s _ => false
  let out := (x.mtx.flatMap fun o => (mtxDst o.op).flatMap fun r => List.range' r.1 r.2).eraseDups
  let noted (l : Nat) : List Nat := let k := (x.fibre l).regs.map (·.1); k ++ out.filter fun n => !k.contains n
  { x with
    lanes := x.lanes.filter fun e => !ls.contains e.1
    late := x.late.map fun o => { o with writes := o.writes.filter fun w => !gone w.dst }
    badRegs := x.badRegs.filter fun b => !gone b.1
    mtx := x.mtx.map fun o => ls.foldl (fun o l => (noted l).foldl (fun o n => o.noteSrc l n (x.v l n) (x.writerOf o l n)) o) o
    members := x.members.map fun m => { m with mask := m.mask &&& ~~~(maskOf ls) } }

/-- END (R60): the lanes whose guard is false go on. -/
def execEndf (h : Hdr) (s : State) : Out :=
  issue h 13 {} .swarm false (fun e s =>
    let ls := lanesOf e.act
    let fids := ls.map fun l => (e.x.fibre l).fid
    let s := s.charge e.c e.n e.m 13 1 false
    let s := (s.onSlot e.c e.n (·.endLanes ls)).passOn e.c e.n e.m.id h
    let s := s.onSlot e.c e.n (·.tidy)
    let s := s.onColony e.x.grid e.x.col fun z =>
      fids.foldl (fun z f => z.countFibre (some f)) { z with live := z.live - ls.length }
    .moved (s.checkBars e.x.grid e.x.col)) s

-- barriers (R63, R64)

def Env.count (e : Env) : Cnt → Nat
  | .allLive => 0
  | .reg n => (Machine.pay (e.x.s n.toNat)).toNat
  | .lit w => w.toNat

def cntUses : Cnt → Uses
  | .reg n => { rs := [n.toNat] }
  | _ => {}

/-- Arrival at a barrier (R64): a trap, or the colony's new state and whether the round is complete. -/
def arrive (e : Env) (z : Colony) (b c : Nat) : Tr ⊕ (Colony × Bool) :=
  let out := e.m.mask &&& ~~~e.act
  let fids := (lanesOf e.act).map fun l => (e.x.fibre l).fid
  let r := z.bar b
  let expected := if r.arrived = 0 then (if c = 0 then z.live else c) else r.expected
  let n := r.arrived + fids.length
  if out ≠ 0 then .inl { cause := 4, mask := out }
  else if 16384 < c then .inl (ill e.m 8)
  else if fids.any fun f => r.fids.contains f then .inl (ill e.m 9)
  else if r.arrived ≠ 0 ∧ r.form ≠ c then .inl (ill e.m 8)
  else if expected < n then .inl (ill e.m 8)
  else .inr (z.setBar b { expected := expected, form := c, arrived := n, fids := r.fids ++ fids }, n == expected)

def bar (h : Hdr) (b : BitVec 4) (c : Cnt) (wait : Bool) (s : State) : Out :=
  issue h 13 (cntUses c) .swarm false (fun e s =>
    match s.colony? e.x.grid e.x.col with
    | none => .go s 1
    | some z =>
      match arrive e z b.toNat (e.count c) with
      | .inl t => .trap s t
      | .inr (z, done) =>
        let s := s.onColony e.x.grid e.x.col fun _ => z
        if done then .go (s.completeBar e.x.grid e.x.col b.toNat) 1
        else if wait then .wait s (.bar b.toNat)
        else .go s 1) s

def execBarWait (h : Hdr) (b : BitVec 4) (c : Cnt) (s : State) : Out := bar h b c true s
def execBarPass (h : Hdr) (b : BitVec 4) (c : Cnt) (s : State) : Out := bar h b c false s

-- engine counters (R65, R174)

/-- The counter of a class (R174). -/
def Slot.counter (x : Slot) : EngClass → Nat
  | .copy => x.copies.length
  | .mtx => x.mtx.length
  | .post => x.posts
  | .child => x.kids.length

/-- Waits until a counter reads n or less. An MCHK owed at the wait point is raised there (R222, R289). -/
def waitCounter (h : Hdr) (w : Where) (c : EngClass) (n : BitVec 6) (s : State) : Out :=
  issue h 13 {} w false (fun e s =>
    let x := (s.slot? e.c e.n).getD e.x
    if x.counter c ≤ n.toNat ∧ (x.due.any (·.covers c n.toNat)) = false then .go s 1 else .hold s (.waitc c n.toNat)) s

def execWaitc (h : Hdr) (c : EngClass) (n : BitVec 6) (s : State) : Out := waitCounter h .anywhere c n s
def execLwait (h : Hdr) (n : BitVec 6) (s : State) : Out := waitCounter h .swarm .child n s

-- software traps and priority (R76, R77)

def execBrk (h : Hdr) (code : BitVec 8) (s : State) : Out :=
  issue h 13 {} .swarm false (fun e s => .after s { cause := 0x11, mask := e.act, info := code.toNat }) s
def execTrap (h : Hdr) (code : BitVec 16) (s : State) : Out :=
  issue h 13 {} .swarm false (fun e s => .after s { cause := 0x10, mask := e.act, info := code.toNat }) s

/-- PRIO (R77): at most the queue's priority. -/
def execPrio (h : Hdr) (x : Src) (s : State) : Out :=
  issue h 13 { rs := useS 1 x } .swarm false (fun e s =>
    let q := ((s.grid? e.x.grid).map (·.prio)).getD 0
    .go (s.onSlot e.c e.n fun y => { y with prio := min (e.pay (lowest e.act) x).toNat q }) 1) s

-- the handler (R85)

/-- The queue of the swarm under service on a core. DESIGN CHOICE, log 86: queue 0 where a firmware event
started the handler. -/
def State.servedQueue (s : State) (c : Nat) : Nat :=
  match (s.core c).handler.service with
  | some _ => ((s.subject c 64).map fun x => s.queueOf x.grid).getD 0
  | none => 0

/-- ERET (R85, R277). -/
def execEret (h : Hdr) (s : State) : Out := issue h 13 {} .handler false (fun e s => .moved (s.eret e.c)) s

/-- WAITI (R85). DESIGN CHOICE, log 122: executed while a trap is under service it ends that service, and the members of that trap
stay parked. -/
def execWaiti (h : Hdr) (s : State) : Out :=
  issue h 13 {} .handler false (fun e s => .moved ((s.idleHandler e.c).finishStop (s.servedQueue e.c))) s

end Sys2Proof.Machine
end

