-- ==== Sys2Proof/Machine/Access.lean ====
section
/-! DEFINITION. Memory accesses of a program: addresses (R158, R159), the ordered checks (R162), the parts an
access reaches (R161), and how bytes are read and written beside copies in flight (R177) and staged stores
(R255). -/

namespace Sys2Proof.Machine

-- bytes

/-- The bytes copies still have to write, of every slot and every queue's COPY packets. -/
def State.pending (s : State) : List CopyByte :=
  (s.cores.flatMap fun c => (c.2.handler.slot :: c.2.slots.map (·.2)).flatMap fun x => x.copies.flatMap fun o => o.bytes) ++
  (s.queues.flatMap fun q => q.2.copies.flatMap fun p => match p with | .copy b _ _ _ => b | _ => [])

/-- A byte as it stands: memory, a device register, or a core's scratchpad. -/
def State.locByte (s : State) (l : Loc) : Byte :=
  match l with
  | .phys a => s.busByte a
  | .spad c a => lget 0 (s.core c).spad a

/-- The byte a copy would deliver now. -/
def State.srcByte (s : State) : CopySrc → Byte
  | .zero => 0
  | .loc l => s.locByte l
  | .got b => b

def Loc.code : Loc → Nat
  | .phys a => 2 * a
  | .spad c a => 2 * (a + 2 ^ 24 * c) + 1

/-- A byte as a load sees it: where a copy in flight writes it, the old byte or the copied one (R177). -/
def State.seeByte (s : State) (pend : List CopyByte) (l : Loc) : Byte :=
  match pend.find? (·.dst == l) with
  | some p => if Config.freeBit s.ctr 2 (Loc.code l) then s.srcByte p.src else s.locByte l
  | none => s.locByte l

/-- The copies in flight as a store of a byte finds them: a copy that has not read the byte yet may have
read it by now, and a copy that writes it leaves the stored byte or its own (R177). -/
def CopyByte.note (p : CopyByte) (ctr : Nat) (l : Loc) (old : Byte) : CopyByte :=
  let p := if p.src = .loc l ∧ Config.freeBit ctr 3 (Loc.code l) then { p with src := .got old } else p
  if p.dst = l then { p with touched := true } else p

def CopyOp.note (o : CopyOp) (ctr : Nat) (l : Loc) (old : Byte) : CopyOp :=
  { o with bytes := o.bytes.map fun p => p.note ctr l old }

/-- Applies a change to every copy in flight. -/
def State.onCopies (s : State) (f : CopyOp → CopyOp) (g : List CopyByte → List CopyByte) (k : List (Nat × HdrSrc) → List (Nat × HdrSrc)) : State :=
  let up (x : Slot) : Slot := { x with copies := x.copies.map f }
  { s with
    cores := s.cores.map fun c =>
      (c.1, { c.2 with slots := c.2.slots.map fun e => (e.1, up e.2), handler := { c.2.handler with slot := up c.2.handler.slot } })
    queues := s.queues.map fun q => (q.1, { q.2 with copies := q.2.copies.map fun p => match p with
      | .copy b h d t => .copy (g b) (k h) d t
      | p => p }) }

def State.noteStore (s : State) (l : Loc) (old : Byte) : State :=
  if s.pending.isEmpty then s
  else s.onCopies (·.note s.ctr l old) (·.map fun p => p.note s.ctr l old) id

/-- A header write as the copies in flight find it. -/
def State.noteHdr (s : State) (n : Nat) (old : Word) : State :=
  let up (h : List (Nat × HdrSrc)) : List (Nat × HdrSrc) :=
    h.map fun e => if e.2 = .block n ∧ Config.freeBit s.ctr 4 n then (e.1, .got old) else e
  if s.pending.isEmpty then s else s.onCopies (fun o => { o with hdrs := up o.hdrs }) id up

/-- Bytes stored in a core's scratchpad. -/
def State.spadBytes (s : State) (c a : Nat) : List Byte → State
  | [] => s
  | b :: r =>
    let s := s.noteStore (.spad c a) (lget 0 (s.core c).spad a)
    State.spadBytes (s.onCore c fun k => { k with spad := cset 0 k.spad a b }) c (a + 1) r

/-- The peer port a physical address belongs to, if it is down. -/
def State.downPort (s : State) (a : Nat) : Option Nat :=
  match target a with
  | some (.peer p) => if s.thermal.peerUp.getLsbD p then none else some p
  | _ => none

/-- A store at some physical addresses is counted at each port it reaches that is down, which drops it (R301).
DEDUCED, log 115: what one store is. -/
def State.countDropped (s : State) (l : List Nat) : State :=
  (l.filterMap s.downPort).eraseDups.foldl (fun s p => { s with dropped := lput s.dropped p (lget 0 s.dropped p + 1) }) s

/-- Bytes of a store as they reach the physical space. -/
def State.physRaw (s : State) (a : Nat) (l : List Byte) : State :=
  (l.zipIdx.foldl (fun s b => s.noteStore (.phys (a + b.2)) (s.busByte (a + b.2))) s).busWrite a l

/-- Bytes stored in the physical space: one store. -/
def State.physBytes (s : State) (a : Nat) (l : List Byte) : State := (s.physRaw a l).countDropped (if l.isEmpty then [] else [a])

/-- Bytes stored from a location up: one store, or a byte of one that counts as a whole. -/
def State.store (s : State) (l : Loc) (b : List Byte) : State :=
  match l with
  | .phys a => s.physBytes a b
  | .spad c a => s.spadBytes c a b

def State.storeRaw (s : State) (l : Loc) (b : List Byte) : State :=
  match l with
  | .phys a => s.physRaw a b
  | .spad c a => s.spadBytes c a b

/-- The header of the block at a location. -/
def State.locHdr (s : State) (l : Loc) : Word :=
  match l with
  | .phys a => s.rdHdr a
  | .spad c a => lget 0 (s.core c).spadHdr (a / 64)

def State.storeHdr (s : State) (l : Loc) (h : Word) : State :=
  match l with
  | .phys a => (s.noteHdr (a / 64) (s.rdHdr a)).wrHdr a h
  | .spad c a => s.onCore c fun k => { k with spadHdr := cset 0 k.spadHdr (a / 64) h }

-- parts

/-- A piece of an access in one page; `page` is that page's base and size. -/
structure Part where
  loc : Loc
  n : Nat
  typ : Bool
  uo : Bool
  so : Bool
  page : Nat × Nat := (0, 0)
  deriving DecidableEq, Repr

def Loc.add : Loc → Nat → Loc
  | .phys a, i => .phys (a + i)
  | .spad c a, i => .spad c (a + i)

/-- The locations of an access, byte by byte. -/
def locsOf (ps : List Part) : List Loc := ps.flatMap fun p => (List.range p.n).map fun i => Loc.add p.loc i

/-- The staged byte that covers a location for a colony's own loads (R255): the latest. -/
def stagedByte (l : List Staged) (col : Nat) (a : Nat) : Option Byte :=
  l.foldl (fun r t => if t.col = col then (match t.cells.find? (·.1 == a) with | some c => some c.2 | none => r) else r) none

/-- The bytes of an access as its swarm loads them. -/
def State.load (s : State) (x : Option Slot) (ps : List Part) : List Byte :=
  let pend := s.pending
  let staged := match x with | some x => ((s.grid? x.grid).map (·.staged)).getD [] | none => []
  let col := (x.map (·.col)).getD 0
  (locsOf ps).map fun l =>
    match l with
    | .phys a => (match stagedByte staged col a with | some b => b | none => s.seeByte pend l)
    | l => s.seeByte pend l

/-- Stores the bytes of an access part by part, in ascending address order (R189). -/
def State.storeParts (s : State) : List Part → List Byte → State
  | [], _ => s
  | p :: r, b => State.storeParts (s.store p.loc (b.take p.n)) r (b.drop p.n)

-- addresses

/-- AddrGlobal (R158). -/
def Env.gaddr (e : Env) (l : Nat) (m : MemOpd) : Dword :=
  e.pair l false m.base + (match m.off with | some o => (e.pay l o).signExtend 64 | none => 0) + m.disp.signExtend 64

/-- AddrSpad (R159). -/
def Env.saddr (e : Env) (l : Nat) (m : MemOpd) : Dword :=
  ((e.pay l m.base) + (match m.off with | some o => e.pay l o | none => 0) + m.disp).setWidth 64

def Env.addr (e : Env) (spad : Bool) (l : Nat) (m : MemOpd) : Dword := if spad then e.saddr l m else e.gaddr l m

/-- The registers an address is formed from. -/
def memUses (spad : Bool) (m : MemOpd) : Uses :=
  let o := match m.off with | some o => [o] | none => []
  { rv := (if spad then useV 1 m.base else useV 2 m.base) ++ o.flatMap (useV 1)
    rs := (if spad then useS 1 m.base else useS 2 m.base) ++ o.flatMap (useS 1) }

def Uses.and (a b : Uses) : Uses :=
  { rv := a.rv ++ b.rv, rs := a.rs ++ b.rs, rp := a.rp ++ b.rp, wv := a.wv ++ b.wv, ws := a.ws ++ b.ws, wp := a.wp ++ b.wp, cols := a.cols ++ b.cols, mtx := a.mtx || b.mtx, late := a.late || b.late, quiet := a.quiet || b.quiet
    parked := a.parked || b.parked, clash := a.clash || b.clash, wpl := fun e l => a.wpl e l ++ b.wpl e l }

-- checks

/-- What R162 checks an instruction for: side, access bits of R298 (1 read, 2 write, 3 both), strong kind,
alignment and its TINFO, and a typed page. -/
structure Req where
  spad : Bool
  acc : Nat
  strong : Bool
  align : Nat
  ainfo : Nat
  typed : Bool

/-- One lane's access. -/
structure LaneAcc where
  lane : Nat
  addr : Dword
  n : Nat

/-- What translation finds for one lane's access. -/
structure LaneLook where
  lane : Nat
  addr : Dword
  parts : List Part
  denied : Option Nat
  missing : Option Bool
  leaves : List Nat

/-- The result of the checks: a trap, a handler fault, or the lanes that go on with their parts and the
lanes without a translation. `leaves` are the entries of the tracked pages the instruction writes, each once
(R286). -/
inductive Chk
  | trap (t : Tr)
  | hfault (cause : Nat)
  | ok (s : State) (ls : List (Nat × List Part)) (leaves : List Nat) (pf : Option PageFault)

/-- A trap for a list of failing accesses, lowest lane first. -/
def accTrap (cause info : Nat) (l : List (Nat × Dword)) : Option Tr :=
  match l with
  | [] => none
  | a :: _ => some { cause := cause, mask := maskOf (l.map (·.1)), addr := a.2, info := info }

/-- A lane that fails a step of R162: lane, address, cause and TINFO. -/
structure Fail where
  lane : Nat
  addr : Dword
  cause : Nat
  info : Nat

/-- The trap of a step of R162: TMASK holds every lane that fails the step. DEDUCED, log 89: the lowest of them
gives the cause, TINFO and the address. -/
def stepTrap (l : List Fail) : Option Tr :=
  match l with
  | [] => none
  | a :: _ => some { cause := a.cause, mask := maskOf (l.map (·.lane)), addr := a.addr, info := a.info }

def orElseTrap (a : Option Tr) (b : Unit → Option Tr) : Option Tr := match a with | some t => some t | none => b ()

/-- The pieces of an access by 64 KiB granules of its address. -/
def pieces (a n : Nat) : List (Nat × Nat) :=
  if n = 0 then []
  else
    let k := 65536 - a % 65536
    if n ≤ k then [(a, n)] else [(a, k), (a + k, n - k)]

/-- Translates a lane's access (R284). -/
def State.lookLane (s : State) (c q : Nat) (k : Acc) (x : LaneAcc) : LaneLook × State :=
  (pieces x.addr.toNat x.n).foldl (fun r p =>
    match r.2.translate c q p.1 k with
    | (.ok g, leaf, s) =>
      if !s.allowedRange q g.pa p.2 k then ({ r.1 with denied := some (r.1.denied.getD 5) }, s)
      else ({ r.1 with parts := r.1.parts ++ [⟨.phys g.pa, p.2, g.typ, g.uo, g.so, (g.va, g.size)⟩], leaves := r.1.leaves ++ leaf.toList }, s)
    | (.denied i, _, s) => ({ r.1 with denied := some (r.1.denied.getD i) }, s)
    | (.invalid m, _, s) => ({ r.1 with missing := some (r.1.missing.getD m) }, s)) (⟨x.lane, x.addr, [], none, none, []⟩, s)

def State.lookLanes (s : State) (c q : Nat) (k : Acc) : List LaneAcc → List LaneLook × State
  | [] => ([], s)
  | x :: r =>
    let a := s.lookLane c q k x
    let b := State.lookLanes a.2 c q k r
    (a.1 :: b.1, b.2)

/-- The colony's allocation on the core of a rank: core and offset (R18, R159). -/
def State.rankBase (s : State) (g k r : Nat) : Option (Nat × Nat) :=
  match s.colony? g k with
  | none => none
  | some z =>
    match z.cores[r]? with
    | none => none
    | some c => ((s.core c).allocs.find? fun a => a.grid == g && a.col == k).map fun a => (c, a.off)

def spadRank (a : Dword) : Nat := (a.extractLsb' 20 3).toNat
def spadOff (a : Dword) : Nat := (a.extractLsb' 0 20).toNat

/-- Step 4 for one scratchpad access (R159, R162). DESIGN CHOICE, log 101: a rank whose core holds no allocation of the
colony, as after a save, is no rank of it. -/
def State.spadFail (s : State) (x : Option Slot) (a : LaneAcc) : Option Fail :=
  let g := (x.map (·.grid)).getD 0
  let k := (x.map (·.col)).getD 0
  let cc := match x with | some _ => ((s.colony? g k).map (·.cores.length)).getD 0 | none => 0
  let size := ((s.grid? g).map (·.launch.spad)).getD 0
  if a.addr.extractLsb' 23 41 ≠ 0 then some ⟨a.lane, a.addr, 7, 1⟩
  else if cc ≤ spadRank a.addr || (a.n != 0 && (s.rankBase g k (spadRank a.addr)).isNone) then some ⟨a.lane, a.addr, 7, 2⟩
  else if size < spadOff a.addr + a.n then some ⟨a.lane, a.addr, 7, 3⟩
  else none

/-- Step 4 for one global access (R158, R162). A lane that moves no byte on this side is not checked there. -/
def globalFail (a : LaneAcc) : Option Fail :=
  if a.n ≠ 0 ∧ (a.addr.extractLsb' 52 12 ≠ 0 ∨ 2 ^ 52 < a.addr.toNat + a.n) then some ⟨a.lane, a.addr, 9, 1⟩ else none

/-- Step 5 for one global access: what translation denies, the ordering attribute, the page's type. -/
def Req.lookFail (r : Req) (a : LaneLook) : Option Fail :=
  match a.denied with
  | some i => some ⟨a.lane, a.addr, 9, if i = 5 then 5 else if r.acc = 1 then 2 else 3⟩
  | none =>
    if r.strong ∧ a.parts.any (·.uo) then some ⟨a.lane, a.addr, 10, 1⟩
    else if r.typed ∧ a.parts.any (!·.typ) then some ⟨a.lane, a.addr, 11, 3⟩
    else none

/-- Step 4 for scratchpad accesses (R159, R162). -/
def State.checkSpad (s : State) (x : Option Slot) (ls : List LaneAcc) : Tr ⊕ List (Nat × List Part) :=
  let g := (x.map (·.grid)).getD 0
  let k := (x.map (·.col)).getD 0
  match stepTrap (ls.filterMap (s.spadFail x)) with
  | some t => .inl t
  | none => .inr (ls.map fun a =>
      (a.lane, match s.rankBase g k (spadRank a.addr) with
        | some b => [⟨.spad b.1 (b.2 + spadOff a.addr), a.n, true, false, false, (0, 0)⟩]
        | none => []))

/-- Steps 4 to 6 for global accesses of a swarm. -/
def State.checkGlobal (s : State) (c q : Nat) (r : Req) (ls : List LaneAcc) : Chk :=
  match stepTrap (ls.filterMap globalFail) with
  | some t => .trap t
  | none =>
    let k : Acc := if r.acc = 1 then .read else .write
    let y := s.lookLanes c q k ls
    match stepTrap (y.1.filterMap r.lookFail) with
    | some t => .trap t
    | none =>
      let good := y.1.filter (·.missing == none)
      let bad := y.1.filter (·.missing != none)
      .ok y.2 (good.map fun a => (a.lane, a.parts)) (if r.acc = 1 then [] else (good.flatMap (·.leaves)).eraseDups) (match bad with
        | [] => none
        | b :: _ => some { mask := maskOf (bad.map (·.lane)), addr := b.addr, acc := r.acc, malformed := b.missing == some true })

/-- The handler's accesses (R275, R276): physical, untyped, checked against the access tables. -/
def State.checkHandler (s : State) (r : Req) (ls : List LaneAcc) : Chk :=
  let k : Acc := if r.acc = 1 then .read else .write
  if ls.any fun a => a.n != 0 && a.addr.extractLsb' 50 14 != 0 then .hfault 0x20
  else if ls.any fun a => a.n ≠ 0 && !s.allowedRange mHandler a.addr.toNat a.n k then .hfault 0x22
  else match accTrap 11 3 (if r.typed then ls.map fun a => (a.lane, a.addr) else []) with
    | some t => .trap t
    | none => .ok s (ls.map fun a => (a.lane, if a.n = 0 then [] else [⟨.phys a.addr.toNat, a.n, false, false, false, (0, 0)⟩])) []  none

/-- Step 3 of R162. -/
def alignTrap (r : Req) (ls : List LaneAcc) : Option Tr :=
  accTrap 6 r.ainfo ((ls.filter fun a => a.addr.toNat % r.align ≠ 0).map fun a => (a.lane, a.addr))

/-- The checks of R162 from step 3 on. -/
def State.check (s : State) (e : Env) (r : Req) (ls : List LaneAcc) : Chk :=
  match alignTrap r ls with
  | some t => .trap t
  | none =>
    if r.spad then
      match s.checkSpad (s.subject e.c e.n) ls with
      | .inl t => .trap t
      | .inr ps => .ok s ps [] none
    else if e.n = 64 then s.checkHandler r ls
    else s.checkGlobal e.c (s.queueOf e.x.grid) r ls

/-- Runs an access after its checks. `once` marks an access made once for the swarm: its trap names every
lane taking part, and its page fault stops the whole member (R285); where no lane finds its page the instruction has
no effect yet. `late` is a trap found behind the checks: it
comes before a tracked page counts the write (R273, R286). -/
def accessIf (e : Env) (s : State) (r : Req) (ls : List LaneAcc) (once : Bool) (late : State → List (Nat × List Part) → Option (Tr × State))
    (k : State → List (Nat × List Part) → Res) : Res :=
  match s.check e r ls with
  | .trap t => .trap s (if once then { t with mask := e.act } else t)
  | .hfault c => .hfault s c
  | .ok s ps leaves pf =>
    let res := match late s ps with
      | some (t, s) => .trap s t
      | none => k (leaves.foldl (·.countWrite ·) s) ps
    match pf with
    | none => res
    | some f =>
      if once then .fault s f
      else if ps.isEmpty then .part s 0 f
      else match res with
        | .go s n => .part s n f
        | .trap s t => .partTrap s f t
        | .hold s p => .partWait s f p false
        | .wait s p => .partWait s f p true
        | r => r

def access (e : Env) (s : State) (r : Req) (ls : List LaneAcc) (once : Bool) (k : State → List (Nat × List Part) → Res) : Res :=
  accessIf e s r ls once (fun _ _ => none) k

-- uncorrectable words and dead ports (R288, R301)

/-- The port a location belongs to, if it is down. -/
def State.deadPort (s : State) (l : Loc) : Option Nat :=
  match l with
  | .phys a => s.downPort a
  | _ => none

/-- The header word of a scratchpad block among the core's protected words (R287): it stands behind the data. -/
def hdrMark (l : Loc) : List Part :=
  match l with
  | .phys _ => []
  | .spad c a => [⟨.spad c (2 ^ 20 + 8 * (a / 64)), 1, true, false, false, (0, 0)⟩]

/-- A location holds an uncorrectable word: the TINFO of R288. -/
def State.badLoc (s : State) (l : Loc) : Option Nat :=
  match l with
  | .phys a => if s.badMem.contains (a / 64) then some 4 else none
  | .spad c a => if (s.core c).badSpad.contains (a / 8) then some 3 else none

/-- Clears the marks of an access's uncorrectable words once they are reported. -/
def State.clearBad (s : State) (ls : List Loc) : State :=
  let s : State := { s with badMem := s.badMem.filter fun b => !(ls.any fun l => match l with | .phys a => a / 64 == b | _ => false) }
  ls.foldl (fun s l => match l with
    | .spad c a => s.onCore c fun k => { k with badSpad := k.badSpad.filter (· != a / 8) }
    | _ => s) s

/-- The MCHK of loads that meet an uncorrectable word (R288). -/
def State.loadFault (s : State) (ps : List (Nat × Dword × List Part)) : Option (Tr × State) :=
  let bad := ps.filterMap fun p => ((locsOf p.2.2).findSome? s.badLoc).map fun i => (p.1, p.2.1, i)
  match bad with
  | [] => none
  | b :: _ =>
    let s := s.clearBad ((ps.flatMap fun p => locsOf p.2.2).filter fun l => (s.badLoc l).isSome)
    some ({ cause := 0x12, mask := maskOf (bad.map (·.1)), addr := b.2.1, info := b.2.2 }, s)

/-- The MCHK of a read that is consumed at once: an uncorrectable word (R288), or a port that is down (R301). -/
def State.readFault (s : State) (ps : List (Nat × Dword × List Part)) : Option (Tr × State) :=
  match s.loadFault ps with
  | some r => some r
  | none => (accTrap 0x12 5 ((ps.filter fun p => p.2.2.any fun q => (s.deadPort q.loc).isSome).map fun p => (p.1, p.2.1))).map fun t => (t, s)

/-- The code of R301 when part of a load comes from a dead port. -/
def State.deadCode (s : State) (ps : List Part) : Option Nat := if ps.any fun p => (s.deadPort p.loc).isSome then some 5 else none

/-- The fibre of a store to a dead port owes an MCHK (R301). -/
def State.noteDead (s : State) (c n l : Nat) (ps : List Part) : State :=
  if ps.any fun p => (s.deadPort p.loc).isSome then s.onSlot c n fun x => x.onFibre l fun f => { f with owed := true } else s

end Sys2Proof.Machine
end

