-- ==== Sys2Proof/Machine/MemOps.lean ====
section
/-! DEFINITION. Loads and stores (R165 to R167), block loads and stores (R168, R169), atomics (R170, R171,
R252, R254), fences (R172), SPILL and FILL (R173), SLEEP (R61, R62), PREF and CCTL (R182, R183). -/

namespace Sys2Proof.Machine

/-- The slot whose staged stores and colony an instruction's loads see; none for the handler. -/
def Env.own (e : Env) : Option Slot := if e.n = 64 then none else some e.x

/-- The lanes that make an access: the scalar form makes one (R43). -/
def Env.accLanes (e : Env) (sc : Bool) : List Nat := if sc then [lowest e.act] else lanesOf e.act

/-- Accesses of `n` bytes, one per lane. -/
def Env.accs (e : Env) (sc spad : Bool) (m : MemOpd) (n : Nat) : List LaneAcc :=
  (e.accLanes sc).map fun l => ⟨l, e.addr spad l m, n⟩

/-- Lanes, addresses and parts, for the checks on uncorrectable words. -/
def Env.located (e : Env) (spad : Bool) (m : MemOpd) (ps : List (Nat × List Part)) : List (Nat × Dword × List Part) :=
  ps.map fun p => (p.1, e.addr spad p.1 m, p.2)

/-- A data register in a lane or of the scalar form. -/
def Env.reg (e : Env) (sc : Bool) (l n : Nat) : Img := if sc then e.x.s n else e.x.v l n

/-- Late results of a load: `f` makes a lane's results from its bytes. -/
def lateLoad (s : State) (e : Env) (sc : Bool) (ps : List (Nat × List Part)) (f : Nat → List Byte → Outs) : LateOp :=
  { seq := s.seq, issued := s.now, sample := true, load := true, flags := 0
    writes := ps.flatMap fun p =>
      let o := f p.1 (s.load e.own p.2)
      (if sc then lateScalar o else lateLane p.1 o).map fun w => { w with bad := s.deadCode p.2 } }

/-- The class of an access (R234): 5 scratchpad, 6 global. -/
def accClass (spad : Bool) : Nat := if spad then 5 else 6

def Ordk.strong : Ordk → Bool
  | .weak => false
  | _ => true

/-- The MCHK that a fence or release at SYSTEM scope owes for dropped stores (R301). -/
def owedFault (e : Env) (s : State) (sys : Bool) : Option (Tr × State) :=
  let ls := (lanesOf e.act).filter fun l => (e.x.fibre l).owed
  if sys && !ls.isEmpty then
    some ({ cause := 0x12, mask := maskOf ls, info := 5 },
      s.onSlot e.c e.n fun x => ls.foldl (fun x l => x.onFibre l fun f => { f with owed := false }) x)
  else none

-- loads and stores

def LdT.bytes : LdT → Nat
  | .b32 => 4 | .u8 | .s8 => 1 | .u16 | .s16 => 2 | .b64 => 8 | .b128 => 16 | .bf16 | .fp16 => 2 | .e4m3 | .e5m2 => 1

def LdT.regs : LdT → Nat
  | .b64 => 2 | .b128 => 4 | _ => 1

/-- A code of a narrow format as its exact FP32 value (R165). -/
def widen (f : Fmt) (w : Nat) : Word := pay (cvtImg .fp32 f (pureImg (BitVec.ofNat 32 w))).1

/-- ResultOf (R165), as the words of the destination registers. -/
def LdT.words (t : LdT) (b : List Byte) : List Word :=
  let w := leNat b
  match t with
  | .b32 | .u8 | .u16 => [BitVec.ofNat 32 w]
  | .s8 => [(BitVec.ofNat 8 w).signExtend 32]
  | .s16 => [(BitVec.ofNat 16 w).signExtend 32]
  | .b64 => [BitVec.ofNat 32 w, BitVec.ofNat 32 (w / 2 ^ 32)]
  | .b128 => (List.range 4).map fun i => BitVec.ofNat 32 (w / 2 ^ (32 * i))
  | .bf16 => [widen .bf16 w] | .fp16 => [widen .fp16 w] | .e4m3 => [widen .e4m3 w] | .e5m2 => [widen .e5m2 w]

def loads (h : Hdr) (spad : Bool) (t : LdT) (o : Ordk) (d : BitVec 9) (m : MemOpd) (s : State) : Out :=
  let n := LdT.bytes t
  let ds := List.range' d.toNat (LdT.regs t)
  issue h (accClass spad) ((memUses spad m).and { wv := if h.sc then [] else ds, ws := if h.sc then ds else [], late := true }) .anywhere false (fun e s =>
    access e s { spad := spad, acc := 1, strong := Ordk.strong o, align := if Ordk.strong o then n else 1, ainfo := 1, typed := false }
      (e.accs h.sc spad m n) h.sc fun s ps =>
        match s.loadFault (e.located spad m ps) with
        | some (t, s) => .trap s t
        | none =>
          .go (s.onSlot e.c e.n fun x => x.addLate (lateLoad s e h.sc ps fun _ b => { regs := outL d.toNat ((LdT.words t b).map pureImg) }))
            ps.length) s

def execLd (h : Hdr) (t : LdT) (o : Ordk) (d : BitVec 9) (m : MemOpd) (s : State) : Out := loads h false t o d m s
def execLds (h : Hdr) (t : LdT) (o : Ordk) (d : BitVec 9) (m : MemOpd) (s : State) : Out := loads h true t o d m s

def StT.bytes : StT → Nat
  | .b32 => 4 | .b8 => 1 | .b16 => 2 | .b64 => 8 | .b128 => 16 | .commit g _ _ => fmtBits g / 8

def StT.regs : StT → Nat
  | .b64 => 2 | .b128 => 4 | _ => 1

/-- StoreImage (R166): the bytes and the flags. DEDUCED, log 104: `st.f32` commits a NaN as every commit does (R103). -/
def StT.image (t : StT) (mode : RMod → Mode) (x : List Img) : List Byte × Fl :=
  match t with
  | .commit g f rm =>
    let r := commitRound (x.getD 0 0) f g (mode rm) 0 none
    (natLe (StT.bytes t) r.code, r.fl)
  | _ => (natLe (StT.bytes t) (leNat (x.flatMap fun i => natLe 4 (pay i).toNat)), 0)

/-- The colony that holds the ticket of a grid (R255): the lowest that has not ended. -/
def Grid.ticket (g : Grid) : Nat := ((List.range (g.launch.colonies + 1)).find? fun i => !g.ended.contains i).getD 0

/-- A `.t` store that is to be staged (R255). -/
def State.stages (s : State) (e : Env) (tick : Bool) : Bool :=
  tick && e.n != 64 && (match s.grid? e.x.grid with | some g => g.det && g.ticket != e.x.col | none => false)

/-- The bytes of staging space in use (R255). -/
def State.stagedBytes (s : State) : Nat := (s.grids.map fun g => (g.staged.map (·.cells.length)).sum).sum

/-- The fibres that make the access of a lane: of the scalar form every one that takes part. -/
def Env.makers (e : Env) (sc : Bool) (l : Nat) : List Nat := (if sc then lanesOf e.act else [l]).map fun i => (e.x.fibre i).fid

/-- Performs or stages one lane's store. -/
def State.put (s : State) (e : Env) (stage : Option (List Nat)) (l : Nat) (ps : List Part) (b : List Byte) : State :=
  match stage with
  | some fids =>
    let cells := ((locsOf ps).zip b).filterMap fun p => match p.1 with | .phys a => some (a, p.2) | _ => none
    s.onGrid e.x.grid fun g => { g with staged := g.staged ++ [{ col := e.x.col, cells := cells, pages := ps.map (·.page), fids := fids }] }
  | none => (s.storeParts ps b).noteDead e.c e.n l ps

def stores (h : Hdr) (spad : Bool) (t : StT) (tick : Bool) (o : Ordk) (d : BitVec 9) (m : MemOpd) (s : State) : Out :=
  let n := StT.bytes t
  let ds := List.range' d.toNat (StT.regs t)
  issue h (accClass spad) ((memUses spad m).and { rv := if h.sc then [] else ds, rs := if h.sc then ds else [] }) .anywhere false (fun e s =>
    match owedFault e s (!spad && o == .sync .system) with
    | some (t, s) => .trap s t
    | none =>
      if s.stages e tick && decide (s.staging < s.stagedBytes + n * (if h.sc then 1 else countOf e.act)) then .redo s .staging
      else access e s { spad := spad, acc := 2, strong := Ordk.strong o, align := if Ordk.strong o then n else 1, ainfo := 1, typed := false }
        (e.accs h.sc spad m n) h.sc fun s ps =>
          let stage (l : Nat) : Option (List Nat) := if s.stages e tick then some (e.makers h.sc l) else none
          let img (l : Nat) : List Byte × Fl := StT.image t e.mode (ds.map fun r => e.reg h.sc l r)
          let s := ps.foldl (fun s p => s.put e (stage p.1) p.1 p.2 (img p.1).1) s
          .go (s.onSlot e.c e.n fun x => { x with fflags := ps.foldl (fun a p => a ||| (img p.1).2) x.fflags }) ps.length) s

def execSt (h : Hdr) (t : StT) (tick : Bool) (o : Ordk) (d : BitVec 9) (m : MemOpd) (s : State) : Out := stores h false t tick o d m s
def execSts (h : Hdr) (t : StT) (o : Ordk) (d : BitVec 9) (m : MemOpd) (s : State) : Out := stores h true t false o d m s

-- blocks

def firstLoc (ps : List Part) : Loc := ((ps.head?).map (·.loc)).getD (.phys 0)
def firstPage (ps : List Part) : Nat × Nat := ((ps.head?).map (·.page)).getD (0, 0)

/-- The header an LDB sees: stored in a typed page, made up in an untyped one (R168). -/
def State.blockHdr (s : State) (g : Option Fmt) (ps : List Part) : Word :=
  if ps.all (·.typ) then s.locHdr (firstLoc ps) else mkHdr ((g.map fmtNum).getD 0) 127 0 false

/-- The BLKFMT of headers read (R162 step 7), with the address of the lowest lane. -/
def blkFault (e : Env) (spad : Bool) (m : MemOpd) (hd : Nat → Word) (ls : List Nat) (g : Option Fmt) : Option Tr :=
  let bad := ls.filter fun l => badHdr (hd l)
  let wrong := match g with
    | some g => ls.filter fun l => hdrFmt (hd l) != 0 && hdrFmt (hd l) != fmtNum g
    | none => []
  stepTrap (ls.filterMap fun l => if bad.contains l then some ⟨l, e.addr spad l m, 11, 1⟩ else if wrong.contains l then some ⟨l, e.addr spad l m, 11, 2⟩ else none)

/-- LDB (R168). -/
def execLdb (h : Hdr) (g : Option Fmt) (spad : Bool) (o : Ordk) (d : BitVec 8) (m : MemOpd) (s : State) : Out :=
  issue h (accClass spad) ((memUses spad m).and { wv := regRange d 17, late := true }) .anywhere false (fun e s =>
    access e s { spad := spad, acc := 1, strong := Ordk.strong o, align := 64, ainfo := 2, typed := g.isNone } (e.accs false spad m 64) false fun s ps =>
      match s.loadFault ((e.located spad m ps).map fun p => (p.1, p.2.1, p.2.2 ++ hdrMark (firstLoc p.2.2))) with
      | some (t, s) => .trap s t
      | none =>
        let hd (l : Nat) : Word := ((ps.find? (·.1 == l)).map fun p => s.blockHdr g p.2).getD 0
        match blkFault e spad m hd (ps.map (·.1)) g with
        | some t => .trap s t
        | none =>
          .go (s.onSlot e.c e.n fun x => x.addLate (lateLoad s e false ps fun l b =>
            { regs := outL d.toNat ((if hdrFmt (hd l) = 0 then List.replicate 17 0 else blockWords (leNat b) ++ [hd l]).map pureImg) })) ps.length) s

/-- Stores one block with its header; an untyped page drops the header (R169). -/
def State.putBlock (s : State) (e : Env) (l : Nat) (ps : List Part) (b : List Byte) (hd : Word) : State :=
  let s := s.put e none l ps b
  if ps.all (·.typ) then s.storeHdr (firstLoc ps) hd else s

/-- STB (R169). -/
def execStb (h : Hdr) (f : StbForm) (spad : Bool) (o : Ordk) (d : BitVec 8) (m : MemOpd) (s : State) : Out :=
  let n := match f with | .block g _ _ _ _ => elems g | .frag => 17
  issue h (accClass spad) ((memUses spad m).and { rv := regRange d n }) .anywhere false (fun e s =>
    match owedFault e s (!spad && o == .sync .system) with
    | some (t, s) => .trap s t
    | none =>
      let hd (l : Nat) : Word := pay (e.x.v l (d.toNat + 16))
      let malformed (ps : List (Nat × List Part)) : Option Tr := match f with
        | .frag => accTrap 11 1 ((ps.filter fun p => badHdr (hd p.1)).map fun p => (p.1, (0 : Dword)))
        | _ => none
      accessIf e s { spad := spad, acc := 2, strong := Ordk.strong o, align := 64, ainfo := 2, typed := false } (e.accs false spad m 64) false
        (fun s ps => (malformed ps).map fun t => (t, s)) fun s ps =>
        match f with
        | .frag =>
            .go (ps.foldl (fun s p => s.putBlock e p.1 p.2 ((regRange d 16).flatMap fun r => natLe 4 (pay (e.x.v p.1 r)).toNat) (hd p.1)) s) ps.length
        | .block g f rm as sp =>
          let blk (l : Nat) : Block := packBlock ((regRange d n).map (e.x.v l)) f g (e.mode rm) as sp
          let s := ps.foldl (fun s p =>
            let b := blk p.1
            s.putBlock e p.1 p.2 (natLe 64 (layCodes (fmtBits g) b.codes)) b.hdr) s
          .go (s.onSlot e.c e.n fun x => { x with fflags := ps.foldl (fun a p => a ||| (blk p.1).fl) x.fflags }) ps.length) s

-- atomics

/-- Op of R170 on 32 or 64 bits; `b2` is the new value of CAS. -/
def AtOp.apply {w : Nat} (o : AtOp) (m : Mode) (old b b2 : BitVec w) : BitVec w :=
  match o with
  | .add => old + b
  | .fadd => (pay (sum32 [pureImg (old.setWidth 32), pureImg (b.setWidth 32)] m).1).setWidth w
  | .min => if b.toInt < old.toInt then b else old
  | .max => if old.toInt < b.toInt then b else old
  | .umin => if b.toNat < old.toNat then b else old
  | .umax => if old.toNat < b.toNat then b else old
  | .and => old &&& b
  | .or => old ||| b
  | .xor => old ^^^ b
  | .exch => b
  | .cas => if old = b then b2 else old

/-- The read-modify-write at a location (R171, R200): it sees performed stores only. The result is the old
value and the state. -/
def State.rmw (s : State) (o : AtOp) (m : Mode) (w64 : Bool) (ps : List Part) (b b2 : Dword) : Dword × State :=
  let old := BitVec.ofNat 64 (leNat (s.load none ps))
  let new : Dword := if w64 then AtOp.apply o m old b b2
    else (AtOp.apply o m (old.setWidth 32) (b.setWidth 32) (b2.setWidth 32)).setWidth 64
  (old, s.storeParts ps (natLe (if w64 then 8 else 4) new.toNat))

/-- The data registers of an atomic: operand and CAS replacement, from B's register up (R170). -/
def Env.atData (e : Env) (l : Nat) (w64 : Bool) (i : Nat) : Src → Dword
  | .v n => if w64 then e.pair l false (.v (n + BitVec.ofNat 8 (2 * i))) else (Machine.pay (e.x.v l (n.toNat + i))).setWidth 64
  | .s n => if w64 then e.pair l false (.s (n + BitVec.ofNat 9 (2 * i))) else (Machine.pay (e.x.s (n.toNat + i))).setWidth 64
  | .lit w => w.setWidth 64

/-- Applies the lanes of an atomic in ascending order; the late writes are the old values. -/
def State.rmwAll (s : State) (e : Env) (o : AtOp) (w64 : Bool) (b : Src) : List (Nat × List Part) → List (Nat × Dword) × State
  | [] => ([], s)
  | p :: r =>
    let x := s.rmw o (Mode.of e.x.fmode) w64 p.2 (e.atData p.1 w64 0 b) (e.atData p.1 w64 1 b)
    let y := State.rmwAll (x.2.noteDead e.c e.n p.1 p.2) e o w64 b r
    ((p.1, x.1) :: y.1, y.2)

/-- A posted atomic held back in deterministic mode: a comb contribution (R252) or a buffered operation
(R254). -/
def Grid.hold (g : Grid) (e : Env) (seq : Nat) (o : AtOp) (w64 : Bool) (b : Src) (p : Nat × List Part) : Grid :=
  match firstLoc p.2 with
  | .phys a =>
    if o = .fadd then
      { g with combs := g.combs ++ [{ addr := a, col := e.x.col, rm := e.x.fmode.toNat, val := (e.atData p.1 w64 0 b).setWidth 32, page := firstPage p.2 }] }
    else
      { g with bufs := g.bufs ++ [{ col := e.x.col, form := e.x.form, lane := p.1, seq := seq, op := o, w64 := w64, addr := a, val := e.atData p.1 w64 0 b, page := firstPage p.2 }] }
  | _ => g

def atomics (h : Hdr) (spad : Bool) (o : AtOp) (w64 ar post : Bool) (sc : Scope) (d : BitVec 9) (b : Src) (m : MemOpd) (s : State) : Out :=
  let n := if w64 then 8 else 4
  let k := (if o = .cas then 2 else 1) * (if w64 then 2 else 1)
  let ds := if post then [] else List.range' d.toNat (if w64 then 2 else 1)
  issue h 7 ((memUses spad m).and { rv := useV k b, rs := useS k b, wv := if h.sc then [] else ds, ws := if h.sc then ds else [], late := true }) .anywhere false (fun e s =>
    if post ∧ 63 ≤ e.x.posts then .redo s (.counter .post)
    else match owedFault e s (!spad && ar && sc == .system) with
    | some (t, s) => .trap s t
    | none =>
      accessIf e s { spad := spad, acc := 3, strong := true, align := n, ainfo := 1, typed := false } (e.accs h.sc spad m n) h.sc
        (fun s ps => s.loadFault (e.located spad m ps)) fun s ps =>
        let nx := o == .fadd && ps.any fun p => sticky (e.src p.1 b)
        let held := post && !spad && s.detSlot e.n e.x
        let r := if held then ([], s.onGrid e.x.grid fun g => ps.foldl (fun g p => g.hold e s.seq o w64 b p) g) else s.rmwAll e o w64 b ps
        let s := r.2.onSlot e.c e.n fun x => { x with fflags := x.fflags ||| flIf nx fNX, posts := if post then x.posts + 1 else x.posts }
        let f (l : Nat) : Outs :=
          let v := ((r.1.find? (·.1 == l)).map (·.2)).getD 0
          if w64 then out2 d v else out1 d (v.setWidth 32)
        .go (if post then s else s.onSlot e.c e.n fun x => x.addLate
          { seq := s.seq, issued := s.now, sample := true, load := true, flags := 0
            writes := ps.flatMap fun p => (if h.sc then lateScalar (f p.1) else lateLane p.1 (f p.1)).map fun w => { w with bad := s.deadCode p.2 } }) ps.length) s

def execAtom (h : Hdr) (o : AtOp) (w64 ar post : Bool) (sc : Scope) (d : BitVec 9) (b : Src) (m : MemOpd) (s : State) : Out :=
  atomics h false o w64 ar post sc d b m s
def execAtoms (h : Hdr) (o : AtOp) (w64 ar post : Bool) (sc : Scope) (d : BitVec 9) (b : Src) (m : MemOpd) (s : State) : Out :=
  atomics h true o w64 ar post sc d b m s

-- fences

/-- FENCE (R172). It parks at its own address, so that a swarm saved there executes it again (R281; DEDUCED, log 119). -/
def execFence (h : Hdr) (sc : Scope) (s : State) : Out :=
  issue h 13 {} .anywhere false (fun e s =>
    match owedFault e s (sc == .system) with
    | some (t, s) => .trap s t
    | none => .hold s .fence) s

/-- FENCO (R172): a mark in the store buffer. -/
def execFenco (h : Hdr) (_sc : Scope) (s : State) : Out :=
  issue h 13 {} .anywhere false (fun e s => .go (s.onCore e.c fun k => { k with marks := k.marks + 1 }) 1) s

/-- The logical cores of the device (R1). -/
def State.allCores (s : State) : List Nat := List.range (8 * s.live.length)

/-- The cores of a scope (R172): the colony's, the cluster's or the device's. -/
def State.scopeCores (s : State) (e : Env) (sc : Scope) : List Nat :=
  match sc with
  | .colony => (match s.subject e.c e.n with | some x => ((s.colony? x.grid x.col).map (·.cores)).getD [e.c] | none => [e.c])
  | .cluster => List.range' (e.c / 8 * 8) 8
  | _ => s.allCores

/-- Asks cores to serialise their store buffers (R172). -/
def State.askSerial (s : State) (cs : List Nat) : State := cs.foldl (fun s c => s.onCore c fun k => { k with serialise := true }) s

/-- FENCR (R172): as FENCE, and when that is over every core of the scope is asked to serialise its store buffer (PARK_END). -/
def execFencr (h : Hdr) (sc : Scope) (s : State) : Out :=
  issue h 13 {} .anywhere false (fun e s => .hold s (.fencr false (s.scopeCores e sc))) s

/-- A core serialises its store buffer and acknowledges every FENCR waiting for it (R172). -/
def execStoreBufferSerialise (core : Nat) (s : State) : Out :=
  if (s.core core).serialise then
    let up (x : Slot) : Slot := { x with members := x.members.map fun m => match m.st with
      | .fencr true cs => { m with st := .fencr true (cs.filter (· != core)) }
      | _ => m }
    let s : State := { s with cores := s.cores.map fun c =>
      (c.1, { c.2 with slots := c.2.slots.map fun e => (e.1, up e.2), handler := { c.2.handler with slot := up c.2.handler.slot } }) }
    .next (s.onCore core fun k => { k with marks := 0, serialise := false })
  else .next s

-- spill and fill (R173)

def execSpill (h : Hdr) (n : BitVec 5) (spad : Bool) (d : BitVec 8) (m : MemOpd) (s : State) : Out :=
  let k := n.toNat + 1
  issue h 5 ((memUses spad m).and { rv := regRange d k }) .anywhere false (fun e s =>
    access e s { spad := spad, acc := 2, strong := false, align := 4, ainfo := 2, typed := false } (e.accs false spad m (4 * k + 4)) false fun s ps =>
      .go (ps.foldl (fun s p =>
        let xs := (regRange d k).map (e.x.v p.1)
        let st := (xs.zipIdx.map fun x => if sticky x.1 then 2 ^ x.2 else 0).sum
        s.put e none p.1 p.2 ((xs.flatMap fun x => natLe 4 (pay x).toNat) ++ natLe 4 st)) s) ps.length) s

def execFill (h : Hdr) (n : BitVec 5) (spad : Bool) (d : BitVec 8) (m : MemOpd) (s : State) : Out :=
  let k := n.toNat + 1
  issue h 5 ((memUses spad m).and { wv := regRange d k, late := true }) .anywhere false (fun e s =>
    access e s { spad := spad, acc := 1, strong := false, align := 4, ainfo := 2, typed := false } (e.accs false spad m (4 * k + 4)) false fun s ps =>
      match s.loadFault (e.located spad m ps) with
      | some (t, s) => .trap s t
      | none =>
        .go (s.onSlot e.c e.n fun x => x.addLate (lateLoad s e false ps fun _ b =>
          let st := leNat ((b.drop (4 * k)).take 4)
          { regs := outL d.toNat ((List.range k).map fun i => img (bitOf st i) (BitVec.ofNat 32 (leNat ((b.drop (4 * i)).take 4)))) })) ps.length) s

-- SLEEP (R61, R62)

/-- A watched word still equals its comparand. -/
def State.watching (s : State) (x : Option Slot) (ps : List (Nat × List Part)) (cmp : Nat → Word) : Bool :=
  ps.any fun p => BitVec.ofNat 32 (leNat (s.load x p.2)) == cmp p.1

def execSleep (h : Hdr) (m : MemOpd) (d : BitVec 8) (t : BitVec 5) (s : State) : Out :=
  issue h 13 ((memUses false m).and { rv := [d.toNat] }) .swarm false (fun e s =>
    access e s { spad := false, acc := 1, strong := true, align := 4, ainfo := 1, typed := false } (e.accs false false m 4) false fun s ps =>
      let cmp (l : Nat) : Word := pay (e.x.v l d.toNat)
      match s.readFault (e.located false m ps) with
      | some (t, s) => .trap s t
      | none =>
      if s.watching e.own ps cmp then
        .hold s (.sleep (s.now + e.m.left.getD (64 * 2 ^ t.toNat)) (ps.map fun p => (p.1, (e.addr false p.1 m).toNat, cmp p.1)))
      else .go s 1) s

/-- The core reads the watched words again (R62); a page fault splits lanes off, and the others stay
parked with the timeout of the SLEEP's issue; a page that has come to deny the read lets the member execute
its SLEEP again, which traps. -/
def execSleepRecheck (core slot mem : Nat) (s : State) : Out :=
  match s.slot? core slot with
  | none => .next s
  | some x =>
    match x.mem? mem with
    | none => .next s
    | some m =>
      match m.st with
      | .sleep lim watch =>
        let watch := watch.filter fun w => m.mask.getLsbD w.1
        let y := s.lookLanes core (s.queueOf x.grid) .read (watch.map fun w => ⟨w.1, BitVec.ofNat 64 w.2.1, 4⟩)
        let good := y.1.filter fun a => a.missing == none && a.denied == none
        let bad := y.1.filter (·.missing != none)
        let ps := good.map fun a => (a.lane, a.parts)
        let cmp (l : Nat) : Word := ((watch.find? (·.1 == l)).map (·.2.2)).getD 0
        if y.1.any (·.denied != none) then
          .next (y.2.onSlot core slot fun x => x.onMem mem fun k => { k with st := .ready, since := s.now, y := false })
        else match bad with
        | b :: _ =>
          let r := y.2.pageFault core slot mem { mask := maskOf (bad.map (·.lane)), addr := b.addr, acc := 1, malformed := b.missing == some true }
          (match r.2 with
          | some id => .next (r.1.onSlot core slot fun x => x.onMem id fun k => { k with st := .sleep lim (watch.filter fun w => k.mask.getLsbD w.1) })
          | none => .next r.1)
        | [] =>
          match y.2.readFault (good.map fun a => (a.lane, a.addr, a.parts)) with
          | some (t, s) => .next (s.raiseTrap core slot mem { cause := t.cause, pc := m.pc, mask := t.mask, addr := t.addr, info := BitVec.ofNat 32 t.info })
          | none =>
          if y.2.watching (some x) ps cmp then .next y.2
          else .next (y.2.onSlot core slot fun x => x.onMem mem fun k => { k.wake s.now with pc := k.pc + BitVec.ofNat 64 k.len })
      | _ => .next s

/-- A SLEEP's timeout has passed (R61). -/
def execSleepTimeout (core slot mem : Nat) (s : State) : Out :=
  .next (s.onSlot core slot fun x => x.onMem mem fun m => match m.st with
    | .sleep lim _ => if lim ≤ s.now then { m.wake s.now with pc := m.pc + BitVec.ofNat 64 m.len } else m
    | _ => m)

-- caches (R182, R183)

/-- PREF (R182) changes nothing a load may return. -/
def execPref (h : Hdr) (_l2 : Bool) (m : MemOpd) (s : State) : Out :=
  issue h 13 { memUses false m with quiet := true } .anywhere false (fun _ s => .go s 1) s

/-- CCTL.IC (R183): the blocks leave every instruction cache of the device. DESIGN CHOICE, log 105: its translation asks for
read. -/
def execCctlIc (h : Hdr) (m : MemOpd) (s : State) : Out :=
  issue h 13 (memUses false m) .anywhere false (fun e s =>
    access e s { spad := false, acc := 1, strong := false, align := 1, ainfo := 1, typed := false } (e.accs false false m 1) false fun s ps =>
      let blocks := (locsOf (ps.flatMap (·.2))).filterMap fun l => match l with | .phys a => some (a / 64) | _ => none
      .wait { s with cores := s.cores.map fun c => (c.1, { c.2 with icache := c.2.icache.filter fun b => !blocks.contains b.1 }) } .icinv) s

/-- CCTL.INV (R183) changes nothing a load may return. DESIGN CHOICE, log 105: its translation asks for read. -/
def execCctlInv (h : Hdr) (m : MemOpd) (s : State) : Out :=
  issue h 13 (memUses false m) .anywhere false (fun e s =>
    access e s { spad := false, acc := 1, strong := false, align := 1, ainfo := 1, typed := false } (e.accs false false m 1) false fun s _ => .go s 1) s

end Sys2Proof.Machine
end

