-- ==== Sys2Proof/Machine/Engines.lean ====
section
/-! DEFINITION. The copy engine and the tile table (R175 to R181), with the events COPY_RETIRE, TILE_READY,
TILE_DRAIN_EMPTY, TILE_FREE and POSTED_ATOMIC_RETIRE (R174, R197). -/

namespace Sys2Proof.Machine

-- copies (R175)

/-- The bytes of one lane of a CPY: the first n from the source, the rest zero. -/
def copyBytes (dst src : List Loc) (n : Nat) : List CopyByte :=
  dst.zipIdx.map fun d =>
    { dst := d.1, touched := false
      src := if d.2 < n then (match src[d.2]? with | some l => .loc l | none => .zero) else .zero }

def lanePart (ps : List (Nat × List Part)) (l : Nat) : List Part := ((ps.find? (·.1 == l)).map (·.2)).getD []

def copies (h : Hdr) (g2s : Bool) (d : BitVec 8) (m : MemOpd) (n : Src) (s : State) : Out :=
  issue h 8 ((memUses false m).and { rv := d.toNat :: useV 1 n, rs := useS 1 n }) .anywhere false (fun e s =>
    let ls := lanesOf e.act
    let valid (l : Nat) : Nat := min (e.pay l n).toNat 32
    let near (l : Nat) : LaneAcc := ⟨l, (pay (e.x.v l d.toNat)).setWidth 64, 32⟩
    let far (l : Nat) : LaneAcc := ⟨l, e.gaddr l m, if g2s then valid l else 32⟩
    let req : Req := { spad := true, acc := if g2s then 2 else 1, strong := false, align := 32, ainfo := 2, typed := false }
    if 63 ≤ e.x.copies.length then .redo s (.counter .copy)
    else match orElseTrap (alignTrap req (ls.map near)) fun _ => stepTrap (ls.filterMap fun l =>
        (s.spadFail (s.subject e.c e.n) (near l)).orElse fun _ => if e.n = 64 then none else globalFail (far l)) with
    | some t => .trap s t
    | none =>
    match s.checkSpad (s.subject e.c e.n) (ls.map near) with
    | .inl t => .trap s t
    | .inr sp =>
      access e s { spad := false, acc := if g2s then 1 else 2, strong := false, align := 1, ainfo := 1, typed := false }
        (ls.map far) false fun s ps =>
          let bytes := ps.flatMap fun p =>
            let a := locsOf (lanePart sp p.1)
            let b := locsOf p.2
            if g2s then copyBytes a b (valid p.1) else copyBytes b a (valid p.1)
          .go (s.onSlot e.c e.n fun x => { x.countDue .copy with copies := x.copies ++
            [{ bytes := bytes, tile := none, hdrs := [], finished := false, lanes := ps.map (·.1), pages := ps.flatMap fun p => p.2.map (·.page) }] })
            ps.length) s

def execCpyG2s (h : Hdr) (d : BitVec 8) (m : MemOpd) (n : Src) (s : State) : Out := copies h true d m n s
def execCpyS2g (h : Hdr) (d : BitVec 8) (m : MemOpd) (n : Src) (s : State) : Out := copies h false d m n s

-- tiles (R178 to R181)

/-- The colony whose tiles an instruction names. -/
def State.owner (s : State) (c n : Nat) : Nat × Nat := ((s.subject c n).map fun x => (x.grid, x.col)).getD (0, 0)

def Core.tile? (k : Core) (t : Nat) : Option Tile := lfind k.tiles t
def State.setTile (s : State) (c t : Nat) (x : Tile) : State := s.onCore c fun k => { k with tiles := lput k.tiles t x }

/-- Step 1 of R162: a named tile is defined and owned by the colony. -/
def State.ownTile (s : State) (e : Env) (t : Nat) : Option Tile :=
  match (s.core e.c).tile? t with
  | some x => if (x.grid, x.col) = s.owner e.c e.n then some x else none
  | none => none

/-- The tile-wait sample of an LDT, TREL or CPYT (R323): the cycles it was parked on tile state. -/
def State.tileWait (s : State) (e : Env) : State := s.onCore e.c (·.sample s.now 2 e.m.waited)

/-- A TILE trap (R162). DESIGN CHOICE, log 102: those that name no address hold TADDR 0. -/
def tileTrap (e : Env) (info : Nat) : Tr := { cause := 12, mask := e.act, info := info }

def Env.tileNo (e : Env) : TileSel → Nat
  | .imm t => t.toNat
  | .reg n => ((Machine.pay (e.x.s n.toNat)).extractLsb' 0 8).toNat

def tileUses : TileSel → List Nat
  | .imm _ => []
  | .reg n => [n.toNat]

/-- TSET (R179). -/
def execTset (h : Hdr) (t : BitVec 8) (so : BitVec 9) (x : Src) (s : State) : Out :=
  issue h 13 { rs := so.toNat :: useS 1 x } .anywhere false (fun e s =>
    let off := (pay (e.x.s so.toNat)).toNat
    let w := e.pay (lowest e.act) x
    let size := (w.extractLsb' 0 11).toNat
    let rd := (w.extractLsb' 16 10).toNat
    let own := s.owner e.c e.n
    let spad := ((s.grid? own.1).map (·.launch.spad)).getD 0
    let old := (s.core e.c).tile? t.toNat
    if (old.map fun y => (y.grid, y.col) != own).getD false then .trap s (tileTrap e 1)
    else if (old.map fun y => y.st != .empty).getD false then .trap s (tileTrap e 2)
    else if size = 0 ∨ 1024 < size ∨ rd = 0 ∨ w.extractLsb' 11 5 ≠ 0 ∨ w.extractLsb' 26 6 ≠ 0 then .trap s (tileTrap e 3)
    else if off % 64 ≠ 0 ∨ spad < off + 64 * size then .trap s (tileTrap e 6)
    else .go (s.setTile e.c t.toNat { grid := own.1, col := own.2, off := off, size := size, readers := rd, count := 0, st := .empty }) 1) s

/-- CPYT (R176). DEDUCED, log 123: alignment and the 52 bits are judged before the count, in R162's order. -/
def execCpyt (h : Hdr) (t : BitVec 8) (base : BitVec 9) (disp : Word) (stride : Option (BitVec 9)) (cnt : BitVec 10) (s : State) : Out :=
  let n := cnt.toNat + 1
  issue h 9 { rs := [base.toNat, base.toNat + 1] ++ (match stride with | some r => [r.toNat] | none => []) } .anywhere false (fun e s =>
    match s.ownTile e t.toNat with
    | none => .trap s (tileTrap e 1)
    | some y =>
      if y.st ≠ .empty then .redo s (.tileEmpty t.toNat)
      else if 63 ≤ e.x.copies.length then .redo s (.counter .copy)
      else
        let step : Dword := match stride with | some r => (pay (e.x.s r.toNat)).signExtend 64 | none => 64
        let a0 := e.pair (lowest e.act) false (.s base) + disp.signExtend 64
        let src (i : Nat) : Dword := a0 + BitVec.ofNat 64 i * step
        let l0 := lowest e.act
        let accs : List LaneAcc := (List.range n).map fun i => ⟨l0, src i, 64⟩
        match orElseTrap (accTrap 6 2 ((accs.filter fun a => a.addr.toNat % 64 ≠ 0).map fun a => (a.lane, a.addr))) fun _ =>
            accTrap 9 1 (if e.n = 64 then [] else (accs.filter fun a => a.addr.extractLsb' 52 12 != 0).map fun a => (a.lane, a.addr)) with
        | some t => .trap s { t with mask := e.act }
        | none =>
          if y.size < n then .trap s (tileTrap e 5)
          else access e s { spad := false, acc := 1, strong := false, align := 1, ainfo := 2, typed := true } accs true fun s ps =>
            match s.rankBase y.grid y.col (((s.colony? y.grid y.col).map fun z => z.cores.findIdx (· == e.c)).getD 0) with
            | none => .go s 0
            | some b =>
              let at_ (i : Nat) : Nat := b.2 + y.off + 64 * i
              let srcs := ps.map (·.2)
              let bytes := (List.range y.size).flatMap fun i =>
                copyBytes ((List.range 64).map fun j => .spad e.c (at_ i + j)) (locsOf (srcs.getD i [])) (if i < n then 64 else 0)
              let hdrs := (List.range y.size).map fun i =>
                (at_ i / 64, if i < n then (match firstLoc (srcs.getD i []) with | .phys a => HdrSrc.block (a / 64) | _ => .zero) else .zero)
              let s := (s.setTile e.c t.toNat { y with st := .filling, count := y.readers }).tileWait e
              .go (s.onSlot e.c e.n fun x => { x.countDue .copy with copies := x.copies ++
                [{ bytes := bytes, tile := some t.toNat, hdrs := hdrs, finished := false, pages := ps.flatMap fun p => p.2.map (·.page) }] }) n) s

def trels (h : Hdr) (t : TileSel) (s : State) : Out :=
  issue h 13 { rs := tileUses t } .anywhere false (fun e s =>
    let n := e.tileNo t
    match s.ownTile e n with
    | none => .trap s (tileTrap e 1)
    | some y =>
      if y.st ≠ .ready then .redo s (.tileReady n)
      else .go ((s.tileWait e).setTile e.c n (if y.count ≤ 1 then { y with st := .draining, count := 0 } else { y with count := y.count - 1 })) 1) s

def execTrel (h : Hdr) (t : BitVec 8) (s : State) : Out := trels h (.imm t) s
def execTrel64 (h : Hdr) (t : TileSel) (s : State) : Out := trels h t s

/-- TSTAT's word (R180). -/
def tileWord (y : Option Tile) (own : Bool) : Word :=
  match y with
  | none => 0
  | some y => BitVec.ofNat 32 (y.count * 65536 + y.size * 16 + b2n own * 8 + 4 +
      (match y.st with | .empty => 0 | .filling => 1 | .ready => 2 | .draining => 3))

def execTstat (h : Hdr) (d : BitVec 8) (t : TileSel) (s : State) : Out :=
  issue h 13 { rs := tileUses t, wv := [d.toNat] } .anywhere false (fun e s =>
    let n := e.tileNo t
    let w := tileWord ((s.core e.c).tile? n) (s.ownTile e n).isSome
    .go (s.onSlot e.c e.n fun x => x.writeAll false e.act fun _ => out1 (d.setWidth 9) w) 1) s

/-- The index of an LDT in a lane (R181). -/
def Env.index (e : Env) (l : Nat) : Src → Nat
  | .v n => (Machine.pay (e.x.v l n.toNat)).toNat
  | b => (e.pay l b + BitVec.ofNat 32 l).toNat

/-- LDT (R181): blocks, or words. -/
def ldts (h : Hdr) (frag : Bool) (d : BitVec 8) (t : TileSel) (b : Src) (s : State) : Out :=
  let unit := if frag then 64 else 4
  issue h 5 { rs := tileUses t ++ useS 1 b, rv := useV 1 b, wv := regRange d (if frag then 17 else 1), late := true } .anywhere false (fun e s =>
    let n := e.tileNo t
    match s.ownTile e n with
    | none => .trap s (tileTrap e 1)
    | some y =>
      if y.st ≠ .ready then .redo s (.tileReady n)
      else
        let ls := lanesOf e.act
        let rank := ((s.colony? y.grid y.col).map fun z => z.cores.findIdx (· == e.c)).getD 0
        let sa (l : Nat) : Dword := BitVec.ofNat 64 ((rank * 2 ^ 20 + y.off + unit * e.index l b) % 2 ^ 32)
        let lim := if frag then y.size else 16 * y.size
        match accTrap 12 4 ((ls.filter fun l => decide (lim ≤ e.index l b)).map fun l => (l, sa l)) with
        | some t => .trap s t
        | none =>
          let base := ((s.rankBase y.grid y.col rank).map (·.2)).getD 0 + y.off
          let ps := ls.map fun l => (l, [(⟨.spad e.c (base + unit * e.index l b), unit, true, false, false, (0, 0)⟩ : Part)])
          let hd (l : Nat) : Word := s.locHdr (firstLoc (lanePart ps l))
          match s.loadFault (ps.map fun p => (p.1, sa p.1, p.2 ++ (if frag then hdrMark (firstLoc p.2) else []))) with
          | some (t, s) => .trap s t
          | none =>
            match accTrap 11 1 (if frag then (ls.filter fun l => badHdr (hd l)).map fun l => (l, sa l) else []) with
            | some t => .trap s t
            | none =>
              .go ((s.tileWait e).onSlot e.c e.n fun x => x.addLate { lateLoad s e false ps (fun l bs =>
                { regs := outL d.toNat ((if frag then (if hd l = 0 then List.replicate 17 0 else blockWords (leNat bs) ++ [hd l])
                    else [BitVec.ofNat 32 (leNat bs)]).map pureImg) }) with sample := false }) ls.length) s

def execLdtFrag (h : Hdr) (d : BitVec 8) (t : TileSel) (b : Src) (s : State) : Out := ldts h true d t b s
def execLdtWord (h : Hdr) (d : BitVec 8) (t : TileSel) (b : Src) (s : State) : Out := ldts h false d t b s

-- events

/-- A slot's k-th copy asks the budgets of its queue (R249); the handler's traffic is not counted. -/
def State.payCopy (s : State) (c n k : Nat) : State × Bool :=
  match s.slot? c n with
  | none => (s, false)
  | some x =>
    match x.copies[k]? with
    | none => (s, false)
    | some o =>
      if n = 64 then (s, true)
      else
        let q := s.queueOf x.grid
        let r := (s.queue q).grant o.toll (copyCosts o.bytes)
        ((s.setQueue q r.1).onSlot c n fun x => { x with copies := x.copies.set k { o with toll := r.2.1 } }, r.2.2)

/-- An uncorrectable word among the sources of a copy. -/
def State.badSource (s : State) (l : List CopyByte) : Bool :=
  l.any fun p => match p.src with | .loc l => (s.badLoc l).isSome | _ => false

/-- A list in pieces of u, the last perhaps shorter. -/
def chunksOf {α : Type} (u : Nat) (l : List α) : List (List α) :=
  (List.range ((l.length + u - 1) / u)).map fun i => (l.drop (u * i)).take u

/-- Writes the bytes of a copy, lane by lane or block by block of u bytes: where a store reached the destination
after issue, either value may stand (R177); an uncorrectable source leaves the destination of its lane or block
unwritten (R289). A lane or block counts as one store (R301). -/
def State.moveBytes (s : State) (u : Nat) (l : List CopyByte) : State :=
  (chunksOf u l).foldl (fun s b =>
    if s.badSource b then s
    else (b.foldl (fun s p => if p.touched && Config.freeBit s.ctr 5 (Loc.code p.dst) then s else s.storeRaw p.dst [s.srcByte p.src]) s).countDropped
      (b.filterMap fun p => match p.dst with | .phys a => some a | _ => none)) s

/-- A lane's or block's bytes in a copy: 32 of a CPY, 64 of a CPYT. -/
def CopyOp.unit (o : CopyOp) : Nat := if o.tile.isNone then 32 else 64

def State.hdrVal (s : State) : HdrSrc → Word
  | .zero => 0
  | .block n => lget 0 s.hdrs n
  | .got w => w

/-- Removes the finished copies at the head of COPY: they retire in issue order (R174). -/
def retireCopies : List CopyOp → List CopyOp
  | [] => []
  | o :: r => if o.finished then retireCopies r else o :: r

/-- Moves the data of a slot's k-th copy and retires what is finished. The MCHK of an uncorrectable source
is owed at the next wait point (R289), that of a block dropped at a port that is down at the next FENCE or release (R301). -/
def State.finishCopy (s : State) (c n k : Nat) : State :=
  match s.slot? c n with
  | none => s
  | some x =>
    match x.copies[k]? with
    | none => s
    | some o =>
      let paid := s.payCopy c n k
      if o.finished then s
      else if !paid.2 then paid.1
      else
        let s := paid.1
        let bad := (chunksOf o.unit o.bytes).map s.badSource
        -- the copy itself is no longer in flight while its bytes are written
        let s := s.onSlot c n fun x => { x with copies := x.copies.set k { o with bytes := [], finished := true } }
        let s := s.moveBytes o.unit o.bytes
        let s := (o.hdrs.zip bad).foldl (fun s h => if h.2 then s else s.storeHdr (.spad c (64 * h.1.1)) (s.hdrVal h.1.2)) s
        let dead := ((o.lanes.zip (chunksOf o.unit o.bytes)).filter fun p => p.2.any fun b => (s.deadPort b.dst).isSome).map (·.1)
        s.onSlot c n fun x => { dead.foldl (fun x l => x.onFibre l fun f => { f with owed := true }) x with
          copies := retireCopies x.copies
          due := if bad.any id then x.due ++ [{ info := 4, addr := 0, after := x.copies.length - (k + 1)
                                                mask := if o.tile.isSome then x.occupied else maskOf ((o.lanes.zip bad).filter (·.2) |>.map (·.1)) }] else x.due }

/-- A copy is performed and retires (R174, R175). A CPYT is finished by TILE_READY. -/
def execCopyRetire (core slot k : Nat) (s : State) : Out :=
  match (s.slot? core slot).bind (·.copies[k]?) with
  | some o => .next (if o.tile = none then s.finishCopy core slot k else s)
  | none => .next s

/-- Where the CPYT of a tile stands: slot and place among its copies. -/
def Core.fillOf (k : Core) (t : Nat) : Option (Nat × Nat) :=
  let all := (64, k.handler.slot) :: k.slots
  all.findSome? fun e => (e.2.copies.zipIdx.find? fun o => o.1.tile == some t && !o.1.finished).map fun o => (e.1, o.2)

/-- The last block of a CPYT is written, and the tile is READY (R176). -/
def execTileReady (core tile : Nat) (s : State) : Out :=
  match (s.core core).tile? tile, (s.core core).fillOf tile with
  | some y, some p =>
    if y.st ≠ .filling then .next s
    else
      let paid := s.payCopy core p.1 p.2
      .next (if paid.2 then (paid.1.finishCopy core p.1 p.2).setTile core tile { y with st := .ready } else paid.1)
  | _, _ => .next s

/-- A DRAINING tile whose LDTs have read their data becomes EMPTY (R178); an LDT reads at its issue. -/
def execTileDrainEmpty (core tile : Nat) (s : State) : Out :=
  match (s.core core).tile? tile with
  | some y => .next (if y.st = .draining then s.setTile core tile { y with st := .empty } else s)
  | none => .next s

/-- A tile of an ended colony becomes FREE (R178, R20). -/
def execTileFree (core tile : Nat) (s : State) : Out :=
  match (s.core core).tile? tile with
  | some y => .next (if (s.colony? y.grid y.col).isNone ∧ (s.core core).fillOf tile = none then s.onCore core fun k => { k with tiles := ldel k.tiles tile } else s)
  | none => .next s

/-- A posted atomic retires (R171, R197): every lane was performed or accepted at its issue. -/
def execPostedAtomicRetire (core slot : Nat) (s : State) : Out :=
  .next (s.onSlot core slot fun x => { x with posts := x.posts - 1 })

end Sys2Proof.Machine
end

