-- ==== Sys2Proof/Machine/Matrix.lean ====
section
/-! DEFINITION. The matrix instructions (R205 to R224), the sharing of the engine (R219, R220), the residue
check (R221, R222) and the engine's rail and ramp (R266, R268), with the events MATRIX_OP_RETIRE, LEASE_GRANT
and RAMP_DOWN_FILLER. -/

namespace Sys2Proof.Machine

-- issue

/-- The format of a header register that an older outstanding operation writes (R212): that of its latest
writer. -/
def Slot.hdrOut (x : Slot) (l n : Nat) : Option Nat :=
  match x.mtx.reverse.find? (·.writes l n) with
  | none => none
  | some o => match o.op with
    | .mmad _ _ e _ _ _ _ _ _ => if n = e.toNat + 16 then some (fmtNum .e4m3) else none
    | .mcvt _ d _ g _ _ _ _ _ _ => if n = d.toNat + 16 then some (fmtNum g) else none
    | _ => none

/-- The header check of R208 and R212 step 5, over lanes and header registers with the named formats. -/
def mtxHdr (e : Env) (x : Slot) (hs : List (Nat × Nat × Fmt)) : Option Tr :=
  let bad := hs.filter fun h => (x.hdrOut h.1 h.2.1).isNone && badHdr (pay (e.x.v h.1 h.2.1))
  let fmt (h : Nat × Nat × Fmt) : Nat := (x.hdrOut h.1 h.2.1).getD (hdrFmt (pay (e.x.v h.1 h.2.1)))
  let wrong := hs.filter fun h => fmt h != 0 && fmt h != fmtNum h.2.2
  if bad ≠ [] then some { cause := 11, mask := maskOf (bad.map (·.1)), info := 1 }
  else if wrong ≠ [] then some { cause := 11, mask := maskOf (wrong.map (·.1)), info := 2 }
  else none

/-- Two register ranges overlap. -/
def meet (a b : Nat × Nat) : Bool := decide (a.1 < b.1 + b.2) && decide (b.1 < a.1 + a.2)

/-- Every operation outstanding on a core, with its slot. -/
def Core.mtxOps (k : Core) : List (Nat × MtxOp) :=
  ((64, k.handler.slot) :: k.slots).flatMap fun e => e.2.mtx.map fun o => (e.1, o)

/-- The operations that the engine has still to perform. -/
def Core.queued (k : Core) : List (Nat × MtxOp) := k.mtxOps.filter (·.2.ret.isNone)

/-- The queue of a slot runs its engines in lease mode (R219). -/
def State.leaseMode (s : State) (c n : Nat) : Bool :=
  n != 64 && (((s.slot? c n).bind fun x => s.grid? x.grid).map (·.lease)).getD false

/-- Asks again for a suspended lease or request (R220, R223). -/
def State.renewLease (s : State) (c n : Nat) : State :=
  match s.slot? c n with
  | none => s
  | some x =>
    match x.lease.suspended.orElse fun _ => x.lease.requested with
    | none => s
    | some k => (s.onCore c fun y => { y with engine := { y.engine with requests := y.engine.requests ++ [(n, k)] } }).onSlot c n fun x =>
        { x with lease := ⟨none, none⟩ }

/-- The filler operations that a ramp-down has performed after some core cycles (R268): 500 ns, 1000 cycles, at each of
1/2, 1/4, 1/8 and 1/16 of the full rate of one operation in 8 cycles (R2, R220). -/
def rampOps (t : Nat) : Nat := (8 * min t 1000 + 4 * min (t - 1000) 1000 + 2 * min (t - 2000) 1000 + min (t - 3000) 1000) / 128

/-- The filler operations of a core's engine that are due by a core cycle and not yet performed (R268): after at least 1 µs of
operations, while none is queued. -/
def Core.fillersDue (k : Core) (now : Nat) : Nat :=
  match k.engine.busySince, k.engine.lastOp with
  | some b, some t => if k.queued.isEmpty && decide (b + Config.usecCycles ≤ t) then rampOps (now - t) - k.engine.ramp else 0
  | _, _ => 0

/-- `n` filler operations (R268): their energy goes to the colony of the last real operation, if it still exists. The ramp ends
after its 2 µs. -/
def State.fill (s : State) (c n : Nat) : State :=
  let e := (s.core c).engine
  let ended := match e.busySince, e.lastOp with
    | some b, some t => (s.core c).queued.isEmpty && decide (b + Config.usecCycles ≤ t) && decide (t + 2 * Config.usecCycles ≤ s.now)
    | _, _ => false
  let s := match e.lastClass with
    | some (g, k, cls) => s.onColony g k fun z => { z with energy := z.energy + n * s.weights.getD cls 0 }
    | none => s
  if n = 0 && !ended then s
  else s.onCore c fun k => { k with engine := { k.engine with ramp := k.engine.ramp + n, busySince := if ended then none else k.engine.busySince } }

/-- An operation reaches the engine (R266): one idle for more than 1 µs raises its rail first, or starts
slowly where the ceiling forbids the step. One that arrives in a ramp-down ends it, and is performed at once (R268). -/
def Core.arrive (k : Core) (now : Nat) : Core :=
  let e := k.engine
  let ramp := match e.busySince, e.lastOp with
    | some b, some t => decide (b + Config.usecCycles ≤ t) && decide (now < t + 2 * Config.usecCycles)
    | _, _ => false
  let idle := k.queued.isEmpty && !ramp && (match e.lastOp with | some t => decide (t + Config.usecCycles < now) | none => true)
  let e := if k.queued.isEmpty then { e with busySince := some now, ramp := 0 } else e
  if idle && !k.power.boost then
    if k.power.vset + 1 ≤ k.power.ceil then { k with engine := { e with waitBoost := true } }
    else { k with engine := { e with slowUntil := now + Config.usecCycles } }
  else { k with engine := e }

/-- Counts an operation against the lease it is issued under; the 256th ends it (R220). -/
def Core.spendLease (k : Core) (n seq : Nat) : Core :=
  match k.engine.holder with
  | some (h, left) =>
    if h = n then { k with engine := { k.engine with holder := if left ≤ 1 then none else some (h, left - 1), drainTo := if left ≤ 1 then seq else k.engine.drainTo } }
    else k
  | none => k

/-- The energy class of a matrix operation (R234). -/
def fmtClass (f : Fmt) : Nat :=
  match f with
  | .e2m1 | .int4 => 11
  | .bf16 | .fp16 => 12
  | _ => 10

/-- A matrix operation is issued (R209, R212). -/
def matOp (h : Hdr) (cls : Nat) (op : Instr) (hs : Env → List (Nat × Nat × Fmt)) (free : List (Nat × Nat)) (s : State) : Out :=
  let rs := mtxSrc op
  let ws := mtxDst op
  let regs (l : List (Nat × Nat)) : List Nat := l.flatMap fun r => List.range' r.1 r.2
  let clash := ws.zipIdx.any fun w => (rs.any fun r => meet w.1 r && !(free.contains w.1 && r == w.1)) ||
    (ws.zipIdx.any fun v => v.2 != w.2 && meet w.1 v.1)
  issue h cls { rv := regs rs, wv := regs ws, cols := regs (mtxCols op), mtx := true, late := true, clash := clash } .anywhere false (fun e s =>
    let x := (s.slot? e.c e.n).getD e.x
    if 63 ≤ x.mtx.length then .redo s (.counter .mtx)
    else match mtxHdr e x (hs e) with
    | some t => .trap s t
    | none =>
      let s := (s.fill e.c ((s.core e.c).fillersDue s.now)).renewLease e.c e.n
      let held := match (s.core e.c).engine.holder with | some p => p.1 == e.n | none => false
      let o : MtxOp := { seq := s.seq, op := op, pc := e.m.pc, rows := e.act, cols := x.occupied, fm := e.x.fmode.toNat, shadows := [], clobbered := []
                         xs := (e.x.fibre (lowest e.m.mask)).frames.map (·.x), leased := held }
      .go ((s.onCore e.c fun k => (k.arrive s.now).spendLease e.n s.seq).onSlot e.c e.n fun x => { x.countDue .mtx with mtx := x.mtx ++ [o] }) 1) s

/-- The headers an MMA or MMAD checks: A's rows taking part, B's lanes that hold fibres. -/
def mmaHdrs (e : Env) (a b : BitVec 8) (fa fb : Fmt) : List (Nat × Nat × Fmt) :=
  (lanesOf e.act).map (fun l => (l, a.toNat + 16, fa)) ++ e.x.lanes.map fun l => (l.1, b.toNat + 16, fb)

/-- MMA (R213, R214). -/
def execMma (h : Hdr) (d a b : BitVec 8) (fa fb : Fmt) (rm : RMod) (zc : Bool) (s : State) : Out :=
  matOp h (fmtClass fa) (.mma h d a b fa fb rm zc) (fun e => mmaHdrs e a b fa fb) [(d.toNat, 64)] s

/-- MMAD (R215). -/
def execMmad (h : Hdr) (d e' a b : BitVec 8) (fa fb : Fmt) (rm : RMod) (zc : Bool) (s : State) : Out :=
  matOp h (fmtClass fa) (.mmad h d e' a b fa fb rm zc) (fun e => mmaHdrs e a b fa fb) [(d.toNat, 64)] s

/-- MCVT (R216). -/
def execMcvt (h : Hdr) (d a : BitVec 8) (g : Fmt) (i32 : Bool) (rm : RMod) (as sp hi : Bool) (vh : Option (BitVec 8)) (s : State) : Out :=
  matOp h (fmtClass g) (.mcvt h d a g i32 rm as sp hi vh) (fun _ => []) [] s

/-- MZERO (R217). -/
def execMzero (h : Hdr) (d : BitVec 8) (s : State) : Out :=
  regOp h 0 { wv := regRange d 64 } (fun _ _ => { regs := (regRange d 64).map fun n => (n, (0 : Img)) }) s

/-- A header with another SCALE. -/
def setScale (h : Word) (x : Nat) : Word := (h &&& 0xFFFF00FF#32) ||| BitVec.ofNat 32 (256 * x)

/-- MSCL (R218): `f` gives the new header and flags. DEDUCED, log 127: b may be the header register itself, for R212 step 3 is
about the ranges of the engine's operations. -/
def mscl (h : Hdr) (d : BitVec 8) (b : Src) (f : Word → Word → Word × Fl) (s : State) : Out :=
  let r := d.toNat + 16
  issue h 0 { rv := r :: useV 1 b, rs := useS 1 b, wv := [r] } .anywhere false (fun e s =>
    let bad := (lanesOf e.act).filter fun l => badHdr (pay (e.x.v l r))
    if bad ≠ [] then .trap s { cause := 11, mask := maskOf bad, info := 1 }
    else .go (s.onSlot e.c e.n fun x => (lanesOf e.act).foldl (fun x l =>
        let o := pay (e.x.v l r)
        let n := if hdrFmt o = 0 then (o, 0) else f o (e.pay l b)
        x.writeLane l { regs := [(r, pureImg n.1)], fl := n.2 }) x) (countOf e.act)) s

def execMsclAdd (h : Hdr) (d : BitVec 8) (b : Src) (s : State) : Out :=
  mscl h d b (fun o v =>
    if hdrScale o = 255 then (o, 0)
    else
      let x : Int := hdrScale o + v.toInt
      (setScale o (min (max x 0) 254).toNat, flIf (decide (254 < x)) fOF ||| flIf (decide (x < 0)) fUF)) s

def execMsclSet (h : Hdr) (d : BitVec 8) (b : Src) (s : State) : Out :=
  mscl h d b (fun o v => (setScale o (v.toNat % 256), 0)) s

-- leases (R220)

def Core.dropRequest (k : Core) (n : Nat) : Core :=
  { k with engine := { k.engine with requests := k.engine.requests.filter (·.1 != n) } }

/-- MLEASE: the slot's lease, if any, ends, and its request stands last. It supersedes a suspended lease or
request. -/
def execMlease (h : Hdr) (s : State) : Out :=
  issue h 13 {} .anywhere false (fun e s =>
    if s.leaseMode e.c e.n then
      .go ((s.onCore e.c fun k =>
        let k := (k.endLease e.n s.seq).dropRequest e.n
        { k with engine := { k.engine with requests := k.engine.requests ++ [(e.n, 256)] } }).onSlot e.c e.n fun x => { x with lease := ⟨none, none⟩ }) 1
    else .go s 1) s

/-- MFREE: the slot's lease ends, or its request is withdrawn; a suspended one that has not been asked for again too (DESIGN CHOICE,
log 126). -/
def execMfree (h : Hdr) (s : State) : Out :=
  issue h 13 {} .anywhere false (fun e s =>
    if s.leaseMode e.c e.n then
      .go ((s.onCore e.c fun k => (k.endLease e.n s.seq).dropRequest e.n).onSlot e.c e.n fun x => { x with lease := ⟨none, none⟩ }) 1
    else .go s 1) s

/-- A lease is granted to the oldest request when none is held, and every operation of the lease before and
every one that waited when it ended has retired. -/
def execLeaseGrant (core : Nat) (s : State) : Out :=
  let k := s.core core
  match k.engine.holder, k.engine.requests with
  | none, r :: rest =>
    .next (if k.mtxOps.all fun o => decide (k.engine.drainTo < o.2.seq) && !o.2.leased then
        s.onCore core fun k => { k with engine := { k.engine with holder := some r, requests := rest } }
      else s)
  | _, _ => .next s

-- the engine

/-- The slots whose operations come first: the lease holder, and one with operations of an ended lease. -/
def Core.favoured (k : Core) : List Nat :=
  (match k.engine.holder with | some p => [p.1] | none => []) ++ (k.queued.filter (·.2.leased)).map (·.1)

/-- The engine may perform the oldest operation of a slot now (R209, R219, R220, R266). -/
def Core.mayPerform (k : Core) (n now : Nat) (o : MtxOp) : Bool :=
  !k.engine.waitBoost &&
  (decide (k.engine.slowUntil ≤ now) || (match k.engine.lastOp with | some t => decide (t + 16 ≤ now) | none => true)) &&
  (if k.favoured.isEmpty then k.queued.all fun p => decide (o.seq ≤ p.2.seq) else k.favoured.contains n)

/-- A later operation as an older one writes lane l's vn with the result `w` (R209, R210). Where the register has been written
since the later one was issued, it reads that result, if it is the one it waits for, or what the register has held since; where
the older one is the last to write it (`last`), the result alone. `lost` has the register's value where a write has gone over the
older one's, so that the register will not hold the result. -/
def MtxOp.noteResult (o : MtxOp) (k l n : Nat) (w : Img) (last : Bool) (lost : Option Img) : MtxOp :=
  let mine (h : Shadow) : Bool := h.lane == l && h.reg == n && h.of.isSome
  let known := o.shadows.map fun h => if h.lane = l ∧ h.reg = n ∧ h.of = some k then ⟨l, n, w, none⟩ else h
  match lost with
  | none => { o with shadows := known }
  | some v =>
    if o.shadows.any mine then
      (if o.void.contains (l, n) then { o with shadows := known } else { o with shadows := ⟨l, n, v, none⟩ :: known, void := (l, n) :: o.void })
    else if last && inRanges n (mtxSrc o.op) then { o with shadows := ⟨l, n, w, none⟩ :: o.shadows, void := (l, n) :: o.void }
    else o

/-- Writes the results of a performed operation: a register written over meanwhile gets a free value, and an
older load to the same register is dropped (R25). -/
def Slot.writeMtx (x : Slot) (o : MtxOp) (ctr : Nat) (r : MtxRes) : Slot :=
  let x := r.regs.foldl (fun x e =>
    let d : Dest := .v e.1 e.2.1
    let lost := o.clobbered.contains (e.1, e.2.1)
    let w := if lost then img (Config.freeBit ctr e.1 e.2.1) (Config.freeWord ctr e.1 e.2.1) else e.2.2
    let mtx := x.mtx.map fun p => p.noteResult o.seq e.1 e.2.1 e.2.2 (x.writerOf p e.1 e.2.1).isNone (if lost then some (x.v e.1 e.2.1) else none)
    let x := x.raw d w
    { x with
      mtx := mtx
      badRegs := x.badRegs.filter (·.1 != d)
      late := x.late.map fun p => if p.seq < o.seq then { p with writes := p.writes.filter (·.dst != d) } else p }) x
  { x with fflags := x.fflags ||| r.fl }

/-- The energy class of an outstanding operation. -/
def MtxOp.cls (o : MtxOp) : Nat :=
  match o.op with
  | .mma _ _ _ _ fa _ _ _ => fmtClass fa
  | .mmad _ _ _ _ _ fa _ _ _ => fmtClass fa
  | .mcvt _ _ _ g _ _ _ _ _ _ => fmtClass g
  | _ => 10

/-- The residue check covers an operation (R221). -/
def MtxOp.checked (o : MtxOp) : Bool := match o.op with | .mcvt _ _ _ _ _ _ _ _ _ _ => false | _ => true

/-- A replay counts as a second operation (R234). -/
def State.chargeReplay (s : State) (c n : Nat) (x : Slot) (o : MtxOp) : State :=
  if n = 64 then s
  else
    let w := s.weights.getD o.cls 0
    (s.onSlot c n fun x => { x with xs := x.xs.map fun r => if o.xs.contains r.id then { r with energy := r.energy + w } else r }).onColony x.grid x.col
      fun z => { z with energy := z.energy + w }

-- the way of a result into its slice (R265)

/-- The results in a slice's inbound FIFO that are still to be delivered (R265; what of the crossing is no state, log 18). -/
def Core.inbound (k : Core) (slice : Nat) : List (Nat × Nat) :=
  (k.power.slice slice).inbox.filter fun e => (k.slot? e.1).any fun x => x.late.any (·.seq == e.2) || x.mtx.any fun o => o.seq == e.2 && o.ret.isSome

/-- What becomes of a result that the core domain has for a slice: it waits, enters the inbound FIFO, or is delivered. -/
inductive Crossing
  | wait | enter | deliver
  deriving DecidableEq, Repr

/-- The inbound FIFO delivers one result on each slice edge, its oldest, and none while the slice is in a switch; where it holds 16
a result waits in the core domain (R265; DEDUCED, log 18: every result of the core domain takes this way). -/
def Core.crossing (k : Core) (now slice slot seq : Nat) : Crossing :=
  let x := k.power.slice slice
  let due : Bool := !x.isFrozen now && x.edge now && x.lastIn != some now
  match k.inbound slice with
  | [] => if due then .deliver else .enter
  | e :: r =>
    if e = (slot, seq) then (if due then .deliver else .wait)
    else if r.contains (slot, seq) || decide (16 ≤ r.length + 1) then .wait else .enter

/-- A result enters the inbound FIFO. -/
def Core.enter (k : Core) (slice slot seq : Nat) : Core :=
  { k with power := k.power.setSlice slice { k.power.slice slice with inbox := k.inbound slice ++ [(slot, seq)] } }

/-- The FIFO delivers its oldest result, or one that passes through it. -/
def Core.leave (k : Core) (now slice : Nat) : Core :=
  { k with power := k.power.setSlice slice { k.power.slice slice with inbox := (k.inbound slice).drop 1, lastIn := some now } }

/-- The engine performs an operation (R209); its residue check may have it performed again (R221). -/
def State.perform (s : State) (c n : Nat) (x : Slot) (o : MtxOp) (r : Residue) : State :=
  let cls : Option (Nat × Nat × Nat) := if n = 64 then none else some (x.grid, x.col, o.cls)
  let again : Nat := if r = .pass then 0 else 1
  let s := s.onCore c fun k => { k with engine := { k.engine with lastOp := some s.now, lastClass := cls, replays := k.engine.replays + again } }
  if r = .pass then s else s.chargeReplay c n x o

/-- A slot's oldest operation retires (R209). At the second residue mismatch it is discarded with every later one, and an MCHK is
owed (R222). -/
def State.retireMtx (s : State) (c n : Nat) (x : Slot) (o : MtxOp) (r : Residue) : State :=
  let rest := x.mtx.drop 1
  match r with
  | .twice rows => s.onSlot c n fun x => { x with
      mtx := [], due := x.due ++ [{ info := 1, mask := rows &&& o.rows, addr := o.pc, after := rest.length }] }
  | _ => s.onSlot c n fun x => { x with mtx := rest }.writeMtx o s.ctr (o.result s.ctr (x.view s.ctr))

/-- The engine performs the oldest operation of a slot that it has not performed, and the operation retires (R209), through the
inbound FIFO of its slice (R265): at once, or where it stands in the FIFO in a later event of this name. Its first residue mismatch
makes it run again (R221); a second discards it and every later one, and until the MCHK is raised what the slot issues is discarded
too (R222). -/
def execMatrixOpRetire (core slot : Nat) (r : Residue) (s : State) : Out :=
  match s.slot? core slot with
  | none => .next s
  | some x =>
    let way (o : MtxOp) : Crossing := (s.core core).crossing s.now x.slice slot o.seq
    match x.mtx.find? fun o => o.ret.isSome && way o == .deliver, x.mtx.find? (·.ret.isNone) with
    | some o, _ => .next ((s.onCore core fun k => k.leave s.now x.slice).retireMtx core slot x o (o.ret.getD .pass))
    | none, none => .next s
    | none, some o =>
      let r := if o.checked then r else .pass
      if x.due.any (·.covers .mtx 0) then .next (s.onSlot core slot fun x => { x with mtx := x.mtx.drop 1 })
      else if (x.mtx.any fun p => match p.ret with | some (.twice _) => true | _ => false) || (s.core core).mayPerform slot s.now o = false then .next s
      else match way o with
        | .wait => .next s
        | .enter => .next (((s.perform core slot x o r).onSlot core slot fun x => { x with
            mtx := x.mtx.map fun p => if p.seq = o.seq then { p with ret := some r } else p }).onCore core fun k => k.enter x.slice slot o.seq)
        | .deliver => .next (((s.perform core slot x o r).onCore core fun k => k.leave s.now x.slice).retireMtx core slot x o r)

/-- Filler operations of the engine's ramp-down (R268), of those due by now. -/
def execRampDownFiller (core n : Nat) (s : State) : Out :=
  .next (if n ≤ (s.core core).fillersDue s.now then s.fill core n else s)

end Sys2Proof.Machine
end

