-- ==== Sys2Proof/Machine/Parks.lean ====
section
/-! DEFINITION. The ends of parks (R13, R23, R65, R222), late results (R24), TLBI, SAVEC and RSTC (R84, R85,
R278 to R281), with the events LATE_RESULT_RETURN, PARK_END, HANDLER_START, COLONY_RESTORE, TLB_SHOOTDOWN and
FIRMWARE_EVENT. -/

namespace Sys2Proof.Machine

/-- A late result returns (R24, R25), through the inbound FIFO of its slice (R265): it waits, enters the FIFO or is delivered. Its
latency is a monitor sample when it is a load's (R323). -/
def execLateResultReturn (core slot k : Nat) (s : State) : Out :=
  match s.slot? core slot with
  | none => .next s
  | some x =>
    match x.late[k]? with
    | none => .next s
    | some o =>
      .next (match (s.core core).crossing s.now x.slice slot o.seq with
        | .wait => s
        | .enter => s.onCore core fun y => y.enter x.slice slot o.seq
        | .deliver =>
          let t := (s.onCore core fun y => y.leave s.now x.slice).setSlot core slot (x.deliver k s.ctr)
          if o.sample then t.onCore core (·.sample s.now 1 (s.now - o.issued)) else t)

-- TLBI (R85)

def Core.dropTlb (k : Core) (p : TlbEntry → Bool) : Core := { k with tlb := k.tlb.filter fun t => !p t }

/-- Drops the entries of a core's TLB and of its cluster's. -/
def State.dropTlb (s : State) (c : Nat) (p : TlbEntry → Bool) : State :=
  let s := s.onCore c (·.dropTlb p)
  { s with clTlbs := s.clTlbs.map fun t => if t.1 = c / 8 then (t.1, t.2.filter fun e => !p e) else t }

def execTlbiVa (h : Hdr) (m : MemOpd) (s : State) : Out :=
  issue h 13 (memUses false m) .handler false (fun e s =>
    let q := s.servedQueue e.c
    let vas := (lanesOf e.act).map fun l => (e.gaddr l m).toNat
    .wait (s.dropTlb e.c fun t => vas.any (t.hit q)) .tlbi) s

def execTlbiAs (h : Hdr) (s : State) : Out :=
  issue h 13 {} .handler false (fun e s =>
    let q := s.servedQueue e.c
    .wait (s.dropTlb e.c (·.q == q)) .tlbi) s

def execTlbiAll (h : Hdr) (s : State) : Out :=
  issue h 13 {} .handler false (fun e s => .wait (s.dropTlb e.c fun _ => true) .tlbi) s

/-- A translated access to a page of a queue's space that is still to be performed: a copy of a slot or of a COPY
packet, a staged store, a comb cell's or a buffer's atomic (R252 to R255). -/
def State.inFlight (s : State) (q : Nat) (cover : Nat × Nat → Bool) : Bool :=
  (s.cores.any fun c => c.2.slots.any fun e => s.queueOf e.2.grid == q && e.2.copies.any fun o => !o.finished && o.pages.any cover) ||
  ((s.queue q).copies.any fun p => match p with | .copy _ _ _ _ => true | _ => false) ||
  s.grids.any fun g => g.q == q && (g.combs.any (fun c => cover c.page) || g.bufs.any (fun b => cover b.page) || g.staged.any fun t => t.pages.any cover)

/-- A shoot-down covers an access still to be performed (R286). -/
def State.shootWaits (s : State) (what : Shoot) : Bool :=
  match what with
  | .page q va => s.inFlight q fun p => decide (p.1 ≤ va) && decide (va < p.1 + p.2)
  | .queue q => s.inFlight q fun _ => true
  | .all => (List.range 64).any fun q => s.inFlight q fun _ => true

/-- A device-wide shoot-down (R286) takes the next number and completes: no TLB holds an entry that it covers, and
every access translated through one has been performed. Until then it waits. -/
def execTlbShootdown (what : Shoot) (s : State) : Out :=
  let p (t : TlbEntry) : Bool := match what with
    | .page q va => t.hit q va
    | .queue q => t.q == q
    | .all => true
  if s.shootWaits what then .next s
  else .next { s with
    shoots := s.shoots + 1
    cores := s.cores.map fun c => (c.1, c.2.dropTlb p)
    clTlbs := s.clTlbs.map fun t => (t.1, t.2.filter fun e => !p e) }

-- SAVEC and RSTC

/-- The address of a save area of `n` bytes, checked (R84, R275, R276): the access is the handler's own. -/
def areaOp (h : Hdr) (m : MemOpd) (wr : Bool) (len : State → Env → Nat) (park : Nat → Park) (s : State) : Out :=
  issue h 13 (memUses false m) .handler false (fun e s =>
    let a := e.gaddr (lowest e.act) m
    match s.check e { spad := false, acc := if wr then 2 else 1, strong := false, align := 256, ainfo := 2, typed := false }
        [⟨lowest e.act, a, len s e⟩] with
    | .trap t => .trap s { t with mask := e.act }
    | .hfault c => .hfault s c
    | .ok s _ _ _ => .wait s (park a.toNat)) s

/-- SAVEC: the area is written once the swarm under service has drained (R278). -/
def execSavec (h : Hdr) (m : MemOpd) (s : State) : Out :=
  areaOp h m true (fun s e => ((s.subject e.c e.n).map fun x => swarmLen x.win).getD 0) .savec s

/-- RSTC: the area is read when the transfer ends; its window says how long it is. -/
def execRstc (h : Hdr) (m : MemOpd) (s : State) : Out :=
  areaOp h m false (fun s e => swarmLen (32 * s.rdNat ((e.gaddr (lowest e.act) m).toNat + 4) 1)) .rstc s

/-- The swarm has drained for a save (R278). -/
def State.savable (s : State) (c : Nat) (x : Slot) : Bool :=
  x.drained && x.copies.isEmpty && x.posts == 0 &&
  (s.core c).tiles.all fun t => !(t.2.grid == x.grid && t.2.col == x.col) || (t.2.st != .filling && t.2.st != .draining)

/-- The members that take the MCHKs owed at the drain before a save (R222): those saved as ready, and those at an RCV. -/
def dueMembers (x : Slot) : List Member :=
  (x.members.filter fun m => (m.saveState 0).1 == 0) ++ x.members.filter Member.atRcv

/-- The MCHKs that a slot owes for its copies (R289) become one: one wait covers them all. -/
def joinDue (l : List MchkDue) : List MchkDue :=
  (l.filter fun d => !d.covers .copy 0) ++ (match l.filter fun d => d.covers .copy 0 with
    | [] => []
    | d :: r => [{ d with mask := r.foldl (fun m e => m ||| e.mask) d.mask }])

def lowestFid (x : Slot) : Nat := x.lanes.foldl (fun a e => min a e.2.fid) 0xFFFFFFFF

/-- The handler's member parks no more, and goes on behind its instruction. -/
def State.handlerGo (s : State) (c id : Nat) : State := s.onSlot c 64 fun x => x.onMem id fun m => m.wake s.now

/-- A SAVEC releases the last slot of a colony that a pre-emption stops, so the core record follows (R279). -/
def State.lastSave (s : State) (c : Nat) (x : Slot) (p : Pend) : Bool :=
  (p.mem.isNone || ((s.core c).handler.pending.any fun r => r.slot == p.slot && r.mem.isNone)) &&
  (s.core c).slots.all fun e => e.1 == p.slot || !(e.2.grid == x.grid && e.2.col == x.col)

/-- An uncorrectable word, of data or of a header, in a colony's scratchpad (R289). -/
def Core.badAlloc (k : Core) (g col : Nat) : Bool :=
  k.allocs.any fun a => a.grid == g && a.col == col && k.badSpad.any fun b =>
    (decide (a.off < 8 * b + 8) && decide (8 * b < a.off + a.size)) ||
    (decide (a.off ≤ 64 * (b - 2 ^ 17)) && decide (2 ^ 17 ≤ b) && decide (64 * (b - 2 ^ 17) < a.off + a.size))

/-- The save directory and the core record it gives are the handler's to reach (R302, log 98). -/
def State.recordOk (s : State) (c : Nat) (x : Slot) : Bool :=
  match s.dirAddr (s.queueOf x.grid) 2 c x.rank x.grid x.col with
  | some r => s.allowedRange mHandler r (((s.core c).allocs.filter fun a => a.grid == x.grid && a.col == x.col).foldl (fun n a => n + coreRecLen a.size) 0) .write
  | none => false

/-- SAVEC's transfer (R85, R279): the area is written, and the slot and its registers are released. With the
last slot of a colony that a pre-emption stops, the core record follows. An MCHK owed at this drain is raised (R222), and
one that no member takes stays owed (log 109), as that of a dropped store does (R301).
DESIGN CHOICE, log 121: with no swarm under service, or one saved before, it writes nothing. -/
def State.saveService (s : State) (c id a : Nat) : State :=
  let h := (s.core c).handler
  let pc := (h.slot.members.head?.map (·.src)).getD 0
  match h.service, s.subject c 64 with
  | some p, some x =>
    if !(s.savable c x) then s
    else if h.saved then s.handlerGo c id
    else if !x.badRegs.isEmpty || (s.lastSave c x p && (s.core c).badAlloc x.grid x.col) then s.handlerFault c 0x23 pc 0
    else if s.lastSave c x p && !s.recordOk c x then s.handlerFault c 0x22 pc 0
    else
      let dues := joinDue x.due
      let s := ((dueMembers x).zip dues).foldl (fun s d => s.raiseDue c p.slot d.1 d.2) (s.onSlot c p.slot fun x => { x with due := dues })
      let x := ((s.slot? c p.slot)).getD x
      let q := s.queueOf x.grid
      let last := s.lastSave c x p
      let s := s.saveSwarm a x
      let s := s.onCore c fun k => { k with
        slots := ldel k.slots p.slot
        engine := { k.engine with requests := k.engine.requests.filter (·.1 != p.slot) }
        handler := { k.handler with saved := true, subj := some x, pending := k.handler.pending.filter (·.slot != p.slot) } }
      let s := s.onColony x.grid x.col fun z =>
        { z with saved := z.saved ++ [(lowestFid x, x.form)], owes := z.owes ++ x.due.map fun d => (lowestFid x, d)
                 unsaid := z.unsaid ++ (x.lanes.filter (·.2.owed)).map (·.2.fid) }
      let s := if last then
          (match s.dirAddr q 2 c x.rank x.grid x.col with
          | some r => s.saveCoreRec c x.grid x.col r
          | none => s)
        else s
      (s.finishStop q).handlerGo c id
  | _, _ => s.handlerGo c id

/-- An uncorrectable word in a range of memory (R289). -/
def State.badRange (s : State) (a n : Nat) : Bool := s.badMem.any fun b => decide (a < 64 * b + 64) && decide (64 * b < a + n)

/-- Counts out the leading complete grids of a list of children (R68, R280). -/
def State.dropDone (s : State) : List Nat → List Nat
  | [] => []
  | g :: r => if ((s.grid? g).map fun x => x.st == .complete && x.gone).getD true then State.dropDone s r else g :: r

/-- What came about while a member was saved: the round of its barrier may have completed, its fault may have
been serviced; one whose record was never written faults again. -/
def State.overtaken (s : State) (x : Slot) (m : Member) : Member :=
  match m.st with
  | .fault n _ => if n = 0 ∨ (s.queue (s.queueOf x.grid)).served.contains n then { m with st := .ready } else m
  | .bar b =>
    let fids := (((s.colony? x.grid x.col).map fun z => (z.bar b).fids)).getD []
    if x.lanes.any fun e => m.mask.getLsbD e.1 && fids.contains e.2.fid then m else { m with st := .ready }
  | _ => m

/-- A handler fault of a restore (R276, R280), for a swarm or a colony of queue `q`, the handler stopped at `pc`. With no swarm
under service the queue that is resumed faults. -/
def State.restoreFault (s : State) (c q g k cause : Nat) (pc : Dword) : State :=
  let h := (s.core c).handler
  if h.service.isSome && h.owner.isSome then s.handlerFault c cause pc 0
  else (((s.stopHandler c cause pc 0).writeRecord q { kind := 4, core := c, gridid := g, colid := k, tcause := cause, pc := pc.toNat })).queueFault q 6 none

/-- The queue whose save directory gives an area (R299). -/
def State.areaQueue (s : State) (a : Nat) : Option Nat :=
  (s.queues.find? fun q => q.2.st == .running && s.dirLists q.2.sdir a dirMax).map (·.1)

/-- A handler fault of RSTC (R276): the queue resumed is that of the grid the area names, or where it names none the one
whose save directory gives the area (log 108). -/
def State.areaFault (s : State) (c a cause : Nat) (pc : Dword) (g : Option Grid) : State :=
  let col := s.rdNat (a + 0x18) 4
  match g with
  | some g => s.restoreFault c g.q g.id col cause pc
  | none => match s.areaQueue a with
    | some q => s.restoreFault c q 0 0xFFFFFFFF cause pc
    | none => s.handlerFault c cause pc 0

/-- RSTC's transfer (R85, R280, R281): the swarm stands in WAITING, once its colony is restored on the
core. A malformed area is a handler fault, of the queue that is resumed where no trap is under service (R276). -/
def State.restoreService (s : State) (c id a : Nat) : State :=
  let pc := ((s.core c).handler.slot.members.head?.map (·.src)).getD 0
  let win := 32 * s.rdNat (a + 4) 1
  let gid := s.rdNat (a + 0x1C) 4
  let col := s.rdNat (a + 0x18) 4
  match s.grids.find? fun g => g.id % 2 ^ 32 == gid && g.st == .running with
  | none => s.areaFault c a 0x21 pc none
  | some g =>
    if (s.core c).restoring.contains (g.id, col) then s
    else if s.badRange a (swarmLen win) then s.areaFault c a 0x23 pc (some g)
    else if s.rdNat a 4 ≠ 1 || win != g.launch.win || !s.reservedOk a swarmReserved ||
      !((s.core c).allocs.any fun z => z.grid == g.id && z.col == col && z.rank == s.rdNat (a + 0x20) 1)
    then s.areaFault c a 0x21 pc (some g)
    else
      let n := s.rdNat (a + 0x13) 1 % 64
      let ids := (List.range n).map fun i => s.rdNat (a + 0x100 + 4 * i) 4
      let kids := s.dropDone (ids.map fun i => ((s.grids.find? fun k => k.id % 2 ^ 32 == i).map (·.id)).getD (2 ^ 32))
      let x := s.loadSwarm a g.id kids
      let z : List (Nat × Nat) := ((s.colony? g.id col).map (·.saved)).getD []
      let owed : List (Nat × MchkDue) := ((s.colony? g.id col).map (·.owes)).getD []
      let due : List MchkDue := (owed.filter fun d => d.1 == lowestFid x).map fun d => d.2
      let unsaid : List Nat := ((s.colony? g.id col).map (·.unsaid)).getD []
      let x := { x with form := lget 0 z (lowestFid x), due := due, lanes := x.lanes.map fun (e : Nat × Fibre) => (e.1, { e.2 with owed := unsaid.contains e.2.fid }) }
      let x := { x with members := x.members.map (s.overtaken x) }
      let s := s.onColony g.id col fun (z : Colony) =>
        { z with saved := z.saved.filter (·.1 != lowestFid x), owes := z.owes.filter (fun d => d.1 != lowestFid x)
                 unsaid := z.unsaid.filter fun f => !(x.lanes.any fun e => e.2.fid == f) }
      (s.onCore c fun k => { k with waiting := k.waiting ++ [x] }).handlerGo c id

-- PARK_END

/-- A fibre of a member has a staged store (R255): it is not performed yet. -/
def State.hasStaged (s : State) (x : Slot) (m : Member) : Bool :=
  match s.grid? x.grid with
  | none => false
  | some g => g.staged.any fun t => t.col == x.col && x.lanes.any fun e => m.mask.getLsbD e.1 && t.fids.contains e.2.fid

/-- No load of a slot is outstanding. -/
def Slot.loaded (x : Slot) : Bool := x.late.all (!·.load)

/-- A member's park condition is looked at (R13): where it holds the member goes on, or takes the MCHK its
slot owes at that wait point. -/
def execParkEnd (core slot mem : Nat) (s : State) : Out :=
  match s.slot? core slot with
  | none => .next s
  | some x =>
    match x.mem? mem with
    | none => .next s
    | some m =>
      let set (f : Member → Member) : State := s.onSlot core slot fun x => x.onMem mem f
      let owed (l : List MchkDue) (go : State) : State := match l with
        | d :: _ => s.raiseDue core slot m d
        | [] => go
      let again (u : Option Nat) : State := set fun m => { m with st := .ready, since := s.now, y := false, usec := u }
      let longer : State := set fun m => { m with st := .ready, since := s.now, y := false, waited := m.waited + (s.now - m.last) }
      -- the fibres' earlier accesses are performed (R172): DEDUCED, log 110, a staged store at no scope before its ticket
      let performed : Bool := x.loaded && (slot == 64 || !s.hasStaged x m)
      let skip (m : Member) : Member := { m.wake s.now with pc := m.pc + BitVec.ofNat 64 m.len }
      match m.st with
      | .marker => .next (if x.drained then owed x.due (again none) else s)
      | .rcv => .next (if !x.rcvWaits m.fam && x.drained then owed x.due (set fun m => { skip m with st := .ready, y := false }) else s)
      | .waitc c n => .next (if x.counter c ≤ n then owed (x.due.filter (·.covers c n)) (set skip) else s)
      | .redo r =>
        .next (match r with
          | .counter c => if x.counter c < 63 then again m.usec else s
          | .tileEmpty t => if ((s.core core).tile? t).all (·.st == .empty) then longer else s
          | .tileReady t => if ((s.core core).tile? t).all (·.st == .ready) then longer else s
          | .staging =>
            let ticket := match s.grid? x.grid with | some g => g.ticket == x.col | none => true
            if ticket || decide (s.stagedBytes < s.staging) then again none else s
          | .bin => if (s.core core).bins.countP (fun b => decide (b.1 < 16)) < 16 then again none else s
          | .drained u => if x.drained then owed x.due (again (some u)) else s)
      | .fence => .next (if performed then set skip else s)
      | .fencr false cs => .next (if performed then (set fun m => { m with st := .fencr true cs }).askSerial cs else s)
      | .fencr true cs => .next (if cs.isEmpty then set skip else s)
      | .icinv | .tlbi => .next (set (·.wake s.now))
      | .ringFull _ a f b =>
        let q := s.queue (s.queueOf x.grid)
        .next (if q.full then s else s.faultMember core slot mem { mask := m.mask, addr := f, acc := a, malformed := b })
      | .savec a => .next (s.saveService core mem a)
      | .rstc a => .next (s.restoreService core mem a)
      | _ => .next s

-- the handler

/-- The handler starts with the next pending trap (R275). -/
def execHandlerStart (core : Nat) (s : State) : Out := .next (s.startHandler core)

/-- A firmware event (R85): an idle handler of a live core starts at its entry, with no trap under service. -/
def execFirmwareEvent (core : Nat) (s : State) : Out :=
  let h := (s.core core).handler
  .next (if s.isCore core && h.service.isNone && h.pending.isEmpty && h.slot.members.all (·.st == .waiti) then
      s.onCore core fun k => { k with handler := { h with slot := h.slot.single (BitVec.ofNat 64 (lget 0 s.handlerEntry core)) .ready s.now } }
    else s)

/-- The lowest offset at which `n` bytes fit beside allocations (R244; R280 leaves it open). -/
def freeOffset (al : List Alloc) (n : Nat) : Option Nat :=
  match (0 :: al.map fun a => a.off + a.size).filter fun o => decide (o + n ≤ 2 ^ 20) && al.all fun a => decide (o + n ≤ a.off) || decide (a.off + a.size ≤ o) with
  | [] => none
  | o :: r => some (r.foldl min o)

/-- A colony is restored on a core from its record, once its scratchpad and tiles are free there (R280). A fault stops the
handler wherever it is (R276). -/
def execColonyRestore (core grid col : Nat) (s : State) : Out :=
  let q := s.queueOf grid
  match s.colony? grid col with
  | none => .next s
  | some z =>
    if !((s.core core).restoring.contains (grid, col)) || (s.queue q).st != .running then .next s
    else
      let rank := z.cores.findIdx (· == core)
      let h := (s.core core).handler
      let pc : Dword := if h.slot.members.all (·.st == .waiti) then 0 else (h.slot.members.head?.map (·.pc)).getD 0
      let fault (cause : Nat) : State := s.restoreFault core q grid col cause pc
      match s.dirAddr q 2 core rank grid col with
      | none => .next (fault 0x21)
      | some a =>
        let size := s.rdNat (a + 0x10) 4
        let owned := (List.range 256).filter fun t => decide (128 ≤ s.rdNat (a + 0x200 + 16 * t) 1)
        if !s.allowedRange mHandler a (coreRecLen size) .read then .next (fault 0x22)
        else if s.badRange a (coreRecLen size) then .next (fault 0x23)
        else if s.rdNat a 4 ≠ 2 || s.rdNat (a + 4) 4 != col || s.rdNat (a + 8) 4 != grid % 2 ^ 32 || s.rdNat (a + 0xC) 1 != rank ||
            !s.reservedOk a coreReserved then .next (fault 0x21)
        else match freeOffset (s.core core).allocs size with
        | none => .next s
        | some off => .next (if owned.any fun t => ((s.core core).tile? t).isSome then s else s.loadCoreRec core grid col a off)

end Sys2Proof.Machine
end

