-- ==== Sys2Proof/Machine/Variant.lean ====
section
/-! DEFINITION. Variant tables (R225 to R232), the variant instructions (R69 to R75), metering (R233 to R235)
and tag updates (R236 to R238), with the events VARIANT_DISPATCH, VCALL_MERGE, VRET_FRAME_POP and TAG_UPDATE. -/

namespace Sys2Proof.Machine

/-- USEC (R79). -/
def State.usec (s : State) : Nat := s.now / Config.usecCycles % 2 ^ 32

-- the table (R226, R227)

/-- An entry of a snapshot. -/
structure VEntry where
  addr : Nat
  ttag : Nat
  etag : Nat
  qtag : Nat
  nsamp : Nat
  eflags : Nat
  stamp : Nat
  win : Nat
  zero : Bool
  deriving DecidableEq, Repr

def VEntry.en (v : VEntry) : Bool := v.eflags % 2 == 1
def VEntry.dfl (v : VEntry) : Bool := v.eflags / 2 % 2 == 1

/-- A snapshot: the header's fields and the entries. -/
structure VTable where
  format : Nat
  count : Nat
  policy : Nat
  defidx : Nat
  age : Nat
  mins : Nat
  zero : Bool
  entries : List VEntry
  deriving DecidableEq, Repr

def numAt (b : List Byte) (o n : Nat) : Nat := leNat ((b.drop o).take n)
def zeros (b : List Byte) (o n : Nat) : Bool := numAt b o n == 0

def readEntry (b : List Byte) : VEntry :=
  { addr := numAt b 0 8, ttag := numAt b 8 4, etag := numAt b 0xC 4, qtag := numAt b 0x10 2, nsamp := numAt b 0x12 1
    eflags := numAt b 0x13 1, stamp := numAt b 0x14 4, win := numAt b 0x18 1
    zero := zeros b 0x19 7 && numAt b 0x13 1 / 4 == 0 }

def readTable (b : List Byte) : VTable :=
  let n := numAt b 1 1
  { format := numAt b 0 1, count := n, policy := numAt b 2 1, defidx := numAt b 3 1, age := numAt b 4 4, mins := numAt b 8 1
    zero := numAt b 2 1 / 4 == 0 && zeros b 9 3 && numAt b 0xC 1 / 4 == 0 && zeros b 0x10 48
    entries := (List.range n).map fun i => readEntry ((b.drop (64 + 32 * i)).take 32) }

/-- The checks of R229 on the header alone, which say how long the table is. -/
def headerFault (t : VTable) : Option Nat :=
  if t.format ≠ 1 then some 0xFF01 else if t.count = 0 ∨ 16 < t.count then some 0xFF02 else none

/-- The TINFO of R229, by reason and then the header before the entries; none for a legal table. `w` is the
grid's W/32. -/
def tableFault (t : VTable) (w : Nat) : Option Nat :=
  let at_ (reason : Nat) (p : Nat → VEntry → Bool) : Option Nat :=
    (t.entries.zipIdx.find? fun e => p e.2 e.1).map fun e => e.2 * 256 + reason
  (headerFault t).orElse fun _ =>
  (if t.zero then none else some 0xFF03).orElse fun _ =>
  (at_ 3 fun _ e => !e.zero).orElse fun _ =>
  (if t.defidx = 0xFF ∨ t.defidx < t.count then none else some 0xFF04).orElse fun _ =>
  (at_ 4 fun i e => e.en && e.dfl != (i == t.defidx)).orElse fun _ =>
  (at_ 5 fun _ e => e.en && (decide (e.addr % 4 ≠ 0) || decide (2 ^ 52 ≤ e.addr))).orElse fun _ =>
  at_ 6 fun _ e => e.en && decide (w < e.win)

-- selection (R230, R231)

def VTable.stale (t : VTable) (now : Nat) (e : VEntry) : Bool :=
  decide (t.age < (now + 2 ^ 32 - e.stamp) % 2 ^ 32) || decide (e.nsamp < t.mins)

/-- `a` is chosen before `b` under a mode (R231); ties go to the lower index. -/
def VMode.better (m : VMode) (a b : VEntry) : Bool :=
  match m with
  | .tq => decide (a.etag < b.etag)
  | .eq => decide (a.ttag < b.ttag)
  | .te => decide (b.qtag < a.qtag)

def best (m : VMode) : List (Nat × VEntry) → Option Nat
  | [] => none
  | e :: r => some (r.foldl (fun b x => if VMode.better m x.2 b.2 then x else b) e).1

/-- SelectEntry (R231): index and tier (0 fresh, 1 probe, 2 default). -/
def VTable.select (t : VTable) (m : VMode) (now tl el ql : Nat) : Option (Nat × Nat) :=
  let fits := (t.entries.zipIdx.map fun e => (e.2, e.1)).filter fun e =>
    e.2.en && decide (e.2.ttag ≤ tl) && decide (e.2.etag ≤ el) && decide (ql ≤ e.2.qtag)
  match best m (fits.filter fun e => !t.stale now e.2) with
  | some i => some (i, 0)
  | none =>
    match (if t.policy % 2 = 1 then best m (fits.filter fun e => t.stale now e.2) else none) with
    | some i => some (i, 1)
    | none =>
      if t.policy / 2 % 2 = 1 ∧ t.defidx ≠ 0xFF ∧ ((t.entries[t.defidx]?).map (·.en)).getD false then some (t.defidx, 2) else none

-- frames (R69)

/-- The remaining budgets of the top frame. -/
def Fibre.budgets (f : Fibre) : Nat × Nat :=
  match f.frames with
  | [] => (f.baseT, f.baseE)
  | t :: _ => (t.vtb, t.veb)

/-- The clipped limits of a lane (R71): time, energy, quality. -/
def limits (e : Env) (l : Nat) (m : VMode) (l1 l2 : Src) : Nat × Nat × Nat :=
  let b := (e.x.fibre l).budgets
  let u (x : Src) : Nat := (e.pay l x).toNat
  match m with
  | .tq => (min (u l1) b.1, b.2, u l2 % 65536)
  | .eq => (b.1, min (u l1) b.2, u l2 % 65536)
  | .te => (min (u l1) b.1, min (u l2) b.2, 0)

def modeCode : VMode → Nat
  | .tq => 1 | .eq => 2 | .te => 3

/-- USEC as R230 takes it: at the instruction's issue, or latched for a deterministic grid. -/
def State.selUsec (s : State) (e : Env) : Nat :=
  match s.grid? e.x.grid with
  | some g => if g.det then g.usec else s.usec
  | none => s.usec

/-- What VCALL and VPEEK share: the park, the table's access and its checks (R71, R225, R228, R229). -/
def withTable (h : Hdr) (us : Uses) (tab : BitVec 9) (disp : Word) (l1 l2 : Src)
    (k : Env → State → Dword → VTable → Nat → Res) (s : State) : Out :=
  issue h 13 (us.and { parked := true, rv := useV 1 l1 ++ useV 1 l2, rs := [tab.toNat, tab.toNat + 1] ++ useS 1 l1 ++ useS 1 l2 }) .swarm false (fun e s =>
    let x := (s.slot? e.c e.n).getD e.x
    let now := e.m.usec.getD (s.selUsec e)
    if !(x.drained && x.due.isEmpty) then .redo s (.drained now)
    else
      let a := e.pair (lowest e.act) false (.s tab) + disp.signExtend 64
      let r : Req := { spad := false, acc := 1, strong := true, align := 64, ainfo := 2, typed := false }
      let vtab (i : Nat) : Tr := { cause := 14, mask := e.m.mask, addr := a, info := i }
      access e s r [⟨lowest e.act, a, 64⟩] true fun s ps =>
        match s.readFault (ps.map fun p => (p.1, a, p.2)) with
        | some (t, s) => .trap s { t with mask := e.act }
        | none =>
        let hd := s.load e.own (ps.flatMap (·.2))
        match headerFault (readTable hd) with
        | some i => .trap s (vtab i)
        | none =>
          access e s r [⟨lowest e.act, a, 64 + 32 * (readTable hd).count⟩] true fun s ps =>
            match s.readFault (ps.map fun p => (p.1, a, p.2)) with
            | some (t, s) => .trap s { t with mask := e.act }
            | none =>
              let t := readTable (s.load e.own (ps.flatMap (·.2)))
              match tableFault t (e.x.win / 32) with
              | some i => .trap s (vtab i)
              | none => k e s a t now) s

/-- VPEEK (R74). -/
def execVpeek (h : Hdr) (d : BitVec 8) (tab : BitVec 9) (disp : Word) (m : VMode) (l1 l2 : Src) (s : State) : Out :=
  withTable h { wv := [d.toNat] } tab disp l1 l2 (fun e s _ t now =>
    .go (s.onSlot e.c e.n fun x => x.writeAll false e.act fun l =>
      let b := limits e l m l1 l2
      out1 (d.setWidth 9) (match t.select m now b.1 b.2.1 b.2.2 with
        | some r => BitVec.ofNat 32 (r.1 + 16 * r.2)
        | none => 0x80000000#32)) 1) s

/-- Pushes a frame in a lane. -/
def Slot.push (x : Slot) (l : Nat) (f : Frame) : Slot := x.onFibre l fun b => { b with frames := f :: b.frames }

/-- VCALL (R71). A member that finds no entry in any lane stands for the VSEL group of a family of its own, so that
the family around it waits (R29); its replay forms no second one. -/
def execVcall (h : Hdr) (tab : BitVec 9) (disp : Word) (m : VMode) (l1 l2 : Src) (s : State) : Out :=
  withTable h {} tab disp l1 l2 (fun e s a t now =>
    let ls := lanesOf e.act
    let deep := ls.filter fun l => decide (16 ≤ (e.x.fibre l).frames.length)
    if deep ≠ [] then .trap s { cause := 20, mask := maskOf deep, info := 1 }
    else
      let sel := ls.map fun l => (l, limits e l m l1 l2)
      let pick := sel.map fun p => (p.1, p.2, t.select m now p.2.1 p.2.2.1 p.2.2.2)
      let none_ := maskOf ((pick.filter (·.2.2.isNone)).map (·.1))
      let en := (t.entries.zipIdx.map fun v => if v.1.en then 2 ^ v.2 else 0).sum
      let info := en + 65536 * modeCode m
      let all := none_ == e.m.mask
      let s := if all then s else s.charge e.c e.n e.m 13 1 false
      let ret := e.m.pc + 16
      let used := (List.range 16).filter fun i => pick.any fun p => (p.2.2.map (·.1)) == some i
      let s := s.onSlot e.c e.n fun x =>
        let base := x.nextId
        let x := pick.foldl (fun x p => match p.2.2 with
          | none => x
          | some r =>
            let v := t.entries.getD r.1 ⟨0, 0, 0, 0, 0, 0, 0, 0, true⟩
            x.push p.1 { vtb := p.2.1.1, veb := p.2.1.2.1, vql := p.2.1.2.2, entry := r.1, tier := r.2, table := a, ret := ret
                         tchg := v.ttag, echg := v.etag, report := none, x := base + used.findIdx (· == r.1) }) x
        { x with
          nextId := base + used.length
          xs := x.xs ++ used.zipIdx.map fun i => { id := base + i.2, entry := i.1, table := a, start := none, before := 0, energy := 0, share := 0 } }
      let level := (e.x.fibre ((ls.find? fun l => !none_.getLsbD l).getD (lowest e.act))).frames.length + 1
      let m' : Member := { e.m with last := s.now, since := s.now, src := e.m.pc, len := 16, y := false, usec := none }
      let fall := e.m.mask &&& ~~~e.act
      let parts : List (Mask × Dword × Park × Option Nat) :=
        (used.map fun i => (maskOf ((pick.filter fun p => (p.2.2.map (·.1)) == some i).map (·.1)),
          BitVec.ofNat 64 ((t.entries.getD i ⟨0, 0, 0, 0, 0, 0, 0, 0, true⟩).addr), Park.undispatched i, some i)) ++
        (if fall = 0 then [] else [(fall, ret, Park.merge, none)]) ++
        (if none_ = 0 then [] else [(none_, e.m.pc, Park.ready, none)])
      let id := ((s.slot? e.c e.n).map (·.nextId)).getD 0 + parts.length
      if all && (match e.x.fam? e.m.fam with | some f => f.kind == .vcall level ret | none => false) then
        .trap s { cause := 13, mask := none_, addr := a, info := info }
      else
      let s := s.onSlot e.c e.n fun x => x.split m' (.vcall level ret) parts
      .moved (if none_ = 0 then s
        else (if all then s else s.onCore e.c (·.endLease e.n s.seq)).raiseTrap e.c e.n id
          { cause := 13, pc := e.m.pc, mask := none_, addr := a, info := BitVec.ofNat 32 info })) s

/-- VRET (R72): the fibres park until those of their X_e have all come. -/
def execVret (h : Hdr) (s : State) : Out :=
  issue h 13 {} .swarm true (fun e s =>
    let out := e.m.mask &&& ~~~e.act
    let base := (lanesOf e.act).filter fun l => (e.x.fibre l).frames.isEmpty
    if out ≠ 0 then .trap s { cause := 4, mask := out }
    else if base ≠ [] then .trap s { cause := 20, mask := maskOf base, info := 2 }
    else
      let x := ((e.x.fibre (lowest e.act)).frames.head?.map (·.x)).getD 0
      .hold (s.onSlot e.c e.n fun y => { y with xs := y.xs.map fun r => if r.id = x then { r with vret := s.seq } else r }) (.vret x)) s

/-- VQUAL (R73). -/
def execVqual (h : Hdr) (q : Src) (s : State) : Out :=
  issue h 13 { rv := useV 1 q, rs := useS 1 q } .swarm false (fun e s =>
    .go (s.onSlot e.c e.n fun x => (lanesOf e.act).foldl (fun x l => x.onFibre l fun f =>
      match f.frames with
      | [] => f
      | t :: r => { f with frames := { t with report := some (min (e.pay l q).toNat 0xFFFF) } :: r }) x) 1) s

/-- VBUD (R75). -/
def execVbud (h : Hdr) (energy : Bool) (b : Src) (s : State) : Out :=
  issue h 13 { rv := useV 1 b, rs := useS 1 b } .swarm false (fun e s =>
    .go (s.onSlot e.c e.n fun x => (lanesOf e.act).foldl (fun x l => x.onFibre l fun f =>
      let v := (e.pay l b).toNat
      match f.frames with
      | [] => if energy then { f with baseE := min f.baseE v } else { f with baseT := min f.baseT v }
      | t :: r => { f with frames := (if energy then { t with veb := min t.veb v } else { t with vtb := min t.vtb v }) :: r }) x) 1) s

-- dispatch and merge (R71)

/-- The sub-swarms of entries below `e` of a VCALL family have ended their frames, ended or parked at
colony barriers. -/
def Slot.lowerDone (x : Slot) (f e : Nat) : Bool :=
  let low (a : Option Nat) : Bool := match a with | some i => decide (i < e) | none => false
  ((x.members.filter fun m => m.fam == f && low m.ent).all fun m => m.atMerge || m.atBar || m.mask == 0) &&
  ((x.nested f).filter fun g => low g.ent).all fun g => (x.under g.id).all Member.atBar

/-- X_e starts at its entry's address (R69, R71). -/
def execVariantDispatch (core slot mem : Nat) (s : State) : Out :=
  match s.slot? core slot with
  | none => .next s
  | some x =>
    match x.mem? mem with
    | none => .next s
    | some m =>
      match m.st with
      | .undispatched e =>
        let xid := ((x.fibre (lowest m.mask)).frames.head?.map (·.x)).getD 0
        .next (if x.lowerDone m.fam e then
            s.setSlot core slot { x.onMem mem fun m => { m with st := .ready, since := s.now } with
              xs := x.xs.map fun r => if r.id = xid then { r with start := some s.now } else r }
          else s)
      | _ => .next s

/-- A VCALL family that has not merged. -/
def FamKind.unmerged : FamKind → Bool
  | .vcall _ _ => true
  | _ => false

/-- A member that has come to the return point of the unmerged VCALL family it belongs to parks for the
merge (R71). -/
def Slot.parkMerge (x : Slot) (id : Nat) : Slot :=
  match x.mem? id with
  | none => x
  | some m =>
    match ((x.fam? m.fam).map (·.kind)).getD .branch with
    | .vcall l r =>
      if m.st = .ready ∧ m.pc = r ∧ (x.fibre (lowest m.mask)).frames.length + 1 = l then x.onMem id fun m => { m with st := .merge } else x
    | _ => x

/-- A VCALL family merges at its return point (R71, R30, R31). -/
def execVcallMerge (core slot fam : Nat) (s : State) : Out :=
  match s.slot? core slot with
  | none => .next s
  | some x =>
    match x.fam? fam with
    | none => .next s
    | some f =>
      match f.kind with
      | .vcall _ _ =>
        let ms := x.members.filter (·.fam == fam)
        if x.drained && x.nestedSettled fam && ms.any Member.atMerge && (ms.all fun m => m.atMerge || m.atBar || m.isTrap || m.mask == 0) then
          let id := x.nextId
          let one := (ms.filter Member.atMerge).length == 1
          let id := if one then ((ms.find? Member.atMerge).map (·.id)).getD 0 else id
          let y := (x.mergeBy (s.detSlot slot x) s.ctr s.now fam Member.atMerge f.ent (fun p => p)).onFam fam fun g => { g with kind := .merged }
          .next (s.setSlot core slot (y.tidy.parkMerge id))
        else .next s
      | _ => .next s

-- VRET_FRAME_POP (R72, R233 to R235)

/-- The time and energy of a sub-swarm, saturated (R233, R234). -/
def XRec.meter (r : XRec) (now : Nat) : Nat × Nat :=
  (min (r.before + (match r.start with | some t => now - t | none => 0)) 0xFFFFFFFF, min (r.energy / 16 + r.share) 0xFFFFFFFF)

/-- The family that members belong to as one, once they are joined, and the entry they are there. -/
def Slot.lift (x : Slot) (ids : List Nat) : Nat → Nat → Option Nat → Nat × Option Nat
  | 0, f, e => (f, e)
  | n + 1, f, e =>
    match x.fam? f with
    | none => (f, e)
    | some g =>
      match g.kind with
      | .vcall _ _ => (f, e)
      | _ => if (x.under f).all fun m => ids.contains m.id then x.lift ids n g.outer g.ent else (f, e)

/-- Joins members where they stand; their lanes do not move. A switch marker still to come parks them, where no merge
does (R23). -/
def Slot.join (x : Slot) (ms : List Member) (pc : Dword) (now : Nat) : Slot :=
  match ms with
  | [] => x
  | m :: _ =>
    let ids := ms.map (·.id)
    let at_ := x.lift ids x.fams.length m.fam m.ent
    let merge := match x.fam? at_.1 with | some g => g.kind.unmerged | none => false
    { x with
      members := x.members.filter (fun m => !ids.contains m.id) ++
        [{ m with id := x.nextId, mask := ms.foldl (fun a m => a ||| m.mask) 0, pc := pc, st := if merge then .merge else if ms.any (·.y) then .marker else .ready, fam := at_.1, ent := at_.2
                  since := now, y := false }]
      nextId := x.nextId + 1 }

-- tag updates (R236 to R238)

/-- A 16-byte piece or less of the requesting queue's space, as an update reaches it: a physical address
that it may read and write, or none. -/
def State.tagAddr (s : State) (q va : Nat) : Option Nat :=
  match s.translateDev q va .write with
  | .ok p => if p.uo then none else some p.pa
  | _ => none

/-- The record of KIND 5 of a discarded update (R236, R298). -/
def State.tagRecord (s : State) (r : TagReq) : State :=
  s.writeRecord r.q { kind := 5, acc := 2, gridid := r.grid, addr := r.table.toNat }

/-- A tag moves by an eighth of the difference, rounded down (R236). -/
def moveTag (old new : Nat) : Nat := ((old : Int) + ((new : Int) - old) / 8).toNat

/-- Applies an update (R236); nothing above the table's COUNT, and nothing where it cannot be reached,
which is judged first (DESIGN CHOICE, log 129). -/
def State.applyUpdate (s : State) (r : TagReq) : State :=
  let a := r.table.toNat
  match s.tagAddr r.q a, s.tagAddr r.q (a + 64 + 32 * r.entry) with
  | some h, some p =>
    if s.rdNat (h + 1) 1 ≤ r.entry then s
    else
      let n := s.rdNat (p + 0x12) 1
      let tag (o w new : Nat) : Nat := if n = 0 then new else moveTag (s.rdNat (p + o) w) new
      let old := s.rdBytes p 32
      let q := match r.qual with | some v => tag 0x10 2 v | none => s.rdNat (p + 0x10) 2
      let new := (old.take 8) ++ natLe 4 (tag 8 4 r.t) ++ natLe 4 (tag 0xC 4 r.en) ++ natLe 2 q ++ natLe 1 (min (n + 1) 255) ++
        (old.drop 0x13).take 1 ++ natLe 4 s.usec ++ old.drop 0x18
      let s := (s.devWrite r.q (a + 64 + 32 * r.entry)).physBytes p new
      let u := s.rdNat (h + 0xC) 4
      (s.devWrite r.q a).physBytes (h + 0xC) (natLe 4 (u % 256 + (u / 256 + 1) % 2 ^ 24 * 256))
  | _, _ => s.tagRecord r

/-- FRZ of an update's table. -/
def State.frozenTable (s : State) (r : TagReq) : Bool :=
  match s.tagAddr r.q r.table.toNat with
  | some h => s.rdNat (h + 0xC) 1 % 2 == 1
  | none => false

/-- An update of a frozen table joins the queue of frozen ones, or is discarded with LOST set when that is full (R238). What it
has asked of its queue's budget is withdrawn. -/
def State.freezeUpdate (s : State) (r : TagReq) : State :=
  let s := if r.toll.ask.isSome then s.onQueue r.q fun x => { x with asks := x.asks.filter fun a => r.toll.ask != some a } else s
  if s.frozen.length < Config.frozenUpdates then
    { s with frozen := s.frozen ++ [{ r with toll := {}, home := s.tagAddr r.q r.table.toNat }] }
  else match s.tagAddr r.q r.table.toNat with
    | some h => (s.devWrite r.q r.table.toNat).physBytes (h + 0xC) (natLe 1 (s.rdNat (h + 0xC) 1 ||| 2))
    | none => s

/-- An update of a completed grid is applied, or joins the frozen ones (R237). -/
def State.requestUpdate (s : State) (r : TagReq) : State := if s.frozenTable r then s.freezeUpdate r else s.applyUpdate r

/-- VRET requests an update (R236): it awaits the update engine, or joins the frozen ones at once (R238). -/
def State.queueUpdate (s : State) (r : TagReq) : State := if s.frozenTable r then s.freezeUpdate r else { s with updates := s.updates ++ [r] }

/-- The vault traffic of an update (R249): the entry and the UPD word, each read and written. -/
def State.tagCost (s : State) (r : TagReq) : List (Nat × Nat) :=
  match s.tagAddr r.q r.table.toNat with
  | some h => [(0, if (Loc.phys h).inVault then 72 else 0)]
  | none => []

/-- An update asks its queue's budget when it is to be applied (R249). -/
def State.payUpdate (s : State) (r : TagReq) : State × Toll × Bool :=
  let paid := (s.queue r.q).grant r.toll (s.tagCost r)
  (s.setQueue r.q paid.1, paid.2.1, paid.2.2)

/-- The update engine takes a requested update (R236), within its queue's budget (R249). Those that a thaw has left waiting keep
the order of their requests, and those of a frozen table join its queue in that order (R238). -/
def execTagUpdate (k : Nat) (s : State) : Out :=
  match s.updates[k]? with
  | none => .next s
  | some r =>
    let here := s.tagAddr r.q r.table.toNat
    if (s.frozenTable r || r.home.isSome) && (s.updates.take k).any fun p => s.tagAddr p.q p.table.toNat == here || (p.home.isSome && p.home == r.home) then
      .next s
    else if s.frozenTable r then .next (State.freezeUpdate { s with updates := s.updates.eraseIdx k } r)
    else
      let paid := s.payUpdate r
      let t := paid.1
      .next (if paid.2.2 then State.applyUpdate { t with updates := t.updates.eraseIdx k } r
        else { t with updates := t.updates.set k { r with toll := paid.2.1 } })

/-- The frozen updates of a table are applied in the order of their requests when it is thawed (R238). From the first that its
queue's budget makes wait they await the update engine, before every other (R249). -/
def State.thawUpdates : List TagReq → State → State
  | [], s => s
  | r :: l, s =>
    let paid := s.payUpdate r
    if paid.2.2 then State.thawUpdates l (paid.1.applyUpdate r)
    else { paid.1 with updates := { r with toll := paid.2.1 } :: l ++ paid.1.updates }

/-- Pops the frame of a lane and charges the frame below (R72). -/
def Fibre.pop (f : Fibre) (det : Bool) (t en : Nat) : Fibre :=
  match f.frames with
  | [] => f
  | [_] => { f with frames := [] }
  | a :: b :: r =>
    { f with frames := { b with vtb := b.vtb - (if det then a.tchg else t), veb := b.veb - (if det then a.echg else en) } :: r }

/-- Every fibre dispatched in X_e has executed VRET or ended: it is metered, its tag update is requested, and
its frames are popped (R72). -/
def execVretFramePop (core slot x : Nat) (s : State) : Out :=
  match s.slot? core slot with
  | none => .next s
  | some y =>
    let ms := y.members.filter (·.st == .vret x)
    let mask := ms.foldl (fun a m => a ||| m.mask) 0
    let mine := y.lanes.filter fun e => e.2.frames.any (·.x == x)
    match y.xs.find? (·.id == x), (mine.head?).bind (·.2.frames.head?) with
    | some r, some top =>
      if mine.all fun e => mask.getLsbD e.1 then
        let det := s.detSlot slot y
        let (t, en) := r.meter s.now
        let reps := mine.filterMap fun e => e.2.frames.head?.bind (·.report)
        let qual := match reps with | [] => none | a :: l => some (l.foldl min a)
        let req : TagReq := { q := s.queueOf y.grid, grid := y.grid, col := y.col, form := y.form, seq := r.vret, table := r.table, entry := r.entry
                              t := t, en := en, qual := qual }
        let y := y.join ms top.ret s.now
        let y := (lanesOf mask).foldl (fun y l => y.onFibre l (·.pop det t en)) { y with xs := y.xs.filter (·.id != x) }
        let s := s.setSlot core slot y.tidy
        .next (if det then (s.onGrid y.grid fun g => { g with updates := g.updates ++ [req] }) else s.queueUpdate req)
      else .next s
    | _, _ => .next s

end Sys2Proof.Machine
end

