-- ==== Sys2Proof/Machine/Csr.lean ====
section
/-! DEFINITION. Status registers (R78 to R82), the trap registers (R274) and the monitor's (R323, R324). -/

namespace Sys2Proof.Machine

/-- Access of a status register (R79): readable by every swarm, and by whom it is written; `h` is the
handler's alone. -/
inductive CsrAcc | r | rw | rh | h
  deriving DecidableEq, Repr

/-- The assigned numbers with their access (R79, R274). -/
def csrAcc (n : Nat) : Option CsrAcc :=
  if n ≤ 0x00B then some .r
  else match n with
    | 0x010 | 0x011 => some .rw
    | 0x020 | 0x021 | 0x022 | 0x030 | 0x031 | 0x032 | 0x033 | 0x040 | 0x041 | 0x042 | 0x043 | 0x050 | 0x090 => some .r
    | 0x060 | 0x061 | 0x062 | 0x063 | 0x064 | 0x065 | 0x066 | 0x067 => some .h
    | 0x070 => some .rh
    | _ => if 0x071 ≤ n ∧ n ≤ 0x082 then some .r else none

/-- ENRG (R79, R234) of a colony. -/
def Colony.enrg (z : Colony) : Nat := z.energy / 16000
/-- REFC (R248). -/
def Colony.refc (z : Colony) : Nat := z.refresh / 1000

/-- VENT (R82). -/
def Fibre.vent (f : Fibre) : Word :=
  match f.frames with
  | [] => 0x80000000#32
  | t :: _ => BitVec.ofNat 32 (256 * f.frames.length + 16 * t.tier + t.entry)

/-- ENGCNT (R82). -/
def Slot.engcnt (x : Slot) : Word := BitVec.ofNat 32 (x.kids.length * 2 ^ 24 + x.posts * 2 ^ 16 + x.mtx.length * 256 + x.copies.length)

/-- The registers that describe the grid and colony of a swarm: in the handler slot those of the swarm under
service (R79). -/
def State.swarmReg (s : State) (x : Slot) (n : Nat) : Word :=
  let z := s.colony? x.grid x.col
  let g := s.grid? x.grid
  let arg : Dword := match g with | some g => g.launch.arg | none => 0
  match n with
  | 0x004 => BitVec.ofNat 32 x.col
  | 0x005 => BitVec.ofNat 32 ((z.map (·.live)).getD 0)
  | 0x006 => BitVec.ofNat 32 x.rank
  | 0x007 => BitVec.ofNat 32 ((z.map (·.cores.length)).getD 0)
  | 0x008 => BitVec.ofNat 32 x.grid
  | 0x009 => BitVec.ofNat 32 ((g.map (·.depth)).getD 0)
  | 0x00A => arg.extractLsb' 0 32
  | 0x00B => arg.extractLsb' 32 32
  | 0x030 => x.engcnt
  | 0x031 => BitVec.ofNat 32 ((z.map (·.enrg)).getD 0)
  | 0x032 => BitVec.ofNat 32 ((z.map (·.refc)).getD 0)
  | 0x033 => BitVec.ofNat 32 ((g.map (·.launch.heat)).getD 0 * 256 + (g.map (·.prio)).getD 0 * 16 + x.prio)
  | _ => BitVec.ofNat 32 ((g.map fun g => b2n g.det + 2 * b2n g.debug + 4 * b2n g.lease).getD 0)

/-- The registers that differ between lanes (R79). -/
def fibreReg (f : Fibre) (n : Nat) : Word :=
  match n with
  | 0x002 => BitVec.ofNat 32 f.fid
  | 0x040 => BitVec.ofNat 32 f.budgets.1
  | 0x041 => BitVec.ofNat 32 f.budgets.2
  | 0x042 => BitVec.ofNat 32 ((f.frames.head?.map (·.vql)).getD 0)
  | _ => f.vent

/-- A trap register (R274). -/
def Handler.trapReg (h : Handler) (n : Nat) : Word :=
  match n with
  | 0x060 => h.tcause
  | 0x061 => h.tpc
  | 0x062 => h.tmask
  | 0x063 => h.taddrlo
  | 0x064 => h.taddrhi
  | 0x065 => h.tinfo
  | 0x066 => h.tmaskhi
  | _ => h.tpchi

/-- A status register as a lane reads it. With no swarm under service the registers that describe its colony and grid are
open, a free value, and those of a lane read as where no fibre is (R79; DEDUCED, log 46). -/
def State.csr (s : State) (e : Env) (n l : Nat) : Word :=
  match n with
  | 0x000 => BitVec.ofNat 32 Config.width
  | 0x001 => BitVec.ofNat 32 l
  | 0x003 => BitVec.ofNat 32 e.n
  | 0x010 => e.x.fmode.setWidth 32
  | 0x011 => e.x.fflags.setWidth 32
  | 0x020 => BitVec.ofNat 32 s.now
  | 0x021 => e.x.cychi
  | 0x022 => BitVec.ofNat 32 s.usec
  | 0x070 => (s.core e.c).monSel
  | 0x071 => BitVec.ofNat 32 (s.core e.c).mon.min
  | 0x072 => BitVec.ofNat 32 e.x.latch.max
  | 0x090 => BitVec.ofNat 32 s.live.length
  | 0x002 | 0x040 | 0x041 | 0x042 | 0x043 =>
    (match s.subject e.c e.n with
    | some x => fibreReg (x.fibre l) n
    | none => fibreReg fibreReset n)
  | 0x060 | 0x061 | 0x062 | 0x063 | 0x064 | 0x065 | 0x066 | 0x067 => (s.core e.c).handler.trapReg n
  | _ =>
    if 0x073 ≤ n ∧ n ≤ 0x082 then BitVec.ofNat 32 (e.x.latch.bins.getD (n - 0x073) 0)
    else match s.subject e.c e.n with
    | some x => s.swarmReg x n
    | none => Config.freeWord s.ctr 6 n

/-- What a read latches: CYCHI with CYCLO (R79), MONMAX and the bins with MONMIN (R324). -/
def State.csrLatch (s : State) (e : Env) (n : Nat) : State :=
  if n = 0x020 then s.onSlot e.c e.n fun x => { x with cychi := BitVec.ofNat 32 (s.now / 2 ^ 32) }
  else if n = 0x071 then s.onSlot e.c e.n fun x => { x with latch := (s.core e.c).mon }
  else s

/-- Reads that are late (R78). -/
def csrLate (n : Nat) : Bool := n == 0x030 || n == 0x031 || n == 0x032

/-- CSRR (R78). DEDUCED, log 120: its traps need a lane with a true guard (R47). -/
def execCsrr (h : Hdr) (d : BitVec 9) (n : BitVec 12) (s : State) : Out :=
  let ds := [d.toNat]
  issue h 13 { wv := if h.sc then [] else ds, ws := if h.sc then ds else [], late := csrLate n.toNat } .anywhere false (fun e s =>
    match csrAcc n.toNat with
    | none => .trap s (ill e.m 0x0B)
    | some a =>
      if a = .h ∧ e.n ≠ 64 then .trap s { cause := 3, mask := e.m.mask }
      else
        let f (l : Nat) : Outs := out1 d (s.csr e n.toNat l)
        let r := s.csrLatch e n.toNat
        if csrLate n.toNat then .go (r.onSlot e.c e.n fun x => x.addLate (lateOf s h.sc e.act false f)) 1
        else .go (r.onSlot e.c e.n fun x => x.writeAll h.sc e.act f) 1) s

/-- A write of a trap register (R274). -/
def Handler.setTrapReg (h : Handler) (n : Nat) (w : Word) : Handler :=
  match n with
  | 0x060 => { h with tcause := w &&& 0xFF#32 }
  | 0x061 => { h with tpc := w }
  | 0x062 => { h with tmask := w }
  | 0x063 => { h with taddrlo := w }
  | 0x064 => { h with taddrhi := w }
  | 0x065 => { h with tinfo := w }
  | 0x066 => { h with tmaskhi := w }
  | _ => { h with tpchi := w &&& 0xFFFFF#32 }

/-- CSRW (R78). DEDUCED, log 120: its traps need a lane with a true guard (R47). -/
def execCsrw (h : Hdr) (a : Src) (n : BitVec 12) (s : State) : Out :=
  issue h 13 { rv := useV 1 a, rs := useS 1 a } .anywhere false (fun e s =>
    let w := e.pay (lowest e.act) a
    match csrAcc n.toNat with
    | none => .trap s (ill e.m 0x0B)
    | some acc =>
      if acc = .r ∨ (acc ≠ .rw ∧ e.n ≠ 64) then .trap s { cause := 3, mask := e.m.mask }
      else match n.toNat with
      | 0x010 =>
        if 4 < (w.extractLsb' 0 3).toNat then .trap s (ill e.m 0x0C)
        else .go (s.onSlot e.c e.n fun x => { x with fmode := w.extractLsb' 0 3 }) 1
      | 0x011 => .go (s.onSlot e.c e.n fun x => { x with fflags := w.extractLsb' 0 6 }) 1
      | 0x070 =>
        if 5 < (w.extractLsb' 0 3).toNat then .trap s (ill e.m 0x0C)
        else .go (s.onCore e.c fun k => { k with monSel := w &&& 0xF7#32, mon := monReset, monAt := some s.now }) 1
      | r => .go (s.onCore e.c fun k => { k with handler := k.handler.setTrapReg r w }) 1) s

end Sys2Proof.Machine
end

