-- ==== Sys2Proof/Machine/Grids.lean ====
section
/-! DEFINITION. Grids and colonies: launch records and LAUNCH (R66 to R68), residency (R11, R12), the end of
slots, colonies and grids (R13, R20, R21), the flush (R252 to R254) and the ticket (R255), with the events
SWARM_RESIDENCY, SLOT_RETIRE, GRID_COMPLETE, DONE_ADDITION and CHILD_COUNT_OUT. -/

namespace Sys2Proof.Machine

-- launch records

/-- A launch record from its 64 bytes; none when a field is illegal (R66). The alignment of DONE is judged when DN is set (DEDUCED, log 55). -/
def readLaunch (b : List Byte) : Option LaunchRec :=
  let f (o n : Nat) : Nat := numAt b o n
  let ok := f 0 8 % 4 == 0 && decide (f 0 8 < 2 ^ 52) && f 8 4 != 0 && decide (f 8 4 ≤ 0x00FFFFFF) && f 0xC 2 != 0 && decide (f 0xC 2 ≤ 16384) &&
    [1, 2, 4, 8].contains (f 0xE 1) && f 0xF 1 != 0 && decide (f 0xF 1 ≤ 8) && f 0x10 4 % 64 == 0 && decide (f 0x10 4 ≤ 0x100000) &&
    decide (f 0x14 1 ≤ 7) && decide (f 0x15 1 ≤ 1) && f 0x16 2 == 0 && (f 0x15 1 == 0 || f 0x20 8 % 8 == 0) && f 0x28 24 == 0
  if ok then
    some { entry := f 0 8, colonies := f 8 4, fibres := f 0xC 2, cores := f 0xE 1, win := 32 * f 0xF 1, spad := f 0x10 4, heat := f 0x14 1
           dn := f 0x15 1 == 1, arg := BitVec.ofNat 64 (f 0x18 8), done := f 0x20 8 }
  else none

/-- Queues a grid (R21, R68, R251). -/
def State.newGrid (s : State) (q depth : Nat) (parent : Option Nat) (det debug lease : Bool) (l : LaunchRec) : State :=
  { s with
    nextGrid := s.nextGrid + 1
    grids := s.grids ++ [{ id := s.nextGrid, q := q, depth := depth, parent := parent, launch := l, prio := (s.queue q).prio, det := det, debug := debug
                           lease := lease, st := .queued, usec := 0, nextCol := 0, ended := [], refusals := 0, forced := false
                           combs := [], bufs := [], staged := [], updates := [], gone := false, doneSeq := none }] }

/-- LAUNCH (R67, R68). DEDUCED, log 106: the traps of R68's listing come before the park for the 64th child. -/
def execLaunch (h : Hdr) (m : MemOpd) (arg : Option Src) (s : State) : Out :=
  let as := arg.toList
  issue h 13 ((memUses false m).and { rv := as.flatMap (useV 2), rs := as.flatMap (useS 2) }) .swarm false (fun e s =>
    let l := lowest e.act
    let rest := e.act &&& ~~~(bitSet l)
    let a := e.gaddr l m
    match s.grid? e.x.grid with
    | none => .go s 1
    | some g =>
      if rest ≠ 0 then .trap s { cause := 4, mask := rest }
      else if a.toNat % 64 ≠ 0 then .trap s { cause := 6, mask := e.act, addr := a, info := 2 }
      else if 9 ≤ g.depth then .trap s { cause := 15, mask := e.act }
      else if 63 ≤ e.x.kids.length then .redo s (.counter .child)
      else access e s { spad := false, acc := 1, strong := false, align := 64, ainfo := 2, typed := false } [⟨l, a, 64⟩] true fun s ps =>
        match s.readFault (ps.map fun p => (p.1, a, p.2)) with
        | some (t, s) => .trap s t
        | none =>
          match readLaunch (s.load e.own (ps.flatMap (·.2))) with
          | none => .trap s { ill e.m 0x0A with mask := e.act, addr := a }
          | some r =>
            let r := match arg with | some p => { r with arg := e.pair l false p } | none => r
            let id := s.nextGrid
            .go ((s.newGrid g.q (g.depth + 1) (some g.id) g.det g.debug g.lease r).onSlot e.c e.n fun x => { x with kids := x.kids ++ [id] }) 1) s

-- residency

/-- The window sizes of the resident swarms (R11). -/
def Core.windows (k : Core) : Nat := (k.slots.map fun e => e.2.win).sum

/-- The slice with the fewest resident swarms, the lowest on a tie (R12). -/
def Core.slice (k : Core) : Nat :=
  let n (i : Nat) : Nat := k.slots.countP (·.2.slice == i)
  (List.range 8).foldl (fun b i => if n i < n b then i else b) 0

/-- The traps of a restored swarm's members await their service again (R281 STATE 6). -/
def Slot.trapsOf (x : Slot) (n now : Nat) : List Pend :=
  x.members.filterMap fun m => match m.st with | .trap t => some { cyc := now, slot := n, mem := some m.id, tr := t } | _ => none

/-- The first waiting swarm of a core becomes resident when a slot and its registers are free (R11, R12, R32);
swarms of a queue that is not RUNNING, and of a colony still to be restored on the core, are passed over
(R279, R280). -/
def execSwarmResidency (core : Nat) (s : State) : Out :=
  let k := s.core core
  let ok (x : Slot) : Bool := (s.queue (s.queueOf x.grid)).st == .running && !(k.restoring.contains (x.grid, x.col))
  match k.waiting.findIdx? ok, (List.range 64).find? fun n => (lfind k.slots n).isNone with
  | some i, some n =>
    match k.waiting[i]? with
    | none => .next s
    | some x =>
      if k.windows + x.win ≤ Config.windowSum then
        let x := { x with slice := k.slice, members := x.members.map fun m => { m with since := s.now } }
        .next (s.onCore core fun k => { k with
          waiting := k.waiting.eraseIdx i
          slots := lput k.slots n x
          handler := { k.handler with pending := (x.trapsOf n s.now).foldl (fun l p => addPend p l) k.handler.pending } })
      else .next s
  | _, _ => .next s

-- the ticket (R255)

/-- Bytes at addresses as accesses: what lies one after another in a page is one. -/
def runsOf : List (Nat × Byte) → List (Nat × List Byte)
  | [] => []
  | (a, b) :: r => match runsOf r with
    | (d, l) :: t => if a + 1 = d ∧ d % 65536 ≠ 0 then (a, b :: l) :: t else (a, [b]) :: (d, l) :: t
    | [] => [(a, [b])]

/-- Performs staged stores of a grid in order, each as the accesses it is (R255). One that reaches a port that is down is dropped and counted, and its fibres owe
an MCHK (R301). -/
def State.performStaged (s : State) (g : Nat) (l : List Staged) : State :=
  l.foldl (fun s t =>
    let r := (runsOf t.cells).foldl (fun s c => s.physRaw c.1 c.2) s
    if t.cells.any fun c => (s.downPort c.1).isSome then
      (r.countDropped (t.cells.map (·.1))).onSwarms g t.col fun x =>
        { x with lanes := x.lanes.map fun e => if t.fids.contains e.2.fid then (e.1, { e.2 with owed := true }) else e }
    else r) s

/-- A colony of a grid has ended: the ticket passes, and what was staged by the colonies it passes to is
performed, in their order. -/
def State.passTicket (s : State) (g k : Nat) : State :=
  let s := s.onGrid g fun x => { x with ended := x.ended ++ [k] }
  match s.grid? g with
  | none => s
  | some x =>
    let t := x.ticket
    let cols := (List.range (t + 1)).filter fun c => x.staged.any (·.col == c)
    let s := s.performStaged g (cols.flatMap fun c => x.staged.filter (·.col == c))
    s.onGrid g fun x => { x with staged := x.staged.filter fun y => decide (t < y.col) }

-- the ends of slots and colonies

/-- All that a colony holds is gone (R20). -/
def State.colonyOver (s : State) (g k : Nat) : Bool :=
  (match s.colony? g k with | some z => z.live == 0 && z.saved.isEmpty | none => false) &&
  s.cores.all fun c =>
    (c.2.slots.all fun e => !(e.2.grid == g && e.2.col == k)) && (c.2.waiting.all fun x => !(x.grid == g && x.col == k)) &&
    c.2.bins.all fun b => !(b.2.grid == g && b.2.col == k)

/-- A colony ends (R20): its allocations and barriers are released, the ticket passes, and the grid may come
to wait for its children (R21). -/
def State.endColony (s : State) (g k : Nat) : State :=
  if s.colonyOver g k then
    let s : State := { s with
      colonies := s.colonies.filter fun z => !(z.grid == g && z.col == k)
      cores := s.cores.map fun c => (c.1, { c.2 with
        allocs := c.2.allocs.filter fun a => !(a.grid == g && a.col == k)
        restoring := c.2.restoring.filter (· != (g, k)) }) }
    (s.passTicket g k).onGrid g fun x => if x.ended.length = x.launch.colonies then { x with st := .children } else x
  else s

/-- A slot with no fibre is freed once COPY, MTX and POST read zero (R13); a lease of it ends (R220). DESIGN CHOICE, log 107:
not while the handler serves a trap of it. -/
def execSlotRetire (core slot : Nat) (s : State) : Out :=
  match lfind (s.core core).slots slot with
  | none => .next s
  | some x =>
    let h := (s.core core).handler
    let served := match h.service with | some p => p.slot == slot && !h.saved | none => false
    if x.lanes.isEmpty && x.copies.isEmpty && x.mtx.isEmpty && x.posts == 0 && !served then
      let q := s.queueOf x.grid
      let s := s.onCore core fun k =>
        let k := (k.endLease slot s.seq).dropRequest slot
        { k with slots := ldel k.slots slot, handler := { k.handler with pending := k.handler.pending.filter (·.slot != slot) } }
      .next ((s.endColony x.grid x.col).finishStop q)
    else .next s

-- completion (R21, R252 to R254, R237)

def insNat (n : Nat) : List Nat → List Nat
  | [] => [n]
  | a :: r => if n ≤ a then n :: a :: r else a :: insNat n r

/-- Flush of one comb word (R252). -/
def State.flushWord (s : State) (l : List Comb) (a : Nat) : State :=
  let mine := l.filter (·.addr == a)
  let rm := ((mine.head?).map (·.rm)).getD 0
  let mode := if mine.all (·.rm == rm) then Mode.of (BitVec.ofNat 3 rm) else .ne
  let old := BitVec.ofNat 32 (leNat ((List.range 4).map fun i => s.busByte (a + i)))
  let r := sum32 (pureImg old :: mine.map fun c => pureImg c.val) mode
  s.physBytes a (natLe 4 (pay r.1).toNat)

/-- The order of the buffers (R254): colony, formation order, lane, issue. -/
def BufOp.before (a b : BufOp) : Bool :=
  decide (a.col < b.col) || (a.col == b.col && (decide (a.form < b.form) || (a.form == b.form &&
    (decide (a.lane < b.lane) || (a.lane == b.lane && decide (a.seq ≤ b.seq))))))

def insBuf (x : BufOp) : List BufOp → List BufOp
  | [] => [x]
  | a :: r => if x.before a then x :: a :: r else a :: insBuf x r

/-- The order of a deterministic grid's tag updates (R237): colony, formation, table, entry, VRET. -/
def TagReq.before (a b : TagReq) : Bool :=
  decide (a.col < b.col) || (a.col == b.col && (decide (a.form < b.form) || (a.form == b.form &&
    (decide (a.table.toNat < b.table.toNat) || (a.table == b.table && (decide (a.entry < b.entry) || (a.entry == b.entry && decide (a.seq < b.seq))))))))

def insTag (x : TagReq) : List TagReq → List TagReq
  | [] => [x]
  | a :: r => if x.before a then x :: a :: r else a :: insTag x r

/-- The flush of a grid (R252 to R254): comb words in ascending address, then the buffers. -/
def State.flush (s : State) (g : Grid) : State :=
  let words := ((g.combs.map (·.addr)).eraseDups).foldl (fun l a => insNat a l) []
  let s := words.foldl (fun s a => s.flushWord g.combs a) s
  (g.bufs.foldl (fun l b => insBuf b l) []).foldl (fun s b =>
    (s.rmw b.op .ne b.w64 [⟨.phys b.addr, if b.w64 then 8 else 4, false, false, false, b.page⟩] b.val 0).2) s

/-- The vault traffic of a grid's completion (R249): each comb word and each buffered atomic is read and written,
then come its tag updates that are applied. -/
def State.flushCosts (s : State) (g : Grid) : List (Nat × Nat) :=
  let at_ (a n : Nat) : Nat × Nat := (0, if (Loc.phys a).inVault then n else 0)
  ((g.combs.map (·.addr)).eraseDups.map fun a => at_ a 8) ++ (g.bufs.map fun b => at_ b.addr (if b.w64 then 16 else 8)) ++ (g.updates.filter fun r => !s.frozenTable r).flatMap s.tagCost

/-- A grid whose colonies have ended and whose children are COMPLETE becomes COMPLETE, within its queue's budget
(R249): the flush first, then its queued tag updates (R21, R237, R253). -/
def execGridComplete (grid : Nat) (s : State) : Out :=
  match s.grid? grid with
  | none => .next s
  | some g =>
    let paid := (s.queue g.q).grant g.toll (s.flushCosts g)
    if (g.st = .children ∧ s.grids.all fun k => k.parent != some grid || k.st == .complete) = false then .next s
    else if !paid.2.2 then .next ((s.setQueue g.q paid.1).onGrid grid fun g => { g with toll := paid.2.1 })
    else
      let s := (s.setQueue g.q paid.1).flush g
      let s := (g.updates.foldl (fun l r => insTag r l) []).foldl State.requestUpdate s
      .next (s.onGrid grid fun g => { g with st := .complete, combs := [], bufs := [], staged := [], updates := [], gone := !g.launch.dn })

/-- An addition of 1 to a 64-bit counter of a queue's space on the device's own account (R68): performed, refused,
or without a translation. -/
inductive Added
  | done (s : State)
  | refused
  | missing (malformed : Bool)

def State.addOne (s : State) (q va : Nat) : Added :=
  match s.translateDev q va .write with
  | .ok p =>
    if p.uo || !s.allowedRange q p.pa 8 .write then .refused
    else
      let v := leNat ((List.range 8).map fun i => s.busByte (p.pa + i))
      .done ((s.devWrite q va).physBytes p.pa (natLe 8 ((v + 1) % 2 ^ 64)))
  | .denied _ => .refused
  | .invalid m => .missing m

/-- A grid's DONE addition (R68): where the counter has no translation it waits for the service of its fault
record; where it is refused, the queue faults and none is made. -/
def execDoneAddition (grid : Nat) (s : State) : Out :=
  match s.grid? grid with
  | none => .next s
  | some g =>
    if g.st = .complete ∧ g.gone = false ∧ g.doneSeq = none then
      match s.addOne g.q g.launch.done with
      | .done s => .next (s.onGrid grid fun g => { g with gone := true })
      | .refused => .next ((s.queueFault g.q 5 none g.launch.done).onGrid grid fun g => { g with gone := true })
      | .missing m =>
        if (s.queue g.q).fq ≠ 0 ∧ (s.queue g.q).full then .next s
        else
          let t := s.takeFault g.q
          let s := t.2.writeRecord g.q { kind := 1, acc := 2 + 128 * b2n m, seq := t.1, gridid := grid, tcause := 8, addr := g.launch.done }
          .next (s.onGrid grid fun g => { g with doneSeq := some t.1 })
    else .next s

/-- The oldest child of a slot is counted out once it is COMPLETE and its DONE addition is made (R65, R68). -/
def execChildCountOut (core slot : Nat) (s : State) : Out :=
  match s.slot? core slot with
  | none => .next s
  | some x => .next (match x.kids with
    | k :: r => if ((s.grid? k).map fun g => g.st == .complete && g.gone).getD true then s.setSlot core slot { x with kids := r } else s
    | [] => s)

end Sys2Proof.Machine
end

