-- ==== Sys2Proof/Machine/Place.lean ====
section
/-! DEFINITION. Placement (R240 to R247), refresh and its charge (R248, R258), stall sampling (R269), thermal
slow-down and notices (R270, R271), with the events PLACEMENT_DECISION, CONTROL_PERIOD_LATCH, PEER_NOTICE and
NOTICE_RELEASE. -/

namespace Sys2Proof.Machine

-- geometry (R243)

def absDiff (a b : Nat) : Nat := (a - b) + (b - a)

/-- The coupling K(v, c) of a physical core to a vault, by number within the package. -/
def PlaceParams.coupling (p : PlaceParams) (v c : Nat) : Nat :=
  if v / 64 ≠ c / 64 then 0
  else
    let r := absDiff (v % 64 / 8) (c % 64 / 8)
    let k := absDiff (v % 8) (c % 8)
    if r = 0 ∧ k = 0 then p.ks else if r + k = 1 then p.ke else if r = 1 ∧ k = 1 then p.kd else 0

/-- The vaults that a physical core couples to. -/
def stencil (c : Nat) : List Nat :=
  (List.range 64).filterMap fun i =>
    if absDiff (i / 8) (c % 64 / 8) ≤ 1 ∧ absDiff (i % 8) (c % 8) ≤ 1 then some (c / 64 * 64 + i) else none

-- bands (R246)

/-- The band of a temperature: 0 to 3 for ×1 to ×8, 4 for emergency. -/
def bandOf (t : Int) : Nat := if t < 680 then 0 else if t < 760 then 1 else if t < 840 then 2 else if t < 920 then 3 else 4

/-- The refresh multiplier of a band (R248: ×8 in emergency). -/
def multOf (b : Nat) : Nat := 2 ^ min b 3

/-- The remaining bandwidth of a band in percent. -/
def remaining (b : Nat) : Nat := 100 - 4 * multOf b

/-- The lower edge of a band. -/
def bandEdge (b : Nat) : Int := match b with | 0 => 0 | 1 => 680 | 2 => 760 | 3 => 840 | _ => 920

-- the placement list (R241)

/-- Grid `a` comes before grid `b` in a queue's list. -/
def Grid.before (a b : Grid) : Bool := decide (b.depth < a.depth) || (a.depth == b.depth && decide (a.id < b.id))

/-- The grid whose next colony heads a queue's placement list. -/
def State.placeHead (s : State) (q : Nat) : Option Grid :=
  match s.grids.filter fun g => g.q == q && (g.st == .queued || g.st == .running) && decide (g.nextCol < g.launch.colonies) with
  | [] => none
  | g :: r => some (r.foldl (fun b x => if x.before b then x else b) g)

/-- A queue is ready for the dispatcher (R240): the head of its list awaits placement, and no refusal holds the
queue until the next control period (R247). -/
def State.placeable (s : State) (q : Nat) : Bool := (s.placeHead q).isSome && decide ((s.queue q).heldTo ≤ s.thermal.period)

/-- The queue the dispatcher passes next: the highest priority, and round-robin after the last (R240). -/
def State.nextQueue (s : State) : Option Nat :=
  let order := ((List.range 64).map fun i => (s.lastQ + 1 + i) % 64).filter s.placeable
  match order with
  | [] => none
  | q :: r =>
    let p (q : Nat) : Nat := ((s.placeHead q).map (·.prio)).getD 0
    some (r.foldl (fun b x => if p b < p x then x else b) q)

-- candidates (R244)

/-- The groups of k logical cores in the order of R244. -/
def State.groups (s : State) (k : Nat) : List (List Nat) :=
  (s.place.rot.filter fun c => decide (c < s.live.length)).flatMap fun c =>
    (List.range (8 / k)).map fun i => List.range' (8 * c + k * i) k

/-- A group is eligible: scratchpad on every core, and no restore waiting there. -/
def State.eligible (s : State) (spad : Nat) (g : List Nat) : Bool :=
  g.all fun c => (freeOffset (s.core c).allocs spad).isSome && (s.core c).restoring.isEmpty

/-- The rises a colony of a temperature step `ht` puts into the vaults around a group (R245). -/
def State.rises (s : State) (ht : Nat) (g : List Nat) : List (Nat × Nat) :=
  let ps := g.map s.phys
  let vs := (ps.flatMap stencil).eraseDups
  (vs.map fun v => (v, (ps.map (PlaceParams.coupling s.place v)).sum)).filterMap fun e => if e.2 = 0 then none else some (e.1, e.2 * ht / 256)

/-- The thermal test (R245, R246, R247). -/
def State.accepts (s : State) (ht : Nat) (forced : Bool) (g : List Nat) : Bool :=
  (s.rises ht g).all fun e =>
    let v := s.vault e.1
    let b := bandOf (v.temp + v.rise + e.2)
    b != 4 && (forced || decide (s.place.floor ≤ remaining b))

def colonyBars : List Barrier := List.replicate 16 barrierReset

/-- Places a colony on a group (R18, R243 to R245, R8): its allocations, its initial swarms in WAITING, and its
rises in the prediction. -/
def State.placeOn (s : State) (g : Grid) (grp : List Nat) : State :=
  let k := g.nextCol
  let heat := if g.forced then g.launch.heat / 2 else g.launch.heat
  let s := grp.zipIdx.foldl (fun s c => s.onCore c.1 fun x =>
    { x with allocs := x.allocs ++ [{ grid := g.id, col := k, rank := c.2, off := (freeOffset x.allocs g.launch.spad).getD 0, size := g.launch.spad }] }) s
  let s := (s.rises (s.place.ht.getD heat 0) grp).foldl (fun s e =>
    let v := s.vault e.1
    { s with thermal := { s.thermal with vaults := lput s.thermal.vaults e.1 { v with rise := v.rise + e.2 } } }) s
  let s : State := { s with
    colonies := s.colonies ++ [{ grid := g.id, col := k, cores := grp, live := g.launch.fibres, nextFid := g.launch.fibres, bars := colonyBars, energy := 0
                                 refresh := 0, heat := heat, forced := g.forced, forms := 0, saved := [] }] }
  let s := s.onGrid g.id fun x => { x with
    nextCol := k + 1, refusals := 0, forced := false, st := .running, usec := if x.st = .queued then s.usec else x.usec }
  (chunks g.launch.fibres ((List.range g.launch.fibres).map fun i => (i, ([] : List Img)))).zipIdx.foldl
    (fun s w => s.formSwarm (grp.getD (w.2 % grp.length) 0) g.id k (BitVec.ofNat 64 g.launch.entry) w.1) s

/-- One decision of the placement engine (R240, R247). -/
def execPlacementDecision (s : State) : Out :=
  match s.nextQueue with
  | none => .next s
  | some q =>
    match s.placeHead q with
    | none => .next s
    | some g =>
      let s := { s with lastQ := q }
      let heat := if g.forced then g.launch.heat / 2 else g.launch.heat
      match (s.groups g.launch.cores).find? fun grp => s.eligible g.launch.spad grp && s.accepts (s.place.ht.getD heat 0) g.forced grp with
      | some grp => .next (s.placeOn g grp)
      | none => .next ((s.onGrid g.id fun x => { x with refusals := x.refusals + 1, forced := x.forced || decide (64 ≤ x.refusals + 1) }).onQueue q
          fun x => { x with heldTo := s.thermal.period + 1 })

-- refresh charge (R248, R234)

/-- The physical cores on which a colony is resident. -/
def State.residentOn (s : State) (z : Colony) : List Nat :=
  (z.cores.filter fun c => (s.core c).allocs.any fun a => a.grid == z.grid && a.col == z.col).map s.phys

/-- P_x(v) of R248. -/
def State.contribution (s : State) (z : Colony) (v : Nat) : Nat :=
  ((s.residentOn z).map (PlaceParams.coupling s.place v)).sum * s.place.ht.getD z.heat 0

/-- A colony's charge for the period, in pJ. -/
def State.periodCharge (s : State) (z : Colony) : Nat :=
  ((s.thermal.vaults.filter fun v => decide (1 < multOf v.2.band)).map fun v =>
    let p := s.contribution z v.1
    let all := (s.colonies.map fun y => s.contribution y v.1).sum
    if p = 0 then 0 else (multOf v.2.band - 1) * s.place.rw * p / all).sum

/-- Divides a colony's charge among its resident slots, the remainder to the lowest SWID (R234), of the lowest core
where two have it (DESIGN CHOICE, log 128). -/
def State.shareCharge (s : State) (g k e : Nat) : State :=
  let own := s.cores.flatMap fun c => (c.2.slots.filter fun n => n.2.grid == g && n.2.col == k).map fun n => (n.1, c.1)
  match own with
  | [] => s
  | o :: r =>
    let low := r.foldl (fun b x => if x.1 < b.1 then x else b) o
    own.foldl (fun s n =>
      let mine := e / own.length + (if n = low then e % own.length else 0)
      s.onSlot n.2 n.1 fun x => { x with xs := x.xs.map fun y => if y.start.isSome then { y with share := y.share + mine } else y }) s

/-- REFRESH_CHARGE (R248). -/
def State.chargeRefresh (s : State) : State :=
  (s.colonies.map fun z => (z.grid, z.col, s.periodCharge z)).foldl (fun s c =>
    (s.onColony c.1 c.2.1 fun z => { z with refresh := z.refresh + c.2.2, energy := z.energy + 16 * c.2.2 }).shareCharge c.1 c.2.1 c.2.2) s

-- STALL (R269)

/-- A slice's STALL word for the period that ends, and its counts back to zero. -/
def SliceClk.latch (x : SliceClk) (cap : Nat) : SliceClk :=
  let fr (n : Nat) : Nat := if x.edges = 0 then 0 else min (256 * n / x.edges) 255
  { x with
    stall := BitVec.ofNat 32 (fr x.memStall * 2 ^ 24 + fr x.issued * 2 ^ 16 + x.ratio * 256 + b2n (decide (cap < x.want)))
    edges := 0, issued := 0, memStall := 0 }

/-- The end of a period on a core: STALL, and the monitor's samples of multiplier, droop and replays (R323). -/
def State.corePeriod (s : State) (c droop : Nat) : State :=
  let m := multOf (s.vault (s.phys c)).band
  s.onCore c fun k =>
    let k := ((k.sample s.now 3 m).sample s.now 4 droop).sample s.now 5 k.engine.replays
    { k with
      power := k.power.mapSlices fun _ x => x.latch (s.cap c)
      engine := { k.engine with replays := 0 } }

-- the latch (R258, R270, R271)

/-- A vault at a latch (R258): the band with its hysteresis. -/
def Vault.latch (v : Vault) (t : Int) : Vault :=
  let b := bandOf t
  { temp := t, rise := 0, band := if v.band ≤ b then b else if t ≤ bandEdge v.band - 16 then b else v.band }

def setBit (w : BitVec 16) (i : Nat) (b : Bool) : BitVec 16 := if b then w ||| (1#16 <<< i) else w &&& ~~~(1#16 <<< i)

/-- The ports of the group that are up. -/
def Thermal.groupPorts (t : Thermal) : List Nat := (List.range 16).filter fun p => t.group.getLsbD p && t.peerUp.getLsbD p

/-- The thermal state after a latch: stops, notices, own emergency and slow-down. -/
def Thermal.atLatch (t : Thermal) : Thermal :=
  let hot := t.vaults.any fun v => 920 ≤ v.2.temp
  let cool := t.vaults.all fun v => v.2.temp < 880
  let coolFor := if cool then t.coolFor + 1 else 0
  let held := t.inbox.foldl (fun h p => setBit h p true) t.held
  let stale := t.inbox.foldl (fun h p => setBit h p (!t.peerUp.getLsbD p)) t.stale
  let own := hot || (t.own && decide (coolFor < 10))
  let peers := held &&& t.group != 0
  { t with
    coolFor := coolFor, held := held, stale := stale, inbox := [], own := own
    slow := hot || peers || (t.slow && (decide (coolFor < 10) || held != 0))
    dieStop := (t.vaults.filter fun v => decide (1000 ≤ v.2.temp) || (t.dieStop.contains v.1 && decide (920 ≤ v.2.temp))).map (·.1)
    sent := if own = t.own then t.sent else t.sent ++ t.groupPorts.map fun p => (p, own) }

/-- The period in hand has lasted its 10 µs (R258). -/
def State.latchDue (s : State) : Bool := decide (Config.periodCycles * (s.thermal.period + 1) ≤ s.now)

/-- The boundary of a control period (R258): what is charged and counted for the period that ends, and then
the latch of temperatures, parameters, budgets and guard bands. -/
def State.latchPeriod (s : State) (temps : List (Nat × Int)) (droop : List (Nat × Nat)) (next : Option PlaceParams) : State :=
  let s := s.chargeRefresh
  let s := s.allCores.foldl (fun s c => s.corePeriod c (lget 0 droop c)) s
  let vs := temps.foldl (fun l e => if (lfind l e.1).isSome then l else lput l e.1 vaultReset) s.thermal.vaults
  let vs := vs.map fun v => (v.1, v.2.latch (lget v.2.temp temps v.1))
  let s : State := { s with
    thermal := Thermal.atLatch { s.thermal with period := s.thermal.period + 1, vaults := vs }
    place := next.getD s.place
    queues := s.queues.map fun q => (q.1, { q.2 with vbwUsed := 0, cbyUsed := 0 }) }
  s.cores.foldl (fun s c => s.applyAgeing c.1) s

/-- The latch comes every 10 µs, and not before. -/
def execControlPeriodLatch (temps : List (Nat × Int)) (droop : List (Nat × Nat)) (next : Option PlaceParams) (s : State) : Out :=
  .next (if s.latchDue then s.latchPeriod temps droop next else s)

/-- A notice on a port: a set one is applied at the next latch, and a clear one ends what is held from the port. -/
def Thermal.notice (t : Thermal) (port : Nat) (set : Bool) : Thermal :=
  if set then { t with inbox := t.inbox ++ [port] }
  else { t with held := setBit t.held port false, stale := setBit t.stale port false, inbox := t.inbox.filter (· != port) }

/-- A peer's notice arrives on a port that is up (R271). -/
def execPeerNotice (port : Nat) (set : Bool) (s : State) : Out :=
  .next (if s.thermal.peerUp.getLsbD port then { s with thermal := s.thermal.notice port set } else s)

/-- Firmware releases the notice of a port that has gone down while it was held, up again or not (R271), and one that was
received and not yet applied alike (DEDUCED, log 116). -/
def execNoticeRelease (port : Nat) (s : State) : Out :=
  let t := s.thermal
  .next (if !t.peerUp.getLsbD port || t.stale.getLsbD port then
      { s with thermal := { t with held := setBit t.held port false, stale := setBit t.stale port false } }
    else s)

end Sys2Proof.Machine
end

