-- ==== Sys2Proof/Machine/Packets.lean ====
section
/-! DEFINITION. The ring and its packets (R293 to R296, R300): one definition per packet event, with
PACKET_RETRY, FENCE_COUNTERS_PASS and COPY_PACKET_DONE. -/

namespace Sys2Proof.Machine

-- reading a packet (R294, R295)

/-- One byte of CRC-16 with polynomial 0x1021 (R295). -/
def crcByte (c : BitVec 16) (b : Byte) : BitVec 16 :=
  (List.range 8).foldl (fun c _ => if c.getLsbD 15 then (c <<< 1) ^^^ 0x1021#16 else c <<< 1) (c ^^^ (b ++ 0#8))

/-- CHECK of a packet: over all 64 bytes, with bytes 3..2 read as zero (R295). -/
def packetCheck (b : List Byte) : BitVec 16 := (b.take 2 ++ [0, 0] ++ b.drop 4).foldl crcByte 0xFFFF#16

def Queue.slotAddr (x : Queue) : Nat := x.ring + 64 * (x.head % 2 ^ x.logN)

/-- What the parser finds at the head of a ring: nothing to parse, a ring access refused (R297), a packet
that fails CHECK or SEQ, or a packet. -/
inductive Pkt
  | idle
  | refused
  | torn
  | ok (b : List Byte)

/-- The parser stands before a packet: it is neither holding one nor waiting for a service. -/
def Parse.free : Parse → Bool
  | .idle | .retry _ => true
  | _ => false

def State.busBytes (s : State) (a n : Nat) : List Byte := (List.range n).map fun i => s.busByte (a + i)

/-- What the parser finds before it, with the address a refusal concerns (R298). -/
def State.packet (s : State) (q : Nat) : Pkt :=
  let x := s.queue q
  if s.phase ≠ 5 ∨ x.st ≠ .running ∨ x.head = x.tail ∨ x.parse.free = false then .idle
  else if !s.allowedRange q x.slotAddr 64 .read then .refused
  else
    let b := s.busBytes x.slotAddr 64
    if (packetCheck b).toNat = numAt b 2 2 ∧ numAt b 4 4 = x.seq then .ok b else .torn

/-- HEAD passes the packet (R294). -/
def State.passPacket (s : State) (q : Nat) : State :=
  s.onQueue q fun x => { x with head := (x.head + 1) % (2 * 2 ^ x.logN), seq := (x.seq + 1) % 2 ^ 32, parse := .idle }

/-- The bytes outside the named ranges, byte 1 among them, are zero (R295, R296). -/
def unnamedZero (b : List Byte) (named : List (Nat × Nat)) : Bool :=
  b.zipIdx.all fun e => e.1 == 0 || ([(0, 1), (2, 6)] ++ named).any fun r => decide (r.1 ≤ e.2) && decide (e.2 < r.1 + r.2)

/-- A packet of one type at the head of a queue's ring: a nonzero reserved byte faults the queue (R297), and
else `k` acts on it. -/
def onPacket (q type : Nat) (named : List (Nat × Nat)) (k : List Byte → State → State) (s : State) : Out :=
  .next (match s.packet q with
    | .idle | .torn => s
    | .refused => s.queueFault q 5 none (s.queue q).slotAddr
    | .ok b =>
      if numAt b 0 1 ≠ type then s
      else if !unnamedZero b named then s.queueFault q 2 none
      else k b s)

/-- A packet that failed is read again; the 8th failure faults the queue (R295). -/
def execPacketRetry (q : Nat) (s : State) : Out :=
  .next (match s.packet q with
    | .torn =>
      let n := match (s.queue q).parse with | .retry n => n | _ => 0
      if n + 1 < 8 then s.onQueue q fun x => { x with parse := .retry (n + 1) } else s.queueFault q 1 none
    | .refused => s.queueFault q 5 none (s.queue q).slotAddr
    | _ => s)

-- operands (R296, R297)

/-- A range of virtual addresses by 64 KiB granules; none where it is empty. -/
def spans (va n : Nat) : List (Nat × Nat) :=
  (List.range (if n = 0 then 0 else (va % 65536 + n + 65535) / 65536)).map fun i =>
    let g := va / 65536 * 65536 + 65536 * i
    (max va g, min (va + n) (g + 65536) - max va g)

/-- A packet operand: its parts, a refusal, or an address without a translation. -/
inductive Opd
  | ok (ps : List Part)
  | refused (va : Nat)
  | missing (va : Nat) (malformed : Bool)

def State.operand (s : State) (q va n : Nat) (k : Acc) : Opd :=
  (spans va n).foldl (fun r p => match r with
    | .ok ps =>
      (match s.translateDev q p.1 k with
      | .ok g => if g.uo || !s.allowedRange q g.pa p.2 k then .refused p.1 else .ok (ps ++ [⟨.phys g.pa, p.2, g.typ, g.uo, g.so, (g.va, g.size)⟩])
      | .denied _ => .refused p.1
      | .invalid m => .missing p.1 m)
    | r => r) (.ok [])

/-- A page fault on a packet operand (R296, R298): the parser waits for the service of its record, or for
room in the ring. -/
def State.pktFault (s : State) (q acc va : Nat) (malformed : Bool) (p : Nat → Parse) : State :=
  if (s.queue q).fq ≠ 0 ∧ (s.queue q).full then s
  else
    let t := s.takeFault q
    (t.2.writeRecord q { kind := 1, acc := acc + 128 * b2n malformed, seq := t.1, tcause := 8, addr := va }).onQueue q
      fun x => { x with parse := p t.1 }

/-- Goes on with an operand; a refused one faults the queue with reason 5. -/
def State.withOpd (s : State) (q acc : Nat) (o : Opd) (k : List Part → State) : State :=
  match o with
  | .ok ps => k ps
  | .refused va => s.queueFault q 5 none va
  | .missing va m => s.pktFault q acc va m .fault

def partBytes (s : State) (ps : List Part) : List Byte := ps.flatMap fun p => match p.loc with | .phys a => s.busBytes a p.n | _ => []

/-- Every grid of a queue is COMPLETE. -/
def State.allComplete (s : State) (q : Nat) : Bool := s.grids.all fun g => g.q != q || g.st == .complete

/-- The writes of an operand count in WVER of tracked pages (R286). -/
def State.devWrites (s : State) (q va n : Nat) : State := (spans va n).foldl (fun s p => s.devWrite q p.1) s

-- the packets (R296)

/-- NOP; and a packet of unknown TYPE, which faults the queue (R297). -/
def execPktNop (q : Nat) (s : State) : Out :=
  match s.packet q with
  | .ok b => .next (if 6 < numAt b 0 1 ∨ (numAt b 0 1 = 0 ∧ unnamedZero b [] = false) then s.queueFault q 2 none
      else if numAt b 0 1 = 0 then s.passPacket q else s)
  | .refused => .next (s.queueFault q 5 none (s.queue q).slotAddr)
  | _ => .next s

/-- LAUNCH (R66, R68): a grid at DEPTH 0 with the queue's mode bits. -/
def execPktLaunch (q : Nat) (s : State) : Out :=
  onPacket q 1 [(8, 40)] (fun b s =>
    match readLaunch ((b.drop 8).take 40 ++ List.replicate 24 0) with
    | none => s.queueFault q 3 none
    | some r =>
      let x := s.queue q
      (s.newGrid q 0 none x.det x.debug x.lease r).passPacket q) s

/-- FENCE: its list is read once, and the parser holds its counters. -/
def execPktFence (q : Nat) (s : State) : Out :=
  onPacket q 2 [(8, 9)] (fun b s =>
    let list := numAt b 8 8
    let n := numAt b 16 1
    if (s.queue q).det && !s.allComplete q then s
    else if 12 < n ∨ list % 64 ≠ 0 then s.queueFault q 4 none
    else s.withOpd q 1 (s.operand q list (16 * n) .read) fun ps =>
      let l := partBytes s ps
      let cs := (List.range n).map fun i => (numAt l (16 * i) 8, numAt l (16 * i + 8) 8)
      if cs.any fun c => c.1 % 8 != 0 then s.queueFault q 4 none
      else s.onQueue q fun x => { x with parse := .fence cs }) s

/-- The counters of a FENCE are polled, each until it once reads at least its value; when none is left HEAD passes
the packet. -/
def execFenceCountersPass (q : Nat) (s : State) : Out :=
  let x := s.queue q
  match x.parse with
  | .fence cs =>
    if x.st ≠ .running then .next s
    else
      let look := cs.map fun c => (c, s.operand q c.1 8 .read)
      match look.find? fun c => match c.2 with | .ok _ => false | _ => true with
      | some (_, .missing va m) => .next (s.pktFault q 1 va m (.fenceFault · cs))
      | some (_, .refused va) => .next (s.queueFault q 5 none va)
      | _ =>
        let left := (look.filter fun c => match c.2 with | .ok ps => !decide (c.1.2 ≤ leNat (partBytes s ps)) | _ => true).map (·.1)
        .next (if left.isEmpty then s.passPacket q else s.onQueue q fun x => { x with parse := .fence left })
  | _ => .next s

/-- SIGNAL, after every earlier LAUNCH and COPY is complete: a write or an addition, then the interrupt. -/
def execPktSignal (q : Nat) (s : State) : Out :=
  onPacket q 3 [(8, 19)] (fun b s =>
    let a := numAt b 8 8
    let op := numAt b 24 1
    if !(s.allComplete q && (s.queue q).copies.isEmpty) then s
    else if a % 8 ≠ 0 ∨ 1 < op ∨ 1 < numAt b 25 1 then s.queueFault q 2 none
    else s.withOpd q 2 (s.operand q a 8 .write) fun ps =>
      let v := numAt b 16 8
      let new := if op = 1 then (leNat (partBytes s ps) + v) % 2 ^ 64 else v
      let s := (s.devWrites q a 8).storeParts ps (natLe 8 new)
      let s : State := if numAt b 25 1 = 1 then { s with irqs := s.irqs ++ [⟨q, numAt b 26 1⟩] } else s
      s.passPacket q) s

/-- COPY: a copy-engine transfer, with the headers for TYPED; HEAD passes at once. -/
def execPktCopy (q : Nat) (s : State) : Out :=
  onPacket q 4 [(8, 21), (32, 8)] (fun b s =>
    let src := numAt b 8 8
    let dst := numAt b 16 8
    let n := numAt b 24 4
    let typed := numAt b 28 1 = 1
    if 1 < numAt b 28 1 ∨ (typed ∧ (src % 64 ≠ 0 ∨ dst % 64 ≠ 0 ∨ n % 64 ≠ 0)) then s.queueFault q 2 none
    else s.withOpd q 1 (s.operand q src n .read) fun ps => s.withOpd q 2 (s.operand q dst n .write) fun pd =>
      if typed ∧ (ps ++ pd).any (!·.typ) then s.queueFault q 2 none
      else
        let from_ : List Loc := locsOf ps
        let into : List Loc := locsOf pd
        let hdrs : List (Nat × HdrSrc) := if typed then ((List.range (n / 64)).filterMap fun i => match from_[64 * i]?, into[64 * i]? with
            | some (Loc.phys a), some (Loc.phys d) => some (d / 64, HdrSrc.block (a / 64))
            | _, _ => none) else []
        ((s.devWrites q dst n).onQueue q fun x => { x with copies := x.copies ++ [.copy (copyBytes into from_ n) hdrs (numAt b 32 8) {}] }).passPacket q) s

/-- The first of a queue's COPY packets that is not waiting for a service, by place. -/
def Queue.copyHead (x : Queue) : Option (Nat × Parse) :=
  (x.copies.zipIdx.find? fun e => match e.1 with | .copyWait _ _ => false | _ => true).map fun e => (e.2, e.1)

/-- The DONE addition of a COPY packet (R68, R296). -/
def State.copyAdd (s : State) (q k done : Nat) : State :=
  if done = 0 then s.onQueue q fun x => { x with copies := x.copies.eraseIdx k }
  else match s.addOne q done with
    | .done s => s.onQueue q fun x => { x with copies := x.copies.eraseIdx k }
    | .refused => (s.queueFault q 5 none done).onQueue q fun x => { x with copies := x.copies.eraseIdx k }
    | .missing m =>
      if (s.queue q).fq ≠ 0 ∧ (s.queue q).full then s
      else
        let t := s.takeFault q
        (t.2.writeRecord q { kind := 1, acc := 2 + 128 * b2n m, seq := t.1, tcause := 8, addr := done }).onQueue q
          fun x => { x with copies := x.copies.set k (.copyWait done t.1) }

/-- The transfer of a COPY packet completes, within the budgets (R249), and DONE is incremented. -/
def execCopyPacketDone (q : Nat) (s : State) : Out :=
  match (s.queue q).copyHead with
  | some (k, .copy b h d tl) =>
    let paid := (s.queue q).grant tl (copyCosts b)
    if !paid.2.2 then .next (s.setQueue q { paid.1 with copies := paid.1.copies.set k (.copy b h d paid.2.1) })
    else
      let s := s.setQueue q { paid.1 with copies := paid.1.copies.set k (.copyDone d) }
      -- the blocks of a TYPED copy, or single bytes, are left unwritten by an uncorrectable source (R289)
      let u := if h.isEmpty then 1 else 64
      let bad := (chunksOf u b).map s.badSource
      let s := s.moveBytes u b
      let s := (h.zip bad).foldl (fun s e => if e.2 then s else s.storeHdr (.phys (64 * e.1.1)) (s.hdrVal e.1.2)) s
      .next (s.copyAdd q k d)
  | some (k, .copyDone d) => .next (s.copyAdd q k d)
  | _ => .next s

-- VTAB (R300)

/-- R229 on a header alone. -/
def headerOk (t : VTable) : Bool := (headerFault t).isNone && t.zero && (t.defidx == 0xFF || decide (t.defidx < t.count))

/-- A VTAB packet of one OP; an OP above 2 faults the queue. `k` has the physical address of the table, and
its header. -/
def onVtab (q op : Nat) (k : Nat → Nat → VTable → State → State) (s : State) : Out :=
  onPacket q 5 [(8, 9)] (fun b s =>
    let a := numAt b 8 8
    if a % 64 ≠ 0 ∨ 2 < numAt b 16 1 then s.queueFault q 2 none
    else if numAt b 16 1 ≠ op then s
    else s.withOpd q 3 (s.operand q a 64 .write) fun ps =>
      let t := readTable (partBytes s ps)
      if !headerOk t then s.queueFault q 2 none
      else match firstLoc ps with
        | .phys p => k a p t s
        | _ => s) s

/-- Freeze sets FRZ. The table's updates that are requested and not yet applied are queued (R238). -/
def execVtabFreeze (q : Nat) (s : State) : Out :=
  onVtab q 0 (fun a p _ s =>
    let mine (r : TagReq) : Bool := s.tagAddr r.q r.table.toNat == some p
    let t : State := (s.devWrite q a).physBytes (p + 0xC) (natLe 1 (leNat (s.busBytes (p + 0xC) 1) ||| 1))
    let t : State := { t with updates := t.updates.filter fun r => !mine r }
    ((s.updates.filter mine).foldl State.freezeUpdate t).passPacket q) s

/-- A queued update is for the table at a physical address. -/
def TagReq.heldFor (r : TagReq) (p : Nat) : Bool := r.home == some p

/-- Thaw clears FRZ and LOST, and the table's queued updates are applied in order within their budgets (R238, R249), or
discarded with a record where their table can no longer be reached (R236). DEDUCED, log 65: which updates are the table's. -/
def execVtabThaw (q : Nat) (s : State) : Out :=
  onVtab q 1 (fun a p _ s =>
    let mine := s.frozen.filter (·.heldFor p)
    let s := (s.devWrite q a).physBytes (p + 0xC) (natLe 1 (leNat (s.busBytes (p + 0xC) 1) / 4 * 4))
    let s : State := { s with frozen := s.frozen.filter fun r => !r.heldFor p }
    (State.thawUpdates mine s).passPacket q) s

/-- Reset sets NSAMP and STAMP to 0 in every entry below COUNT. -/
def execVtabReset (q : Nat) (s : State) : Out :=
  onVtab q 2 (fun a _ t s =>
    s.withOpd q 3 (s.operand q a (64 + 32 * t.count) .write) fun ps =>
      let l := partBytes s ps
      let new := l.zipIdx.map fun e =>
        let o := (e.2 - 64) % 32
        if 64 ≤ e.2 ∧ (o = 0x12 ∨ (0x14 ≤ o ∧ o < 0x18)) then 0 else e.1
      ((s.devWrites q a (64 + 32 * t.count)).storeParts ps new).passPacket q) s

/-- MODE (R249, R251): a changed mode bit waits until every earlier grid is COMPLETE. -/
def execPktMode (q : Nat) (s : State) : Out :=
  onPacket q 6 [(8, 1), (12, 12)] (fun b s =>
    let m := numAt b 8 1
    let vbw := numAt b 12 4
    let cby := numAt b 16 4
    let bint := numAt b 20 4
    let low (n : Nat) : Bool := decide (0 < n) && decide (n < 4096)
    let x := s.queue q
    if 7 < m then s.queueFault q 2 none
    else if low vbw || low cby || (bint != 0 && (decide (bint < 16) || decide (65536 < bint))) then s.queueFault q 8 none
    else if (bitOf m 0 != x.det || bitOf m 1 != x.debug || bitOf m 2 != x.lease) && !s.allComplete q then s
    else (s.onQueue q fun x => { x with
        det := bitOf m 0, debug := bitOf m 1, lease := bitOf m 2, vbw := vbw, cby := cby, bint := if bint = 0 then 512 else bint }).passPacket q) s

end Sys2Proof.Machine
end

