-- ==== Sys2Proof/Machine/Outside.lean ====
section
/-! DEFINITION. The outside world: host and peer accesses (R204, R291, R301), reset and bring-up (R321, R327),
firmware and attestation (R303, R304, R325), power loss and the test port (R328). -/

namespace Sys2Proof.Machine

-- accesses from outside (R204, R291)

/-- What a host address reaches: a physical address and the end of its range. `own` says that it is the
host's own memory, which no access table guards. -/
structure HostPlace where
  pa : Nat
  stop : Nat
  own : Bool

def hostPlace (a : Nat) : Option HostPlace :=
  if a < 0x1000000 then some ⟨statusBase + a, statusEnd, false⟩
  else if 0x8000000000 ≤ a ∧ a < 0xE000000000 then some ⟨a - 0x8000000000, dramEnd, false⟩
  else if hostBase ≤ a ∧ a < peerBase then some ⟨a, peerBase, true⟩
  else none

/-- A host access (R204, R291, R302): a write that a table denies, and one outside the window's ranges, changes
nothing; a read changes nothing. -/
def execHostAccess (a : ExtAcc) (s : State) : Out :=
  match a with
  | .read _ _ => .next s
  | .write addr l =>
    match hostPlace addr with
    | none => .next s
    | some p =>
      let l := l.take (p.stop - p.pa)
      .next (if p.own || s.allowedRange mHost p.pa l.length .write then s.physBytes p.pa l else s)

/-- An access arriving on a peer port that is up (R204, R302). -/
def execPeerAccess (port : Nat) (a : ExtAcc) (s : State) : Out :=
  match a with
  | .read _ _ => .next s
  | .write addr l =>
    .next (if s.thermal.peerUp.getLsbD port && s.allowedRange (mPeer port) addr l.length .write then s.physBytes addr l else s)

def State.setPort (s : State) (port : Nat) (up : Bool) : State :=
  let t := s.thermal
  if port < 16 then { s with thermal := { t with peerUp := setBit t.peerUp port up, stale := if !up && t.held.getLsbD port then setBit t.stale port true else t.stale } }
  else s

/-- A peer port goes down (R301); a notice held from it stays held (R271). -/
def execPeerPortDown (port : Nat) (s : State) : Out := .next (s.setPort port false)
/-- A peer port comes up (R301). -/
def execPeerPortUp (port : Nat) (s : State) : Out := .next (s.setPort port true)

-- power and bring-up (R321, R327)

/-- What a reset leaves: the fused identity, key digest, rollback counter and debug fuse, with the worn clusters fused out (R327), the committed leaf
counter (R304), the host's own memory, and the model's own fields. -/
def State.powerCycle (s : State) (phase : Nat) : State :=
  { State.reset with
    phase := phase
    clMask := s.clMask &&& ~~~s.worn
    devId := s.devId
    cert := s.cert
    leaf := s.leaf
    mem := s.mem.filter fun c => decide (hostBase ≤ c.1)
    keyDigest := s.keyDigest
    rollback := s.rollback
    debugFuse := s.debugFuse
    agenda := s.agenda
    ctr := s.ctr }

/-- Power-on or a module reset (R321): phase POWER. -/
def execPowerOnReset (s : State) : Out := .next (s.powerCycle 1)

/-- Power loss (R304): all volatile state is lost; the part is without power, the model's phase 0. -/
def execPowerLoss (s : State) : Out := .next (s.powerCycle 0)

/-- The rails are up (R321). -/
def execRailsUp (s : State) : Out := .next (if s.phase = 1 then { s with phase := 2 } else s)

/-- The live clusters: the 30 lowest enabled ones (R1). -/
def liveClusters (m : Word) : List Nat := ((List.range 32).filter fun i => m.getLsbD i).take 30

/-- DRAM training ends (R321, R322). DESIGN CHOICE, log 90: with fewer than 26 enabled clusters `live` stays empty, so
BOOTSTAT.CLUS reads 0 in FAILED with ERR 5; and so it does with ERR 4. -/
def execDramTrainingDone (ok : Bool) (s : State) : Out :=
  .next (if s.phase ≠ 2 then s
    else if !ok then { s with phase := 15, bootErr := 4 }
    else
      let l := liveClusters s.clMask
      if l.length < 26 then { s with phase := 15, bootErr := 5 } else { s with phase := 3, live := l })

/-- The header of an image: the fields of R303 before the signature, in their order (log 91). -/
def FwImage.header (f : FwImage) : List Byte := natLe 4 f.magic.toNat ++ natLe 4 f.version.toNat ++ natLe 4 f.length ++ digestBytes f.digest

/-- What MREG0 measures (R304): header, signature and body. -/
def FwImage.bytes (f : FwImage) : List Byte := f.header ++ f.sig ++ f.body

/-- The header describes the body, and the signature covers both (R303). -/
def FwImage.genuine (f : FwImage) (key : List Byte) : Bool :=
  f.magic == Config.fwMagic && f.length == f.body.length && f.digest == Config.sha256 f.body &&
  Config.lmsVerify key (f.header ++ f.body) f.sig

/-- The error of an image (R303, R322); the order of the checks, and ERR 1 without an image, are log 91. -/
def State.imageError (s : State) (key : List Byte) (f : FwImage) : Nat :=
  if Config.sha256 key ≠ s.keyDigest then 3
  else if f.genuine key = false then 1
  else if f.version.toNat < s.rollback then 2
  else 0

/-- The boot ROM's check of the staged image (R303, R322), with the public key that it is given: the header has none
(log 91). -/
def execFirmwareVerify (key : List Byte) (s : State) : Out :=
  .next (if s.phase ≠ 3 then s
    else match s.staged with
    | none => { s with phase := 15, bootErr := 1 }
    | some f =>
      if s.imageError key f = 0 then { s with phase := 4, mreg0 := Config.sha256 f.bytes, mreg1 := 0 }
      else { s with phase := 15, bootErr := s.imageError key f })

/-- MREG1 is extended for a table (R304). -/
def extend (m : BitVec 256) (table : List Byte) : BitVec 256 := Config.sha256 (digestBytes m ++ digestBytes (Config.sha256 table))

/-- A slice's switch under way is over, with its first edge now (R265). -/
def SliceClk.landed (x : SliceClk) (now : Nat) : SliceClk :=
  match x.frozen with
  | some f => { x.switched x.goal (min f now) now with capped := x.capped || decide (x.goal < x.want) }
  | none => x

/-- Carries out the switches under way and the steps that a power block still has to do, each switch with its first edge
now (R260). -/
def Power.finish (p : Power) (now : Nat) : Power :=
  let p' := p.todo.foldl (fun p a => match a with
    | .rail v => { p with vset := v, boost := p.boost && v != p.ceil }
    | .switch i n => p.setSlice i ((p.slice i).switched n now now)
    | .plan _ => p
    | .ageing g => p.publish g
    | .done => { p with seq := (p.seq + 1) % 256, code := 0 }) (p.mapSlices fun _ x => x.landed now)
  { p' with todo := [] }

/-- The first guard band of a core (R325) and the loaded VMIN: in phase FIRMWARE the steps of R326 are carried out
at once, behind those of a request in hand, so that GUARD and CEIL are final and the rail stands at or above Required in
phase READY (R261, R321; log 95). -/
def State.firstGuard (s : State) (c slow : Nat) : State :=
  let p := (s.core c).power.finish s.now
  let g := max (slow / 10) (max (p.newG.getD 0) p.guard)
  if s.vminAt 4 + g > ceilOf g then (s.putPower c p).wearOut c g
  else s.putPower c { (s.agePlan p g).finish s.now with newG := none }

/-- The numbers of each table that firmware loads, in the order of `FwLoad` (log 92). -/
def loadNumbers (f : FwLoad) : List (List Nat) :=
  [f.weights, f.place.rot ++ f.place.ht ++ [f.place.ks, f.place.ke, f.place.kd, f.place.floor, f.place.rw], f.vmin,
   f.handlerEntry.flatMap fun e => [e.1, e.2], [f.group.toNat], [f.staging]] ++
  f.acc.map fun t => (t.2.take 32).flatMap fun e => [e.base, e.limit, e.master.getD 255, b2n e.r + 2 * b2n e.w + 4 * b2n e.x]

/-- The tables as bytes, each extended into MREG1 in turn (R304). -/
def loadTables (f : FwLoad) : List (List Byte) := (loadNumbers f).zipIdx.map fun t => Config.tableImage t.2 t.1

/-- The firmware has loaded its tables (R304, R321, R325): phase READY. -/
def execFirmwareLoadDone (f : FwLoad) (s : State) : Out :=
  .next (if s.phase ≠ 4 then s
    else
      let s := { s with
        weights := f.weights, place := f.place, vmin := f.vmin, handlerEntry := f.handlerEntry
        thermal := { s.thermal with group := f.group }
        acc := f.acc.map fun (t : Target × List AccEntry) => (t.1, t.2.take 32)
        staging := f.staging
        mreg1 := (loadTables f).foldl extend s.mreg1 }
      { State.allCores s |>.foldl (fun (s : State) c => s.firstGuard c (lget 0 f.slow c)) s with phase := 5 })

-- attestation (R304)

/-- An attestation request (R304). -/
def execAttestationRequest (nonce : List Byte) (s : State) : Out := .next (s.attest nonce)

-- what agents outside the opcode table do

/-- What the I3C bus reads at a word of the status space (R322): the identity block, THERM and the attestation block,
and nothing else. -/
def State.i3cRead (s : State) (off : Nat) : Option Word := if off < 0x2000 ∨ off = 0x80000 then some (s.statusRead off) else none

/-- The leaf entry that maps an address of a queue's space, with its own address (R283). -/
def State.leafAt (s : State) (q va : Nat) : Option (Nat × TlbEntry) :=
  match walk s q va 4 (s.queue q).root with
  | .leaf t a _ => if va < 2 ^ 52 then some (a, t) else none
  | _ => none

/-- The management core may make an access (R302). DESIGN CHOICE, log 98: an access that the tables deny it has
no effect. -/
def State.coreMay (s : State) (a n : Nat) (k : Acc) : Bool := s.allowedRange mCore a n k

/-- Starts a migration (R286): TRK set and WVER 0, in one strong store. A shoot-down of the page follows. -/
def State.trackPage (s : State) (q va : Nat) : State :=
  match s.leafAt q va with
  | some (a, _) =>
    if !s.coreMay a 8 .write then s
    else let e := s.rdNat a 8; s.physBytes a (natLe 8 (e % 2 ^ 52 + (if bitOf e 10 then 0 else 2 ^ 10)))
  | none => s

/-- Copies a page, with its block headers, to another place aligned to its size; a mark of R287 goes with its
block. -/
def State.copyPage (s : State) (q va new : Nat) : State :=
  match s.leafAt q va with
  | none => s
  | some (_, t) =>
    if new % t.size ≠ 0 ∨ new = t.pa ∨ !(s.coreMay t.pa t.size .read && s.coreMay new t.size .write) then s
    else
      let here (u a : Nat) : Bool := decide (new ≤ u * a) && decide (u * a < new + t.size)
      let from_ (u a : Nat) : Bool := decide (t.pa ≤ u * a) && decide (u * a < t.pa + t.size)
      let r : State := { s with
        mem := s.mem.filter fun c => !here 1 c.1
        hdrs := s.hdrs.filter fun h => !here 64 h.1
        badMem := (s.badMem.filter fun b => !here 64 b) ++ (s.badMem.filter (from_ 64)).map fun b => b - t.pa / 64 + new / 64 }
      let r := (s.mem.filter fun c => from_ 1 c.1).foldl (fun r c => r.wrBytes (c.1 - t.pa + new) [c.2]) r
      (s.hdrs.filter fun h => from_ 64 h.1).foldl (fun r h => r.wrHdr (h.1 - t.pa / 64 + new / 64) h.2) r

/-- Ends a migration (R286): the compare-and-swap of the entry, which fails when a store has counted in WVER; then TRK
is cleared and the old page stays in use. -/
def State.movePage (s : State) (q va new : Nat) : State :=
  match s.leafAt q va with
  | none => s
  | some (a, t) =>
    let e := s.rdNat a 8
    if bitOf e 10 = false ∨ new % t.size ≠ 0 ∨ !s.coreMay a 8 .write then s
    else if e / 2 ^ 52 = 0 then s.physBytes a (natLe 8 (e % 2 ^ 16 - 2 ^ 10 + new))
    else s.physBytes a (natLe 8 (e - 2 ^ 10))

/-- The handler reports the trap under service (R298, KIND 2). -/
def State.trapRecord (s : State) (c : Nat) : State :=
  let h := (s.core c).handler
  match h.service, h.owner with
  | some p, some o => s.writeRecord (s.queueOf o.1)
      { kind := 2, core := c, gridid := o.1, colid := o.2, swid := p.slot, tcause := p.tr.cause, pc := p.tr.pc.toNat, mask := p.tr.mask.toNat
        addr := p.tr.addr.toNat, info := p.tr.info.toNat }
  | _, _ => s

/-- The device's own scan instructions may be used (R328). -/
def State.scanAllowed (s : State) : Bool := s.phase == 15 || s.debugFuse

/-- What a deed does. Of the scan instructions the spec states no effect (log 96). -/
def State.deed (s : State) : Deed → State
  | .stageFirmware f => if s.phase = 1 ∨ s.phase = 2 then { s with staged := some f } else s
  | .trackPage q va => s.trackPage q va
  | .copyPage q va new => s.copyPage q va new
  | .movePage q va new => s.movePage q va new
  | .trapRecord c => s.trapRecord c
  | .i3cWrite off l => if 0x1000 ≤ off ∧ off + l.length ≤ 0x2000 then s.attWrite l else s
  | .scan => s
  | .correctedError => { s with corrected := s.corrected + 1 }

-- the test port (R328)

/-- The test port selects another instruction than EXTEST. Left, EXTEST has held the device in reset till now: phase 1. -/
def State.portSelect (s : State) (j : Jtag) : State := { (if s.jtag = .extest then s.powerCycle 1 else s) with jtag := j }

def execBypass (s : State) : Out := .next (s.portSelect .bypass)
def execIdcode (s : State) : Out := .next (s.portSelect .idcode)
def execSamplePreload (s : State) : Out := .next (s.portSelect .sample)

/-- What the test port's data register reads under IDCODE (R328). -/
def idcodeWord : Word := 0x1240D6B7#32

/-- EXTEST holds the device in reset while it is selected; left, the device is in phase 1. -/
def execExtest (selected : Bool) (s : State) : Out :=
  .next (if selected then { s.powerCycle 1 with jtag := .extest }
    else if s.jtag = .extest then s.portSelect .bypass else s)

end Sys2Proof.Machine
end

