-- ==== Sys2Proof/Machine/Fetch.lean ====
section
/-! DEFINITION. Fetching an instruction (R35, R39, R40, R50, R183, R275, R284): its address, its translation, the
instruction caches, and the decoder. -/

namespace Sys2Proof.Machine

/-- Where a fetch finds an instruction: a physical address, a trap, a page fault of the member, or a failure
of the handler (R276). -/
inductive FetchAt
  | ok (pa : Nat) (s : State)
  | trap (t : Tr) (s : State)
  | fault (malformed : Bool) (s : State)
  | hfault (cause : Nat)

/-- The address checks of a fetch: R40, and R55 for bits 63..52; then translation, which the handler's code
has none of (R275). -/
def State.fetchAt (s : State) (c n : Nat) (x : Slot) (m : Member) : FetchAt :=
  let a := m.pc.toNat
  let tr (cause info : Nat) : Tr := { cause := cause, mask := m.mask, addr := m.pc, info := info }
  if a % 4 ≠ 0 then .trap (tr 2 2) s
  else if n = 64 then
    if 2 ^ 50 ≤ a then .hfault 0x20
    else if !s.allowed mHandler a .fetch then .hfault 0x22
    else .ok a s
  else if 2 ^ 52 ≤ a then .trap (tr 2 3) s
  else match s.translate c (s.queueOf x.grid) a .fetch with
    | (.ok p, _, s) => .ok p.pa s
    | (.denied i, _, s) => .trap (tr 9 i) s
    | (.invalid b, _, s) => .fault b s

/-- The 64-byte block of instructions at a physical address as a core fetches it. A cached block that no
longer equals memory is fetched as it stands in the cache or as it stands in memory (R183 orders a fetch
only behind a CCTL.IC); the block fetched is cached. -/
def State.fetchBlock (s : State) (c pa : Nat) : List Byte × State :=
  let b := pa / 64
  let now := s.busBytes (64 * b) 64
  let l := match lfind (s.core c).icache b with
    | some old => if Config.freeBit s.ctr 7 b then old else now
    | none => now
  (l, s.onCore c fun k => { k with icache := lput k.icache b l })

/-- The result of a fetch: an instruction to be issued, or a member that has trapped or waits. -/
inductive Fetched
  | run (i : Instr) (s : State)
  | done (s : State)

/-- Fetches and decodes the instruction of a member (R39, R50 steps 1 to 8). -/
def State.fetch (s : State) (c n : Nat) (x : Slot) (m : Member) : Fetched :=
  let trap (s : State) (t : Tr) : Fetched :=
    .done (s.raiseTrap c n m.id { cause := t.cause, pc := m.pc, mask := t.mask, addr := t.addr, info := BitVec.ofNat 32 t.info })
  match s.fetchAt c n x m with
  | .hfault k => .done (s.handlerFault c k m.pc 0)
  | .trap t s => trap s t
  | .fault b s => .done (s.pageFault c n m.id { mask := m.mask, addr := m.pc, acc := 4, malformed := b }).1
  | .ok pa s =>
    if (s.badLoc (.phys pa)).isSome then
      trap (s.clearBad [.phys pa]) { cause := 0x12, mask := m.mask, addr := m.pc, info := 4 }
    else
      let f := s.fetchBlock c pa
      let l := (f.1.drop (pa % 64)).take 16
      let len := (l.headD 0).extractLsb' 0 2
      if 32 < pa % 32 + lenBytes len then
        trap f.2 { cause := 2, mask := m.mask, addr := BitVec.ofNat 64 ((m.pc.toNat / 32 + 1) * 32), info := 1 }
      else match decodeBytes (l.take (lenBytes len)) with
        | .ok i => .run i f.2
        | .error r => trap f.2 (ill m r)

end Sys2Proof.Machine
end

