-- ==== Sys2Proof/Machine/Sched.lean ====
section
/-! DEFINITION. Time and selection: the passing of core cycles with the counts of R269, the issue selection of a
slice (R12, R33, R250, R260), and what the device does by itself when nothing is said of what comes next. -/

namespace Sys2Proof.Machine

-- slice clocks (R260, R269)

/-- The edges of a clock of ratio `n` from its first cycle `o` to before cycle `t`. -/
def edgesFrom (o n t : Nat) : Nat := if t - o = 0 then 0 else (t - o - 1) * n / 16 + 1

/-- The edges of a slice before a core cycle, under its clock and those before its switches: the cycles from a freeze
edge to the first new edge hold none (R265). -/
def SliceClk.edgesTo (x : SliceClk) (t : Nat) : Nat :=
  (x.past.map fun p => edgesFrom p.1 p.2.1 (min t p.2.2)).sum + edgesFrom x.origin x.ratio (match x.frozen with | some f => min t f | none => t)

/-- A member's park that makes a slice's period memory-stalled (R269): a CPYT parked on a READY tile waits for no
memory. -/
def memPark (k : Core) (x : Slot) (m : Member) : Bool :=
  match m.st with
  | .bar _ | .sleep _ _ | .redo (.tileReady _) | .redo (.counter .copy) | .waitc .copy _ => true
  | .redo (.tileEmpty t) => !((lfind k.tiles t).any (·.st == .ready))
  | .marker | .rcv | .fence | .fencr _ _ | .redo (.drained _) => !x.loaded
  | _ => false

/-- A resident swarm of a slice is parked on memory (R269). -/
def Core.stalled (k : Core) (slice : Nat) : Bool := k.slots.any fun e => e.2.slice == slice && e.2.members.any (memPark k e.2)

/-- The counts of a slice over the cycles from `now` to `now + dt`, the last excluded: the edge at `now` is issued
if an instruction counts as issued on it, and at the others nothing was. -/
def SliceClk.pass (x : SliceClk) (stalled : Bool) (now dt : Nat) : SliceClk :=
  let n := x.edgesTo (now + dt) - x.edgesTo now
  let i := b2n (x.counted == some now)
  { x with edges := x.edges + n, issued := x.issued + i, memStall := x.memStall + (if stalled then n - i else 0) }

/-- The device stands without power, or is held in reset by EXTEST (R304, R328): no core cycle passes. -/
def State.isOff (s : State) : Bool := s.phase == 0 || s.jtag == .extest

/-- Core cycles pass. -/
def State.advance (s : State) (dt : Nat) : State :=
  if dt = 0 || s.isOff then s
  else { s with
    now := s.now + dt
    cores := s.cores.map fun c => (c.1, { c.2 with power := c.2.power.mapSlices fun i x => x.pass (c.2.stalled i) s.now dt }) }

-- selection (R33, R250)

/-- A member issues before another of its slot: it issued less recently, and then it holds the lowest lane. -/
def Member.before (a b : Member) : Bool := decide (a.last < b.last) || (a.last == b.last && decide (lowest a.mask < lowest b.mask))

/-- The READY member of a slot that issued least recently. -/
def Slot.pick (x : Slot) : Option Member :=
  match x.members.filter fun m => m.st == .ready && m.mask != 0 with
  | [] => none
  | m :: r => some (r.foldl (fun a b => if b.before a then b else a) m)

/-- The core issues nothing: the device is off, the core is none of the device's (R1), it is dead (R326), or its die is stopped
(R270). -/
def State.stoppedCore (s : State) (c : Nat) : Bool := s.isOff || !s.isCore c || (s.core c).power.dead || s.thermal.dieStop.any fun v => v / 64 == s.phys c / 64

/-- The slots that have issued on a slice in a core cycle, those freed since among them (R12). -/
def SliceClk.issuedAt (x : SliceClk) (now : Nat) : List Nat := if x.lastIssue = some now then x.who else []

/-- The slots of a core that may issue on a slice now, with the member each would issue: the handler's alone
while it is not idle or a trap is pending (R33, R85); each at most once on an edge, and two of them (R12). A slot of a queue
that is not RUNNING issues only when an ERET has resumed it (R279). -/
def State.ready (s : State) (c slice : Nat) : List (Nat × Slot × Member) :=
  let k := s.core c
  let h := k.handler
  let clk := k.power.slice slice
  let used := clk.issuedAt s.now
  if s.stoppedCore c || clk.isFrozen s.now || !clk.edge s.now || decide (2 ≤ used.length) then []
  else
    let mine (n : Nat) (x : Slot) : List (Nat × Slot × Member) :=
      if x.slice == slice && !used.contains n && !x.stopped then (match x.pick with | some m => [(n, x, m)] | none => []) else []
    if h.slot.members.all (·.st == .waiti) then
      if h.pending.isEmpty then
        k.slots.flatMap fun e => if (s.queue (s.queueOf e.2.grid)).st == .running || e.2.resumed then mine e.1 e.2 else []
      else []
    else mine 64 h.slot

/-- Slice clocks that a slot has been READY without issuing. -/
def State.waited (s : State) (c slice : Nat) (x : Slot) : Nat :=
  let t := (x.members.filter fun m => m.st == .ready).foldl (fun t m => min t m.since) s.now
  let k := (s.core c).power.slice slice
  k.edgesTo s.now - k.edgesTo (max t x.last)

/-- A slot is chosen before another (R250). -/
def State.prefers (s : State) (c slice : Nat) (a b : Nat × Slot × Member) : Bool :=
  let old (e : Nat × Slot × Member) : Bool := decide (1024 ≤ s.waited c slice e.2.1)
  let lru : Bool := decide (a.2.1.last < b.2.1.last) || (a.2.1.last == b.2.1.last && decide (a.1 < b.1))
  if old a != old b then old a
  else if old a then lru
  else if a.2.1.prio ≠ b.2.1.prio then decide (b.2.1.prio < a.2.1.prio)
  else lru

/-- Members that stand at the return point of their VCALL family park for its merge (R71). -/
def Slot.parkMerges (x : Slot) : Slot := x.members.foldl (fun x m => x.parkMerge m.id) x

def State.parkMerges (s : State) (c : Nat) : State :=
  s.onCore c fun k => { k with slots := k.slots.map fun e => (e.1, e.2.parkMerges) }

/-- The slot and member that a slice issues (R250). -/
def State.select (s : State) (c slice : Nat) : Option (Nat × Slot × Member) :=
  match s.ready c slice with
  | [] => none
  | e :: r => some (r.foldl (fun a b => if s.prefers c slice b a then b else a) e)

/-- An issue on a slice: selection and fetch. The result is the instruction with its issuing member, or a state
in which nothing is left to execute. -/
def State.issueOn (s : State) (c slice : Nat) : Fetched :=
  let s := s.parkMerges c
  match s.select c slice with
  | none => .done s
  | some (n, x, m) =>
    let s := s.onSlot c n fun x => { x with last := s.now + 1 }
    let s := s.onCore c fun k =>
      let clk := k.power.slice slice
      { k with power := k.power.setSlice slice { clk with lastIssue := some s.now, who := n :: clk.issuedAt s.now } }
    ({ s with cur := some ⟨c, n, m.id⟩ }).fetch c n x m

/-- An instruction counts as issued on its slice's edge (R13, R269), but not where all that came of it is that its fibres park to
execute it again, or that it traps. `s` is the state it was executed in. -/
def State.countIssue (t s : State) (i : Instr) : State :=
  match s.cur with
  | none => t
  | some u =>
    match s.slot? u.core u.slot, t.slot? u.core u.slot with
    | some x, some y =>
      let m := ((x.mem? u.mem).map fun m => (m.mask, m.pc)).getD (0, 0)
      let own := y.members.filter fun n => n.mask &&& m.1 != 0
      let stuck : Bool :=
        if u.slot = 64 then y.members.all (·.st == .waiti) && (match i with | .waiti _ | .eret _ => false | _ => true)
        else !own.isEmpty && own.all fun n => n.pc == m.2 && match n.st with | .redo _ | .trap _ | .fault _ _ | .ringFull _ _ _ _ => true | _ => false
      if stuck then t
      else t.onCore u.core fun k => { k with power := k.power.setSlice x.slice { k.power.slice x.slice with counted := some s.now } }
    | some x, none => t.onCore u.core fun k => { k with power := k.power.setSlice x.slice { k.power.slice x.slice with counted := some s.now } }
    | _, _ => t

def countOut (s : State) (i : Instr) : Out → Out
  | .next t => .next (t.countIssue s i)
  | o => o

-- what the device does by itself

/-- Events of one member that may be due. -/
def memberEvents (c n : Nat) (m : Member) : List Instr :=
  match m.st with
  | .ready => []
  | .undispatched _ => [.variantDispatch c n m.id]
  | .sleep _ _ => [.sleepTimeout c n m.id, .sleepRecheck c n m.id]
  | _ => [.parkEnd c n m.id]

/-- Events of one slot that may be due. -/
def slotEvents (c n : Nat) (x : Slot) : List Instr :=
  List.flatten [
    (List.range x.late.length).map fun k => Instr.lateResultReturn c n k,
    x.members.flatMap (memberEvents c n),
    x.fams.map fun f => Instr.familyRelease c n f.id,
    x.fams.map fun f => Instr.vcallMerge c n f.id,
    x.xs.map fun r => Instr.vretFramePop c n r.id,
    (List.range x.copies.length).map fun k => Instr.copyRetire c n k,
    if x.mtx.isEmpty then [] else [Instr.matrixOpRetire c n .pass],
    if x.posts = 0 then [] else [Instr.postedAtomicRetire c n],
    if x.kids.isEmpty then [] else [Instr.childCountOut c n],
    if x.lanes.isEmpty then [Instr.slotRetire c n] else []]

/-- Events of one core that may be due. -/
def coreEvents (now c : Nat) (k : Core) : List Instr :=
  List.flatten [
    slotEvents c 64 k.handler.slot,
    k.slots.flatMap fun e => slotEvents c e.1 e.2,
    k.tiles.map fun t => Instr.tileReady c t.1,
    k.tiles.map fun t => Instr.tileDrainEmpty c t.1,
    k.tiles.map fun t => Instr.tileFree c t.1,
    k.bins.map fun b => Instr.binTimerExpiry c b.1,
    k.restoring.map fun r => Instr.colonyRestore c r.1 r.2,
    [Instr.storeBufferSerialise c, Instr.handlerStart c, Instr.swarmResidency c, Instr.leaseGrant c],
    [Instr.rampDownFiller c (k.fillersDue now)],
    [Instr.matrixBoostAck c, Instr.matrixBoostRemove c, Instr.railChangeDone c],
    (List.range 8).map fun i => Instr.sliceClockSwitch c i]

/-- Events of one queue that may be due. -/
def queueEvents (q : Nat) : List Instr :=
  [.pktNop q, .pktLaunch q, .pktFence q, .fenceCountersPass q, .pktSignal q, .pktCopy q, .copyPacketDone q, .vtabFreeze q, .vtabThaw q,
   .vtabReset q, .pktMode q]

/-- What may be due in the device, in the order it is looked at. -/
def State.events (s : State) : List Instr :=
  List.flatten [
    s.cores.flatMap fun c => coreEvents s.now c.1 c.2,
    s.queues.flatMap fun q => queueEvents q.1,
    s.colonies.map fun z => Instr.binLaunchNoAdd z.grid z.col,
    s.grids.map fun g => Instr.gridComplete g.id,
    s.grids.map fun g => Instr.doneAddition g.id,
    (List.range s.updates.length).map Instr.tagUpdate,
    [Instr.placementDecision]]

/-- The latch of a period whose end nothing is said of: what the sensors present, and the cores' worst droop, are free
values, and the parameters stay. -/
def State.autoLatch (s : State) : Instr :=
  .controlPeriodLatch ((List.range 256).map fun v => (v, Config.freeTemp s.ctr v)) (s.allCores.map fun c => (c, Config.freeIndex s.ctr c 0)) none

-- what is due at its time

/-- The core cycle in which the period in hand ends (R258). -/
def State.periodEnd (s : State) : Nat := Config.periodCycles * (s.thermal.period + 1)

/-- The longest that a switch stops a slice: 21 core cycles from its freeze edge (R265). -/
def switchBound : Nat := 21

/-- What comes at a core cycle of its own: the latch at the end of the period (R258), and the end of each switch (R265). -/
def State.deadlines (s : State) : List (Nat × Instr) :=
  (s.periodEnd, s.autoLatch) :: s.cores.flatMap fun c => c.2.power.slices.zipIdx.filterMap fun x =>
    x.1.frozen.map fun f => (f + switchBound, Instr.sliceClockSwitch c.1 x.2)

/-- The act of an agenda entry is the latch. -/
def Act.isLatch : Act → Bool
  | .ev (.controlPeriodLatch _ _ _) => true
  | _ => false

/-- The first deadline that falls before an agenda entry's act, or with it: how many core cycles from now, and the event. A latch
that the entry itself states at the end of the period is none. -/
def State.firstDue (s : State) (a : Move) : Option (Nat × Instr) :=
  if s.isOff then none
  else match s.deadlines.filter fun d => decide (d.1 ≤ s.now + a.dt) && !(a.act.isLatch && d.1 == s.periodEnd && decide (s.now + a.dt ≤ max d.1 s.now)) with
    | [] => none
    | d :: r => let b := r.foldl (fun b x => if x.1 < b.1 then x else b) d; some (b.1 - s.now, b.2)

/-- Filler operations that are due (R268). -/
def State.firstFill (s : State) : Option Instr :=
  if s.isOff then none
  else (s.cores.find? fun c => c.2.fillersDue s.now != 0).map fun c => .rampDownFiller c.1 (c.2.fillersDue s.now)

/-- The first core and slice that can issue at this cycle. -/
def State.nextIssue (s : State) : Option (Nat × Nat) :=
  (s.cores.flatMap fun c => (List.range 8).map fun i => (c.1, i)).find? fun e => ((s.parkMerges e.1).select e.1 e.2).isSome

/-- A deed can be done: not without power nor while EXTEST holds the device in reset, a scan instruction only where
R328 lets it, and the management core's own in phases FIRMWARE and READY. -/
def State.admitsDeed (s : State) (d : Deed) : Bool :=
  let who : Bool := match d with
    | .stageFirmware _ | .i3cWrite _ _ | .correctedError => true
    | .scan => s.scanAllowed
    | _ => s.phase == 4 || s.phase == 5
  who && s.jtag != .extest && s.phase != 0

/-- An entry of the agenda names what happens to the device from its state: an encoded instruction is issued and
is no event; while EXTEST is selected only the test port and power act, and without power only power-on
(R328, R304). -/
def State.admits (s : State) (i : Instr) : Bool :=
  let port : Bool := match i with | .bypass | .idcode | .samplePreload | .extest _ | .powerOnReset | .powerLoss => true | _ => false
  i.raw.isNone && (s.jtag != .extest || port) && (s.phase != 0 || i == .powerOnReset)

end Sys2Proof.Machine
end

