-- ==== Sys2Proof/Machine/Dispatch.lean ====
section
/-! DEFINITION. The meaning of every instruction: one arm per constructor of `Instr`, in the table's order. -/

namespace Sys2Proof.Machine

def exec (i : Instr) (s : State) : Host.Outcome State Fault Refusal :=
  match i with
  | .nop h => Sys2Proof.Machine.execNop h s
  | .nopLong h => Sys2Proof.Machine.execNopLong h s
  | .bra h u off => Sys2Proof.Machine.execBra h u off s
  | .brx h u a => Sys2Proof.Machine.execBrx h u a s
  | .call h u d off => Sys2Proof.Machine.execCall h u d off s
  | .callx h u d a => Sys2Proof.Machine.execCallx h u d a s
  | .ret h u a => Sys2Proof.Machine.execRet h u a s
  | .rcv h => Sys2Proof.Machine.execRcv h s
  | .fork h pd t c => Sys2Proof.Machine.execFork h pd t c s
  | .endf h => Sys2Proof.Machine.execEndf h s
  | .sleep h m d t => Sys2Proof.Machine.execSleep h m d t s
  | .barWait h b c => Sys2Proof.Machine.execBarWait h b c s
  | .barPass h b c => Sys2Proof.Machine.execBarPass h b c s
  | .vcall h tab disp m l1 l2 => Sys2Proof.Machine.execVcall h tab disp m l1 l2 s
  | .vret h => Sys2Proof.Machine.execVret h s
  | .vqual h q => Sys2Proof.Machine.execVqual h q s
  | .vpeek h d tab disp m l1 l2 => Sys2Proof.Machine.execVpeek h d tab disp m l1 l2 s
  | .vbud h energy x => Sys2Proof.Machine.execVbud h energy x s
  | .launch h m arg => Sys2Proof.Machine.execLaunch h m arg s
  | .lwait h n => Sys2Proof.Machine.execLwait h n s
  | .brk h code => Sys2Proof.Machine.execBrk h code s
  | .trap h code => Sys2Proof.Machine.execTrap h code s
  | .eret h => Sys2Proof.Machine.execEret h s
  | .prio h x => Sys2Proof.Machine.execPrio h x s
  | .csrr h d n => Sys2Proof.Machine.execCsrr h d n s
  | .csrw h a n => Sys2Proof.Machine.execCsrw h a n s
  | .tlbiVa h m => Sys2Proof.Machine.execTlbiVa h m s
  | .tlbiAs h => Sys2Proof.Machine.execTlbiAs h s
  | .tlbiAll h => Sys2Proof.Machine.execTlbiAll h s
  | .savec h m => Sys2Proof.Machine.execSavec h m s
  | .rstc h m => Sys2Proof.Machine.execRstc h m s
  | .waiti h => Sys2Proof.Machine.execWaiti h s
  | .iadd h d a b f => Sys2Proof.Machine.execIadd h d a b f s
  | .isub h d a b f => Sys2Proof.Machine.execIsub h d a b f s
  | .imul h d a b => Sys2Proof.Machine.execImul h d a b s
  | .imulh h d a b u => Sys2Proof.Machine.execImulh h d a b u s
  | .imad h d a b c => Sys2Proof.Machine.execImad h d a b c s
  | .imadw h d a b c u => Sys2Proof.Machine.execImadw h d a b c u s
  | .imin h d a b u => Sys2Proof.Machine.execImin h d a b u s
  | .imax h d a b u => Sys2Proof.Machine.execImax h d a b u s
  | .iabs h d a sat => Sys2Proof.Machine.execIabs h d a sat s
  | .ineg h d a sat => Sys2Proof.Machine.execIneg h d a sat s
  | .isetp h pd pq a b c u => Sys2Proof.Machine.execIsetp h pd pq a b c u s
  | .iset h d a b c u => Sys2Proof.Machine.execIset h d a b c u s
  | .shl h d a b => Sys2Proof.Machine.execShl h d a b s
  | .shr h d a b => Sys2Proof.Machine.execShr h d a b s
  | .sar h d a b => Sys2Proof.Machine.execSar h d a b s
  | .rol h d a b => Sys2Proof.Machine.execRol h d a b s
  | .and h d a b => Sys2Proof.Machine.execAnd h d a b s
  | .or h d a b => Sys2Proof.Machine.execOr h d a b s
  | .xor h d a b => Sys2Proof.Machine.execXor h d a b s
  | .not h d a => Sys2Proof.Machine.execNot h d a s
  | .lop3 h d a b c t => Sys2Proof.Machine.execLop3 h d a b c t s
  | .bperm h d a c b => Sys2Proof.Machine.execBperm h d a c b s
  | .bfx h d a b sx => Sys2Proof.Machine.execBfx h d a b sx s
  | .bfi h d a b c => Sys2Proof.Machine.execBfi h d a b c s
  | .popc h d a => Sys2Proof.Machine.execPopc h d a s
  | .clz h d a => Sys2Proof.Machine.execClz h d a s
  | .brev h d a => Sys2Proof.Machine.execBrev h d a s
  | .sel h d a b p => Sys2Proof.Machine.execSel h d a b p s
  | .mov h d a => Sys2Proof.Machine.execMov h d a s
  | .movl h d w => Sys2Proof.Machine.execMovl h d w s
  | .lea h d a b sh u a52 => Sys2Proof.Machine.execLea h d a b sh u a52 s
  | .iadd64 h d a b sub u => Sys2Proof.Machine.execIadd64 h d a b sub u s
  | .icmp64 h pd pq a b c u => Sys2Proof.Machine.execIcmp64 h pd pq a b c u s
  | .pget h d => Sys2Proof.Machine.execPget h d s
  | .pset h a b => Sys2Proof.Machine.execPset h a b s
  | .plop h pd pa pb pc t => Sys2Proof.Machine.execPlop h pd pa pb pc t s
  | .fadd h d a b ma mb rm => Sys2Proof.Machine.execFadd h d a b ma mb rm s
  | .fsub h d a b ma mb rm => Sys2Proof.Machine.execFsub h d a b ma mb rm s
  | .fmul h d a b ma mb rm => Sys2Proof.Machine.execFmul h d a b ma mb rm s
  | .ffma h d a b c ma mb mc rm => Sys2Proof.Machine.execFfma h d a b c ma mb mc rm s
  | .fmin h d a b ma mb => Sys2Proof.Machine.execFmin h d a b ma mb s
  | .fmax h d a b ma mb => Sys2Proof.Machine.execFmax h d a b ma mb s
  | .fcmp h pd pq a b ma mb c => Sys2Proof.Machine.execFcmp h pd pq a b ma mb c s
  | .fclass h d a f => Sys2Proof.Machine.execFclass h d a f s
  | .frnd h d a ma rm => Sys2Proof.Machine.execFrnd h d a ma rm s
  | .fscale h d a b ma rm => Sys2Proof.Machine.execFscale h d a b ma rm s
  | .flogb h d a => Sys2Proof.Machine.execFlogb h d a s
  | .rcp h d a ma rm => Sys2Proof.Machine.execRcp h d a ma rm s
  | .rsq h d a ma rm => Sys2Proof.Machine.execRsq h d a ma rm s
  | .sqrt h d a ma rm => Sys2Proof.Machine.execSqrt h d a ma rm s
  | .ex2 h d a ma => Sys2Proof.Machine.execEx2 h d a ma s
  | .lg2 h d a ma => Sys2Proof.Machine.execLg2 h d a ma s
  | .sin h d a ma => Sys2Proof.Machine.execSin h d a ma s
  | .cos h d a ma => Sys2Proof.Machine.execCos h d a ma s
  | .tanh h d a ma => Sys2Proof.Machine.execTanh h d a ma s
  | .cvt h d a g f => Sys2Proof.Machine.execCvt h d a g f s
  | .f2i h d a u f rm => Sys2Proof.Machine.execF2i h d a u f rm s
  | .i2f h d a k rm => Sys2Proof.Machine.execI2f h d a k rm s
  | .fin h d a g f rm => Sys2Proof.Machine.execFin h d a g f rm s
  | .pack h d a g f rm as sp => Sys2Proof.Machine.execPack h d a g f rm as sp s
  | .unpk h d a g raw => Sys2Proof.Machine.execUnpk h d a g raw s
  | .stkr h d a => Sys2Proof.Machine.execStkr h d a s
  | .stkw h d a f => Sys2Proof.Machine.execStkw h d a f s
  | .shfl h d a m n p => Sys2Proof.Machine.execShfl h d a m n p s
  | .shflb h d a l p => Sys2Proof.Machine.execShflb h d a l p s
  | .shflp h d a b p => Sys2Proof.Machine.execShflp h d a b p s
  | .vote h f pa => Sys2Proof.Machine.execVote h f pa s
  | .redx h d a o rm p => Sys2Proof.Machine.execRedx h d a o rm p s
  | .scanx h d a o rm exc p => Sys2Proof.Machine.execScanx h d a o rm exc p s
  | .gath h d a b n p => Sys2Proof.Machine.execGath h d a b n p s
  | .rebal h d a b p => Sys2Proof.Machine.execRebal h d a b p s
  | .matchx h f a p => Sys2Proof.Machine.execMatchx h f a p s
  | .ld h t o d m => Sys2Proof.Machine.execLd h t o d m s
  | .st h t tick o d m => Sys2Proof.Machine.execSt h t tick o d m s
  | .lds h t o d m => Sys2Proof.Machine.execLds h t o d m s
  | .sts h t o d m => Sys2Proof.Machine.execSts h t o d m s
  | .ldb h g spad o d m => Sys2Proof.Machine.execLdb h g spad o d m s
  | .stb h f spad o d m => Sys2Proof.Machine.execStb h f spad o d m s
  | .atom h o w64 ar post sc d b m => Sys2Proof.Machine.execAtom h o w64 ar post sc d b m s
  | .atoms h o w64 ar post sc d b m => Sys2Proof.Machine.execAtoms h o w64 ar post sc d b m s
  | .fence h sc => Sys2Proof.Machine.execFence h sc s
  | .fenco h sc => Sys2Proof.Machine.execFenco h sc s
  | .fencr h sc => Sys2Proof.Machine.execFencr h sc s
  | .storeBufferSerialise core => Sys2Proof.Machine.execStoreBufferSerialise core s
  | .spill h n spad d m => Sys2Proof.Machine.execSpill h n spad d m s
  | .fill h n spad d m => Sys2Proof.Machine.execFill h n spad d m s
  | .cpyG2s h d m n => Sys2Proof.Machine.execCpyG2s h d m n s
  | .cpyS2g h d m n => Sys2Proof.Machine.execCpyS2g h d m n s
  | .cpyt h t base disp stride cnt => Sys2Proof.Machine.execCpyt h t base disp stride cnt s
  | .waitc h c n => Sys2Proof.Machine.execWaitc h c n s
  | .tset h t so x => Sys2Proof.Machine.execTset h t so x s
  | .trel h t => Sys2Proof.Machine.execTrel h t s
  | .trel64 h t => Sys2Proof.Machine.execTrel64 h t s
  | .tstat h d t => Sys2Proof.Machine.execTstat h d t s
  | .ldtFrag h d t b => Sys2Proof.Machine.execLdtFrag h d t b s
  | .ldtWord h d t b => Sys2Proof.Machine.execLdtWord h d t b s
  | .pref h l2 m => Sys2Proof.Machine.execPref h l2 m s
  | .cctlIc h m => Sys2Proof.Machine.execCctlIc h m s
  | .cctlInv h m => Sys2Proof.Machine.execCctlInv h m s
  | .mma h d a b fa fb rm zc => Sys2Proof.Machine.execMma h d a b fa fb rm zc s
  | .mmad h d e a b fa fb rm zc => Sys2Proof.Machine.execMmad h d e a b fa fb rm zc s
  | .mcvt h d a g i32 rm as sp hi vh => Sys2Proof.Machine.execMcvt h d a g i32 rm as sp hi vh s
  | .mzero h d => Sys2Proof.Machine.execMzero h d s
  | .msclAdd h d b => Sys2Proof.Machine.execMsclAdd h d b s
  | .msclSet h d b => Sys2Proof.Machine.execMsclSet h d b s
  | .mlease h => Sys2Proof.Machine.execMlease h s
  | .mfree h => Sys2Proof.Machine.execMfree h s
  | .lateResultReturn core slot k => Sys2Proof.Machine.execLateResultReturn core slot k s
  | .parkEnd core slot mem => Sys2Proof.Machine.execParkEnd core slot mem s
  | .swarmResidency core => Sys2Proof.Machine.execSwarmResidency core s
  | .familyRelease core slot fam => Sys2Proof.Machine.execFamilyRelease core slot fam s
  | .slotRetire core slot => Sys2Proof.Machine.execSlotRetire core slot s
  | .binTimerExpiry core bin => Sys2Proof.Machine.execBinTimerExpiry core bin s
  | .binLaunchNoAdd grid col => Sys2Proof.Machine.execBinLaunchNoAdd grid col s
  | .gridComplete grid => Sys2Proof.Machine.execGridComplete grid s
  | .doneAddition grid => Sys2Proof.Machine.execDoneAddition grid s
  | .childCountOut core slot => Sys2Proof.Machine.execChildCountOut core slot s
  | .variantDispatch core slot mem => Sys2Proof.Machine.execVariantDispatch core slot mem s
  | .vcallMerge core slot fam => Sys2Proof.Machine.execVcallMerge core slot fam s
  | .vretFramePop core slot x => Sys2Proof.Machine.execVretFramePop core slot x s
  | .tagUpdate k => Sys2Proof.Machine.execTagUpdate k s
  | .copyRetire core slot k => Sys2Proof.Machine.execCopyRetire core slot k s
  | .tileReady core tile => Sys2Proof.Machine.execTileReady core tile s
  | .tileDrainEmpty core tile => Sys2Proof.Machine.execTileDrainEmpty core tile s
  | .tileFree core tile => Sys2Proof.Machine.execTileFree core tile s
  | .postedAtomicRetire core slot => Sys2Proof.Machine.execPostedAtomicRetire core slot s
  | .matrixOpRetire core slot r => Sys2Proof.Machine.execMatrixOpRetire core slot r s
  | .leaseGrant core => Sys2Proof.Machine.execLeaseGrant core s
  | .matrixBoostAck core => Sys2Proof.Machine.execMatrixBoostAck core s
  | .matrixBoostRemove core => Sys2Proof.Machine.execMatrixBoostRemove core s
  | .rampDownFiller core n => Sys2Proof.Machine.execRampDownFiller core n s
  | .sleepRecheck core slot mem => Sys2Proof.Machine.execSleepRecheck core slot mem s
  | .sleepTimeout core slot mem => Sys2Proof.Machine.execSleepTimeout core slot mem s
  | .handlerStart core => Sys2Proof.Machine.execHandlerStart core s
  | .colonyRestore core grid col => Sys2Proof.Machine.execColonyRestore core grid col s
  | .tlbShootdown what => Sys2Proof.Machine.execTlbShootdown what s
  | .placementDecision => Sys2Proof.Machine.execPlacementDecision s
  | .controlPeriodLatch temps droop next => Sys2Proof.Machine.execControlPeriodLatch temps droop next s
  | .peerNotice port set => Sys2Proof.Machine.execPeerNotice port set s
  | .clkreqWrite core w => Sys2Proof.Machine.execClkreqWrite core w s
  | .railChangeDone core => Sys2Proof.Machine.execRailChangeDone core s
  | .sliceClockSwitch core slice => Sys2Proof.Machine.execSliceClockSwitch core slice s
  | .ageingMeasure core slow => Sys2Proof.Machine.execAgeingMeasure core slow s
  | .kick q w => Sys2Proof.Machine.execKick q w s
  | .packetRetry q => Sys2Proof.Machine.execPacketRetry q s
  | .pktNop q => Sys2Proof.Machine.execPktNop q s
  | .pktLaunch q => Sys2Proof.Machine.execPktLaunch q s
  | .pktFence q => Sys2Proof.Machine.execPktFence q s
  | .fenceCountersPass q => Sys2Proof.Machine.execFenceCountersPass q s
  | .pktSignal q => Sys2Proof.Machine.execPktSignal q s
  | .pktCopy q => Sys2Proof.Machine.execPktCopy q s
  | .vtabFreeze q => Sys2Proof.Machine.execVtabFreeze q s
  | .vtabThaw q => Sys2Proof.Machine.execVtabThaw q s
  | .vtabReset q => Sys2Proof.Machine.execVtabReset q s
  | .pktMode q => Sys2Proof.Machine.execPktMode q s
  | .qcmdEnable q => Sys2Proof.Machine.execQcmdEnable q s
  | .qcmdPreempt q => Sys2Proof.Machine.execQcmdPreempt q s
  | .qcmdResume q => Sys2Proof.Machine.execQcmdResume q s
  | .qcmdDiscard q => Sys2Proof.Machine.execQcmdDiscard q s
  | .qcmdDisable q => Sys2Proof.Machine.execQcmdDisable q s
  | .fserv q n => Sys2Proof.Machine.execFserv q n s
  | .fqhead q n => Sys2Proof.Machine.execFqhead q n s
  | .registerWrite off w => Sys2Proof.Machine.execRegisterWrite off w s
  | .hostAccess a => Sys2Proof.Machine.execHostAccess a s
  | .peerAccess port a => Sys2Proof.Machine.execPeerAccess port a s
  | .peerPortDown port => Sys2Proof.Machine.execPeerPortDown port s
  | .attestationRequest nonce => Sys2Proof.Machine.execAttestationRequest nonce s
  | .powerOnReset => Sys2Proof.Machine.execPowerOnReset s
  | .dramTrainingDone ok => Sys2Proof.Machine.execDramTrainingDone ok s
  | .firmwareVerify key => Sys2Proof.Machine.execFirmwareVerify key s
  | .firmwareLoadDone f => Sys2Proof.Machine.execFirmwareLoadDone f s
  | .bypass => Sys2Proof.Machine.execBypass s
  | .idcode => Sys2Proof.Machine.execIdcode s
  | .samplePreload => Sys2Proof.Machine.execSamplePreload s
  | .extest selected => Sys2Proof.Machine.execExtest selected s
  | .peerPortUp port => Sys2Proof.Machine.execPeerPortUp port s
  | .noticeRelease port => Sys2Proof.Machine.execNoticeRelease port s
  | .firmwareEvent core => Sys2Proof.Machine.execFirmwareEvent core s
  | .copyPacketDone q => Sys2Proof.Machine.execCopyPacketDone q s
  | .railsUp => Sys2Proof.Machine.execRailsUp s
  | .powerLoss => Sys2Proof.Machine.execPowerLoss s

end Sys2Proof.Machine
end

