-- ==== Sys2Proof/Machine/Step.lean ====
section
/-! DEFINITION. One step of the device, and the placing of one instruction for it to run. -/

namespace Sys2Proof.Machine

/-- A step is over: nobody issues, and the next step's free values are new ones. -/
def State.tick (s : State) : State := { s with cur := none, ctr := s.ctr + 1 }

def tickOut : Out → Out
  | .next s => .next s.tick
  | .fault r => .fault r
  | .refused r => .refused r

/-- An issue on a slice: the instruction selected and fetched is executed, and counted (R269). -/
def issueStep (core slice : Nat) (s : State) : Out :=
  match s.issueOn core slice with
  | .run i s => tickOut (countOut s i (exec i s))
  | .done s => .next s.tick

/-- The first of some events that changes the state. -/
def firstEvent (s : State) : List Instr → Option State
  | [] => none
  | i :: r => match exec i s with
    | .next t => if t = s then firstEvent s r else some t
    | _ => firstEvent s r

/-- With nothing said of what comes next: a latch that is due, an issue that is due, else an event that is due, else a core cycle
passes. -/
def autoStep (s : State) : Out :=
  if s.isOff then .next s.tick
  else if s.latchDue then tickOut (exec s.autoLatch s)
  else match s.nextIssue with
    | some e => issueStep e.1 e.2 s
    | none => match firstEvent s s.events with
      | some t => .next t.tick
      | none => .next (s.advance 1).tick

/-- The act of an agenda entry. -/
def actStep (a : Act) (s : State) : Out :=
  match a with
  | .ev i => if s.admits i then tickOut (exec i s) else .next s.tick
  | .issue core slice => issueStep core slice s
  | .deed d => .next (if s.admitsDeed d then s.deed d else s).tick

/-- An agenda entry: what is due on the way to it comes first, at its time, and the entry stays with what is left of its core
cycles; then filler operations that are due; then the act. -/
def moveStep (a : Move) (r : List Move) (s : State) : Out :=
  match s.firstDue a with
  | some (d, i) => tickOut (exec i (({ s with agenda := { a with dt := a.dt - d } :: r }).advance d))
  | none =>
    match (s.advance a.dt).firstFill with
    | some i => tickOut (exec i (({ s with agenda := { a with dt := 0 } :: r }).advance a.dt))
    | none => actStep a.act (({ s with agenda := r }).advance a.dt)

/-- One step: the head of the agenda, or what the device does by itself. -/
def step (s : State) : Host.Outcome State Fault Refusal :=
  match s.agenda with
  | [] => autoStep s
  | a :: r => moveStep a r s

-- placing one instruction

/-- Where `withFetchWord` puts its instruction, and the page table through which it is fetched: one 16 GiB page
from address 0, read, write and execute, at its own physical address. -/
def fetchPc : Nat := 0x30000
def fetchRoot : Nat := 0x10000

/-- The grid of the placed instruction: one colony of one fibre on core 0, window 256. -/
def fetchGrid (x : Queue) : Grid :=
  { id := 0, q := 0, depth := 0, parent := none
    launch := { entry := fetchPc, colonies := 1, fibres := 1, cores := 1, win := 256, spad := 0x100000, heat := 0, dn := false, arg := 0, done := 0 }
    prio := x.prio, det := x.det, debug := x.debug, lease := x.lease, st := .running, usec := 0, nextCol := 1, ended := [], refusals := 0
    forced := false, combs := [], bufs := [], staged := [], updates := [], gone := true, doneSeq := none }

def fetchColony : Colony :=
  { grid := 0, col := 0, cores := [0], live := 1, nextFid := 1, bars := colonyBars, energy := 0, refresh := 0, heat := 0, forced := false
    forms := 1, saved := [] }

/-- A core with no clock switch and no ramp-down under way, of which something could be due. -/
def Core.settled (k : Core) : Core :=
  { k with engine := { k.engine with busySince := none }, power := k.power.mapSlices fun _ x => { x with frozen := none } }

/-- The device with one instruction placed where its next step fetches: in READY, queue 0 running, a grid of
one fibre resident on core 0 whose pc is the instruction's address, and an agenda whose first entry is
the issue on slice 0. This stands for bring-up, the launch and the loading of a program. -/
def State.withFetchWord (s : State) (nbits w : Nat) : State :=
  let x := s.queue 0
  let slot := newSlot 0 0 0 256 x.prio 0 (BitVec.ofNat 64 fetchPc) [(0, [])] s.now
  let k := (s.core 0).settled
  let s : State := { s with
    phase := 5, jtag := .idcode
    live := if s.live.isEmpty then List.range 30 else s.live
    grids := [fetchGrid x], nextGrid := max 1 s.nextGrid, colonies := [fetchColony]
    acc := (List.range 256).map fun v => (.vault v, [{ base := 0, limit := 2 ^ 40, master := none, r := true, w := true, x := true }])
    staging := 2 ^ 30
    thermal := { s.thermal with dieStop := [], period := max s.thermal.period (s.now / Config.periodCycles) }
    cores := s.cores.map fun c => (c.1, c.2.settled)
    agenda := [⟨0, .issue 0 0⟩] }
  let s := s.setQueue 0 { x with st := .running, root := fetchRoot }
  let s := s.setCore 0 { k with
    slots := [(0, slot)], tlb := [], icache := []
    allocs := [{ grid := 0, col := 0, rank := 0, off := 0, size := 0x100000 }]
    handler := { k.handler with slot := k.handler.slot.single 0 .waiti s.now, service := none, pending := [] }
    power := { k.power with dead := false, slices := k.power.slices.set 0 { k.power.slice 0 with origin := s.now, who := [], lastIssue := none } } }
  let s : State := { s with clTlbs := ldel s.clTlbs 0, badMem := s.badMem.filter (· != fetchPc / 64) }
  ((s.wrNat fetchRoot 8 0x20001).wrNat 0x20000 8 0x73).wrBytes fetchPc (tableBytes nbits w)

end Sys2Proof.Machine
end

