-- ==== Sys2Proof/Machine/Ordering.lean ====
section
/-! DEFINITION. The memory ordering rules (R185 to R204): candidate executions, the relations among their events, and
the axioms that say which of them the device may show. `exec` performs each access when its instruction issues, which
is one of the executions these rules allow; which values other fibres, cores, the host or a peer may see instead is
what these definitions judge. -/

namespace Sys2Proof.Machine

-- events and agents (R185 to R189)

/-- An agent (R186). An engine acting for an operation counts as the swarm that issued it, and what the parser of a queue does
for its packets as the queue's (R296; DEDUCED, log 118). -/
inductive Agent
  | fibre (core slot grid col fid : Nat)
  | queue (q : Nat)
  | host
  | peer (p : Nat)
  deriving DecidableEq, Repr

/-- The ordering attribute of a page; the scratchpad behaves as RC (R188). -/
inductive Attr | so | rc | uo
  deriving DecidableEq, Repr

/-- An access: a load, a store or both (a read-modify-write), its kind and scope as coded, the page attribute of its
bytes (a straddling access is two of these, R189), its bytes, the `.t` mark (R166), and the page's physical base and size. -/
structure AccEv where
  rd : Bool
  wr : Bool
  strong : Bool
  acq : Bool
  rel : Bool
  sc : Scope
  attr : Attr
  bytes : List Loc
  tick : Bool
  frame : Nat × Nat := (0, 2 ^ 34)
  deriving DecidableEq, Repr

/-- The synchronisation events (R185), and an accepted KICK write (R294). -/
inductive Mark
  | arrive | release | fork | start | issue | retire | resume | ready | ldt | empty | completion | kick
  deriving DecidableEq, Repr

/-- What an event is (R185): `park` is a switch-marker park; `writes` is an instruction that makes no access and writes these
registers, scalar ones with true (R191). -/
inductive EvKind
  | access (a : AccEv)
  | fence (sc : Scope)
  | fenco (sc : Scope)
  | fencr (sc : Scope)
  | park
  | mark (m : Mark)
  | writes (regs : List (Bool × Nat))
  deriving DecidableEq, Repr

/-- An event with its agent. `mask` lists the fibres of the active mask of one made once for the whole swarm (R186).
`op` is the instruction that makes it, `nth` its place in the order in which its swarm issues, `lane` its lane; a split access has its
parts on the pages `page` by `part` (R189). `engine` marks what an engine does, in no fibre's program order. -/
structure OrdEvent where
  agent : Agent
  kind : EvKind
  mask : List Agent := []
  op : Option Instr := none
  nth : Nat := 0
  lane : Nat := 0
  page : Nat := 0
  part : Nat := 0
  engine : Bool := false
  deriving DecidableEq, Repr

def OrdEvent.once (o : OrdEvent) : Bool := !o.mask.isEmpty

/-- A barrier round, by its arrival and release events (R195). -/
structure RoundEv where
  arrivals : List Nat
  releases : List Nat
  deriving DecidableEq, Repr

/-- An operation of an engine, a posted atomic or a LAUNCH (R174, R196), by an event that issues it: its retirement, and the grid
that a LAUNCH queues. -/
structure OpEv where
  issue : Nat
  retire : Option Nat
  child : Option Nat := none
  deriving DecidableEq, Repr

/-- One filling of a tile (R178, R196): an issuing event of its CPYT, READY, the LDTs that issue while it is READY, and the return
to EMPTY. -/
structure TileEv where
  copy : Nat
  ready : Option Nat
  ldts : List Nat
  empty : Option Nat
  deriving DecidableEq, Repr

/-- A grid that completes: its completion, the DONE addition and the retirement from CHILD that follow (R196), and the
read-modify-writes of its flush in their order (R197, R253). -/
structure GridEv where
  grid : Nat
  completion : Nat
  after : List Nat
  flush : List Nat := []
  deriving DecidableEq, Repr

/-- An accepted KICK write and every event of the packets that it covers (R294). -/
structure KickEv where
  kick : Nat
  events : List Nat
  deriving DecidableEq, Repr

/-- A FENCE packet: the loads that satisfy it, and every event of the later packets (R296). -/
structure FencePktEv where
  polls : List Nat
  later : List Nat
  deriving DecidableEq, Repr

/-- A candidate execution: its events by number, the program order of each fibre, host and peer, what each loaded
byte reads from (none: the initial value), the order of the stores to each byte, the choices R193 and R194 leave, and
the synchronisation of R192, R195, R196, R294 and R296. `det` lists the grids of queues in deterministic mode (R197), `staged`
the `.t` stores that the ticket unit stages (R255), and `colonies` the cores of each colony by grid and COLID (R172). -/
structure Candidate where
  evs : List OrdEvent
  progs : List (Agent × List Nat)
  rf : List ((Nat × Loc) × Option Nat)
  co : List (Loc × List Nat)
  dirs : List (Nat × Nat)
  serial : List (Nat × Nat)
  forks : List (Nat × Nat)
  rounds : List RoundEv
  ops : List OpEv
  tiles : List TileEv
  grids : List GridEv
  det : List Nat
  staged : List Nat := []
  colonies : List ((Nat × Nat) × List Nat) := []
  kicks : List KickEv := []
  fencePkts : List FencePktEv := []
  deriving DecidableEq, Repr

def Candidate.kind? (x : Candidate) (e : Nat) : Option EvKind := (x.evs[e]?).map fun o => o.kind
def Candidate.agent? (x : Candidate) (e : Nat) : Option Agent := (x.evs[e]?).map fun o => o.agent
def Candidate.acc? (x : Candidate) (e : Nat) : Option AccEv :=
  match x.evs[e]? with
  | some o => (match o.kind with | .access a => some a | _ => none)
  | none => none

def Candidate.op? (x : Candidate) (e : Nat) : Option Instr := (x.evs[e]?).bind fun o => o.op
def Candidate.isEngine (x : Candidate) (e : Nat) : Bool := (x.evs[e]?).any fun o => o.engine
def Candidate.isAcc (x : Candidate) (e : Nat) : Bool := (x.acc? e).isSome
/-- An access with this property. -/
def Candidate.accIs (x : Candidate) (e : Nat) (p : AccEv → Bool) : Bool := (x.acc? e).any p

/-- The events with this property. -/
def Candidate.those (x : Candidate) (p : Nat → Bool) : List Nat := (List.range x.evs.length).filter p
/-- An event is a synchronisation event of this kind. -/
def Candidate.isMark (x : Candidate) (e : Nat) (m : Mark) : Bool := x.kind? e == some (.mark m)

/-- A FENCE or FENCR. -/
def Candidate.isFence (x : Candidate) (e : Nat) : Bool :=
  match x.kind? e with
  | some (.fence _) | some (.fencr _) => true
  | _ => false

/-- Every access to an SO page is strong (R188). -/
def AccEv.isStrong (a : AccEv) : Bool := a.strong || a.attr == .so
/-- The scope an access acts at: SYSTEM where a weak-coded one goes to an SO page (R188), and at most COLONY on the
scratchpad (R159, R187). -/
def AccEv.scope (a : AccEv) : Scope :=
  let s := if !a.strong && a.attr == .so then .system else a.sc
  let spad := a.bytes.any fun l => match l with | .spad _ _ => true | .phys _ => false
  match s with
  | .cluster | .device | .system => if spad then .colony else s
  | s => s

def Candidate.scope? (x : Candidate) (e : Nat) : Option Scope :=
  match x.evs[e]? with
  | some o =>
    let s := match o.kind with
      | .access a => if a.isStrong then some a.scope else none
      | .fence s | .fenco s | .fencr s => some s
      | _ => none
    if o.once && s == some .fibre then some .swarm else s
  | none => none

/-- Agent `b` is in the scope of agent `a` (R187). -/
def inScope (s : Scope) (a b : Agent) : Bool :=
  match a, b with
  | .fibre k j g c f, .fibre k' j' g' c' f' =>
    match s with
    | .fibre => k == k' && j == j' && g == g' && c == c' && f == f'
    | .swarm => k == k' && j == j'
    | .colony => g == g' && c == c'
    | .cluster => k / 8 == k' / 8
    | .device | .system => true
  | .queue q, .queue p => s == .device || s == .system || q == p
  | .queue _, .fibre _ _ _ _ _ | .fibre _ _ _ _ _, .queue _ => s == .device || s == .system
  | .fibre _ _ _ _ _, _ | .queue _, _ => s == .system
  | _, _ => true

/-- The scope of event `a` contains the agent of event `b`; a weak access has no scope. -/
def Candidate.holds (x : Candidate) (a b : Nat) : Bool :=
  match x.scope? a, x.evs[a]?, x.evs[b]? with
  | some s, some p, some q => inScope s p.agent q.agent
  | _, _, _ => false
/-- The scope of a FENCR contains a core (R172, R194): the colony's cores, the cluster's or the device's. -/
def Candidate.holdsCore (x : Candidate) (g : Nat) (core : Nat) : Bool :=
  match x.scope? g, x.agent? g with
  | some s, some (.fibre k _ gr c _) =>
    (match s with
    | .fibre | .swarm => k == core
    | .colony => ((x.colonies.find? fun e => e.1 == (gr, c)).map fun e => e.2.contains core).getD (k == core)
    | .cluster => k / 8 == core / 8
    | .device | .system => true)
  | _, _ => false

/-- Mutually scoped events (R187). -/
def Candidate.mutual (x : Candidate) (a b : Nat) : Bool := x.holds a b && x.holds b a

/-- The aligned pieces of a weak-coded access to an SO page, in ascending order (R189). -/
def soSeries : Nat → Nat → Nat → List (Nat × Nat)
  | 0, _, _ => []
  | fuel + 1, a, n =>
    match [16, 8, 4, 2, 1].find? fun k => decide (k ≤ n) && a % k == 0 with
    | some k => (a, k) :: soSeries fuel (a + k) (n - k)
    | none => []

-- what the instructions of the events name

/-- The grid of a fibre, or of what an engine does for it. -/
def Agent.grid? : Agent → Option Nat
  | .fibre _ _ g _ _ => some g
  | _ => none
/-- The colony of a fibre, by grid and COLID. -/
def Agent.colony? : Agent → Option (Nat × Nat)
  | .fibre _ _ g c _ => some (g, c)
  | _ => none
def Agent.core? : Agent → Option Nat
  | .fibre k _ _ _ _ => some k
  | _ => none

/-- An access or instruction that is one event of its swarm (R186). -/
def isOnce : Instr → Bool
  | .ld h _ _ _ _ | .lds h _ _ _ _ | .st h _ _ _ _ _ | .sts h _ _ _ _ | .atom h _ _ _ _ _ _ _ _ | .atoms h _ _ _ _ _ _ _ _ => h.sc
  | .fence _ _ | .fenco _ _ | .fencr _ _ | .waitc _ _ _ | .lwait _ _ | .cpyt _ _ _ _ _ _ | .vcall _ _ _ _ _ _ | .vpeek _ _ _ _ _ _ _ => true
  | _ => false

/-- A posted atomic (R171); one that a deterministic grid redirects, since ATOMS never is (R251); and one that goes to comb
cells (R252). -/
def isPosted : Instr → Bool
  | .atom _ _ _ _ post _ _ _ _ | .atoms _ _ _ _ post _ _ _ _ => post
  | _ => false
def isHeld : Instr → Bool
  | .atom _ _ _ _ post _ _ _ _ => post
  | _ => false
def isComb : Instr → Bool
  | .atom _ .fadd _ _ post _ _ _ _ => post
  | _ => false
/-- An instruction whose tag update the engine makes (R236). -/
def isVret : Instr → Bool
  | .vret _ => true
  | _ => false
def isLaunch : Instr → Bool
  | .launch _ _ _ => true
  | _ => false
/-- The tile that a CPYT fills. -/
def tileOf : Instr → Option (BitVec 8)
  | .cpyt _ t _ _ _ _ => some t
  | _ => none
/-- The tile that an LDT reads. -/
def ldtTile : Instr → Option TileSel
  | .ldtFrag _ _ t _ | .ldtWord _ _ t _ => some t
  | _ => none
/-- The class that an instruction adds to, and what a WAITC or LWAIT waits for (R174). -/
def classOf : Instr → Option EngClass
  | .cpyG2s _ _ _ _ | .cpyS2g _ _ _ _ | .cpyt _ _ _ _ _ _ => some .copy
  | .launch _ _ _ => some .child
  | i => if isPosted i then some .post else none
def waitOf : Instr → Option (EngClass × Nat)
  | .waitc _ c n => some (c, n.toNat)
  | .lwait _ n => some (.child, n.toNat)
  | _ => none

/-- Registers of a form, scalar ones with true (R43). -/
def regsAt (sc : Bool) (d : Nat) (k : Nat) : List (Bool × Nat) := (List.range k).map fun i => (sc, d + i)
def regsOf (k : Nat) : Src → List (Bool × Nat)
  | .v n => regsAt false n.toNat k
  | .s n => regsAt true n.toNat k
  | .lit _ => []
def addrRegs (spad : Bool) (m : MemOpd) : List (Bool × Nat) := regsOf (if spad then 1 else 2) m.base ++ ((m.off.map (regsOf 1)).getD [])

/-- The registers that a load writes (R165 to R173, R181). -/
def loadRegs : Instr → List (Bool × Nat)
  | .ld h t _ d _ | .lds h t _ d _ => regsAt h.sc d.toNat (LdT.regs t)
  | .ldb _ _ _ _ d _ | .ldtFrag _ d _ _ => regsAt false d.toNat 17
  | .atom h _ w64 _ post _ d _ _ | .atoms h _ w64 _ post _ d _ _ => if post then [] else regsAt h.sc d.toNat (if w64 then 2 else 1)
  | .fill _ n _ d _ => regsAt false d.toNat (n.toNat + 1)
  | .ldtWord _ d _ _ | .vpeek _ d _ _ _ _ _ => regsAt false d.toNat 1
  | _ => []

/-- The registers that a store's address and data read (R158, R166 to R173). -/
def storeRegs : Instr → List (Bool × Nat)
  | .st h t _ _ d m => regsAt h.sc d.toNat (StT.regs t) ++ addrRegs false m
  | .sts h t _ d m => regsAt h.sc d.toNat (StT.regs t) ++ addrRegs true m
  | .stb _ f spad _ d m => regsAt false d.toNat (match f with | .block g _ _ _ _ => elems g | .frag => 17) ++ addrRegs spad m
  | .spill _ n spad d m => regsAt false d.toNat (n.toNat + 1) ++ addrRegs spad m
  | .atom _ o w64 _ _ _ _ b m => regsOf ((if o == .cas then 2 else 1) * (if w64 then 2 else 1)) b ++ addrRegs false m
  | .atoms _ o w64 _ _ _ _ b m => regsOf ((if o == .cas then 2 else 1) * (if w64 then 2 else 1)) b ++ addrRegs true m
  | _ => []

-- relations

/-- `a` stands before `b` in a list of events. -/
def before (l : List Nat) (a b : Nat) : Bool := ((l.dropWhile (· != a)).drop 1).contains b

/-- Program order (R186). -/
def Candidate.po (x : Candidate) (a b : Nat) : Bool := x.progs.any fun l => before l.2 a b

/-- Two events are made by, or for, one instruction of one swarm. -/
def Candidate.sameOp (x : Candidate) (a b : Nat) : Bool :=
  match x.evs[a]?, x.evs[b]? with
  | some o, some p => o.nth == p.nth && o.op == p.op && inScope .swarm o.agent p.agent
  | _, _ => false
/-- Two events of one fibre of an instruction, or of its swarm where that is one event. -/
def Candidate.sameMaker (x : Candidate) (a b : Nat) : Bool :=
  x.sameOp a b && match x.evs[a]?, x.evs[b]? with
    | some o, some p => !o.engine && !p.engine && (o.agent == p.agent || (o.once && p.once))
    | _, _ => false

/-- The registers that an event writes. -/
def Candidate.written (x : Candidate) (e : Nat) : List (Bool × Nat) :=
  match x.kind? e with
  | some (.writes l) => l
  | some (.access a) => if a.rd then ((x.op? e).map loadRegs).getD [] else []
  | _ => []
/-- The store's address or data, in the same lane, reads a register that the load writes and nothing writes in between (R191). -/
def Candidate.dep (x : Candidate) (a b : Nat) : Bool :=
  x.progs.any fun l => before l.2 a b && (x.written a).any fun r => (((x.op? b).map storeRegs).getD []).contains r &&
    !l.2.any fun w => before l.2 a w && before l.2 w b && !x.sameMaker a w && !x.sameMaker w b && (x.written w).contains r

/-- A switch-marker park lies after the first and at or before the second in one fibre's program order (R191). -/
def Candidate.parked (x : Candidate) (a b : Nat) : Bool :=
  x.progs.any fun l => before l.2 a b && l.2.any fun p => x.kind? p == some .park && before l.2 a p && (before l.2 p b || x.sameOp p b)

/-- A FORK lane is a release, and the start of its fibre the acquire that matches it (R59). -/
def Candidate.isFork (x : Candidate) (e : Nat) : Bool := x.forks.any (·.1 == e)
def Candidate.isStart (x : Candidate) (e : Nat) : Bool := x.forks.any (·.2 == e)

/-- Preserved program order (R191). -/
def Candidate.ppo (x : Candidate) (a b : Nat) : Bool :=
  (x.po a b && x.accIs a (·.attr != .uo) && x.isFork b) || (x.po a b && x.isStart a && x.accIs b (·.attr != .uo)) ||
  x.po a b && x.isAcc a && x.isAcc b &&
  ((x.accIs a (·.acq) && x.accIs b (·.attr != .uo)) || (x.accIs a (·.attr != .uo) && x.accIs b (·.rel)) ||
   (x.accIs a (·.attr == .so) && x.accIs b (·.attr == .so)) ||
   (x.accIs a (·.rd) && x.accIs b (·.wr) && (x.dep a b || x.parked a b)))

/-- What a load reads of a byte: the outer none where the candidate gives no source. -/
def Candidate.src (x : Candidate) (l : Nat) (b : Loc) : Option (Option Nat) := (x.rf.find? fun e => e.1 == (l, b)).map (·.2)
def Candidate.reads (x : Candidate) (w l : Nat) : Bool := x.rf.any fun e => e.1.1 == l && e.2 == some w

/-- The signal, and the read-modify-writes reached from it by a chain, each reading from the one before (R192). -/
def Candidate.chain (x : Candidate) : Nat → List Nat → List Nat
  | 0, l => l
  | k + 1, l => x.chain k (l ++ (List.range x.evs.length).filter fun u =>
      x.accIs u (fun a => a.rd && a.wr) && !l.contains u && l.any fun w => x.reads w u)

/-- The release points with their signals and the acquire points with their observers (R192). -/
def Candidate.signals (x : Candidate) (r : Nat) : List Nat :=
  (if x.accIs r (·.rel) then [r] else []) ++
  (if x.isFence r then (List.range x.evs.length).filter fun s => x.po r s && x.accIs s (fun a => a.wr && a.isStrong) else [])
def Candidate.observers (x : Candidate) (q : Nat) : List Nat :=
  (if x.accIs q (·.acq) then [q] else []) ++
  (if x.isFence q then (List.range x.evs.length).filter fun o => x.po o q && x.accIs o (fun a => a.rd && a.isStrong) else [])

/-- Synchronises-with (R192): also from each FORK lane to the start of its fibre (R59). -/
def Candidate.sw (x : Candidate) (r q : Nat) : Bool :=
  x.forks.contains (r, q) ||
  (x.holds r q && x.holds q r && (x.signals r).any fun s => (x.observers q).any fun o =>
    x.mutual s o && (x.chain x.evs.length [s]).any fun w => x.reads w o)

/-- The FENCO and FENCR pair rule applies (R194). -/
def Candidate.paired (x : Candidate) (f g : Nat) : Bool :=
  match x.kind? f, x.kind? g with
  | some (.fenco _), some (.fencr _) =>
    (match x.agent? f with | some (.fibre k _ _ _ _) => x.holdsCore g k && x.holds f g | _ => false)
  | _, _ => false

/-- Fence order (R193, R194). -/
def Candidate.fo (x : Candidate) (a b : Nat) : Bool :=
  (x.isFence b && x.po a b) || (x.isFence a && x.po a b) || x.dirs.contains (a, b) ||
  (x.isAcc a && x.isAcc b && (List.range x.evs.length).any fun f => (List.range x.evs.length).any fun g => x.paired f g &&
    (if x.serial.contains (f, g) then x.po a f && x.po g b else x.po a g && x.po f b))

/-- Barrier order (R195). -/
def Candidate.bo (x : Candidate) (a b : Nat) : Bool := x.rounds.any fun r =>
  (x.isAcc a && r.arrivals.contains b && x.po a b) || (r.arrivals.contains a && r.releases.contains b) ||
  (r.releases.contains a && x.isAcc b && x.po a b)

/-- An event is of a grid in deterministic mode, and of an atomic that is redirected there (R251). -/
def Candidate.inDet (x : Candidate) (e : Nat) : Bool := ((x.agent? e).bind (·.grid?)).any x.det.contains
def Candidate.held (x : Candidate) (e : Nat) : Bool := x.inDet e && (x.op? e).any isHeld

/-- What an operation does (R196): the engine's accesses for it, the posted atomic of its lanes, the events of the grid that a
LAUNCH queues, and for a redirected atomic the flush of its grid: its own drains, or the comb words (R197). -/
def Candidate.acts (x : Candidate) (o : OpEv) : List Nat := x.those fun a =>
  match o.child with
  | some g => (x.agent? a).bind (·.grid?) == some g
  | none => x.isAcc a &&
    if x.held o.issue then
      (x.grids.any fun g => g.flush.contains a && (x.agent? o.issue).bind (·.grid?) == some g.grid) &&
        (if (x.op? o.issue).any isComb then (x.op? a).any isComb else x.sameOp o.issue a)
    else x.sameOp o.issue a && x.isEngine a == !(x.op? o.issue).any isPosted
/-- The events that issue an operation: one, or one in each lane. -/
def Candidate.issues (x : Candidate) (o : OpEv) : List Nat := x.those fun e => x.isMark e .issue && x.sameOp o.issue e

/-- A WAITC or LWAIT resume covers an operation (R174): it is of its class and swarm and waits until at most n are left, and at
least n others of the class issued between the two. -/
def Candidate.covers (x : Candidate) (o : OpEv) (r : Nat) : Bool :=
  x.isMark r .resume &&
  match x.evs[o.issue]?, x.evs[r]?, (x.op? r).bind waitOf with
  | some i, some w, some (c, n) =>
    let of (e : OrdEvent) : Bool := e.op.bind classOf == some c && inScope .swarm e.agent w.agent && decide (e.nth < w.nth)
    of i && decide (n ≤ ((x.evs.filter fun e => e.kind == .mark .issue && of e && decide (i.nth < e.nth)).map (·.nth)).eraseDups.length)
  | _, _, _ => false

/-- The core and number of the tile that a filling is of, its block writes, and the data reads of its LDTs. -/
def Candidate.tile? (x : Candidate) (t : TileEv) : Option (Nat × BitVec 8) :=
  match (x.agent? t.copy).bind (·.core?), (x.op? t.copy).bind tileOf with
  | some k, some n => some (k, n)
  | _, _ => none
def Candidate.blockWrites (x : Candidate) (t : TileEv) : List Nat := (x.acts ⟨t.copy, none, none⟩).filter fun a => x.accIs a (·.wr)
def Candidate.dataReads (x : Candidate) (t : TileEv) : List Nat := x.those fun a => x.isAcc a && t.ldts.any (x.sameMaker a)
/-- The second filling follows the first in one tile. -/
def Candidate.refills (x : Candidate) (t u : TileEv × Nat) : Bool := decide (t.2 < u.2) && x.tile? t.1 == x.tile? u.1

/-- A grid and its descendants, by the LAUNCHes of their fibres. -/
def Candidate.kin (x : Candidate) : Nat → List Nat → List Nat
  | 0, l => l
  | k + 1, l => x.kin k (l ++ x.ops.filterMap fun o => if ((x.agent? o.issue).bind (·.grid?)).any l.contains then o.child else none)
/-- The events of a grid and of its descendants, but for what follows a completion. -/
def Candidate.gridEvents (x : Candidate) (g : GridEv) : List Nat :=
  let l := x.kin x.ops.length [g.grid]
  x.those fun e => ((x.agent? e).bind (·.grid?)).any l.contains && e != g.completion && !x.grids.any fun h => h.after.contains e

/-- A tag update of a grid, which a deterministic one applies behind its flush (R237, R253). -/
def Candidate.updates (x : Candidate) (g : GridEv) (e : Nat) : Bool :=
  x.isEngine e && (x.op? e).any isVret && x.det.contains g.grid && (x.agent? e).bind (·.grid?) == some g.grid

/-- Engine order (R196). A redirected atomic retires when it is accepted, and a grid's flush is behind its other events and before
its completion (R197); the entry of a tag update is written before SEQ (R236). -/
def Candidate.eo (x : Candidate) (a b : Nat) : Bool :=
  (x.ops.any fun o =>
    (x.isAcc a && !x.sameOp o.issue a && (x.issues o).any (x.po a) && (x.acts o).contains b) ||
    (o.retire == some b && o.child.isNone && !x.held o.issue && (x.acts o).contains a) ||
    (o.retire == some a && (x.covers o b || (x.isAcc b && (x.those (x.covers o)).any (x.po · b)))) ||
    ((x.op? o.issue).any isVret && (x.acts o).contains a && (x.acts o).contains b && x.accIs a (·.bytes.length == 32) && x.accIs b (·.bytes.length == 4))) ||
  (x.tiles.zipIdx.any fun t =>
    (t.1.ready == some b && (x.blockWrites t.1).contains a) ||
    (t.1.ready == some a && (t.1.ldts.contains b || (x.isAcc b && t.1.ldts.any (x.po · b)))) ||
    (t.1.empty == some b && (x.dataReads t.1).contains a) ||
    (t.1.empty == some a && x.tiles.zipIdx.any fun u => x.refills t u && (x.blockWrites u.1).contains b)) ||
  (x.grids.any fun g =>
    (g.completion == b && (x.gridEvents g).contains a) || (g.completion == a && g.after.contains b) ||
    (g.flush.contains b && !g.flush.contains a && !x.updates g a && (x.gridEvents g).contains a) || (g.flush.contains a && x.updates g b))

/-- Packet order: a host access that arrived before an accepted KICK write, and the packets that it covers (R294); the store
that a FENCE packet has seen, and the later packets (R296). -/
def Candidate.ko (x : Candidate) (a b : Nat) : Bool :=
  (x.kicks.any fun k => x.isAcc a && x.agent? a == some .host && x.po a k.kick && k.events.contains b) ||
  (x.fencePkts.any fun f => f.later.contains b && f.polls.any fun p => x.reads a p)

/-- Ticket order of a deterministic queue (R197): between the `.t` stores of two colonies of one of its grids, and from
such a store to a load of another agent that reads it. -/
def Candidate.tk (x : Candidate) (a b : Nat) : Bool :=
  x.accIs a (fun p => p.tick && p.wr) &&
  match x.agent? a, x.agent? b with
  | some (.fibre k j g c f), some q =>
    x.det.contains g &&
    ((match q with
      | .fibre _ _ g' c' _ => x.accIs b (fun p => p.tick && p.wr) && g == g' && decide (c < c')
      | _ => false) || (x.reads a b && Agent.fibre k j g c f != q))
  | _, _ => false

/-- The pairs of events in a relation. -/
def pairsOf (n : Nat) (p : Nat → Nat → Bool) : List (Nat × Nat) :=
  (List.range n).flatMap fun a => (List.range n).filterMap fun b => if p a b then some (a, b) else none
/-- The transitive closure, one event at a time as the way between. -/
def closure (n : Nat) (r : List (Nat × Nat)) : List (Nat × Nat) :=
  (List.range n).foldl (fun r k => pairsOf n fun a b => r.contains (a, b) || (r.contains (a, k) && r.contains (k, b))) r
def acyclic (n : Nat) (r : List (Nat × Nat)) : Bool := (closure n r).all fun e => e.1 != e.2

/-- Happens-before (R198), packet order included (R294, R296). -/
def Candidate.hb (x : Candidate) : List (Nat × Nat) :=
  closure x.evs.length (pairsOf x.evs.length fun a b => x.ppo a b || x.fo a b || x.sw a b || x.eo a b || x.bo a b || x.tk a b || x.ko a b)

-- the candidate is one (R190, R193, R204)

def Candidate.bytes (x : Candidate) : List Loc := (x.evs.flatMap fun e => match e.kind with | .access a => a.bytes | _ => []).eraseDups
/-- The order of the stores to a byte (R190). -/
def Candidate.order (x : Candidate) (b : Loc) : List Nat := ((x.co.find? fun e => e.1 == b).map (·.2)).getD []
def Candidate.touches (x : Candidate) (e : Nat) (b : Loc) : Bool := x.accIs e (·.bytes.contains b)
def Candidate.stores (x : Candidate) (e : Nat) (b : Loc) : Bool := x.accIs e (fun a => a.wr && a.bytes.contains b)
def Candidate.loads (x : Candidate) (e : Nat) (b : Loc) : Bool := x.accIs e (fun a => a.rd && a.bytes.contains b)

/-- Each loaded byte reads from one store to it or its initial value; the stores to a byte stand in one order (R190). -/
def Candidate.sourced (x : Candidate) : Bool :=
  x.bytes.all fun b =>
    (x.order b).Nodup && (x.order b).all (x.stores · b) &&
    (List.range x.evs.length).all fun e => (!x.stores e b || (x.order b).contains e) &&
      (!x.loads e b || match x.src e b with | some (some w) => x.stores w b | some none => true | none => false)

/-- The chosen directions between fences: one between every two FENCEs or FENCRs of different agents that are mutually
scoped, and no other (R193). -/
def Candidate.directed (x : Candidate) : Bool :=
  let two := fun f g => x.isFence f && x.isFence g && x.mutual f g && x.agent? f != x.agent? g
  (List.range x.evs.length).all fun f => (List.range x.evs.length).all fun g =>
    if two f g then x.dirs.contains (f, g) != x.dirs.contains (g, f) else !x.dirs.contains (f, g)

/-- A byte of a scratchpad. -/
def Loc.isSpad : Loc → Bool
  | .spad _ _ => true
  | .phys _ => false

/-- The first address and the number of an access's bytes, where they lie one after another. -/
def AccEv.span? (a : AccEv) : Option (Nat × Nat) :=
  match a.bytes with
  | [] => none
  | l :: _ => if a.bytes == (List.range a.bytes.length).map (Loc.add l) then some (match l with | .phys s | .spad _ s => s, a.bytes.length) else none

/-- The bytes of an access are those of one place: a scratchpad, which behaves as RC (R188), or a page (R189, R283). -/
def AccEv.placed (a : AccEv) : Bool :=
  if a.bytes.any Loc.isSpad then a.bytes.all Loc.isSpad && a.attr == .rc && a.span?.isSome
  else match a.span? with
    | some (s, n) => [2 ^ 16, 2 ^ 25, 2 ^ 34].contains a.frame.2 && a.frame.1 % a.frame.2 == 0 && decide (a.frame.1 ≤ s) && decide (s + n ≤ a.frame.1 + a.frame.2)
    | none => false

/-- An access is of one of the kinds (R185): a load, a store or a read-modify-write, which is strong; an acquire loads, a
release stores, and both are strong; only a store has the `.t` mark; no kind but weak is performed on a UO page
(R188). -/
def AccEv.legal (a : AccEv) : Bool :=
  (a.rd || a.wr) && (!(a.rd && a.wr) || a.strong) && (!a.acq || (a.rd && a.strong)) && (!a.rel || (a.wr && a.strong)) && (!a.tick || !a.rd) &&
  (a.attr != .uo || !a.strong) && a.placed

/-- The access that an instruction makes in each lane, or once for its swarm (R184, R185): loads, stores, its kind,
its scope and its `.t` mark. SLEEP's reads and those of a variant table are strong (R62, R228); its final read is an
acquire. DESIGN CHOICE, log 111: SLEEP's other reads have the scope DEVICE, and LAUNCH's read of its record is weak. -/
def shape (i : Instr) (a : AccEv) : Bool :=
  let is (rd wr : Bool) (o : Ordk) (tick : Bool) : Bool :=
    a.rd == rd && a.wr == wr && a.tick == tick &&
    (match o with
    | .weak => !a.strong && !a.acq && !a.rel
    | .strong s => a.strong && !a.acq && !a.rel && a.sc == s
    | .sync s => a.strong && a.acq == rd && a.rel == wr && a.sc == s)
  match i with
  | .ld _ _ o _ _ | .lds _ _ o _ _ | .ldb _ _ _ o _ _ => is true false o false
  | .st _ _ tick o _ _ => is false true o tick
  | .sts _ _ o _ _ | .stb _ _ _ o _ _ => is false true o false
  | .atom _ _ _ ar _ s _ _ _ | .atoms _ _ _ ar _ s _ _ _ => a.rd && a.wr && a.strong && a.acq == ar && a.rel == ar && a.sc == s && !a.tick
  | .spill _ _ _ _ _ => is false true .weak false
  | .fill _ _ _ _ _ | .ldtFrag _ _ _ _ | .ldtWord _ _ _ _ => is true false .weak false
  | .sleep _ _ _ _ => is true false (.strong .device) false || is true false (.sync .device) false
  | .vcall _ _ _ _ _ _ | .vpeek _ _ _ _ _ _ _ => is true false (.strong .device) false
  | .launch _ _ _ => is true false .weak false
  | _ => false

/-- An access is in the space that its instruction names, and a copy reads one and writes the other (R159, R165 to R181). -/
def inSpace (i : Option Instr) (a : AccEv) : Bool :=
  let spad := a.bytes.any Loc.isSpad
  match i with
  | some (.lds _ _ _ _ _) | some (.sts _ _ _ _ _) | some (.atoms _ _ _ _ _ _ _ _ _) | some (.ldtFrag _ _ _ _) | some (.ldtWord _ _ _ _) => spad
  | some (.ldb _ _ sp _ _ _) | some (.stb _ _ sp _ _ _) | some (.spill _ _ sp _ _) | some (.fill _ _ sp _ _) => spad == sp
  | some (.cpyG2s _ _ _ _) | some (.cpyt _ _ _ _ _ _) => spad == a.wr
  | some (.cpyS2g _ _ _ _) => spad == a.rd
  | _ => !spad

/-- The bytes of the access of one lane, or of the scalar form (R165 to R173, R181), and the alignment it has (R161, R168 to
R173, R181): a strong one is naturally aligned. -/
def accSize : Instr → Nat
  | .ld _ t _ _ _ | .lds _ t _ _ _ => LdT.bytes t
  | .st _ t _ _ _ _ | .sts _ t _ _ _ => StT.bytes t
  | .atom _ _ w64 _ _ _ _ _ _ | .atoms _ _ w64 _ _ _ _ _ _ => if w64 then 8 else 4
  | .spill _ n _ _ _ | .fill _ n _ _ _ => 4 * (n.toNat + 1) + 4
  | .sleep _ _ _ _ | .ldtWord _ _ _ _ => 4
  | _ => 64
def accAlign (i : Instr) (strong : Bool) : Nat :=
  match i with
  | .ld _ _ _ _ _ | .lds _ _ _ _ _ | .st _ _ _ _ _ _ | .sts _ _ _ _ _ => if strong then accSize i else 1
  | .spill _ _ _ _ _ | .fill _ _ _ _ _ => 4
  | _ => accSize i

/-- What an engine does for an instruction (R175, R176, R197, R236): a copy's accesses are weak; a redirected atomic is performed at
the flush of its grid, as a comb word at DEVICE scope (R252) or as it is coded; DESIGN CHOICE, log 125: R197 gives all of them
DEVICE, R254 the buffered ones their own scope; a tag update is two read-modify-writes at DEVICE scope. With no instruction
it is a DONE addition (R68). -/
def engineShape (det : Bool) (i : Option Instr) (a : AccEv) : Bool :=
  let device := a.rd && a.wr && a.strong && !a.acq && !a.rel && a.sc == .device
  match i with
  | some (.cpyG2s _ _ _ _) | some (.cpyS2g _ _ _ _) | some (.cpyt _ _ _ _ _ _) => !a.strong && !a.tick && a.rd != a.wr
  | some (.vret _) => device && (a.bytes.length == 32 || a.bytes.length == 4)
  | some i => det && isHeld i && (if isComb i then device && a.bytes.length == 4 else shape i a)
  | none => a.rd && a.wr && a.rel && !a.acq && a.sc == .system && a.bytes.length == 8

/-- What the device does for a packet (R296): a strong access is an acquire where it polls and a release where it signals, at
SYSTEM scope, or the change of a variant table's header, at DEVICE scope (R300). -/
def packetShape (a : AccEv) : Bool := !a.strong || (a.sc == .system && a.acq == !a.wr && a.rel == a.wr) || (a.rd && a.wr && !a.acq && !a.rel && a.sc == .device)

/-- What makes a synchronisation event (R185): an instruction of a fibre, an engine, or the host. -/
def OrdEvent.makes (e : OrdEvent) (m : Mark) : Bool :=
  let by_ (p : Instr → Bool) : Bool := e.op.any p && !e.engine
  match m with
  | .arrive => by_ fun i => match i with | .barWait _ _ _ | .barPass _ _ _ => true | _ => false
  | .release => by_ fun i => match i with | .barWait _ _ _ => true | _ => false
  | .fork => by_ fun i => match i with | .fork _ _ _ _ => true | _ => false
  | .start => e.op.isNone && !e.engine
  | .issue => by_ fun i => isPosted i || match i with
    | .cpyG2s _ _ _ _ | .cpyS2g _ _ _ _ | .cpyt _ _ _ _ _ _ | .launch _ _ _ | .vret _ => true
    | _ => false
  | .resume => by_ fun i => match i with | .waitc _ _ _ | .lwait _ _ => true | _ => false
  | .ldt => by_ fun i => (ldtTile i).isSome
  | .retire | .ready | .empty | .completion => e.engine
  | .kick => e.agent == .host && !e.engine

/-- The kinds of the events, and what makes them (R185): an instruction its own accesses and fences, an engine those of
`engineShape`, the host and peers strong ones at SYSTEM scope, acquires where they load and releases where they store
(R204). An instruction that acts once for its swarm is one event, every other one of each lane (R186). A redirected atomic
is the flush's alone (R197). -/
def Candidate.kinds (x : Candidate) : Bool := x.evs.all fun e =>
  let det : Bool := e.agent.grid?.any x.det.contains
  (e.engine || e.kind == .park || e.op.all fun i => e.once == isOnce i) &&
  match e.kind with
  | .access a => a.legal && inSpace e.op a &&
      (match e.agent with
       | .fibre _ _ _ _ _ => if e.engine then engineShape det e.op a else e.op.any fun i => shape i a && !(det && isHeld i)
       | .queue _ => e.engine && packetShape a
       | _ => a.strong && a.sc == .system && a.acq == a.rd && a.rel == a.wr)
  | .fence s => e.op.any fun i => match i with | .fence _ t => s == t | _ => false
  | .fenco s => e.op.any fun i => match i with | .fenco _ t => s == t | _ => false
  | .fencr s => e.op.any fun i => match i with | .fencr _ t => s == t | _ => false
  | .park => true
  | .writes _ => e.op.isSome && !e.engine
  | .mark m => e.makes m

/-- An event stands in the program order of an agent (R186). -/
def OrdEvent.belongs (o : OrdEvent) (p : Agent) : Bool := !o.engine && (if o.once then o.mask.contains p else o.agent == p)

/-- Exactly one of a list has a property. -/
def oneOf {α : Type} (l : List α) (p : α → Bool) : Bool := (l.filter p).length == 1

/-- The places of the instructions (R186): a swarm issues one after another, and program order follows; a fibre, or the swarm where
that is one event, makes one event of each kind of an instruction, but for the parts of its accesses; and its lanes are
those of its fibres. -/
def Candidate.issued (x : Candidate) : Bool :=
  (List.range x.evs.length).all fun a => (List.range x.evs.length).all fun b =>
    match x.evs[a]?, x.evs[b]? with
    | some o, some p =>
      o.engine || p.engine || o.op.isNone || p.op.isNone || a == b ||
      ((!inScope .swarm o.agent p.agent || o.nth != p.nth || o.op == p.op) && (!x.po a b || decide (o.nth < p.nth) || x.sameOp a b) &&
        (o.kind == .park || p.kind == .park || !x.sameOp a b || (o.mask == p.mask && (o.once || (o.agent == p.agent) == (o.lane == p.lane)))) &&
        (o.kind == .park || p.kind == .park || !x.sameMaker a b || (o.agent == p.agent && o.lane == p.lane && ((x.isAcc a && x.isAcc b) || o.kind != p.kind))))
    | _, _ => true

/-- Each FORK lane is paired with the start of the fibre that it creates in its colony, and each start with a FORK lane
(R59, R192). -/
def Candidate.forked (x : Candidate) : Bool :=
  (x.forks.all fun f => x.isMark f.1 .fork && x.isMark f.2 .start && x.agent? f.1 != x.agent? f.2 &&
    (x.agent? f.1).bind (·.colony?) == (x.agent? f.2).bind (·.colony?) && x.progs.all fun l => !l.2.contains f.2 || l.2.head? == some f.2) &&
  (List.range x.evs.length).all fun e => (!x.isMark e .fork || oneOf x.forks (·.1 == e)) && (!x.isMark e .start || oneOf x.forks (·.2 == e))

/-- The barrier of an arrival or release, by its colony and number. -/
def Candidate.barrier? (x : Candidate) (e : Nat) : Option ((Nat × Nat) × BitVec 4) :=
  match (x.agent? e).bind (·.colony?), x.op? e with
  | some c, some (.barWait _ b _) | some c, some (.barPass _ b _) => some (c, b)
  | _, _ => none

/-- Each arrival and each release is of one round of its barrier; each fibre arrives once in a round and is released by it alone,
and a fibre that waits goes on when it is released (R19, R63, R195). -/
def Candidate.metRounds (x : Candidate) : Bool :=
  (x.rounds.all fun r =>
    r.arrivals.Nodup && r.releases.Nodup && (r.arrivals.map x.agent?).Nodup && (r.arrivals.all fun a => x.isMark a .arrive) &&
    ((r.arrivals ++ r.releases).all fun a => (r.arrivals ++ r.releases).all fun b => x.barrier? a == x.barrier? b) &&
    r.releases.all fun e => x.isMark e .release && r.arrivals.any (x.sameMaker e)) &&
  (List.range x.evs.length).all fun e =>
    (!x.isMark e .arrive || oneOf x.rounds (·.arrivals.contains e)) && (!x.isMark e .release || oneOf x.rounds (·.releases.contains e)) &&
    (!(x.isMark e .arrive && (x.op? e).any fun i => match i with | .barWait _ _ _ => true | _ => false) ||
      x.progs.all fun l => l.2.all fun b => !before l.2 e b || x.sameMaker e b || l.2.any fun r => x.isMark r .release && x.sameMaker e r && before l.2 e r && before l.2 r b)

/-- Each operation is of its issues, a LAUNCH has the grid that it queues, in its own mode (R251), and each issue, retirement,
posted atomic and child grid is of one operation; one that a resume covers has retired (R174). -/
def Candidate.metOps (x : Candidate) : Bool :=
  (x.ops.all fun o => x.isMark o.issue .issue && (o.retire.all (x.isMark · .retire)) && o.child.isSome == (x.op? o.issue).any isLaunch &&
    (o.child.all fun g => x.det.contains g == x.inDet o.issue && (x.agent? o.issue).bind (·.grid?) != some g) &&
    (o.retire.isSome || (x.those (x.covers o)).isEmpty)) &&
  (x.ops.filterMap (·.child)).Nodup &&
  (List.range x.evs.length).all fun e =>
    (!(x.isMark e .issue || (x.isAcc e && !x.isEngine e && (x.op? e).any isPosted)) || oneOf x.ops fun o => x.sameOp o.issue e) &&
    (!x.isMark e .retire || oneOf x.ops fun o => o.retire == some e)

/-- Each CPYT is one filling of a tile, which follows the one before when that is EMPTY again and is READY when the CPYT retires; each
LDT reads its own tile, of its core, while that is READY; and each of these events is of one filling (R176, R178, R181). -/
def Candidate.metTiles (x : Candidate) : Bool :=
  (x.tiles.zipIdx.all fun t =>
    x.isMark t.1.copy .issue && (x.tile? t.1).isSome && (t.1.ready.all (x.isMark · .ready)) && (t.1.empty.all (x.isMark · .empty)) &&
    (t.1.ready.isSome || (t.1.ldts.isEmpty && t.1.empty.isNone && x.ops.all fun o => !x.sameOp o.issue t.1.copy || o.retire.isNone)) &&
    (t.1.ldts.all fun l => x.isMark l .ldt && match x.tile? t.1, (x.agent? l).bind (·.core?), (x.op? l).bind ldtTile with
      | some (k, n), some c, some (.imm m) => k == c && n == m
      | some (k, _), some c, some (.reg _) => k == c
      | _, _, _ => false) &&
    (t.1.empty.isSome || x.tiles.zipIdx.all fun u => !x.refills t u)) &&
  (List.range x.evs.length).all fun e =>
    (!(x.isMark e .issue && ((x.op? e).bind tileOf).isSome) || oneOf x.tiles fun t => x.sameOp t.copy e) &&
    (!x.isMark e .ready || oneOf x.tiles fun t => t.ready == some e) && (!x.isMark e .empty || oneOf x.tiles fun t => t.empty == some e) &&
    (!x.isMark e .ldt || oneOf x.tiles fun t => t.ldts.any (x.sameOp e)) && (!x.isMark e .ldt || x.tiles.any fun t => t.ldts.contains e) &&
    (!(x.isAcc e && ((x.op? e).bind ldtTile).isSome) || (x.those fun l => x.isMark l .ldt && x.sameMaker e l) != [])

/-- The order of a flush (R253, R254): the comb words by address, then the buffered atomics by colony, in one swarm by lane and in a
lane by issue; each stands in co where it is performed. -/
def Candidate.flushedBefore (x : Candidate) (u v : Nat) : Bool :=
  (x.bytes.all fun b => !((x.order b).contains u && (x.order b).contains v) || before (x.order b) u v) &&
  match x.evs[u]?, x.evs[v]? with
  | some o, some p =>
    let at_ (e : Nat) : Nat := (((x.acc? e).bind (·.span?)).map (·.1)).getD 0
    let col (a : Agent) : Nat := (a.colony?.map (·.2)).getD 0
    if p.op.any isComb then o.op.any isComb && decide (at_ u < at_ v)
    else o.op.any isComb || (decide (col o.agent ≤ col p.agent) &&
      (!inScope .swarm o.agent p.agent || decide (o.lane < p.lane) || (o.lane == p.lane && decide (o.nth < p.nth))))
  | _, _ => false

/-- Each completion is of one grid; behind it stand its DONE addition and the retirement of its LAUNCH; its flush makes one
read-modify-write for each lane of a buffered atomic, and comb words where it has comb contributions, none of them twice (R196,
R197, R252 to R254). -/
def Candidate.metGrids (x : Candidate) : Bool :=
  let done (e : Nat) : Bool := x.isAcc e && x.isEngine e && (x.op? e).isNone && ((x.agent? e).bind (·.grid?)).isSome
  (x.grids.map (·.grid)).Nodup &&
  (x.grids.all fun g =>
    let of (e : Nat) : Bool := x.held e && (x.agent? e).bind (·.grid?) == some g.grid
    let issue (e : Nat) : Bool := x.isMark e .issue && of e
    let lane (e f : Nat) : Bool := x.sameOp e f && (x.evs[e]?).map (·.lane) == (x.evs[f]?).map (·.lane)
    x.isMark g.completion .completion && (g.after.all fun e => done e || x.isMark e .retire) && g.flush.Nodup &&
    (g.flush.all fun e => x.isAcc e && x.isEngine e && of e &&
      (x.those fun i => issue i && if (x.op? e).any isComb then (x.op? i).any isComb else lane i e) != []) &&
    (g.flush.all fun u => g.flush.all fun v => !before g.flush u v || x.flushedBefore u v) &&
    (x.those issue).all fun i => if (x.op? i).any isComb then g.flush.any fun e => (x.op? e).any isComb else oneOf g.flush (lane i)) &&
  (x.ops.all fun o => match o.child, o.retire with
    | some c, some r => x.grids.any fun g => g.grid == c && g.after.contains r
    | _, _ => true) &&
  (List.range x.evs.length).all fun e => (!x.isMark e .completion || oneOf x.grids (·.completion == e)) && (!done e || oneOf x.grids (·.after.contains e)) &&
    (!(x.isAcc e && x.isEngine e && (x.op? e).any isHeld) || oneOf x.grids (·.flush.contains e))

/-- Each packet event is covered by a KICK, each KICK is one, and a FENCE packet's polls are its acquires (R294, R296). -/
def Candidate.metPackets (x : Candidate) : Bool :=
  (x.kicks.all fun k => x.isMark k.kick .kick) &&
  (x.fencePkts.all fun f => f.polls.all fun p => x.accIs p (fun a => a.acq && a.sc == .system) && match x.agent? p with | some (.queue _) => true | _ => false) &&
  x.evs.zipIdx.all fun e => match e.1.kind, e.1.agent with
    | .mark .kick, _ => x.kicks.any (·.kick == e.2)
    | _, .queue _ => x.kicks.any fun k => k.events.contains e.2
    | _, _ => true

/-- What the ticket unit stages: `.t` stores of a deterministic grid, and none of colony 0, which holds the ticket first and never
stages (R255). -/
def Candidate.stagedOk (x : Candidate) : Bool := x.staged.all fun e =>
  x.accIs e (fun a => a.tick && a.wr) && x.inDet e && !x.isEngine e && ((x.agent? e).bind (·.colony?)).any fun c => decide (0 < c.2)

/-- The synchronisation that the candidate gives is among events of its kinds, and leaves none of them out (R185, R192, R195, R196,
R197, R255, R294, R296). -/
def Candidate.synced (x : Candidate) : Bool := x.issued && x.forked && x.metRounds && x.metOps && x.metTiles && x.metGrids && x.metPackets && x.stagedOk

/-- The relations are among the events, and the program orders are those of the agents (R186): one list for each, with
exactly its events; the fibres of a mask belong to one swarm; and each access of an engine is of an operation, a grid's
completion or a packet. -/
def Candidate.placed (x : Candidate) : Bool :=
  ((x.forks ++ x.dirs ++ x.serial).all fun p => decide (p.1 < x.evs.length) && decide (p.2 < x.evs.length)) &&
  (x.progs.map (·.1)).Nodup && (x.progs.all fun l => l.2.Nodup && (l.2.all fun e => decide (e < x.evs.length))) &&
  (x.evs.zipIdx.all fun e =>
    (x.progs.all fun l => l.2.contains e.2 == e.1.belongs l.1) &&
    (e.1.engine || (if e.1.once then e.1.mask else [e.1.agent]).all fun p => x.progs.any (·.1 == p)) &&
    e.1.mask.all fun p => inScope .swarm e.1.agent p) &&
  x.synced &&
  (x.evs.zipIdx.all fun e => !(e.1.engine && x.isAcc e.2) || (x.ops.any fun o => o.child.isNone && (x.acts o).contains e.2) ||
    (x.grids.any fun g => g.after.contains e.2) || x.kicks.any fun k => k.events.contains e.2)

-- the parts of one access (R185, R189, R202)

/-- Two events are parts of one access: of a lane, or of the swarm where it makes one; of an engine, of one lane. -/
def Candidate.sameAccess (x : Candidate) (a b : Nat) : Bool :=
  x.sameMaker a b || (x.sameOp a b && match x.evs[a]?, x.evs[b]? with
    | some o, some p => o.engine && p.engine && o.lane == p.lane
    | _, _ => false)
/-- The accesses that are parts of one with this one. -/
def Candidate.mates (x : Candidate) (e : Nat) : List Nat := x.those fun f => x.isAcc f && x.sameAccess e f
def Candidate.part? (x : Candidate) (e : Nat) : Option (Nat × Nat) := (x.evs[e]?).map fun o => (o.page, o.part)

/-- A weak-coded access to an SO page (R188, R189). -/
def AccEv.weakSo (a : AccEv) : Bool := !a.strong && a.attr == .so

/-- The bytes of an SO page that a weak-coded access reaches are one access where they are naturally aligned, and else
the series of R189, in this order. DEDUCED, log 124: what has no power of two as its size, as a SPILL's area can, is never
naturally aligned. -/
def soPieces (s n : Nat) : List (Nat × Nat) :=
  if [1, 2, 4, 8, 16, 32, 64, 128].contains n ∧ s % n = 0 then [(s, n)] else soSeries n s n

/-- The parts on a page of an access, in their order. -/
def Candidate.onPage (x : Candidate) (e p : Nat) : List AccEv :=
  (List.range (x.mates e).length).filterMap fun k => ((x.mates e).find? fun f => x.part? f == some (p, k)).bind x.acc?
/-- The bytes that the parts on one page make up, with the page: one access, or on an SO page the pieces of R189. -/
def wholeOn (l : List AccEv) : Option ((Nat × Nat) × (Nat × Nat)) :=
  match l with
  | [] => none
  | a :: _ =>
    match a.span? with
    | none => none
    | some s =>
      let n := (l.map (·.bytes.length)).sum
      if l.all (fun b => b.frame == a.frame && b.attr == a.attr) && l.map (·.span?) == ((if a.attr == .so then soPieces s.1 n else [(s.1, n)]).map some)
      then some ((s.1, n), a.frame) else none

/-- The parts of a weak access (R161, R189): all on one page; or the lower ones up to the end of theirs, and the upper ones from the
beginning of their own. -/
def Candidate.partsFit (x : Candidate) (e n al : Nat) : Bool :=
  let (l, u) := (x.onPage e 0, x.onPage e 1)
  l.length + u.length == (x.mates e).length &&
  match wholeOn l, wholeOn u with
  | some (s, f), some (t, g) => l.all (fun a => !a.bytes.any Loc.isSpad) && s.1 % al == 0 && s.1 + s.2 == f.1 + f.2 && t.1 == g.1 && s.2 + t.2 == n
  | some (s, _), none => u.isEmpty && s.1 % al == 0 && s.2 == n
  | _, _ => false

/-- The parts of a weak-coded access on SO pages are performed in ascending order, the lower page first (R189). -/
def Candidate.split (x : Candidate) : Bool := (List.range x.evs.length).all fun e => (x.mates e).all fun f =>
  x.isEngine e || !(x.accIs e (·.weakSo) && x.accIs f (·.weakSo)) ||
  match x.part? e, x.part? f with
  | some a, some b => !(decide (a.1 < b.1) || (a.1 == b.1 && decide (a.2 < b.2))) || x.po e f
  | _, _ => false

/-- Each lane of an instruction, or its scalar form, makes one access of the instruction's size (R185): a strong one is aligned
and is never split or repeated, a buffered atomic of a flush included (R202), and a weak one has the parts of `partsFit`. A
SLEEP reads its word again and again, and the last read is its acquire (R62). VCALL and VPEEK read a header and entries,
each once (R228). A flush makes each comb word once (R252). Copies and tag updates carry no size of a lane. -/
def Candidate.single (x : Candidate) : Bool := x.evs.zipIdx.all fun e =>
  match e.1.kind, e.1.op with
  | .access a, some i =>
    let mates := x.mates e.2
    let first (n : Nat) : Bool := a.bytes.length == n && a.span?.any fun s => s.1 % n == 0
    match i with
    | .cpyG2s _ _ _ _ | .cpyS2g _ _ _ _ | .cpyt _ _ _ _ _ _ | .vret _ => true
    | .sleep _ _ _ _ =>
      let later := mates.any (x.po e.2)
      first 4 && (if a.acq then !later else later || x.progs.all fun l => !l.2.contains e.2 || l.2.getLast? == some e.2)
    | .vcall _ _ _ _ _ _ | .vpeek _ _ _ _ _ _ _ => (first 64 || first 32) && mates.all fun f => f == e.2 || x.part? f != x.part? e.2
    | _ =>
      if e.1.engine && isComb i then
        first 4 && (x.those fun f => x.isEngine f && (x.op? f).any isComb && (x.agent? f).bind (·.grid?) == e.1.agent.grid? && x.accIs f (·.bytes == a.bytes)) == [e.2]
      else if a.strong then mates == [e.2] && first (accSize i)
      else x.partsFit e.2 (accSize i) (accAlign i false)
  | _, _ => true

/-- Overlapping lanes of one instruction store in ascending lane order (R163, R190). -/
def Candidate.laneOrder (x : Candidate) : Bool := x.bytes.all fun b => (x.order b).all fun u => (x.order b).all fun v =>
  match x.evs[u]?, x.evs[v]? with
  | some o, some p => !(x.sameOp u v && o.op.isSome && decide (o.lane < p.lane)) || before (x.order b) u v
  | _, _ => true

-- the axioms

/-- The load is from-read before the store: what it reads of the byte is co-before it (R190). -/
def Candidate.fr (x : Candidate) (b : Loc) (l w : Nat) : Bool :=
  x.loads l b && l != w &&
  match x.src l b with
  | some none => (x.order b).contains w
  | some (some v) => before (x.order b) v w
  | none => false

/-- Two accesses of one fibre to a byte, but for two loads on a UO page (R199). -/
def Candidate.pol (x : Candidate) (b : Loc) (a c : Nat) : Bool :=
  x.po a c && x.touches a b && x.touches c b &&
  !(x.accIs a (fun p => p.attr == .uo && !p.wr) && x.accIs c (fun p => p.attr == .uo && !p.wr))

/-- An event of the colony of a staged store, other than a later `.t` store, may come before the store is performed (R255). -/
def Candidate.ahead (x : Candidate) (a c : Nat) : Bool :=
  x.staged.contains a && (x.agent? a).bind (·.colony?) == (x.agent? c).bind (·.colony?) && !x.accIs c (·.tick)
/-- Of these, an atomic and what an engine reads see performed stores only (R255). -/
def Candidate.bypasses (x : Candidate) (a c : Nat) : Bool := x.ahead a c && (x.isEngine c || x.accIs c (fun p => p.rd && p.wr))

/-- Coherence (R199). A staged store's place in co is where it is performed, which may be behind what its colony does
afterwards (R255). -/
def Candidate.coherent (x : Candidate) : Bool := x.bytes.all fun b =>
  acyclic x.evs.length (pairsOf x.evs.length fun a c => before (x.order b) a c || x.fr b a c ||
    (!x.ahead a c && ((x.touches a b && x.touches c b && x.hb.contains (a, c)) || x.pol b a c)) ||
    ((!x.ahead a c || x.bypasses a c) && x.loads c b && x.src c b == some (some a) && a != c))

/-- A load of a byte behind a staged store to it in its own fibre reads that store or one after it, but for an atomic (R255). -/
def Candidate.stagedSeen (x : Candidate) : Bool := x.staged.all fun a => x.bytes.all fun b => (List.range x.evs.length).all fun l =>
  !(x.stores a b && x.loads l b && x.po a l && !x.bypasses a l) ||
  match x.src l b with
  | some (some w) => w == a || before (x.order b) a w
  | _ => false

/-- Atomicity (R200): nothing stands between what a read-modify-write reads and its own write. -/
def Candidate.atomic (x : Candidate) : Bool := x.bytes.all fun b => (List.range x.evs.length).all fun u =>
  !(x.loads u b && x.stores u b) || x.src u b == some (((x.order b).takeWhile (· != u)).getLast?)

/-- A store, or the initial value, is in the read set of a load (R201), which an atomic's need not hold what its colony has
staged (R255). -/
def Candidate.readable (x : Candidate) (b : Loc) (l : Nat) (w : Option Nat) : Bool :=
  (match w with | some w => !x.hb.contains (l, w) | none => true) &&
  (x.order b).all fun v => x.bypasses v l || !((match w with | some w => before (x.order b) w v | none => true) && x.hb.contains (v, l))

/-- Causality (R201). -/
def Candidate.causal (x : Candidate) : Bool :=
  acyclic x.evs.length (pairsOf x.evs.length fun a b => x.hb.contains (a, b) || (x.reads a b && a != b)) &&
  x.bytes.all fun b => (List.range x.evs.length).all fun l => !x.loads l b || match x.src l b with | some w => x.readable b l w | none => false

/-- A strong load reads all of a strong store of the same address and size or none of it (R202); a weak access reads
byte by byte (R203). -/
def Candidate.whole (x : Candidate) : Bool :=
  (List.range x.evs.length).all fun l => (List.range x.evs.length).all fun w => match x.acc? l, x.acc? w with
    | some p, some q => !(l != w && p.rd && p.isStrong && q.wr && q.isStrong && p.bytes == q.bytes) ||
        (p.bytes.all fun b => x.src l b == some (some w)) || (p.bytes.all fun b => x.src l b != some (some w))
    | _, _ => true

/-- The outcome is allowed: the candidate is one and satisfies every axiom. -/
def Candidate.allowed (x : Candidate) : Bool :=
  x.sourced && x.directed && x.kinds && x.placed && x.split && x.single && x.laneOrder && x.coherent && x.stagedSeen && x.atomic && x.causal && x.whole

end Sys2Proof.Machine
end

