-- ==== Sys2Proof/Safety.lean ====
section
/-! DEFINITION. The vocabulary of the statements: the invariant of a step, when an instruction is issued and
no check common to all stops it, and what an instruction leaves as it was. -/

namespace Sys2Proof.Machine

/-- The invariant of a step: memory and the block headers keep their canonical form, the phase is one of R321
(0 stands for a part without power), a failed part says why (R322), and from DRAM training on, 26 to 30
clusters are live (R1). -/
structure State.Inv (s : State) : Prop where
  mem : Memory.wf s.mem = true
  hdrs : cwf (0 : Word) s.hdrs = true
  phase : s.phase ∈ [0, 1, 2, 3, 4, 5, 15]
  err : s.phase = 15 ↔ s.bootErr ≠ 0
  shape : s.live.length ≤ 30 ∧ (3 ≤ s.phase ∧ s.phase ≤ 5 → 26 ≤ s.live.length)

/-- The state in which a slice fetches for the member it has selected. -/
def State.fetching (s : State) (c slice n : Nat) (m : Member) : State :=
  let s := s.onSlot c n fun x => { x with last := s.now + 1 }
  let s := s.onCore c fun k =>
    let clk := k.power.slice slice
    { k with power := k.power.setSlice slice { clk with lastIssue := some s.now, who := n :: clk.issuedAt s.now } }
  { s with cur := some ⟨c, n, m.id⟩ }

/-- The ordinary slot n of a core can issue on a slice now (R12, R250): it has not issued on this edge, and its queue is
RUNNING or an ERET has resumed it (R279). -/
def State.canIssue (s : State) (c slice n : Nat) (x : Slot) : Prop :=
  x.slice = slice ∧ n ∉ ((s.core c).power.slice slice).issuedAt s.now ∧ x.stopped = false ∧
  ((s.queue (s.queueOf x.grid)).st = .running ∨ x.resumed = true) ∧ ∃ m ∈ x.members, m.st = .ready ∧ m.mask ≠ 0

/-- Nothing is due on the way to an agenda entry (R258, R265, R268): no latch, no end of a clock switch and no filler
operation. -/
def State.free (s : State) (a : Move) : Prop := s.firstDue a = none ∧ (s.advance a.dt).firstFill = none

/-- A member issues an instruction with this frame: `e` is the member with its slot as its registers read, no
check that every instruction goes through stops it, and its guard is true in some lane (R47). -/
structure Issues (h : Hdr) (u : Uses) (w : Where) (s : State) (e : Env) : Prop where
  env : s.env h = some e
  pass : precheck e h u w s = none
  some_lane : e.act ≠ 0

/-- The state in which an instruction's own effect takes place: the issue is counted. -/
def State.issuing (s : State) : State := { s with seq := s.seq + 1 }

-- what an instruction leaves as it was

/-- The device without what the instructions of one slot change by themselves: the slot, the energy that its
colony is charged (R234), and the count of issues. -/
def State.beside (s : State) (c n : Nat) : State :=
  { s.setSlot c n handlerSlot with seq := 0, colonies := s.colonies.map fun z => { z with energy := 0 } }

/-- The device without the translations it caches (R284). -/
def State.noTlb (s : State) : State :=
  { s with clTlbs := [], cores := s.cores.map fun c => (c.1, { c.2 with tlb := [] }) }

/-- An outstanding matrix operation without what is noted of later writes to its registers (R210). -/
def MtxOp.bare (o : MtxOp) : MtxOp := { o with shadows := [], clobbered := [], void := [] }

/-- Outstanding results of which those to the registers `w` have been written over (R25). -/
def LateOp.over (o : LateOp) (w : Dest → Bool) : LateOp :=
  { o with writes := o.writes.map fun e => if w e.dst then { e with clobbered := true } else e }

/-- A fibre without its registers and predicates. -/
def Fibre.bare (f : Fibre) : Fibre := { f with regs := [], preds := 0 }

/-- A slot without its registers, predicates, flags, members, outstanding results and metered energy: its
grid, colony, window, modes, priority, fibres with their identities and variant frames, families, copies,
counters, lease and debts. -/
def Slot.plain (x : Slot) : Slot :=
  { x with
    lanes := x.lanes.map fun e => (e.1, e.2.bare), sregs := [], fflags := 0, members := [], late := [], mtx := [], badRegs := []
    xs := x.xs.map fun r => { r with energy := 0 } }

/-- One predicate of a lane. -/
def Slot.pbit (x : Slot) (l n : Nat) : Bool := (x.fibre l).preds.getLsbD n

/-- A member behind its instruction (R23): at the next address, READY or at its switch marker; its lanes and
family as before. -/
structure Passed (h : Hdr) (m m' : Member) : Prop where
  pc : m'.pc = m.pc + BitVec.ofNat 64 (lenBytes h.len)
  st : m'.st = if h.y then .marker else .ready
  mask : m'.mask = m.mask
  fam : m'.fam = m.fam
  ent : m'.ent = m.ent

/-- A member that waits in a park, at an address. -/
structure Parked (p : Park) (pc : Dword) (m m' : Member) : Prop where
  pc : m'.pc = pc
  st : m'.st = p
  src : m'.src = m.pc
  mask : m'.mask = m.mask
  fam : m'.fam = m.fam
  ent : m'.ent = m.ent

/-- The one member of a slot that changes. -/
structure OneMember (id : Nat) (x y : Slot) (q : Member → Member → Prop) : Prop where
  one : ∃ m m', x.mem? id = some m ∧ y.mem? id = some m' ∧ q m m'
  others : ∀ k, k ≠ id → y.mem? k = x.mem? k

/-- Only the slot of the instruction changes, and every byte and header of memory reads as before. -/
structure OnlySlot (e : Env) (s t : State) (x y : Slot) : Prop where
  before : s.slot? e.c e.n = some x
  after : t.slot? e.c e.n = some y
  beside : t.beside e.c e.n = s.beside e.c e.n
  mem : ∀ a, t.rdByte a = s.rdByte a
  hdr : ∀ a, t.rdHdr a = s.rdHdr a

/-- Registers, predicates, flags and outstanding results of a slot are as before. -/
structure SameRegs (x y : Slot) : Prop where
  v : ∀ l n, y.v l n = x.v l n
  s : ∀ n, y.s n = x.s n
  p : ∀ l n, y.pbit l n = x.pbit l n
  flags : y.fflags = x.fflags
  late : y.late = x.late
  mtx : y.mtx = x.mtx
  bad : y.badRegs = x.badRegs

/-- The destinations an instruction writes: registers D and predicates Q in the lanes taking part, or the
scalar registers D (R43, R47); a write to p7 is discarded (R44). -/
def written (h : Hdr) (e : Env) (D Q : List Nat) : Dest → Bool
  | .v l n => !h.sc && e.act.getLsbD l && D.contains n
  | .s n => h.sc && D.contains n
  | .p l n => e.act.getLsbD l && n != 7 && Q.contains n

/-- The lane whose operands give the results of lane l: the scalar form takes the lowest taking part (R43). -/
def giver (h : Hdr) (e : Env) (l : Nat) : Nat := if h.sc then lowest e.act else l

/-- Results written at once (R24): every lane taking part has registers and predicates that satisfy P, a
relation between the lane of the operands, the registers and the predicates; `fl` are the flags a lane
raises. Every other register, predicate and flag is as before; outstanding results and marks of the written
registers follow R25. -/
structure FixedResults (h : Hdr) (e : Env) (x y : Slot) (D Q : List Nat) (fl : Nat → Fl)
    (P : Nat → (Nat → Img) → (Nat → Bool) → Prop) : Prop where
  plain : y.plain = x.plain
  v : ∀ l n, written h e D Q (.v l n) = false → y.v l n = x.v l n
  s : ∀ n, written h e D Q (.s n) = false → y.s n = x.s n
  p : ∀ l n, written h e D Q (.p l n) = false → y.pbit l n = x.pbit l n
  result : ∀ l, e.act.getLsbD l = true → (x.fibre? l).isSome = true →
    P (giver h e l) (fun n => if h.sc then y.s n else y.v l n) (fun n => y.pbit l n)
  flags : ∀ i, y.fflags.getLsbD i = (x.fflags.getLsbD i || (e.accLanes h.sc).any fun l => (fl l).getLsbD i)
  late : y.late = x.late.map (·.over (written h e D Q))
  mtx : y.mtx.map MtxOp.bare = x.mtx.map MtxOp.bare
  bad : y.badRegs = x.badRegs.filter fun b => !written h e D Q b.1

/-- `o` is the next state of an instruction with results written at once: the member is behind its
instruction, and nothing beside its slot changes. -/
def Fixed (o : Out) (h : Hdr) (s : State) (e : Env) (D Q : List Nat) (fl : Nat → Fl)
    (P : Nat → (Nat → Img) → (Nat → Bool) → Prop) : Prop :=
  ∃ t x y, o = .next t ∧ OnlySlot e s t x y ∧ OneMember e.m.id x y (Passed h) ∧ FixedResults h e x y D Q fl P

/-- One register result with no flag. -/
def Gives (o : Out) (h : Hdr) (s : State) (e : Env) (d : BitVec 9) (P : Nat → Img → Prop) : Prop :=
  Fixed o h s e [d.toNat] [] (fun _ => 0) fun l r _ => P l (r d.toNat)

/-- A pair of registers with S clear, as a number (R42). -/
def pairOf (r : Nat → Img) (d : Nat) : Dword := pay (r (d + 1)) ++ pay (r d)

/-- A 64-bit result in a pair, S clear in both, with no flag. -/
def GivesPair (o : Out) (h : Hdr) (s : State) (e : Env) (d : BitVec 9) (P : Nat → Dword → Prop) : Prop :=
  Fixed o h s e [d.toNat, d.toNat + 1] [] (fun _ => 0) fun l r _ =>
    P l (pairOf r d.toNat) ∧ sticky (r d.toNat) = false ∧ sticky (r (d.toNat + 1)) = false

/-- One floating result: image and flags are those of a function of the lane. -/
def GivesF (o : Out) (h : Hdr) (s : State) (e : Env) (d : BitVec 9) (f : Nat → Img × Fl) : Prop :=
  Fixed o h s e [d.toNat] [] (fun l => (f l).2) fun l r _ => r d.toNat = (f l).1

-- late results (R24)

/-- The value an outstanding instruction will deliver to a destination. -/
def LateOp.value (o : LateOp) (d : Dest) : Img := ((o.writes.find? fun w => w.dst == d).map (·.val)).getD 0

/-- Late results: the slot is as before but for one more outstanding instruction, whose destinations are the
registers D and predicates Q of the lanes taking part (or the scalar registers D) and whose values satisfy
P; `fl` are the flags it raises at delivery. -/
structure LateResults (h : Hdr) (e : Env) (x y : Slot) (D Q : List Nat) (fl : Nat → Fl)
    (P : Nat → (Nat → Img) → (Nat → Bool) → Prop) : Prop where
  plain : y.plain = x.plain
  v : ∀ l n, y.v l n = x.v l n
  s : ∀ n, y.s n = x.s n
  p : ∀ l n, y.pbit l n = x.pbit l n
  flags : y.fflags = x.fflags
  mtx : y.mtx = x.mtx
  bad : y.badRegs = x.badRegs
  late : ∃ o, y.late = x.late ++ [o] ∧
    (∀ w ∈ o.writes, written h e D Q w.dst = true ∧ w.clobbered = false) ∧
    (∀ d, written h e D Q d = true → ∃ w ∈ o.writes, w.dst = d) ∧
    (∀ i, o.flags.getLsbD i = (e.accLanes h.sc).any fun l => (fl l).getLsbD i) ∧
    (∀ l, e.act.getLsbD l = true →
      P (giver h e l) (fun n => o.value (if h.sc then .s n else .v l n)) (fun n => o.value (.p l n) != 0))

/-- `o` is the next state of an instruction with late results. -/
def Late (o : Out) (h : Hdr) (s : State) (e : Env) (D Q : List Nat) (fl : Nat → Fl)
    (P : Nat → (Nat → Img) → (Nat → Bool) → Prop) : Prop :=
  ∃ t x y, o = .next t ∧ OnlySlot e s t x y ∧ OneMember e.m.id x y (Passed h) ∧ LateResults h e x y D Q fl P

/-- One late floating result. -/
def LateF (o : Out) (h : Hdr) (s : State) (e : Env) (d : BitVec 9) (f : Nat → Img × Fl) : Prop :=
  Late o h s e [d.toNat] [] (fun l => (f l).2) fun l r _ => r d.toNat = (f l).1

-- parks and traps

/-- `o` is the next state of an instruction that changes nothing but its member, which parks. -/
def Parks (o : Out) (s : State) (e : Env) (p : Park) (pc : Dword) : Prop :=
  ∃ t x y, o = .next t ∧ OnlySlot e s t x y ∧ OneMember e.m.id x y (Parked p pc) ∧ y.plain = x.plain ∧ SameRegs x y

/-- `o` is the next state of an instruction that changes nothing but its member, which passes it. -/
def Passes (o : Out) (h : Hdr) (s : State) (e : Env) : Prop :=
  ∃ t x y, o = .next t ∧ OnlySlot e s t x y ∧ OneMember e.m.id x y (Passed h) ∧ y.plain = x.plain ∧ SameRegs x y

/-- The address of the instruction behind the one a member stands at. -/
def Member.nextPc (m : Member) (h : Hdr) : Dword := m.pc + BitVec.ofNat 64 (lenBytes h.len)

/-- `o` is the next state in which an instruction of a swarm has trapped (R273): its member waits with the
cause, mask, address and information of the trap, whose pc is where it will resume; the trap is pending at
its core; no register, predicate or flag has changed, and no byte of memory. -/
def Traps (o : Out) (s : State) (e : Env) (t : TrapRec) : Prop :=
  ∃ s' x y, o = .next s' ∧ s.slot? e.c e.n = some x ∧ s'.slot? e.c e.n = some y ∧
    OneMember e.m.id x y (fun m m' => m'.st = .trap t ∧ m'.pc = t.pc ∧ m'.mask = m.mask) ∧
    { cyc := s.now, slot := e.n, mem := some e.m.id, tr := t } ∈ (s'.core e.c).handler.pending ∧
    (∀ l n, y.v l n = x.v l n) ∧ (∀ n, y.s n = x.s n) ∧ (∀ l n, y.pbit l n = x.pbit l n) ∧ y.fflags = x.fflags ∧
    ∀ a, s'.rdByte a = s.rdByte a

-- exact values and their rounding, for the statements of the numeric instructions

/-- The number a finite value stands for. -/
def Val.rat : Val → Rat
  | .fin n m e => (if n then -1 else 1) * (m : Rat) * (2 : Rat) ^ e
  | _ => 0

def Val.finite : Val → Bool | .fin _ _ _ => true | _ => false

/-- The code c of f is what a mode gives for an exact number below the largest magnitude of f, of which
`side y` says where y lies against it (R100): no other finite code is as near, or the mode's neighbour. -/
def Rounds (f : Fmt) (m : Mode) (neg : Bool) (side : Rat → Ordering) (c : Nat) : Prop :=
  let v := (decodeF f c).rat
  ∀ d, (decodeF f d).finite = true → (decodeF f d).rat ≠ v →
    let w := (decodeF f d).rat
    match m with
    | .dn => side v ≠ .gt ∧ (v < w → side w = .gt)
    | .up => side v ≠ .lt ∧ (w < v → side w = .lt)
    | .tz => if neg then side v ≠ .lt ∧ (w < v → side w = .lt) else side v ≠ .gt ∧ (v < w → side w = .gt)
    | .ne => (v < w → side ((v + w) / 2) ≠ .lt) ∧ (w < v → side ((v + w) / 2) ≠ .gt)
    | .na => (v < w → side ((v + w) / 2) ≠ .lt) ∧ (w < v → side ((v + w) / 2) ≠ .gt)

/-- Where a number lies against another. -/
def sideOf (q y : Rat) : Ordering := if y < q then .lt else if y = q then .eq else .gt

/-- The sum of two operands (R139): NaN, an invalid pair of infinities, an infinity, ZeroSign, or the exact sum
rounded. -/
def AddSpec (m : Mode) (a b : Val) (r : Img × Fl) : Prop :=
  match a, b with
  | .nan, _ | _, .nan => r = (nan32, 0)
  | .inf x, .inf y => r = if x = y then (inf32 x, 0) else (nan32, fNV)
  | .inf x, .fin _ _ _ | .fin _ _ _, .inf x => r = (inf32 x, 0)
  | .fin x _ _, .fin y _ _ =>
    if a.rat + b.rat = 0 then r = (zero32 (if x = y then x else m == .dn), 0)
    else ∃ v : Val, v.finite = true ∧ v.rat = a.rat + b.rat ∧ v.neg = decide (a.rat + b.rat < 0) ∧ r = fp32Res m v

/-- The exact product of two operands that are not an infinity and a zero. -/
def ProdSpec (a b p : Val) : Prop :=
  match a, b with
  | .nan, _ | _, .nan => p = .nan
  | .inf x, y | y, .inf x => p = .inf (x != y.neg)
  | .fin x _ _, .fin y _ _ => p.finite = true ∧ p.rat = a.rat * b.rat ∧ p.neg = (x != y)

/-- The product of two operands (R139). -/
def MulSpec (m : Mode) (a b : Val) (r : Img × Fl) : Prop :=
  if infZero a b then r = (nan32, fNV)
  else ∃ p, ProdSpec a b p ∧ r = match p with
    | .nan => (nan32, 0)
    | .inf n => (inf32 n, 0)
    | .fin n k e => if k = 0 then (zero32 n, 0) else fp32Res m (.fin n k e)

/-- The fused product and sum (R139). -/
def FmaSpec (m : Mode) (a b c : Val) (r : Img × Fl) : Prop :=
  if infZero a b then r = (nan32, fNV) else ∃ p, ProdSpec a b p ∧ AddSpec m p c r

/-- A payload is an FP32 NaN. -/
def nanWord (w : Word) : Bool := decide (0x7F800000 < w.toNat % 2 ^ 31)
/-- The order of FP32 codes that are not NaN, -0 below +0. -/
def key32 (w : Word) : Int := if w.msb then -1 - (w.toNat % 2 ^ 31 : Nat) else (w.toNat % 2 ^ 31 : Nat)
/-- The order of their values, -0 equal to +0. -/
def keyVal (w : Word) : Int := if w.msb then -(w.toNat % 2 ^ 31 : Nat) else (w.toNat % 2 ^ 31 : Nat)

/-- A number rounded to an integer in a mode (R100). -/
def IntRounds (m : Mode) (q : Rat) (z : Int) : Prop :=
  let d := (z : Rat) - q
  match m with
  | .dn => d ≤ 0 ∧ -1 < d
  | .up => 0 ≤ d ∧ d < 1
  | .tz => if q < 0 then 0 ≤ d ∧ d < 1 else d ≤ 0 ∧ -1 < d
  | .ne => -1 ≤ 2 * d ∧ 2 * d ≤ 1 ∧ (2 * d = 1 ∨ 2 * d = -1 → z % 2 = 0)
  | .na => -1 ≤ 2 * d ∧ 2 * d ≤ 1 ∧ (2 * d = 1 → 0 < q) ∧ (2 * d = -1 → q < 0)

/-- The identities of R153. -/
def identWord (o : ROp) : Word :=
  match o with
  | .fadd | .iadd | .umax | .or | .xor => 0
  | .fmin => 0x7F800000
  | .fmax => 0xFF800000
  | .imin => 0x7FFFFFFF
  | .imax => 0x80000000
  | .umin | .and => 0xFFFFFFFF

/-- ExactSum of FP32 values (R110). -/
def SumSpec (m : Mode) (vs : List Val) (r : Img × Fl) : Prop :=
  if Val.nan ∈ vs then r = (nan32, 0)
  else if Val.inf true ∈ vs ∧ Val.inf false ∈ vs then r = (nan32, fNV)
  else if Val.inf true ∈ vs then r = (inf32 true, 0)
  else if Val.inf false ∈ vs then r = (inf32 false, 0)
  else if (vs.map Val.rat).sum = 0 then r = (pureImg 0, 0)
  else ∃ v : Val, v.finite = true ∧ v.rat = (vs.map Val.rat).sum ∧ v.neg = decide ((vs.map Val.rat).sum < 0) ∧ r = fp32Res m v

/-- The first of the extreme elements that are not NaN under the order of FMIN or FMAX (R140, R154). -/
def PickSpec (mx : Bool) (xs : List Img) (r : Img) : Prop :=
  if ∀ x ∈ xs, nanWord (pay x) = true then r = nan32
  else ∃ i, i < xs.length ∧ xs[i]? = some r ∧ nanWord (pay r) = false ∧ ∀ (j : Nat) (y : Img), xs[j]? = some y → nanWord (pay y) = false →
    if key32 (pay y) = key32 (pay r) then i ≤ j else (if mx then key32 (pay y) < key32 (pay r) else key32 (pay r) < key32 (pay y))

/-- What REDX and SCANX give for the images of a set of members in ascending lane order (R153, R154). -/
def ReduceSpec (o : ROp) (m : Mode) (xs : List Img) (r : Img × Fl) : Prop :=
  let ws := xs.map pay
  let w := pay r.1
  if xs = [] then r = (pureImg (identWord o), 0)
  else match o with
    | .fadd => SumSpec m (xs.map f32) r
    | .fmin => r.2 = 0 ∧ PickSpec false xs r.1
    | .fmax => r.2 = 0 ∧ PickSpec true xs r.1
    | .iadd => r.2 = 0 ∧ sticky r.1 = false ∧ w.toNat = (ws.map (·.toNat)).sum % 2 ^ 32
    | .imin => r.2 = 0 ∧ sticky r.1 = false ∧ w ∈ ws ∧ ∀ y ∈ ws, w.toInt ≤ y.toInt
    | .imax => r.2 = 0 ∧ sticky r.1 = false ∧ w ∈ ws ∧ ∀ y ∈ ws, y.toInt ≤ w.toInt
    | .umin => r.2 = 0 ∧ sticky r.1 = false ∧ w ∈ ws ∧ ∀ y ∈ ws, w.toNat ≤ y.toNat
    | .umax => r.2 = 0 ∧ sticky r.1 = false ∧ w ∈ ws ∧ ∀ y ∈ ws, y.toNat ≤ w.toNat
    | .and => r.2 = 0 ∧ sticky r.1 = false ∧ ∀ i, i < 32 → (w.getLsbD i = true ↔ ∀ y ∈ ws, y.getLsbD i = true)
    | .or => r.2 = 0 ∧ sticky r.1 = false ∧ ∀ i, i < 32 → (w.getLsbD i = true ↔ ∃ y ∈ ws, y.getLsbD i = true)
    | .xor => r.2 = 0 ∧ sticky r.1 = false ∧ ∀ i, i < 32 → w.getLsbD i = decide ((ws.countP (·.getLsbD i)) % 2 = 1)

-- control transfer, barriers, waits

/-- A slot without its families, beside what `plain` leaves out. -/
def Slot.apart (x : Slot) : Slot := { x.plain with fams := [], nextId := 0 }

/-- The device without the lease of a core's matrix engine (R220). -/
def State.unleased (s : State) (c : Nat) : State :=
  s.onCore c fun k => { k with engine := { k.engine with holder := none, drainTo := 0 } }

/-- As `Parks`, for a park that ends a lease of its slot (R220). -/
def ParksFree (o : Out) (s : State) (e : Env) (p : Park) (pc : Dword) : Prop :=
  ∃ t x y, o = .next t ∧ s.slot? e.c e.n = some x ∧ t.slot? e.c e.n = some y ∧ OneMember e.m.id x y (Parked p pc) ∧
    y.plain = x.plain ∧ SameRegs x y ∧ (t.unleased e.c).beside e.c e.n = (s.unleased e.c).beside e.c e.n ∧
    (∀ k, (t.core e.c).engine.holder ≠ some (e.n, k)) ∧ (∀ a, t.rdByte a = s.rdByte a) ∧ ∀ a, t.rdHdr a = s.rdHdr a

/-- The registers after a call with a link pair (R54), or after a transfer with none. -/
def LinkRegs (e : Env) (x y : Slot) (link : Option (BitVec 8)) (next : Dword) : Prop :=
  match link with
  | none => SameRegs x y
  | some d =>
    (∀ l n, ¬(e.act.getLsbD l = true ∧ (n = d.toNat ∨ n = d.toNat + 1)) → y.v l n = x.v l n) ∧
    (∀ l, e.act.getLsbD l = true → (x.fibre? l).isSome = true →
      pairOf (y.v l) d.toNat = next ∧ sticky (y.v l d.toNat) = false ∧ sticky (y.v l (d.toNat + 1)) = false) ∧
    (∀ n, y.s n = x.s n) ∧ (∀ l n, y.pbit l n = x.pbit l n) ∧ y.fflags = x.fflags

/-- A member divided by the targets of its lanes (R27): one new member per target, with the lanes that go there,
in a new family inside the old one. -/
def Divided (e : Env) (x y : Slot) (st : Park) (tgt : Nat → Dword) : Prop :=
  ∃ new, y.members = x.members.filter (fun k => k.id != e.m.id) ++ new ∧ (new.map (·.pc)).Nodup ∧
    (∀ k ∈ new, k.mask ≠ 0 ∧ k.st = st ∧ k.fam = x.nextId ∧ ∀ l, k.mask.getLsbD l = true → e.m.mask.getLsbD l = true ∧ k.pc = tgt l) ∧
    (∀ l, e.m.mask.getLsbD l = true → ∃ k ∈ new, k.mask.getLsbD l = true) ∧
    y.fams = x.fams ++ [{ id := x.nextId, outer := e.m.fam, kind := .branch, ent := e.m.ent }]

/-- A control transfer (R27, R40, R53, R55): lanes whose guard is false go on behind it; a target that is not
aligned, or too large, traps before anything changes; under `.u` lanes that leave the lowest one trap. -/
def Transfers (o : Out) (h : Hdr) (s : State) (e : Env) (u : Bool) (link : Option (BitVec 8)) (tgt : Nat → Dword) : Prop :=
  let go := fun l => if e.act.getLsbD l then tgt l else e.m.nextPc h
  let lane := fun l => e.m.mask.getLsbD l = true
  let odd := fun l => e.m.mask.getLsbD l && (go l).extractLsb' 0 2 != 0
  let big := fun l => e.m.mask.getLsbD l && (go l).extractLsb' 52 12 != 0
  let off := fun l => e.m.mask.getLsbD l && go l != go (lowest e.m.mask)
  let fails := fun (cause info : Nat) (bad : Nat → Bool) (addr : Dword) => e.n ≠ 64 → ∃ m : Mask, (∀ l, l < 64 → m.getLsbD l = bad l) ∧
    Traps o s e { cause := cause, pc := e.m.pc, mask := m, addr := addr, info := BitVec.ofNat 32 info }
  (∀ k, odd k = true → (∀ l, l < k → odd l = false) → fails 2 2 odd (go k)) ∧
  ((∀ l, odd l = false) → ∀ k, big k = true → (∀ l, l < k → big l = false) → fails 2 3 big (go k)) ∧
  ((∀ l, odd l = false) → (∀ l, big l = false) → u = true → (∃ l, off l = true) → fails 4 0 off 0) ∧
  ((∀ l, odd l = false) → (∀ l, big l = false) → (∀ l, off l = false) →
    ∃ t x y, o = .next t ∧ OnlySlot e s t x y ∧ LinkRegs e x y link (e.m.nextPc h) ∧ y.plain = x.plain ∧
      OneMember e.m.id x y fun m m' => m'.pc = go (lowest e.m.mask) ∧ m'.st = (if h.y then .marker else .ready) ∧ m'.mask = m.mask ∧ m'.fam = m.fam ∧ m'.ent = m.ent) ∧
  ((∀ l, odd l = false) → (∀ l, big l = false) → u = false → (∃ l, off l = true) →
    ∃ t x y, o = .next t ∧ OnlySlot e s t x y ∧ LinkRegs e x y link (e.m.nextPc h) ∧ y.apart = x.apart ∧
      Divided e x y (if h.y then .marker else .ready) go ∧ ∃ l, lane l)

-- results and effects relative to the state that an access leaves (translations cached)

/-- As `Fixed`, where an access has left the state s' (R284). -/
def FixedOver (o : Out) (h : Hdr) (s s' : State) (e : Env) (D Q : List Nat) (fl : Nat → Fl)
    (P : Nat → (Nat → Img) → (Nat → Bool) → Prop) : Prop :=
  ∃ t x y, o = .next t ∧ s.slot? e.c e.n = some x ∧ t.slot? e.c e.n = some y ∧ t.beside e.c e.n = s'.beside e.c e.n ∧
    OneMember e.m.id x y (Passed h) ∧ FixedResults h e x y D Q fl P

/-- As `Late`, where an access has left the state s'. -/
def LateOver (o : Out) (h : Hdr) (s s' : State) (e : Env) (D Q : List Nat) (fl : Nat → Fl)
    (P : Nat → (Nat → Img) → (Nat → Bool) → Prop) : Prop :=
  ∃ t x y, o = .next t ∧ s.slot? e.c e.n = some x ∧ t.slot? e.c e.n = some y ∧ t.beside e.c e.n = s'.beside e.c e.n ∧
    OneMember e.m.id x y (Passed h) ∧ LateResults h e x y D Q fl P

/-- The trap record of an MCHK that a slot owes (R222, R289), raised at the address a member waits at: that of a matrix
failure counts the operations issued since. -/
def MchkDue.record (d : MchkDue) (pc : Dword) : TrapRec :=
  { cause := 0x12, pc := pc, mask := d.mask, addr := d.addr
    info := if d.info.toNat % 256 = 1 then d.info + BitVec.ofNat 32 (256 * min d.after 255) else d.info }

-- variant tables (R225 to R232)

/-- A VCALL or VPEEK of the lowest lane taking part finds a legal table: its address, the snapshot, and the state
after its accesses. -/
def ReadsTable (s : State) (e : Env) (tab : BitVec 9) (disp : Word) (a : Dword) (t : VTable) (s' : State) : Prop :=
  let r : Req := { spad := false, acc := 1, strong := true, align := 64, ainfo := 2, typed := false }
  a = e.pair (lowest e.act) false (.s tab) + disp.signExtend 64 ∧
  ∃ s1 p1 p2, s.issuing.check e r [⟨lowest e.act, a, 64⟩] = .ok s1 p1 [] none ∧
    s1.readFault (p1.map fun p => (p.1, a, p.2)) = none ∧ headerFault (readTable (s1.load e.own (p1.flatMap (·.2)))) = none ∧
    s1.check e r [⟨lowest e.act, a, 64 + 32 * (readTable (s1.load e.own (p1.flatMap (·.2)))).count⟩] = .ok s' p2 [] none ∧
    s'.readFault (p2.map fun p => (p.1, a, p.2)) = none ∧ t = readTable (s'.load e.own (p2.flatMap (·.2))) ∧ tableFault t (e.x.win / 32) = none

/-- The selection of R231: the best fresh entry within the limits, else under the probe policy the best of all, else
under the default policy the default entry; ties go to the lower index. -/
def PicksEntry (t : VTable) (m : VMode) (now tl el ql : Nat) (r : Option (Nat × Nat)) : Prop :=
  let ok := fun i => ∃ v, t.entries[i]? = some v ∧ v.en = true ∧ v.ttag ≤ tl ∧ v.etag ≤ el ∧ ql ≤ v.qtag
  let fresh := fun i => ok i ∧ ∃ v, t.entries[i]? = some v ∧ (now + 2 ^ 32 - v.stamp) % 2 ^ 32 ≤ t.age ∧ t.mins ≤ v.nsamp
  let key := fun i => match t.entries[i]? with
    | none => (0 : Int)
    | some v => match m with | .tq => v.etag | .eq => v.ttag | .te => -v.qtag
  let best := fun (p : Nat → Prop) i => p i ∧ ∀ j, p j → key i ≤ key j ∧ (key i = key j → i ≤ j)
  let none_ := (∀ j, ¬fresh j) ∧ (t.policy % 2 = 1 → ∀ j, ¬ok j)
  let dflt := t.policy / 2 % 2 = 1 ∧ t.defidx ≠ 0xFF ∧ ∃ v, t.entries[t.defidx]? = some v ∧ v.en = true
  match r with
  | some (i, 0) => best fresh i
  | some (i, 1) => (∀ j, ¬fresh j) ∧ t.policy % 2 = 1 ∧ best ok i
  | some (i, 2) => none_ ∧ dflt ∧ i = t.defidx
  | none => none_ ∧ ¬dflt
  | _ => False

/-- The limits of a lane (R71): those the mode names, clipped to the budgets of the lane's top frame. -/
def LaneLimits (e : Env) (l : Nat) (m : VMode) (l1 l2 : Src) (tl el ql : Nat) : Prop :=
  let f := e.x.fibre l
  let b := match f.frames with | [] => (f.baseT, f.baseE) | t :: _ => (t.vtb, t.veb)
  let u := fun x => (e.pay l x).toNat
  match m with
  | .tq => tl = min (u l1) b.1 ∧ el = b.2 ∧ ql = u l2 % 2 ^ 16
  | .eq => tl = b.1 ∧ el = min (u l1) b.2 ∧ ql = u l2 % 2 ^ 16
  | .te => tl = min (u l1) b.1 ∧ el = min (u l2) b.2 ∧ ql = 0

-- memory accesses (R158 to R173)

/-- The last value listed for a key. -/
def lastAt {α β : Type} [BEq α] (cs : List (α × β)) (k : α) : Option β := (cs.reverse.find? fun c => c.1 == k).map (·.2)

/-- A location of memory proper: DRAM, the host's memory, a scratchpad. -/
def MemLoc : Loc → Prop
  | .phys a => target a = some .dram ∨ target a = some .host
  | .spad _ _ => True

/-- The block of a location, for its header. -/
def Loc.block : Loc → Loc
  | .phys a => .phys (a / 64)
  | .spad c a => .spad c (a / 64)

/-- `o` is the next state of an instruction that has stored `cells` and the headers `hs` over the state s' that
its access left, the last listed of a place standing; it has raised `fls`, added `posts` to its POST counter and
changed the outstanding results as `late` says; every other byte, header, register and predicate is as before. -/
def Effects (o : Out) (h : Hdr) (s s' : State) (e : Env) (fls : List Fl) (cells : List (Loc × Byte)) (hs : List (Loc × Word))
    (posts : Nat) (late : List LateOp → List LateOp → Prop) : Prop :=
  ∃ t x y, o = .next t ∧ s.slot? e.c e.n = some x ∧ t.slot? e.c e.n = some y ∧ OneMember e.m.id x y (Passed h) ∧
    { y.plain with copies := [], posts := 0 } = { x.plain with copies := [], posts := 0 } ∧ y.copies.length = x.copies.length ∧
    y.posts = x.posts + posts ∧ late x.late y.late ∧ y.mtx = x.mtx ∧ y.badRegs = x.badRegs ∧
    (∀ l n, y.v l n = x.v l n) ∧ (∀ n, y.s n = x.s n) ∧ (∀ l n, y.pbit l n = x.pbit l n) ∧
    (∀ i, y.fflags.getLsbD i = (x.fflags.getLsbD i || fls.any (·.getLsbD i))) ∧
    (∀ a, t.rdByte a = (lastAt cells (.phys a)).getD (s'.rdByte a)) ∧
    (∀ c a, lget 0 (t.core c).spad a = (lastAt cells (.spad c a)).getD (lget 0 (s'.core c).spad a)) ∧
    (∀ b, lget 0 t.hdrs b = (lastAt hs (.phys b)).getD (lget 0 s'.hdrs b)) ∧
    (∀ c b, lget 0 (t.core c).spadHdr b = (lastAt hs (.spad c b)).getD (lget 0 (s'.core c).spadHdr b)) ∧
    ∀ c n z, ¬(c = e.c ∧ n = e.n) → s.slot? c n = some z → ∃ w, t.slot? c n = some w ∧ { w with copies := [] } = { z with copies := [] }

/-- A narrow code widened to FP32 (R165): the same value, S clear. -/
def Widened (f : Fmt) (w : Nat) (r : Img) : Prop :=
  sticky r = false ∧ match decodeF f w with
  | .nan => r = nan32
  | .inf n => r = inf32 n
  | .fin n k x => (f32 r).finite = true ∧ (f32 r).rat = (Val.fin n k x).rat ∧ (f32 r).neg = n

/-- The registers of a load from the number w its bytes stand for (R165). -/
def Loaded (t : LdT) (w : Nat) (r : Nat → Img) : Prop :=
  match t with
  | .b32 | .u8 | .u16 => r 0 = pureImg (BitVec.ofNat 32 w)
  | .s8 => sticky (r 0) = false ∧ (pay (r 0)).toInt = (BitVec.ofNat 8 w).toInt
  | .s16 => sticky (r 0) = false ∧ (pay (r 0)).toInt = (BitVec.ofNat 16 w).toInt
  | .b64 => ∀ i, i < 2 → r i = pureImg (BitVec.ofNat 32 (w / 2 ^ (32 * i)))
  | .b128 => ∀ i, i < 4 → r i = pureImg (BitVec.ofNat 32 (w / 2 ^ (32 * i)))
  | .bf16 => Widened .bf16 w (r 0)
  | .fp16 => Widened .fp16 w (r 0)
  | .e4m3 => Widened .e4m3 w (r 0)
  | .e5m2 => Widened .e5m2 w (r 0)

/-- The bytes and flags of a store of the registers x (R166). -/
def StoredBytes (t : StT) (mode : RMod → Mode) (x : Nat → Img) (b : List Byte) (fl : Fl) : Prop :=
  match t with
  | .commit g f rm => let r := commitRound (x 0) f g (mode rm) 0 none
    b = natLe (StT.bytes t) r.code ∧ fl = r.fl
  | _ => fl = 0 ∧ b.length = StT.bytes t ∧ ∀ i, i < StT.bytes t → b[i]? = some ((pay (x (i / 4))).extractLsb' (8 * (i % 4)) 8)

/-- The new value of an atomic (R170), from the old one, the operand and CAS's replacement. -/
def AtomSpec {w : Nat} (o : AtOp) (m : Mode) (old b c new : BitVec w) : Prop :=
  match o with
  | .add => new.toNat = (old.toNat + b.toNat) % 2 ^ w
  | .fadd => ∃ r, SumSpec m [f32 (pureImg (old.setWidth 32)), f32 (pureImg (b.setWidth 32))] r ∧ new = (pay r.1).setWidth w
  | .min => (new = old ∨ new = b) ∧ new.toInt ≤ old.toInt ∧ new.toInt ≤ b.toInt
  | .max => (new = old ∨ new = b) ∧ old.toInt ≤ new.toInt ∧ b.toInt ≤ new.toInt
  | .umin => (new = old ∨ new = b) ∧ new.toNat ≤ old.toNat ∧ new.toNat ≤ b.toNat
  | .umax => (new = old ∨ new = b) ∧ old.toNat ≤ new.toNat ∧ b.toNat ≤ new.toNat
  | .and => ∀ i, new.getLsbD i = (old.getLsbD i && b.getLsbD i)
  | .or => ∀ i, new.getLsbD i = (old.getLsbD i || b.getLsbD i)
  | .xor => ∀ i, new.getLsbD i = (old.getLsbD i != b.getLsbD i)
  | .exch => new = b
  | .cas => new = if old = b then c else old

/-- The check of an access stops with this trap, for these accesses, the first of which is the lowest lane's. -/
def ChecksTrap (r : Chk) (cause info : Nat) (bad : List LaneAcc) : Prop :=
  ∃ t, r = .trap t ∧ t.cause = cause ∧ t.info = info ∧ (∀ l, l < 64 → t.mask.getLsbD l = bad.any (·.lane == l)) ∧ bad.head?.map (·.addr) = some t.addr

/-- What the page that translation finds answers for a lane's access within one granule (R162, R284): the page does
not allow it, or the access table does not; a strong access of an unordered page; an untyped page where a typed one
is asked for; else the access goes on at the page's physical address, and leaves the state u and the tracked
entries lv. -/
def PageAnswer (o : Chk) (s : State) (q : Nat) (r : Req) (a : LaneAcc) (t : TlbEntry) (u : State) (lv : List Nat) : Prop :=
  let pa := t.pa + (a.addr.toNat - t.va)
  let kind : Acc := if r.acc = 1 then .read else .write
  if (if r.acc = 1 then t.r else t.w) = false then ChecksTrap o 9 (if r.acc = 1 then 2 else 3) [a]
  else if (s.allowed q pa kind && s.allowedRange q pa a.n kind) = false then ChecksTrap o 9 5 [a]
  else if r.strong = true ∧ t.ord = 2 then ChecksTrap o 10 1 [a]
  else if r.typed = true ∧ t.typ = false then ChecksTrap o 11 3 [a]
  else ∃ p, o = .ok u [(a.lane, [p])] (if r.acc = 1 then [] else lv) none ∧ p.loc = .phys pa ∧ p.n = a.n ∧ p.typ = t.typ

/-- `o` is the next state of an instruction for which the lanes of `f` have found no page, after the state s' its access
left (R285): they wait as one member at the instruction, for the service of the queue's next fault number or for room
in its ring; the lanes that are left are behind the instruction; every other member is as before. The lanes that went
on have stored `cells`, raised `fls` and changed the outstanding results as `late` says; no register or predicate has
changed, and no other byte of memory but those of the fault record. -/
def SplitOff (o : Out) (h : Hdr) (s s' : State) (e : Env) (f : PageFault) (fls : List Fl) (cells : List (Loc × Byte))
    (late : List LateOp → List LateOp → Prop) : Prop :=
  let q := s'.queue (s.queueOf e.x.grid)
  let rest := e.m.mask &&& ~~~f.mask
  ∃ t x y, o = .next t ∧ s.slot? e.c e.n = some x ∧ t.slot? e.c e.n = some y ∧
    (∃ k ∈ y.members, k.mask = f.mask ∧ k.pc = e.m.pc ∧ k.left = none ∧
      k.st = if q.fq ≠ 0 ∧ q.full = true then .ringFull 1 f.acc f.addr f.malformed else .fault q.nextFault f.addr) ∧
    (rest ≠ 0 → ∃ k ∈ y.members, k.mask = rest ∧ k.pc = e.m.nextPc h ∧ k.st = if h.y then .marker else .ready) ∧
    (∀ k, k.id ≠ e.m.id → k ∈ x.members → k ∈ y.members) ∧
    (t.queue (s.queueOf e.x.grid)).nextFault = (if q.fq ≠ 0 ∧ q.full = true then q.nextFault else (q.nextFault + 1) % 2 ^ 32) ∧
    late x.late y.late ∧ (∀ l n, y.v l n = x.v l n) ∧ (∀ n, y.s n = x.s n) ∧ (∀ l n, y.pbit l n = x.pbit l n) ∧
    (∀ i, y.fflags.getLsbD i = (x.fflags.getLsbD i || fls.any (·.getLsbD i))) ∧
    ∀ a, (q.fq = 0 ∨ a < q.recAddr ∨ q.recAddr + 64 ≤ a) → t.rdByte a = (lastAt cells (.phys a)).getD (s'.rdByte a)

-- the matrix engine (R205 to R224)

/-- One output element of a floating MMA (R211, R214): the exact sum of the products and the accumulator. -/
def ElemSpec (m : Mode) (a b acc : List Val) (r : Img × Fl) : Prop :=
  if Val.nan ∈ a ++ b ++ acc then r = (nan32, 0)
  else if (a.zip b).any (fun p => infZero p.1 p.2) = true then r = (nan32, fNV)
  else ∃ ps : List Val, ps.length = (a.zip b).length ∧
    (∀ (i : Nat) (p : Val × Val) (q : Val), (a.zip b)[i]? = some p → ps[i]? = some q → ProdSpec p.1 p.2 q) ∧ SumSpec m (ps ++ acc) r

/-- One output element of an integer MMA (R214): the sum modulo 2^32, and whether it overflows. -/
def IntElemSpec (a b : List Val) (acc : Int) (r : Img × Fl) : Prop :=
  ∃ z : Int, (z : Rat) = ((a.zip b).map fun p => p.1.rat * p.2.rat).sum + acc ∧ r.1 = pureImg (BitVec.ofInt 32 z) ∧
    r.2 = if z < -(2 ^ 31) ∨ 2 ^ 31 ≤ z then fOF else 0

/-- `o` is the next state of a matrix operation that is issued (R209): it stands last among the outstanding ones of
its slot, with its rows, the columns and the rounding mode of issue; a failure the slot owes counts it (R222); nothing
else of the slot changes. -/
def IssuesMatrix (o : Out) (h : Hdr) (s : State) (e : Env) (x : Slot) (i : Instr) : Prop :=
  ∃ t y p, o = .next t ∧ t.slot? e.c e.n = some y ∧ OneMember e.m.id x y (Passed h) ∧ y.mtx = x.mtx ++ [p] ∧
    p.op = i ∧ p.rows = e.act ∧ p.cols = x.occupied ∧ p.fm = x.fmode.toNat ∧ p.pc = e.m.pc ∧ p.shadows = [] ∧ p.clobbered = [] ∧ p.seq = s.seq + 1 ∧
    { y.plain with lease := x.lease, due := x.due } = x.plain ∧
    y.due = (x.due.map fun d => if d.info.extractLsb' 0 8 = 1#8 then { d with after := d.after + 1 } else d) ∧ (∀ l n, y.v l n = x.v l n) ∧ (∀ n, y.s n = x.s n) ∧ (∀ l n, y.pbit l n = x.pbit l n) ∧
    y.fflags = x.fflags ∧ y.late = x.late ∧ y.badRegs = x.badRegs ∧ ∀ a, t.rdByte a = s.rdByte a

end Sys2Proof.Machine
end

