-- ==== Sys2Proof/Certificates/Slice0/Obligations.lean ====
section
/-! DEFINITION. The statements for the provers. -/

open Sys2Proof Sys2Proof.Machine


-- reset, decoding, selection and the step

/-- R91, R180, R242, R261, R262, R269, R271, R292, R293, R321, R322: what the spec gives for reset.
Where the spec is silent the clauses rest on the model's choices, log entry 7. -/
def Obligations.ResetValues : Prop :=
  let s := State.reset
  s.phase = 1 ∧ s.bootErr = 0 ∧ s.worn = 0 ∧ s.attStatus = 0 ∧ s.now = 0 ∧
  (∀ a, s.rdHdr a = 0) ∧
  (∀ q, (s.queue q).st = .disabled ∧ (s.queue q).logN = 4 ∧ (s.queue q).logF = 4 ∧ (s.queue q).bint = 512 ∧ (s.queue q).prio = 0 ∧
    (s.queue q).head = 0 ∧ (s.queue q).tail = 0 ∧ (s.queue q).fqTail = 0 ∧ (s.queue q).fqHead = 0 ∧ (s.queue q).cres = 0 ∧
    (s.queue q).ring = 0 ∧ (s.queue q).root = 0 ∧ (s.queue q).fq = 0 ∧ (s.queue q).sdir = 0 ∧ (s.queue q).sreg = 0 ∧ (s.queue q).sregSz = 0 ∧
    (s.queue q).freason = 0 ∧ (s.queue q).det = false ∧ (s.queue q).debug = false ∧ (s.queue q).lease = false) ∧
  (∀ c, (s.core c).power.vset = 75 ∧ (s.core c).power.guard = 0 ∧ (s.core c).power.boost = false ∧ (s.core c).power.ceil = 85 ∧
    (s.core c).power.seq = 0 ∧ (s.core c).power.code = 0 ∧ (s.core c).power.busy = false ∧
    s.powerWord c 0x04 = 0 ∧ s.powerWord c 0x08 = 0x5500004B ∧ (∀ t, lfind (s.core c).tiles t = none) ∧
    ∀ i, i < 8 → ((s.core c).power.slice i).ratio = 16 ∧ ((s.core c).power.slice i).stall = 0x1000) ∧
  s.therm = 0 ∧ s.thermal.held = 0 ∧ s.thermal.slow = false ∧ s.thermal.dieStop = [] ∧
  (∀ n, 4 ≤ n → n ≤ 16 → s.vmin.getD (n - 4) 0 = 55 + (5 * (n - 4) + 2) / 3) ∧
  s.place.rot = List.range 30 ∧ (∀ c, c < 8 → s.place.ht.getD c 0 = 16 * c) ∧ s.place.ks = 192 ∧ s.place.ke = 48 ∧ s.place.kd = 24 ∧
  s.place.floor = 75 ∧ s.place.rw = 1500 ∧ s.Inv

/-- R36 to R48 and the encodings of the instruction chapters: words as the spec writes them out. -/
def Obligations.WordsDecode : Prop :=
  let h0 : Hdr := { len := 0, y := false, pg := 7, pn := false, sc := false }
  let h1 : Hdr := { h0 with len := 1 }
  let h2 : Hdr := { h0 with len := 2 }
  let dec (l : List Word) : Dec := decodeBytes (wordsBytes l)
  dec [0x00000038] = .ok (.nop h0) ∧
  dec [0x00000338] = .ok (.rcv h0) ∧
  dec [0x0000009A, 0, 0x34] = .ok (.bra { h2 with pg := 3 } false 0x34) ∧
  dec [0x000000BA, 0x10000000, 0x20] = .ok (.bra h2 true 0x20) ∧
  dec [0x0404303A, 0, 0x3F800000] = .ok (.fadd h2 4 (.v 4) (.lit 0x3F800000) ⟨false, false⟩ ⟨false, false⟩ .fmode) ∧
  dec [0x00020539, 0x00080028] = .ok (.barWait h1 2 (.reg 40)) ∧
  dec [0x0005783A, 0, 2] = .ok (.csrr h2 5 2) ∧
  dec [0x01041A39, 0x93000602] = .ok (.lop3 h1 4 (.v 1) (.v 2) (.v 3) 0x96) ∧
  dec [0x64143BB9, 0x8A800000] = .ok (.pack h1 0x14 0x64 .e2m1 .fp32 .fmode true true) ∧
  dec [0x010A31B9, 0x24800602] = .ok (.ffma h1 10 (.v 1) (.v 2) (.v 3) ⟨true, false⟩ ⟨false, true⟩ ⟨false, false⟩ .rz) ∧
  dec [0x0471333A, 0x20000000, 0] = .ok (.fcmp h2 1 7 (.v 4) (.lit 0) ⟨false, false⟩ ⟨false, false⟩ .lt) ∧
  dec [0x0407483D, 0x11800E00] = .ok (.shfl { h1 with y := true } 7 (.v 4) .flip (.wrel 1) ⟨7, false⟩) ∧
  dec [0x0603583D, 0x00060001] = .ok (.ld { h1 with y := true } .b32 .weak 3 ⟨.s 6, some (.v 1), 0⟩) ∧
  dec [0x060258B9, 0x08060001] = .ok (.st h1 .b32 true .weak 2 ⟨.s 6, some (.v 1), 0⟩) ∧
  dec [0x00025CB8] = .ok (.fenco h0 .colony) ∧
  dec [0x00025D38] = .ok (.fencr h0 .colony)

/-- Decoding is the inverse of encoding, whatever bytes follow: no bit of any encoding of R36 to R48 and of the
instruction chapters is dropped, for every well-formed instruction. -/
def Obligations.DecodingInvertsEncoding : Prop :=
  ∀ (i : Instr) (tail : List Byte), i.wf = true → i.raw.isSome = true → decodeBytes (wordsBytes i.encode ++ tail) = .ok i

/-- Every step, whatever it is, keeps the invariant. -/
def Obligations.StepKeepsInvariant : Prop :=
  ∀ s t : State, s.Inv → step s = .next t → t.Inv

/-- R12, R33, R85, R250, R265: the member a slice issues, and that it issues one when it can: on a slice edge, at most two slots
on an edge and none of them twice, not in a clock switch, and the handler's alone while it is not idle.
Where the spec is silent the clauses rest on the model's choices, log entries 37, 72, 99. -/
def Obligations.IssueSelection : Prop :=
  (∀ (s : State) (c sl n : Nat) (x : Slot) (m : Member), s.select c sl = some (n, x, m) →
    s.stoppedCore c = false ∧ ((s.core c).power.slice sl).edge s.now = true ∧ ((s.core c).power.slice sl).isFrozen s.now = false ∧ x.slice = sl ∧
    n ∉ ((s.core c).power.slice sl).issuedAt s.now ∧ (((s.core c).power.slice sl).issuedAt s.now).length < 2 ∧
    m ∈ x.members ∧ m.st = .ready ∧ m.mask ≠ 0 ∧
    (∀ k ∈ x.members, k.st = .ready → k.mask ≠ 0 → m.last < k.last ∨ (m.last = k.last ∧ lowest m.mask ≤ lowest k.mask)) ∧
    ((∃ k ∈ (s.core c).handler.slot.members, k.st ≠ .waiti) → n = 64 ∧ x = (s.core c).handler.slot) ∧
    ((∀ k ∈ (s.core c).handler.slot.members, k.st = .waiti) →
      (s.core c).handler.pending = [] ∧ (n, x) ∈ (s.core c).slots ∧ s.canIssue c sl n x ∧
      ∀ e ∈ (s.core c).slots, s.canIssue c sl e.1 e.2 →
        (1024 ≤ s.waited c sl e.2 → 1024 ≤ s.waited c sl x ∧ (x.last < e.2.last ∨ (x.last = e.2.last ∧ n ≤ e.1))) ∧
        (s.waited c sl x < 1024 → e.2.prio ≤ x.prio ∧ (e.2.prio = x.prio → x.last < e.2.last ∨ (x.last = e.2.last ∧ n ≤ e.1))))) ∧
  ∀ (s : State) (c sl : Nat) (e : Nat × Slot), s.stoppedCore c = false → ((s.core c).power.slice sl).edge s.now = true →
    ((s.core c).power.slice sl).isFrozen s.now = false → (∀ k ∈ (s.core c).handler.slot.members, k.st = .waiti) → (s.core c).handler.pending = [] →
    (((s.core c).power.slice sl).issuedAt s.now).length < 2 → e ∈ (s.core c).slots → s.canIssue c sl e.1 e.2 →
    (s.select c sl).isSome = true

/-- A step whose agenda names an issue runs, through `exec`, the instruction that the bytes at the selected member's
pc decode to (R35, R39, R50); one whose agenda names an event runs that event, and one whose agenda names a deed of
the outside world or of firmware does it. An issue counts on its slice's edge (R269) where it does more than park its fibres to
execute again, or trap. What is due on the way, the latch at the end of a control period among it
(R258), comes first and at its own time.
Where the spec is silent the clauses rest on the model's choices, log entry 1. -/
def Obligations.StepRunsTheDecodedInstruction : Prop :=
  (∀ (s s4 : State) (c sl dt n pa : Nat) (r : List Move) (x : Slot) (m : Member) (i : Instr), s.agenda = ⟨dt, .issue c sl⟩ :: r → s.free ⟨dt, .issue c sl⟩ →
    let s2 := (({ s with agenda := r } : State).advance dt).parkMerges c
    s2.select c sl = some (n, x, m) → s2.slot? c n = some x → (s2.fetching c sl n m).fetchAt c n x m = .ok pa s4 →
    s4.badLoc (.phys pa) = none →
    let len := lenBytes (((s4.busByte pa).extractLsb' 0 2))
    pa % 32 + len ≤ 32 → (lfind (s4.core c).icache (pa / 64) = none ∨ lfind (s4.core c).icache (pa / 64) = some (s4.busBytes (64 * (pa / 64)) 64)) →
    decodeBytes (s4.busBytes pa len) = .ok i →
    ∃ t, step s = tickOut (countOut t i (exec i t)) ∧ t.cur = some ⟨c, n, m.id⟩ ∧ t.agenda = r ∧ t.now = s.now + dt ∧ t.seq = s.seq ∧ t.ctr = s.ctr ∧
      t.slot? c n = some { x with last := t.now + 1 } ∧ t.queues = s.queues ∧ t.grids = s.grids ∧ t.colonies = s.colonies ∧
      t.phase = s.phase ∧ (∀ a, t.rdByte a = s.rdByte a) ∧ ∀ a, t.rdHdr a = s.rdHdr a) ∧
  (∀ (s : State) (dt : Nat) (r : List Move) (i : Instr), s.agenda = ⟨dt, .ev i⟩ :: r → s.free ⟨dt, .ev i⟩ →
    let s1 := ({ s with agenda := r } : State).advance dt
    s1.admits i = true → step s = tickOut (exec i s1)) ∧
  (∀ (s : State) (dt : Nat) (r : List Move) (d : Deed), s.agenda = ⟨dt, .deed d⟩ :: r → s.free ⟨dt, .deed d⟩ →
    let s1 := ({ s with agenda := r } : State).advance dt
    step s = .next (if s1.admitsDeed d then s1.deed d else s1).tick) ∧
  (∀ (s : State) (a : Move) (r : List Move), s.agenda = a :: r → s.isOff = false → s.now < s.periodEnd → s.periodEnd ≤ s.now + a.dt →
    (∀ v w p, a.act = .ev (.controlPeriodLatch v w p) → s.periodEnd < s.now + a.dt) →
    (∀ e ∈ s.cores, ∀ y ∈ e.2.power.slices, ∀ f, y.frozen = some f → s.periodEnd ≤ f + switchBound) →
    let s1 := ({ s with agenda := { a with dt := s.now + a.dt - s.periodEnd } :: r } : State).advance (s.periodEnd - s.now)
    step s = tickOut (exec s.autoLatch s1) ∧ s1.now = s.periodEnd) ∧
  (∀ (s t : State) (i : Instr), ∃ u, countOut s i (.next t) = .next u ∧ { u with cores := t.cores } = t ∧ (∀ c n, u.slot? c n = t.slot? c n) ∧
    (∀ c k, { (u.core c).power.slice k with counted := none } = { (t.core c).power.slice k with counted := none }) ∧
    ∀ (c n id : Nat) (x y : Slot) (m m' : Member), s.cur = some ⟨c, n, id⟩ → n ≠ 64 → s.slot? c n = some x → t.slot? c n = some y → x.mem? id = some m →
      m' ∈ y.members → m'.mask &&& m.mask ≠ 0 →
      (m'.pc ≠ m.pc → x.slice < (t.core c).power.slices.length → ((u.core c).power.slice x.slice).counted = some s.now) ∧
      (∀ r, y.members = [m'] → m'.pc = m.pc → m'.st = .redo r → u = t)) ∧
  (∀ (s : State) (i : Instr) (o : Out), (∀ t, o ≠ .next t) → countOut s i o = o) ∧
  (∀ (o : Out) (t : State), o = .next t → tickOut o = .next { t with cur := none, ctr := t.ctr + 1 }) ∧
  ∀ o : Out, (∀ t, o ≠ .next t) → tickOut o = o

/-- R39, R40, R50, R55: where a fetch traps, and that a step then takes the trap.
Where the spec is silent the clauses rest on the model's choices, log entries 71, 98. -/
def Obligations.FetchTraps : Prop :=
  ∀ (s : State) (c sl dt n : Nat) (r : List Move) (x : Slot) (m : Member) (e : Env), s.agenda = ⟨dt, .issue c sl⟩ :: r → s.free ⟨dt, .issue c sl⟩ → n ≠ 64 →
    let s2 := (({ s with agenda := r } : State).advance dt).parkMerges c
    s2.select c sl = some (n, x, m) → s2.slot? c n = some x → x.mem? m.id = some m → e.c = c → e.n = n → e.m = m →
    let s3 := s2.fetching c sl n m
    let tr (cause info : Nat) (addr : Dword) : Prop :=
      Traps (step s) s2 e { cause := cause, pc := m.pc, mask := m.mask, addr := addr, info := BitVec.ofNat 32 info }
    (m.pc.toNat % 4 ≠ 0 → tr 2 2 m.pc) ∧
    (m.pc.toNat % 4 = 0 → 2 ^ 52 ≤ m.pc.toNat → tr 2 3 m.pc) ∧
    (∀ i s4, m.pc.toNat % 4 = 0 → m.pc.toNat < 2 ^ 52 → s3.translate c (s3.queueOf x.grid) m.pc.toNat .fetch = (.denied i, s4) → tr 9 i m.pc) ∧
    ∀ pa s4, s3.fetchAt c n x m = .ok pa s4 → s4.badLoc (.phys pa) = none →
      (lfind (s4.core c).icache (pa / 64) = none ∨ lfind (s4.core c).icache (pa / 64) = some (s4.busBytes (64 * (pa / 64)) 64)) →
      let len := lenBytes ((s4.busByte pa).extractLsb' 0 2)
      (32 < pa % 32 + len → tr 2 1 (BitVec.ofNat 64 ((m.pc.toNat / 32 + 1) * 32))) ∧
      ∀ k, pa % 32 + len ≤ 32 → decodeBytes (s4.busBytes pa len) = .error k → tr 1 k 0

/-- R279, R281: what SAVEC writes of a swarm, RSTC reads back: its window, its fibres with every register image,
predicate, identifier and variant frame, its scalar registers, modes and flags, its sub-swarms with their masks,
addresses, states and families, its families with their kinds and the families around them, and its lease; each
fibre's barrier arrivals stand in its lane record; and nothing outside the save area is written.
Where the spec is silent the clauses rest on the model's choices, log entries 16, 44, 52, 119. -/
def Obligations.SavedSwarmReadsBack : Prop :=
  ∀ (s : State) (a : Nat) (x : Slot), Memory.wf s.mem = true → x.win % 32 = 0 → x.win ≤ 256 →
    (x.lanes.map (·.1)).Pairwise (· < ·) → (∀ e ∈ x.lanes, e.1 < 64 ∧ e.2.fid < 2 ^ 32 ∧ e.2.forks < 2 ^ 32 ∧ e.2.frames.length ≤ 16) →
    (∀ e ∈ x.lanes, ∀ f ∈ e.2.frames, f.vtb < 2 ^ 32 ∧ f.veb < 2 ^ 32 ∧ f.vql < 2 ^ 16 ∧ f.entry < 16 ∧ f.tier < 4 ∧ f.tchg < 2 ^ 32 ∧
      f.echg < 2 ^ 32 ∧ ∀ r, f.report = some r → r < 2 ^ 16) →
    (x.sregs.map (·.1)).Pairwise (· < ·) → (∀ e ∈ x.sregs, e.1 < 512) → x.members.length ≤ 64 → x.fams.length ≤ 63 → x.kids.length ≤ 64 →
    (x.fams.map (·.id)).Nodup → (∀ f ∈ x.fams, f.id ≠ 0) → (∀ f ∈ x.fams, ∀ l r, f.kind = .vcall l r → l < 256) →
    (∀ m ∈ x.members, (∀ n, m.left = some n → n < 2 ^ 32) ∧ match m.st with
      | .bar b => b < 256 | .undispatched i => i < 256 | .trap t => t.cause < 2 ^ 32 | .fault q _ => q < 2 ^ 32 | .sleep l _ => l - s.now < 2 ^ 32 | _ => True) →
    (∀ n, x.lease.suspended = some n ∨ x.lease.requested = some n → n < 2 ^ 16) →
    x.prio < 256 → x.col < 2 ^ 32 → x.rank < 256 →
    let t := s.saveSwarm a x
    let y := t.loadSwarm a x.grid x.kids
    y.win = x.win ∧ y.grid = x.grid ∧ y.col = x.col ∧ y.rank = x.rank ∧ y.prio = x.prio ∧ y.fmode = x.fmode ∧ y.fflags = x.fflags ∧ y.kids = x.kids ∧
    y.lanes.map (·.1) = x.lanes.map (·.1) ∧
    (∀ e ∈ x.lanes, (y.fibre e.1).fid = e.2.fid ∧ (y.fibre e.1).preds = e.2.preds ∧ (y.fibre e.1).done = e.2.done ∧ (y.fibre e.1).forks = e.2.forks ∧
      (y.fibre e.1).frames.map (fun f => { f with x := 0 }) = e.2.frames.map (fun f => { f with x := 0 }) ∧
      ∀ n, n < x.win → y.v e.1 n = e.2.v n) ∧
    (∀ n, y.s n = x.s n) ∧ y.members.map (fun m => (m.mask, m.pc)) = x.members.map (fun m => (m.mask, m.pc)) ∧
    (∀ (i : Nat) (m : Member), x.members[i]? = some m → ∃ k, y.members[i]? = some k ∧ k.fam = x.famNum m.fam ∧
      match m.st with
      | .rcv => k.st = .rcv
      | .merge => k.st = .merge
      | .bar b => k.st = .bar b
      | .undispatched j => k.st = .undispatched j
      | .trap r => k.st = .trap { r with pc := m.pc, mask := m.mask }
      | .fault q d => k.st = .fault q d
      | .ringFull _ _ d _ => k.st = .fault 0 d
      | .sleep l _ => k.st = .ready ∧ k.left = some (l - s.now)
      | _ => k.st = .ready ∧ k.left = m.left) ∧
    y.fams.length = x.fams.length ∧
    (∀ (i : Nat) (f : Family), x.fams[i]? = some f → ∃ g, y.fams[i]? = some g ∧ g.id = i + 1 ∧ g.outer = x.famNum f.outer ∧
      match f.kind, g.kind with
      | .branch, .branch | .merged, .merged => True
      | .vcall l _, .vcall k _ => k = l
      | _, _ => False) ∧
    y.lease.suspended = x.lease.suspended ∧ (x.lease.suspended = none → y.lease.requested = x.lease.requested) ∧
    (∀ z, s.colony? x.grid x.col = some z → z.bars.length = 16 → ∀ e ∈ x.lanes, ∀ b, b < 16 →
      (t.rdNat (a + 0x1200 + 32 * e.1 + 0xC) 2 / 2 ^ b % 2 = 1 ↔ (z.bar b).fids.contains e.2.fid = true)) ∧
    ∀ b, b < a ∨ a + swarmLen x.win ≤ b → t.rdByte b = s.rdByte b

-- what every encoded instruction goes through (R25, R47, R50, R51, R83)

/-- R47: an instruction whose guard is true in no lane of its member changes no register, predicate, flag or
outstanding result of the swarm, and no byte or header of memory, whatever instruction it is; and unless a check
common to all stops it, it changes nothing of the device but its member, which goes on behind it, and what it is
metered.
R48, R234: what an instruction that goes on to the next is metered, one of each class. Its colony's total rises by
the weight of its class for every event, and so does the count of every X_e that its fibres stand in: per active lane
with a true guard or per instruction as the class says, once for a scalar form, and with the guard true nowhere only
what counts per instruction, or nothing at all for the never-true guard.
Where the spec is silent the clauses rest on the model's choices, log entries 26, 27, 120. -/
def Obligations.GuardFalseChangesNothing : Prop :=
  (∀ (i : Instr) (r : Raw) (s : State) (e : Env), i.raw = some r → s.env r.hdr = some e → e.act = 0 → e.n ≠ 64 →
     ∃ t x y, exec i s = .next t ∧ s.slot? e.c e.n = some x ∧ t.slot? e.c e.n = some y ∧
       (∀ l n, y.v l n = x.v l n) ∧ (∀ n, y.s n = x.s n) ∧ (∀ l n, y.pbit l n = x.pbit l n) ∧ y.fflags = x.fflags ∧
       y.late = x.late ∧ y.mtx = x.mtx ∧ y.copies = x.copies ∧ y.posts = x.posts ∧ y.kids = x.kids ∧
       (∀ a, t.rdByte a = s.rdByte a) ∧ (∀ a, t.rdHdr a = s.rdHdr a) ∧
       ((∀ m, y.mem? e.m.id = some m → ∀ tr : TrapRec, m.st ≠ .trap tr) →
         OnlySlot e s t x y ∧ OneMember e.m.id x y (Passed r.hdr) ∧ y.plain = x.plain ∧ y.badRegs = x.badRegs)) ∧
  (∀ (h : Hdr) (d : BitVec 9) (c n k : BitVec 8) (m : MemOpd) (o : Ordk) (ma mb : OMod) (rm : RMod) (f g : Fmt) (op : ROp) (ao : AtOp) (sc : Scope)
       (w64 ar post zc tick : Bool) (ld : LdT) (st : StT) (b : BitVec 12) (s : State) (e : Env), s.env h = some e → e.n ≠ 64 →
     (s.core e.c).fillersDue s.now = 0 →
     let lanes := (lanesOf e.act).length
     let alu (i : Instr) (cls : Nat) : Instr × Nat × Nat := if h.sc then (i, 13, 1) else (i, cls, lanes)
     let mem (i : Instr) (cls : Nat) : Instr × Nat × Nat := (i, cls, if h.sc then 1 else lanes)
     ∀ x ∈ [alu (.mov h d (.v n)) 0, alu (.mzero h c) 0, alu (.fadd h d (.v n) (.v k) ma mb rm) 1, alu (.frnd h d (.v n) ma rm) 1, alu (.rcp h d (.v n) ma rm) 2,
         alu (.cvt h d (.v n) f g) 3, (.shfl h c (.v n) .at (.wrel 1) ⟨7, false⟩, 4, 1), (.redx h c (.v n) op rm ⟨7, false⟩, 4, 1),
         mem (.lds h ld o d m) 5, mem (.sts h st o d m) 5, mem (.ld h ld o d m) 6, mem (.st h st tick o d m) 6, mem (.atom h ao w64 ar post sc d (.v n) m) 7,
         mem (.atoms h ao w64 ar post sc d (.v n) m) 7, (.mma h c n k .e4m3 .e5m2 rm zc, 10, 1), (.mma h c n k .e2m1 .e2m1 rm zc, 11, 1),
         (.mma h c n k .bf16 .bf16 rm zc, 12, 1), (.nop h, 13, 1), (.csrr h d b, 13, 1)],
       ∀ t y z w, exec x.1 s = .next t → s.slot? e.c e.n = some y → t.slot? e.c e.n = some z → OneMember e.m.id y z (Passed h) →
         z.members.length = y.members.length → s.colony? y.grid y.col = some w →
         let idle := if h.pg = 7 ∧ h.pn = true then 0 else if x.2.1 = 4 ∨ x.2.1 = 13 ∨ (h.sc = true ∧ x.2.1 ∈ [5, 6, 7]) then 1 else 0
         let add := s.weights.getD x.2.1 0 * (if e.act = 0 then idle else x.2.2)
         (∃ v, t.colony? y.grid y.col = some v ∧ v.energy = w.energy + add) ∧
         z.xs.map (fun r => (r.id, r.energy)) = y.xs.map fun r =>
           (r.id, r.energy + if (y.fibre (lowest e.m.mask)).frames.any (·.x == r.id) then add else 0))

/-- R7, R45, R50, R170: an instruction that names a vector register at or beyond the grid's window, or a scalar
register beyond s511, traps ILL with TINFO 0x04: one instruction of each operand shape, with the registers it
names.
R25: in debug mode, reading a register whose late result is outstanding traps HAZ with the lanes that read it: an
instruction of each operand shape that reads one vector register.
R288: reading a register that holds an uncorrectable word traps MCHK, with the lane and the word's code; the mark
is gone. An instruction of each operand shape that reads one vector register.
R83: an instruction of the handler alone traps PRIV in a swarm, with the whole active mask.
R83, R276: every instruction of swarms alone, in every operand form, fails the handler with ILL, TINFO 0x07: the
handler stops in WAITI and serves nothing. The registers that the instruction names stand in the handler's
window.
Where the spec is silent the clauses rest on the model's choices, log entries 29, 103, 108. -/
def Obligations.CommonTraps : Prop :=
  (∀ (h : Hdr) (d : BitVec 9) (c n k : BitVec 8) (j : BitVec 9) (p : BitVec 3) (q : PSrc) (m : MemOpd) (o : Ordk) (ma mb : OMod) (rm : RMod)
       (f g : Fmt) (sub u as sp : Bool) (w : Word) (cc : FCond) (op : ROp) (s : State) (e : Env), s.env h = some e → e.n ≠ 64 →
     let dv (i : Nat) : List Nat := if h.sc then [] else List.range' d.toNat i
     let ds (i : Nat) : List Nat := if h.sc then List.range' d.toNat i else []
     let mu := memUses false m
     ∀ x ∈ [(Instr.mov h d (.v n), n.toNat :: dv 1, ds 1),
         (.iadd64 h d (.v n) (.s j) sub u, [n.toNat, n.toNat + 1] ++ dv 2, [j.toNat, j.toNat + 1] ++ ds 2),
         (.imad h d (.v n) (.v k) (.s j), [n.toNat, k.toNat] ++ dv 1, j.toNat :: ds 1),
         (.fadd h d (.v n) (.lit w) ma mb rm, n.toNat :: dv 1, ds 1),
         (.fcmp h p p (.v n) (.v k) ma mb cc, [n.toNat, k.toNat], []),
         (.pack h c n g f rm as sp, List.range' n.toNat (elems g) ++ List.range' c.toNat 17, []),
         (.redx h c (.v n) op rm q, if h.sc then [n.toNat] else [n.toNat, c.toNat], if h.sc then [c.toNat] else []),
         (.ld h .b128 o d m, mu.rv ++ dv 4, mu.rs ++ ds 4),
         (.st h .b64 false o d m, mu.rv ++ dv 2, mu.rs ++ ds 2),
         (.csrr h d 0, dv 1, ds 1),
         (.mzero h c, List.range' c.toNat 64, [])],
       ((∃ r ∈ x.2.1, e.x.win ≤ r) ∨ ∃ r ∈ x.2.2, 512 ≤ r) →
       Traps (exec x.1 s) s e { cause := 1, pc := e.m.pc, mask := e.m.mask, addr := 0, info := 4 }) ∧
  (∀ (h : Hdr) (d : BitVec 9) (n c : BitVec 8) (w : Word) (p : BitVec 3) (ma mb : OMod) (rm : RMod) (f g : Fmt) (cc : FCond) (op : ROp)
       (s : State) (e : Env) (x : Slot), s.env h = some e → e.n ≠ 64 → s.slot? e.c e.n = some x →
     s.debugOf e = true → n.toNat < e.x.win → c.toNat < e.x.win → (h.sc = true ∨ d.toNat < e.x.win) → x.mtx = [] →
     (∀ o ∈ x.late, ∀ w ∈ o.writes, ∃ l, w.dst = .v l n.toNat) →
     (∃ o ∈ x.late, ∃ w ∈ o.writes, ∃ l, e.act.getLsbD l = true ∧ w.dst = .v l n.toNat) →
     ∀ i ∈ [Instr.mov h d (.v n), .not h d (.v n), .shl h d (.v n) (.lit w), .imad h d (.v n) (.lit w) (.v n), .isetp h p p (.v n) (.lit w) .lt false,
         .fadd h d (.v n) (.lit w) ma mb rm, .fcmp h p p (.v n) (.lit w) ma mb cc, .frnd h d (.v n) ma rm, .rcp h d (.v n) ma rm, .cvt h d (.v n) g f,
         .shfl h c (.v n) .at (.wrel 1) ⟨7, false⟩, .redx h c (.v n) op rm ⟨7, false⟩, .vqual h (.v n)],
       ∃ m : Mask, (∀ l, l < 64 → (m.getLsbD l = true ↔ e.act.getLsbD l = true ∧ ∃ o ∈ x.late, ∃ w ∈ o.writes, w.dst = .v l n.toNat)) ∧
         Traps (exec i s) s e { cause := 5, pc := e.m.pc, mask := m, addr := 0, info := 0 }) ∧
  (∀ (h : Hdr) (d : BitVec 9) (n c : BitVec 8) (w : Word) (p : BitVec 3) (ma mb : OMod) (rm : RMod) (f g : Fmt) (cc : FCond) (op : ROp)
       (l k : Nat) (s : State) (e : Env) (x : Slot), s.env h = some e → e.n ≠ 64 → s.slot? e.c e.n = some x →
     s.debugOf e = false → n.toNat < e.x.win → c.toNat < e.x.win → (h.sc = true ∨ d.toNat < e.x.win) → e.act.getLsbD l = true →
     x.badRegs = [(.v l n.toNat, k)] →
     ∀ i ∈ [Instr.mov h d (.v n), .not h d (.v n), .shl h d (.v n) (.lit w), .imad h d (.v n) (.lit w) (.v n), .isetp h p p (.v n) (.lit w) .lt false,
         .fadd h d (.v n) (.lit w) ma mb rm, .fcmp h p p (.v n) (.lit w) ma mb cc, .frnd h d (.v n) ma rm, .rcp h d (.v n) ma rm, .cvt h d (.v n) g f,
         .shfl h c (.v n) .at (.wrel 1) ⟨7, false⟩, .redx h c (.v n) op rm ⟨7, false⟩, .vqual h (.v n)],
       ∃ t y, exec i s = .next t ∧ t.slot? e.c e.n = some y ∧ y.badRegs = [] ∧ (∀ l n, y.v l n = x.v l n) ∧
         OneMember e.m.id x y (fun m m' => m'.st = .trap { cause := 0x12, pc := e.m.pc, mask := 1#64 <<< l, addr := 0, info := BitVec.ofNat 32 k } ∧ m'.pc = m.pc)) ∧
  (∀ (h : Hdr) (m : MemOpd) (s : State) (e : Env), s.env h = some e → e.n ≠ 64 →
     ∀ i ∈ [Instr.eret h, .waiti h, .tlbiAs h, .tlbiAll h, .tlbiVa h m, .savec h m, .rstc h m],
       (∀ n ∈ (memUses false m).rv, n < e.x.win) → (∀ n ∈ (memUses false m).rs, n < 512) →
       Traps (exec i s) s e { cause := 3, pc := e.m.pc, mask := e.m.mask, addr := 0, info := 0 }) ∧
  (∀ (h : Hdr) (b : BitVec 4) (n : BitVec 6) (k d : BitVec 8) (g : BitVec 16) (p : BitVec 3) (t : Tgt) (x y : Src) (z : Cnt) (u : Bool) (m : MemOpd)
       (w5 : BitVec 5) (tab : BitVec 9) (disp : Word) (vm : VMode) (arg : Option Src) (s : State) (e : Env),
     s.env h = some e → e.n = 64 →
     let mu := memUses false m
     let lim := useV 1 x ++ useV 1 y
     let lims := [tab.toNat, tab.toNat + 1] ++ useS 1 x ++ useS 1 y
     ∀ i ∈ [(Instr.endf h, [], []), (.barWait h b z, [], (cntUses z).rs), (.barPass h b z, [], (cntUses z).rs), (.vret h, [], []), (.lwait h n, [], []),
         (.brk h k, [], []), (.trap h g, [], []), (.prio h x, [], useS 1 x), (.vqual h x, useV 1 x, useS 1 x), (.vbud h u x, useV 1 x, useS 1 x),
         (.fork h p t d, List.range' d.toNat 4 ++ (match t with | .pair a => useV 2 a | .off _ => []), match t with | .pair a => useS 2 a | .off _ => []),
         (.sleep h m d w5, mu.rv ++ [d.toNat], mu.rs),
         (.vcall h tab disp vm x y, lim, lims), (.vpeek h d tab disp vm x y, d.toNat :: lim, lims),
         (.launch h m arg, mu.rv ++ arg.toList.flatMap (useV 2), mu.rs ++ arg.toList.flatMap (useS 2))],
       (∀ r ∈ i.2.1, r < e.x.win) → (∀ r ∈ i.2.2, r < 512) →
       ∃ t, exec i.1 s = .next t ∧ (t.core e.c).handler.fault = some (1, e.m.pc, 7) ∧ (t.core e.c).handler.service = none ∧
         (t.core e.c).handler.slot.members.map (·.st) = [.waiti])

-- integer, logic, move and predicate instructions (R113 to R125)

/-- R115, R121: additions and subtractions wrap modulo 2^32 or, under `.sat`, clamp the exact result; IMUL and
IMULH are the halves of the product; IMIN and IMAX choose; ISET is 0 or 1. Operands are signed unless `.u`.
R116: the carry forms of IADD and ISUB add with the carry of their predicate, which becomes the carry out. -/
def Obligations.IntegerArithmetic : Prop :=
  (∀ (h : Hdr) (d : BitVec 9) (a b : Src) (s : State) (e : Env), Issues h (usesOf h [a, b] [] [] (some d) 1 []) .anywhere s e →
     (∀ u, Gives (exec (.iadd h d a b (.plain false u)) s) h s e d fun l r =>
       sticky r = false ∧ (pay r).toNat = ((e.pay l a).toNat + (e.pay l b).toNat) % 2 ^ 32) ∧
     (∀ u, Gives (exec (.isub h d a b (.plain false u)) s) h s e d fun l r =>
       sticky r = false ∧ (pay r).toNat = ((e.pay l a).toNat + 2 ^ 32 - (e.pay l b).toNat) % 2 ^ 32) ∧
     Gives (exec (.iadd h d a b (.plain true false)) s) h s e d (fun l r =>
       sticky r = false ∧ (pay r).toInt = max (-2 ^ 31) (min (2 ^ 31 - 1) ((e.pay l a).toInt + (e.pay l b).toInt))) ∧
     Gives (exec (.iadd h d a b (.plain true true)) s) h s e d (fun l r =>
       sticky r = false ∧ (pay r).toNat = min (2 ^ 32 - 1) ((e.pay l a).toNat + (e.pay l b).toNat)) ∧
     Gives (exec (.isub h d a b (.plain true false)) s) h s e d (fun l r =>
       sticky r = false ∧ (pay r).toInt = max (-2 ^ 31) (min (2 ^ 31 - 1) ((e.pay l a).toInt - (e.pay l b).toInt))) ∧
     Gives (exec (.isub h d a b (.plain true true)) s) h s e d (fun l r =>
       sticky r = false ∧ (pay r).toNat = (e.pay l a).toNat - (e.pay l b).toNat) ∧
     Gives (exec (.imul h d a b) s) h s e d (fun l r =>
       sticky r = false ∧ (pay r).toNat = (e.pay l a).toNat * (e.pay l b).toNat % 2 ^ 32) ∧
     Gives (exec (.imulh h d a b false) s) h s e d (fun l r =>
       sticky r = false ∧ (pay r).toInt = (e.pay l a).toInt * (e.pay l b).toInt / 2 ^ 32) ∧
     Gives (exec (.imulh h d a b true) s) h s e d (fun l r =>
       sticky r = false ∧ (pay r).toNat = (e.pay l a).toNat * (e.pay l b).toNat / 2 ^ 32) ∧
     Gives (exec (.imin h d a b false) s) h s e d (fun l r => sticky r = false ∧ (pay r).toInt = min (e.pay l a).toInt (e.pay l b).toInt) ∧
     Gives (exec (.imin h d a b true) s) h s e d (fun l r => sticky r = false ∧ (pay r).toNat = min (e.pay l a).toNat (e.pay l b).toNat) ∧
     Gives (exec (.imax h d a b false) s) h s e d (fun l r => sticky r = false ∧ (pay r).toInt = max (e.pay l a).toInt (e.pay l b).toInt) ∧
     Gives (exec (.imax h d a b true) s) h s e d (fun l r => sticky r = false ∧ (pay r).toNat = max (e.pay l a).toNat (e.pay l b).toNat) ∧
     ∀ c u, Gives (exec (.iset h d a b c u) s) h s e d fun l r =>
       r = if condHolds c (asInt u (e.pay l a)) (asInt u (e.pay l b)) then 1 else 0) ∧
  (∀ (h : Hdr) (d : BitVec 9) (a b : Src) (p : PSrc) (s : State) (e : Env), Issues h (usesOf h [a, b] [] [p] (some d) 1 [p.p.toNat]) .anywhere s e →
     Fixed (exec (.iadd h d a b (.cc p)) s) h s e [d.toNat] [p.p.toNat] (fun _ => 0) (fun l r q =>
       sticky (r d.toNat) = false ∧ (pay (r d.toNat)).toNat = ((e.pay l a).toNat + (e.pay l b).toNat + (e.pred l p).toNat) % 2 ^ 32 ∧
       (p.p ≠ 7 → q p.p.toNat = decide (2 ^ 32 ≤ (e.pay l a).toNat + (e.pay l b).toNat + (e.pred l p).toNat))) ∧
     Fixed (exec (.isub h d a b (.cc p)) s) h s e [d.toNat] [p.p.toNat] (fun _ => 0) (fun l r q =>
       sticky (r d.toNat) = false ∧
       (pay (r d.toNat)).toNat = ((e.pay l a).toNat + (2 ^ 32 - 1 - (e.pay l b).toNat) + (e.pred l p).toNat) % 2 ^ 32 ∧
       (p.p ≠ 7 → q p.p.toNat = decide (2 ^ 32 ≤ (e.pay l a).toNat + (2 ^ 32 - 1 - (e.pay l b).toNat) + (e.pred l p).toNat))))

/-- R117: shifts by the payload of b taken as unsigned, the rotation by it modulo 32, and logic bit by bit.
R115, R118, R119, R120: IMAD is the product and sum modulo 2^32; LOP3 looks each bit up in its table; each
byte of BPERM is one of eight, or a fill; BFX and BFI take and place a field cut at bit 31. -/
def Obligations.ShiftsLogicAndFields : Prop :=
  (∀ (h : Hdr) (d : BitVec 9) (a b : Src) (s : State) (e : Env), Issues h (usesOf h [a, b] [] [] (some d) 1 []) .anywhere s e →
     Gives (exec (.shl h d a b) s) h s e d (fun l r => sticky r = false ∧ (pay r).toNat = (e.pay l a).toNat * 2 ^ (e.pay l b).toNat % 2 ^ 32) ∧
     Gives (exec (.shr h d a b) s) h s e d (fun l r => sticky r = false ∧ (pay r).toNat = (e.pay l a).toNat / 2 ^ (e.pay l b).toNat) ∧
     Gives (exec (.sar h d a b) s) h s e d (fun l r => sticky r = false ∧ (pay r).toInt = (e.pay l a).toInt / 2 ^ (e.pay l b).toNat) ∧
     Gives (exec (.rol h d a b) s) h s e d (fun l r => sticky r = false ∧
       ∀ i, i < 32 → (pay r).getLsbD ((i + (e.pay l b).toNat) % 32) = (e.pay l a).getLsbD i) ∧
     Gives (exec (.and h d a b) s) h s e d (fun l r => sticky r = false ∧ ∀ i, (pay r).getLsbD i = ((e.pay l a).getLsbD i && (e.pay l b).getLsbD i)) ∧
     Gives (exec (.or h d a b) s) h s e d (fun l r => sticky r = false ∧ ∀ i, (pay r).getLsbD i = ((e.pay l a).getLsbD i || (e.pay l b).getLsbD i)) ∧
     Gives (exec (.xor h d a b) s) h s e d (fun l r => sticky r = false ∧ ∀ i, (pay r).getLsbD i = ((e.pay l a).getLsbD i != (e.pay l b).getLsbD i))) ∧
  ((∀ (h : Hdr) (d : BitVec 9) (a b c : Src) (s : State) (e : Env), Issues h (usesOf h [a, b, c] [] [] (some d) 1 []) .anywhere s e →
     Gives (exec (.imad h d a b c) s) h s e d (fun l r =>
       sticky r = false ∧ (pay r).toNat = ((e.pay l a).toNat * (e.pay l b).toNat + (e.pay l c).toNat) % 2 ^ 32) ∧
     (∀ t, Gives (exec (.lop3 h d a b c t) s) h s e d fun l r => sticky r = false ∧ ∀ i, i < 32 →
       (pay r).getLsbD i = t.getLsbD (((e.pay l a).getLsbD i).toNat + 2 * ((e.pay l b).getLsbD i).toNat + 4 * ((e.pay l c).getLsbD i).toNat)) ∧
     Gives (exec (.bperm h d a b c) s) h s e d (fun l r => sticky r = false ∧ ∀ j, j < 4 →
       let x : Byte := (e.pay l b ++ e.pay l a).extractLsb' (8 * ((e.pay l c).toNat / 2 ^ (5 * j) % 8)) 8
       (pay r).extractLsb' (8 * j) 8 = match (e.pay l c).toNat / 2 ^ (5 * j + 3) % 4 with
         | 0 => x | 1 => 0 | 2 => if x.getLsbD 7 then 0xFF else 0 | _ => 0xFF) ∧
     Gives (exec (.bfi h d a b c) s) h s e d (fun l r => sticky r = false ∧ ∀ i, i < 32 →
       let pos := (e.pay l b).toNat % 256
       let len := (e.pay l b).toNat / 256 % 256
       (pay r).getLsbD i = if pos ≤ i ∧ i < pos + len then (e.pay l a).getLsbD (i - pos) else (e.pay l c).getLsbD i)) ∧
   ∀ (h : Hdr) (d : BitVec 9) (a b : Src) (s : State) (e : Env) (sx : Bool), Issues h (usesOf h [a, b] [] [] (some d) 1 []) .anywhere s e →
     Gives (exec (.bfx h d a b sx) s) h s e d fun l r => sticky r = false ∧ ∀ i, i < 32 →
       let pos := (e.pay l b).toNat % 256
       let len := min ((e.pay l b).toNat / 256 % 256) (32 - pos)
       (pay r).getLsbD i = if i < len then (e.pay l a).getLsbD (pos + i) else sx && decide (0 < len) && (e.pay l a).getLsbD (pos + len - 1))

/-- R115, R117, R122: the instructions of one source. MOV copies the image with its S; the others clear it.
R115, R123, R124: the 64-bit results in pairs, modulo 2^64; LEA scales its index, and `.a52` keeps 52 bits. -/
def Obligations.OneSourceAndPairResults : Prop :=
  ((∀ (h : Hdr) (d : BitVec 9) (a : Src) (s : State) (e : Env), Issues h (usesOf h [a] [] [] (some d) 1 []) .anywhere s e →
     (∀ sat, Gives (exec (.iabs h d a sat) s) h s e d fun l r => sticky r = false ∧ (pay r).toNat =
       if e.pay l a = 0x80000000#32 then (if sat then 0x7FFFFFFF else 0x80000000) else (e.pay l a).toInt.natAbs) ∧
     (∀ sat, Gives (exec (.ineg h d a sat) s) h s e d fun l r => sticky r = false ∧
       if e.pay l a = 0x80000000#32 then (pay r).toNat = (if sat then 0x7FFFFFFF else 0x80000000) else (pay r).toInt = -(e.pay l a).toInt) ∧
     Gives (exec (.not h d a) s) h s e d (fun l r => sticky r = false ∧ ∀ i, i < 32 → (pay r).getLsbD i = !(e.pay l a).getLsbD i) ∧
     Gives (exec (.popc h d a) s) h s e d (fun l r => sticky r = false ∧
       (pay r).toNat = ((List.range 32).filter fun i => (e.pay l a).getLsbD i).length) ∧
     Gives (exec (.clz h d a) s) h s e d (fun l r => sticky r = false ∧ (pay r).toNat ≤ 32 ∧ (e.pay l a).toNat < 2 ^ (32 - (pay r).toNat) ∧
       ((pay r).toNat < 32 → 2 ^ (31 - (pay r).toNat) ≤ (e.pay l a).toNat)) ∧
     Gives (exec (.brev h d a) s) h s e d (fun l r => sticky r = false ∧ ∀ i, i < 32 → (pay r).getLsbD (31 - i) = (e.pay l a).getLsbD i) ∧
     Gives (exec (.mov h d a) s) h s e d fun l r => r = e.src l a) ∧
   (∀ (h : Hdr) (d : BitVec 9) (w : Word) (s : State) (e : Env), Issues h (usesOf h [] [] [] (some d) 1 []) .anywhere s e →
     Gives (exec (.movl h d w) s) h s e d fun _ r => r = pureImg w) ∧
   ∀ (h : Hdr) (d : BitVec 9) (a b : Src) (p : PSrc) (s : State) (e : Env), Issues h (usesOf h [a, b] [] [p] (some d) 1 []) .anywhere s e →
     Gives (exec (.sel h d a b p) s) h s e d fun l r => r = if e.pred l p then e.src l a else e.src l b) ∧
  ((∀ (h : Hdr) (d : BitVec 9) (a b c : Src) (u : Bool) (s : State) (e : Env), Issues h (usesOf h [a, b] [c] [] (some d) 2 []) .anywhere s e →
     GivesPair (exec (.imadw h d a b c u) s) h s e d fun l x =>
       (x.toNat : Int) = (asInt u (e.pay l a) * asInt u (e.pay l b) + (e.pair l u c).toNat) % 2 ^ 64) ∧
   (∀ (h : Hdr) (d : BitVec 9) (a b : Src) (sh : BitVec 5) (u a52 : Bool) (s : State) (e : Env), Issues h (usesOf h [b] [a] [] (some d) 2 []) .anywhere s e →
     GivesPair (exec (.lea h d a b sh u a52) s) h s e d fun l x =>
       (x.toNat : Int) = ((e.pair l u a).toNat + asInt u (e.pay l b) * 2 ^ sh.toNat) % (if a52 then 2 ^ 52 else 2 ^ 64)) ∧
   ∀ (h : Hdr) (d : BitVec 9) (a b : Src) (u : Bool) (s : State) (e : Env), Issues h (usesOf h [] [a, b] [] (some d) 2 []) .anywhere s e →
     GivesPair (exec (.iadd64 h d a b false u) s) h s e d (fun l x => x.toNat = ((e.pair l u a).toNat + (e.pair l u b).toNat) % 2 ^ 64) ∧
     GivesPair (exec (.iadd64 h d a b true u) s) h s e d fun l x => x.toNat = ((e.pair l u a).toNat + 2 ^ 64 - (e.pair l u b).toNat) % 2 ^ 64)

/-- R121, R125: comparisons write the condition to pd, then the equality to pq, which stands where both name one
predicate; PSET writes the predicates its mask names, PLOP one by table, PGET reads all with bit 7 set. -/
def Obligations.PredicateResults : Prop :=
  (∀ (h : Hdr) (pd pq : BitVec 3) (a b : Src) (c : Cond) (u : Bool) (s : State) (e : Env),
    Issues h (usesOf h [a, b] [] [] none 0 [pd.toNat, pq.toNat]) .anywhere s e →
    Fixed (exec (.isetp h pd pq a b c u) s) h s e [] [pd.toNat, pq.toNat] (fun _ => 0) fun l _ q =>
      (pq ≠ 7 → q pq.toNat = decide (e.pay l a = e.pay l b)) ∧
      (pd ≠ 7 → pd ≠ pq → q pd.toNat = condHolds c (asInt u (e.pay l a)) (asInt u (e.pay l b)))) ∧
  (∀ (h : Hdr) (pd pq : BitVec 3) (a b : Src) (c : Cond) (u : Bool) (s : State) (e : Env),
    Issues h (usesOf h [] [a, b] [] none 0 [pd.toNat, pq.toNat]) .anywhere s e →
    Fixed (exec (.icmp64 h pd pq a b c u) s) h s e [] [pd.toNat, pq.toNat] (fun _ => 0) fun l _ q =>
      (pq ≠ 7 → q pq.toNat = decide (e.pair l u a = e.pair l u b)) ∧
      (pd ≠ 7 → pd ≠ pq → q pd.toNat = condHolds c (asInt u (e.pair l u a)) (asInt u (e.pair l u b)))) ∧
  (∀ (h : Hdr) (pd : BitVec 3) (pa pb pc : PSrc) (t : BitVec 8) (s : State) (e : Env),
    Issues h (usesOf h [] [] [pa, pb, pc] none 0 [pd.toNat]) .anywhere s e →
    Fixed (exec (.plop h pd pa pb pc t) s) h s e [] [pd.toNat] (fun _ => 0) fun l _ q =>
      pd ≠ 7 → q pd.toNat = t.getLsbD ((e.pred l pa).toNat + 2 * (e.pred l pb).toNat + 4 * (e.pred l pc).toNat)) ∧
  (∀ (h : Hdr) (d : BitVec 9) (s : State) (e : Env), Issues h (usesOf h [] [] allPreds (some d) 1 []) .anywhere s e →
    Gives (exec (.pget h d) s) h s e d fun l r => sticky r = false ∧ ∀ i, i < 32 →
      (pay r).getLsbD i = if i < 7 then (e.x.fibre l).preds.getLsbD i else decide (i = 7)) ∧
  ∀ (h : Hdr) (a b : Src) (s : State) (e : Env), Issues h (usesOf h [a, b] [] [] none 0 (List.range 7)) .anywhere s e →
    ∃ t x y, exec (.pset h a b) s = .next t ∧ OnlySlot e s t x y ∧ OneMember e.m.id x y (Passed h) ∧ y.plain = x.plain ∧
      (∀ l n, y.v l n = x.v l n) ∧ (∀ n, y.s n = x.s n) ∧ y.fflags = x.fflags ∧
      ∀ l n, n < 7 → (x.fibre? l).isSome = true → y.pbit l n =
        if e.act.getLsbD l && (e.pay (giver h e l) b).getLsbD n then (e.pay (giver h e l) a).getLsbD n else x.pbit l n


-- numbers and floating point (R86 to R112, R126 to R145)

/-- R100, R101: for every finite number within the range of a floating format, RoundMode gives the grid point
of the mode, ties in nearest even to the even code and in ties away to the larger magnitude; NX says that the
point is not the number, UF that it then lies below the smallest normal.
R99: round-to-odd keeps a number of the format, gives the largest finite beyond it, and else one of the two
neighbours, of odd code. -/
def Obligations.RoundingGivesTheGridPoint : Prop :=
  (∀ (f : Fmt) (m : Mode) (neg : Bool) (k : Nat) (e : Int), f.isFloat = true →
     cmpMag k e (magOf (fmtP f).mb (eminOf f) (maxCode f)).1 (magOf (fmtP f).mb (eminOf f) (maxCode f)).2 ≠ .gt →
     let x : Val := .fin neg k e
     let r := roundF f m x
     let v := (decodeF f r.code).rat
     (decodeF f r.code).finite = true ∧ Rounds f m neg (sideOf x.rat) r.code ∧
     (r.fl &&& fNX ≠ 0 ↔ v ≠ x.rat) ∧ r.fl &&& fOF = 0 ∧
     (r.fl &&& fUF ≠ 0 ↔ v ≠ x.rat ∧ r.code % 2 ^ (fmtBits f - 1) < 2 ^ (fmtP f).mb) ∧
     (∀ d, (decodeF f d).finite = true → (decodeF f d).rat ≠ v → x.rat = (v + (decodeF f d).rat) / 2 →
       (m = .ne → r.code % 2 = 0) ∧ (m = .na → v * v > (decodeF f d).rat * (decodeF f d).rat))) ∧
  (∀ (f : Fmt) (neg : Bool) (k : Nat) (e : Int), f.isFloat = true →
     let x : Val := .fin neg k e
     let r := roundOdd f x
     let v := (decodeF f r.1).rat
     (decodeF f r.1).finite = true ∧ (r.2 = true ↔ v ≠ x.rat) ∧
     if cmpMag k e (magOf (fmtP f).mb (eminOf f) (maxCode f)).1 (magOf (fmtP f).mb (eminOf f) (maxCode f)).2 = .gt then
       r.1 = signBit f neg + maxCode f
     else (r.2 = true → r.1 % 2 = 1) ∧
       ∀ d, (decodeF f d).finite = true → (decodeF f d).rat ≠ v →
         ¬(v < (decodeF f d).rat ∧ (decodeF f d).rat ≤ x.rat) ∧ ¬((decodeF f d).rat < v ∧ x.rat ≤ (decodeF f d).rat))

/-- R138, R139: FADD, FSUB, FMUL and FFMA read their operands under their modifiers, form the exact result and
round it once in their mode. -/
def Obligations.FloatArithmetic : Prop :=
  (∀ (h : Hdr) (d : BitVec 9) (a b : Src) (ma mb : OMod) (rm : RMod) (s : State) (e : Env), Issues h (usesOf h [a, b] [] [] (some d) 1 []) .anywhere s e →
    (∃ r, GivesF (exec (.fadd h d a b ma mb rm) s) h s e d r ∧
      ∀ l, AddSpec (e.mode rm) (f32 (omod ma (e.src l a))) (f32 (omod mb (e.src l b))) (r l)) ∧
    (∃ r, GivesF (exec (.fsub h d a b ma mb rm) s) h s e d r ∧
      ∀ l, AddSpec (e.mode rm) (f32 (omod ma (e.src l a))) (f32 (omod mb (e.src l b))).flip (r l)) ∧
    ∃ r, GivesF (exec (.fmul h d a b ma mb rm) s) h s e d r ∧
      ∀ l, MulSpec (e.mode rm) (f32 (omod ma (e.src l a))) (f32 (omod mb (e.src l b))) (r l)) ∧
  ∀ (h : Hdr) (d : BitVec 9) (a b c : Src) (ma mb mc : OMod) (rm : RMod) (s : State) (e : Env),
    Issues h (usesOf h [a, b, c] [] [] (some d) 1 []) .anywhere s e →
    ∃ r, GivesF (exec (.ffma h d a b c ma mb mc rm) s) h s e d r ∧
      ∀ l, FmaSpec (e.mode rm) (f32 (omod ma (e.src l a))) (f32 (omod mb (e.src l b))) (f32 (omod mc (e.src l c))) (r l)

/-- R140, R141, R142, R143: FMIN and FMAX write one operand with its S and raise nothing; FCMP writes its condition
on values and whether it is decided, and raises NV for a NaN under an ordering condition; FCLASS sets one class. -/
def Obligations.FloatSelectCompareClassify : Prop :=
  (∀ (h : Hdr) (d : BitVec 9) (a b : Src) (ma mb : OMod) (s : State) (e : Env), Issues h (usesOf h [a, b] [] [] (some d) 1 []) .anywhere s e →
    Gives (exec (.fmin h d a b ma mb) s) h s e d (fun l r =>
      let x := omod ma (e.src l a)
      let y := omod mb (e.src l b)
      r = if nanWord (pay x) && nanWord (pay y) then nan32 else if nanWord (pay x) then y else if nanWord (pay y) then x
        else if key32 (pay y) < key32 (pay x) then y else x) ∧
    Gives (exec (.fmax h d a b ma mb) s) h s e d fun l r =>
      let x := omod ma (e.src l a)
      let y := omod mb (e.src l b)
      r = if nanWord (pay x) && nanWord (pay y) then nan32 else if nanWord (pay x) then y else if nanWord (pay y) then x
        else if key32 (pay x) < key32 (pay y) then y else x) ∧
  (∀ (h : Hdr) (pd pq : BitVec 3) (a b : Src) (ma mb : OMod) (c : FCond) (s : State) (e : Env),
    Issues h (usesOf h [a, b] [] [] none 0 [pd.toNat, pq.toNat]) .anywhere s e →
    let x := fun l => omod ma (e.src l a)
    let y := fun l => omod mb (e.src l b)
    let nan := fun l => nanWord (pay (x l)) || nanWord (pay (y l))
    let i := fun l => keyVal (pay (x l))
    let j := fun l => keyVal (pay (y l))
    Fixed (exec (.fcmp h pd pq a b ma mb c) s) h s e [] [pd.toNat, pq.toNat]
      (fun l => if nan l && (c == .lt || c == .le || c == .gt || c == .ge) then fNV else 0) fun l _ q =>
      (pq ≠ 7 → q pq.toNat = (nan l || decide (i l ≠ j l) || (!sticky (x l) && !sticky (y l)))) ∧
      (pd ≠ 7 → pd ≠ pq → q pd.toNat = match c with
        | .eq => !nan l && decide (i l = j l) | .ne => nan l || decide (i l ≠ j l)
        | .lt => !nan l && decide (i l < j l) | .le => !nan l && decide (i l ≤ j l)
        | .gt => !nan l && decide (j l < i l) | .ge => !nan l && decide (j l ≤ i l)
        | .un => nan l | .ord => !nan l)) ∧
  ∀ (h : Hdr) (d : BitVec 9) (a : Src) (f : Fmt) (s : State) (e : Env), Issues h (usesOf h [a] [] [] (some d) 1 []) .anywhere s e → f.isFloat = true →
    Gives (exec (.fclass h d a f) s) h s e d fun l r => sticky r = false ∧
      let v := decodeF f (e.pay l a).toNat
      let tiny := decide (v.rat * v.rat < ((2 : Rat) ^ eminOf f) * (2 : Rat) ^ eminOf f)
      ∀ i, i < 32 → (pay r).getLsbD i = match i, v with
        | 9, _ => sticky (e.src l a) | 8, .nan => true | 7, .inf false => true | 0, .inf true => true
        | 6, .fin false k _ => decide (k ≠ 0) && !tiny | 5, .fin false k _ => decide (k ≠ 0) && tiny | 4, .fin false k _ => decide (k = 0)
        | 1, .fin true k _ => decide (k ≠ 0) && !tiny | 2, .fin true k _ => decide (k ≠ 0) && tiny | 3, .fin true k _ => decide (k = 0)
        | _, _ => false

/-- R144: FRND rounds to an integral value with the sign of its operand, S and NX saying whether it differs; FSCALE
rounds a × 2^n once; FLOGB is the exponent of |a|.
Where the spec is silent the clauses rest on the model's choices, log entry 39. -/
def Obligations.FloatRoundScaleExponent : Prop :=
  (∀ (h : Hdr) (d : BitVec 9) (a : Src) (ma : OMod) (rm : RMod) (s : State) (e : Env), Issues h (usesOf h [a] [] [] (some d) 1 []) .anywhere s e →
    ∃ r, GivesF (exec (.frnd h d a ma rm) s) h s e d r ∧ ∀ l, match f32 (omod ma (e.src l a)) with
      | .nan => r l = (nan32, 0)
      | .inf n => r l = (inf32 n, 0)
      | .fin n k x => ∃ z : Int, IntRounds (e.mode rm) (Val.fin n k x).rat z ∧ (f32 (r l).1).finite = true ∧ (f32 (r l).1).rat = z ∧
        (pay (r l).1).msb = n ∧ sticky (r l).1 = decide ((z : Rat) ≠ (Val.fin n k x).rat) ∧
        (r l).2 = if (z : Rat) ≠ (Val.fin n k x).rat then fNX else 0) ∧
  (∀ (h : Hdr) (d : BitVec 9) (a b : Src) (ma : OMod) (rm : RMod) (s : State) (e : Env), Issues h (usesOf h [a, b] [] [] (some d) 1 []) .anywhere s e →
    ∃ r, GivesF (exec (.fscale h d a b ma rm) s) h s e d r ∧ ∀ l, match f32 (omod ma (e.src l a)) with
      | .nan => r l = (nan32, 0)
      | .inf n => r l = (inf32 n, 0)
      | .fin n k x => r l = if k = 0 then (zero32 n, 0) else fp32Res (e.mode rm) (.fin n k (x + (e.pay l b).toInt))) ∧
  ∀ (h : Hdr) (d : BitVec 9) (a : Src) (s : State) (e : Env), Issues h (usesOf h [a] [] [] (some d) 1 []) .anywhere s e →
    Gives (exec (.flogb h d a) s) h s e d fun l r => sticky r = false ∧ match f32 (e.src l a) with
      | .nan => pay r = 0x80000000#32
      | .inf _ => pay r = 0x7FFFFFFF#32
      | .fin n k x => let q := (Val.fin n k x).rat
        if q = 0 then pay r = 0x80000000#32
        else (2 : Rat) ^ (2 * (pay r).toInt) ≤ q * q ∧ q * q < (2 : Rat) ^ (2 * (pay r).toInt + 2)

/-- R111, R145: the special functions deliver late. RCP, RSQ and SQRT round, in their mode, the exact result, known
as a number between two neighbours of at least 25 bits; the others give the special results of the table, and 2^n
exactly. Of any other argument their result is rounded to nearest even, whatever the mode, from one value that is a
function of the argument alone; that this value decides the rounding of the exact result is what log entry 17 presumes,
and no clause claims it. A SIN or COS of an argument of 2^17 or more is that of its remainder by the constant of R111,
with S and NX set.
Where the spec is silent the clauses rest on the model's choices, log entry 17. -/
def Obligations.SpecialFunctionResults : Prop :=
  (∀ (h : Hdr) (d : BitVec 9) (a : Src) (ma : OMod) (rm : RMod) (s : State) (e : Env), Issues h (Uses.later (usesOf h [a] [] [] (some d) 1 [])) .anywhere s e →
    let between := fun (k : Nat) (x : Int) (side : Rat → Ordering) =>
      2 ^ 25 ≤ k ∧ if k % 2 = 0 then side ((k : Rat) * (2 : Rat) ^ x) = .eq
        else side (((k - 1 : Nat) : Rat) * (2 : Rat) ^ x) = .lt ∧ side (((k + 1 : Nat) : Rat) * (2 : Rat) ^ x) = .gt
    (∃ r, LateF (exec (.rcp h d a ma rm) s) h s e d r ∧ ∀ l, match f32 (omod ma (e.src l a)) with
      | .nan => r l = (nan32, 0)
      | .inf n => r l = (zero32 n, 0)
      | .fin n k x => if k = 0 then r l = (inf32 n, fDZ) else
        ∃ k' x', between k' x' (fun y => sideOf 1 (y * (Val.fin false k x).rat)) ∧ r l = fp32Res (e.mode rm) (.fin n k' x')) ∧
    (∃ r, LateF (exec (.rsq h d a ma rm) s) h s e d r ∧ ∀ l, match f32 (omod ma (e.src l a)) with
      | .nan => r l = (nan32, 0)
      | .inf n => r l = if n then (nan32, fNV) else (zero32 false, 0)
      | .fin n k x => if k = 0 then r l = (inf32 n, fDZ) else if n then r l = (nan32, fNV) else
        ∃ k' x', between k' x' (fun y => sideOf 1 (y * y * (Val.fin false k x).rat)) ∧ r l = fp32Res (e.mode rm) (.fin false k' x')) ∧
    ∃ r, LateF (exec (.sqrt h d a ma rm) s) h s e d r ∧ ∀ l, match f32 (omod ma (e.src l a)) with
      | .nan => r l = (nan32, 0)
      | .inf n => r l = if n then (nan32, fNV) else (inf32 false, 0)
      | .fin n k x => if k = 0 then r l = (zero32 n, 0) else if n then r l = (nan32, fNV) else
        ∃ k' x', between k' x' (fun y => sideOf (Val.fin false k x).rat (y * y)) ∧ r l = fp32Res (e.mode rm) (.fin false k' x')) ∧
  ∃ f : Nat → Val → Val, (∀ i y, (f i y).finite = true) ∧ ∀ (h : Hdr) (d : BitVec 9) (a : Src) (ma : OMod) (s : State) (e : Env), Issues h (Uses.later (usesOf h [a] [] [] (some d) 1 [])) .anywhere s e →
    let v := fun l => f32 (omod ma (e.src l a))
    let c := (decodeF .fp32 0x40C90FDB).rat
    let reduced := fun (i : Nat) (x : Val) (r : Img × Fl) => ∃ (z : Int) (w : Val), IntRounds .ne (x.rat / c) z ∧ w.finite = true ∧
      w.rat = x.rat - z * c ∧ (w.rat ≠ 0 → pay r.1 = pay (fp32Res .ne (f i w)).1) ∧ sticky r.1 = true ∧ r.2 &&& fNX ≠ 0
    (∃ r, LateF (exec (.ex2 h d a ma) s) h s e d r ∧ ∀ l,
      (v l = .nan → r l = (nan32, 0)) ∧ (v l = .inf true → r l = (zero32 false, 0)) ∧ (v l = .inf false → r l = (inf32 false, 0)) ∧
      (∀ z : Int, (v l).finite = true → (v l).rat = z → -1000 < z → z < 1000 → r l = fp32Res .ne (.fin false 1 z)) ∧
      ((v l).finite = true → r l = fp32Res .ne (f 0 (v l)))) ∧
    (∃ r, LateF (exec (.lg2 h d a ma) s) h s e d r ∧ ∀ l,
      (v l = .nan → r l = (nan32, 0)) ∧ (v l = .inf true → r l = (nan32, fNV)) ∧ (v l = .inf false → r l = (inf32 false, 0)) ∧
      (∀ n k x, v l = .fin n k x → (k = 0 → r l = (inf32 true, fDZ)) ∧ (k ≠ 0 → n = true → r l = (nan32, fNV)) ∧
        (k ≠ 0 → n = false → r l = fp32Res .ne (f 1 (v l))) ∧
        (n = false → ∀ z : Int, (v l).rat = (2 : Rat) ^ z → r l = fp32Res .ne (valI z)))) ∧
    (∃ r, LateF (exec (.sin h d a ma) s) h s e d r ∧ ∀ l,
      (v l = .nan → r l = (nan32, 0)) ∧ (∀ n, v l = .inf n → r l = (nan32, fNV)) ∧ (∀ n x, v l = .fin n 0 x → r l = (zero32 n, 0)) ∧
      ((v l).finite = true → (v l).rat ≠ 0 → (v l).rat * (v l).rat < (2 : Rat) ^ (34 : Int) → r l = fp32Res .ne (f 2 (v l))) ∧
      ((v l).finite = true → (2 : Rat) ^ (34 : Int) ≤ (v l).rat * (v l).rat → reduced 2 (v l) (r l))) ∧
    (∃ r, LateF (exec (.cos h d a ma) s) h s e d r ∧ ∀ l,
      (v l = .nan → r l = (nan32, 0)) ∧ (∀ n, v l = .inf n → r l = (nan32, fNV)) ∧ (∀ n x, v l = .fin n 0 x → r l = (pureImg 0x3F800000#32, 0)) ∧
      ((v l).finite = true → (v l).rat ≠ 0 → (v l).rat * (v l).rat < (2 : Rat) ^ (34 : Int) → r l = fp32Res .ne (f 3 (v l))) ∧
      ((v l).finite = true → (2 : Rat) ^ (34 : Int) ≤ (v l).rat * (v l).rat → reduced 3 (v l) (r l))) ∧
    ∃ r, LateF (exec (.tanh h d a ma) s) h s e d r ∧ ∀ l,
      (v l = .nan → r l = (nan32, 0)) ∧ (v l = .inf false → r l = (pureImg 0x3F800000#32, 0)) ∧ (v l = .inf true → r l = (pureImg 0xBF800000#32, 0)) ∧
      (∀ n x, v l = .fin n 0 x → r l = (zero32 n, 0)) ∧ ((v l).finite = true → (v l).rat ≠ 0 → r l = fp32Res .ne (f 4 (v l)))

/-- R127 to R130, R134: CVT keeps the value in a format that contains the source's and rounds to odd into another;
F2I rounds and saturates; I2F rounds once; FIN commits with S clear; STKR and STKW read and write S.
R129, R134: the forms of two registers: I2F of a pair, STKW of bit 0 of b.
Where the spec is silent the clauses rest on the model's choices, log entries 79, 81, 84, 104, 112. -/
def Obligations.ConversionResults : Prop :=
  (∀ (h : Hdr) (d : BitVec 9) (a : Src) (s : State) (e : Env), Issues h (usesOf h [a] [] [] (some d) 1 []) .anywhere s e →
     (∀ g f : Fmt, g.isFloat = true → f.isFloat = true → ∃ r, GivesF (exec (.cvt h d a g f) s) h s e d r ∧ ∀ l,
       let v := decodeF f (e.pay l a).toNat
       let w := decodeF g (pay (r l).1).toNat
       if contains g f then
         (r l).2 = 0 ∧ sticky (r l).1 = sticky (e.src l a) ∧ (pay (r l).1).toNat < 2 ^ fmtBits g ∧
           (v.isNan = true → (pay (r l).1).toNat = nanCode g) ∧ (v.isNan = false → w.neg = v.neg ∧ w.finite = v.finite ∧ w.rat = v.rat)
       else
         (pay (r l).1).toNat = (roundOdd g v).1 ∧ sticky (r l).1 = (sticky (e.src l a) || (roundOdd g v).2) ∧
           (r l).2 = if v.isNan && g == .e2m1 then fNV else 0) ∧
     (∀ (u : Bool) (f : Fmt) (rm : RMod), f.isFloat = true → ∃ r, GivesF (exec (.f2i h d a u f rm) s) h s e d r ∧ ∀ l,
       let lo : Int := if u then 0 else -2 ^ 31
       let hi : Int := if u then 2 ^ 32 - 1 else 2 ^ 31 - 1
       let z := asInt u (pay (r l).1)
       match decodeF f (e.pay l a).toNat with
       | .nan => z = 0 ∧ sticky (r l).1 = true ∧ (r l).2 = fNV
       | .inf n => z = (if n then lo else hi) ∧ sticky (r l).1 = true ∧ (r l).2 = fNV
       | .fin n k x => ∃ y : Int, IntRounds (e.mode rm) (Val.fin n k x).rat y ∧
         if lo ≤ y ∧ y ≤ hi then
           z = y ∧ sticky (r l).1 = (sticky (e.src l a) || decide ((y : Rat) ≠ (Val.fin n k x).rat)) ∧
             (r l).2 = if (y : Rat) ≠ (Val.fin n k x).rat then fNX else 0
         else z = (if y < lo then lo else hi) ∧ sticky (r l).1 = true ∧ (r l).2 = fNV) ∧
     (∀ rm, GivesF (exec (.i2f h d a .s32 rm) s) h s e d (fun l => fp32Res (e.mode rm) (valI (e.pay l a).toInt)) ∧
       GivesF (exec (.i2f h d a .u32 rm) s) h s e d (fun l => fp32Res (e.mode rm) (valI (e.pay l a).toNat))) ∧
     (∀ (g f : Fmt) (rm : RMod), g.isFloat = true → f.isFloat = true → ∃ r, GivesF (exec (.fin h d a g f rm) s) h s e d r ∧ ∀ l,
       let v := decodeF f (e.pay l a).toNat
       let w := roundF g (e.mode rm) v
       sticky (r l).1 = false ∧
       if v.isNan then (pay (r l).1).toNat = nanCode g ∧ (r l).2 = if g = .e2m1 then fNV else 0
       else (pay (r l).1).toNat = w.code ∧ (r l).2 = w.fl |||
         (if sticky (e.src l a) then fNX ||| (if w.code % 2 ^ (fmtBits g - 1) < 2 ^ (fmtP g).mb then fUF else 0) |||
           (if f ≠ .fp32 ∧ doubleRisk f g none 0 v = true then fDR else 0) else 0)) ∧
     Gives (exec (.stkr h d a) s) h s e d (fun l r => r = if sticky (e.src l a) then 1 else 0) ∧
     Gives (exec (.stkw h d a .clr) s) h s e d (fun l r => pay r = e.pay l a ∧ sticky r = false) ∧
     Gives (exec (.stkw h d a .set) s) h s e d (fun l r => pay r = e.pay l a ∧ sticky r = true)) ∧
  ((∀ (h : Hdr) (d : BitVec 9) (a : Src) (rm : RMod) (s : State) (e : Env), Issues h (usesOf h [] [a] [] (some d) 1 []) .anywhere s e →
     GivesF (exec (.i2f h d a .s64 rm) s) h s e d (fun l => fp32Res (e.mode rm) (valI (e.pair l false a).toInt)) ∧
     GivesF (exec (.i2f h d a .u64 rm) s) h s e d (fun l => fp32Res (e.mode rm) (valI (e.pair l true a).toNat))) ∧
   ∀ (h : Hdr) (d : BitVec 9) (a b : Src) (s : State) (e : Env), Issues h (usesOf h [a, b] [] [] (some d) 1 []) .anywhere s e →
     Gives (exec (.stkw h d a (.bit b)) s) h s e d fun l r => pay r = e.pay l a ∧ sticky r = (e.pay l b).getLsbD 0)

/-- R107, R131, R132, R133: PACK commits a lane's registers to one block, laid out as a fragment with its header, its
SPECIAL the automatic one under `.sp`, and raises the flags of its elements' commits; UNPK reads a fragment's elements,
and traps BLKFMT where a header is malformed, or where none is and one is of another format.
Where the spec is silent the clauses rest on the model's choices, log entries 20, 80, 82, 83, 84, 113. -/
def Obligations.PackAndUnpack : Prop :=
  (∀ (h : Hdr) (d a : BitVec 8) (g f : Fmt) (rm : RMod) (as sp : Bool) (s : State) (e : Env), h.sc = false → f.isFloat = true → (sp = true → g = .e2m1) →
    Issues h { rv := List.range' a.toNat (elems g), wv := List.range' d.toNat 17, late := true } .anywhere s e →
    ∃ fl, Late (exec (.pack h d a g f rm as sp) s) h s e (List.range' d.toNat 17) [] fl fun l r _ =>
      let x := fun i => e.x.v l (a.toNat + i)
      let v := fun i => decodeF f (pay (x i)).toNat
      let ws := (List.range 16).map fun i => pay (r (d.toNat + i))
      let hd := pay (r (d.toNat + 16))
      (∀ i, i < 17 → sticky (r (d.toNat + i)) = false) ∧
      if g = .e2m1 ∧ ∃ i, i < elems g ∧ ((v i).isNan = true ∨ (as = true ∧ (v i).isInf = true)) then
        (∀ i, i < elems g → elemCode ws g i = 0) ∧ hdrFmt hd = 6 ∧ hdrScale hd = 255 ∧ hdrSpecial hd = 0 ∧ hdrSpe hd = false ∧ fl l = fNV
      else ∃ big, big < elems g ∧ (∀ i, i < elems g → (v i).finite = true → (v big).finite = true ∧ (v i).rat * (v i).rat ≤ (v big).rat * (v big).rat ∧
          ((v i).rat * (v i).rat = (v big).rat * (v big).rat → big ≤ i)) ∧
        hdrFmt hd = fmtNum g ∧ hd.extractLsb' 25 7 = 0 ∧ hdrSpe hd = sp ∧
        (as = false → hdrScale hd = 127) ∧
        (as = true → hdrScale hd = match v big with | .fin _ k y => blockScale k y g | _ => 127) ∧
        hdrSpecial hd = (if sp ∧ (v big).finite = true then (roundF .e4m3 .ne ((v big).scale ((hdrScale hd : Int) - 127))).code else 0) ∧
        let c := fun i => commitRound (x i) f g (e.mode rm) ((hdrScale hd : Int) - 127) (if sp then some (hdrSpecial hd) else none)
        (∀ i, i < elems g → elemCode ws g i = (c i).code) ∧
        ∀ b, (fl l).getLsbD b = (List.range (elems g)).any fun i => (c i).fl.getLsbD b) ∧
  ∀ (h : Hdr) (d a : BitVec 8) (g : Fmt) (raw : Bool) (s : State) (e : Env), h.sc = false →
    Issues h { rv := List.range' a.toNat 17, wv := List.range' d.toNat (elems g), late := true } .anywhere s e →
    let hd := fun l => pay (e.x.v l (a.toNat + 16))
    let ws := fun l => (List.range 16).map fun i => pay (e.x.v l (a.toNat + i))
    ((∀ l, e.act.getLsbD l = true → badHdr (hd l) = false ∧ (hdrFmt (hd l) = 0 ∨ hdrFmt (hd l) = fmtNum g)) →
      Late (exec (.unpk h d a g raw) s) h s e (List.range' d.toNat (elems g)) [] (fun _ => 0) fun l r _ =>
        ∀ i, i < elems g → let c := elemCode (ws l) g i
          r (d.toNat + i) = if hdrFmt (hd l) = 0 then 0 else if fmtInt g then pureImg (BitVec.ofInt 32 (decodeI g c))
            else if raw then pureImg (BitVec.ofNat 32 c)
            else img (roundOdd .fp32 (elemVal (hd l) g c)).2 (BitVec.ofNat 32 (roundOdd .fp32 (elemVal (hd l) g c)).1)) ∧
    ((∃ l, e.act.getLsbD l = true ∧ badHdr (hd l) = true) → e.n ≠ 64 →
      ∃ m, (∀ l, m.getLsbD l = (e.act.getLsbD l && badHdr (hd l))) ∧
        Traps (exec (.unpk h d a g raw) s) s e { cause := 0x0B, pc := e.m.pc, mask := m, addr := 0, info := 1 }) ∧
    let other := fun l => hdrFmt (hd l) != 0 && hdrFmt (hd l) != fmtNum g
    ((∀ l, e.act.getLsbD l = true → badHdr (hd l) = false) → (∃ l, e.act.getLsbD l = true ∧ other l = true) → e.n ≠ 64 →
      ∃ m, (∀ l, m.getLsbD l = (e.act.getLsbD l && other l)) ∧
        Traps (exec (.unpk h d a g raw) s) s e { cause := 0x0B, pc := e.m.pc, mask := m, addr := 0, info := 2 })


-- cross-lane instructions (R146 to R157)

/-- R146, R148, R149, R150, R155: shuffles read the lane their mode names and GATH a table word, where that lane is
a member, and otherwise the reader's own register; SHFLP delivers the highest-numbered sender. -/
def Obligations.ShuffleResults : Prop :=
  (∀ (h : Hdr) (d : BitVec 8) (a : Src) (m : ShMode) (n : ShOff) (p : PSrc) (s : State) (e : Env), h.sc = false →
    Issues h (Uses.later (usesOf h (match n with | .opd b => [a, b] | .wrel _ => [a]) [] [p] (some (d.setWidth 9)) 1 [])) .anywhere s e →
    Late (exec (.shfl h d a m n p) s) h s e [d.toNat] [] (fun _ => 0) fun l r _ =>
      let k := match n with | .opd b => (e.pay l b).toNat | .wrel w => 64 / 2 ^ w.toNat
      let j : Int := match m with
        | .at => (k % 64 : Nat) | .back => (l : Int) - k | .fwd => (l : Int) + k | .flip => (l ^^^ (k % 64) : Nat) | .rot => ((l + k) % 64 : Nat)
      r d.toNat = if 0 ≤ j ∧ j < 64 ∧ e.act.getLsbD j.toNat = true ∧ e.pred j.toNat p = true then e.src j.toNat a else e.src l a) ∧
  (∀ (h : Hdr) (d : BitVec 8) (a : Src) (b : ShbSel) (p : PSrc) (s : State) (e : Env), h.sc = false →
    Issues h (Uses.later (usesOf h (match b with | .lane b => [a, b] | .lo => [a]) [] [p] (some (d.setWidth 9)) 1 [])) .anywhere s e →
    let ms := (List.range 64).filter fun j => e.act.getLsbD j && e.pred j p
    Late (exec (.shflb h d a b p) s) h s e [d.toNat] [] (fun _ => 0) fun l r _ =>
      let j := match b with | .lane b => (e.pay l b).toNat % 64 | .lo => ms.headD l
      r d.toNat = if j ∈ ms then e.src j a else e.src l a) ∧
  (∀ (h : Hdr) (d : BitVec 8) (a b : Src) (p : PSrc) (s : State) (e : Env), h.sc = false →
    Issues h (Uses.later (usesOf h [a, b] [] [p] (some (d.setWidth 9)) 1 [])) .anywhere s e →
    let sends := fun j l => e.act.getLsbD j = true ∧ e.pred j p = true ∧ (e.pay j b).toNat % 64 = l
    Late (exec (.shflp h d a b p) s) h s e [d.toNat] [] (fun _ => 0) fun l r _ =>
      (∀ j, sends j l → (∀ i, sends i l → i ≤ j) → r d.toNat = e.src j a) ∧ ((∀ j, ¬sends j l) → r d.toNat = e.src l a)) ∧
  ∀ (h : Hdr) (d a : BitVec 8) (b : Src) (n : BitVec 4) (p : PSrc) (s : State) (e : Env), h.sc = false →
    Issues h { usesOf h [b] [] [p] (some (d.setWidth 9)) 1 [] with
      rv := (usesOf h [b] [] [p] (some (d.setWidth 9)) 1 []).rv ++ List.range' a.toNat (n.toNat + 1), late := true } .anywhere s e →
    Late (exec (.gath h d a b n p) s) h s e [d.toNat] [] (fun _ => 0) fun l r _ =>
      let x := (e.pay l b).toNat
      r d.toNat = if n.toNat < x / 64 then 0
        else e.x.v (if e.act.getLsbD (x % 64) && e.pred (x % 64) p then x % 64 else l) (a.toNat + x / 64)

/-- R147, R151, R152: votes over the lanes taking part, and matches of payloads over the members; masks lie in a pair
with S clear. -/
def Obligations.VotesAndMatches : Prop :=
  (∀ (h : Hdr) (pa : PSrc) (pd : BitVec 3) (s : State) (e : Env), h.sc = false → Issues h { rp := [pa.p.toNat], wp := [pd.toNat], late := true } .anywhere s e →
    Late (exec (.vote h (.every pd) pa) s) h s e [] [pd.toNat] (fun _ => 0) (fun _ _ q =>
      pd ≠ 7 → (q pd.toNat = true ↔ ∀ j, e.act.getLsbD j = true → e.pred j pa = true)) ∧
    Late (exec (.vote h (.some pd) pa) s) h s e [] [pd.toNat] (fun _ => 0) (fun _ _ q =>
      pd ≠ 7 → (q pd.toNat = true ↔ ∃ j, e.act.getLsbD j = true ∧ e.pred j pa = true)) ∧
    Late (exec (.vote h (.same pd) pa) s) h s e [] [pd.toNat] (fun _ => 0) fun _ _ q =>
      pd ≠ 7 → (q pd.toNat = true ↔ ∀ i j, e.act.getLsbD i = true → e.act.getLsbD j = true → e.pred i pa = e.pred j pa)) ∧
  (∀ (h : Hdr) (pa : PSrc) (d : BitVec 8) (s : State) (e : Env), h.sc = false → Issues h { rp := [pa.p.toNat], wv := List.range' d.toNat 2, late := true } .anywhere s e →
    Late (exec (.vote h (.mask d) pa) s) h s e [d.toNat, d.toNat + 1] [] (fun _ => 0) fun _ r _ =>
      sticky (r d.toNat) = false ∧ sticky (r (d.toNat + 1)) = false ∧ ∀ j, j < 64 → (pairOf r d.toNat).getLsbD j = (e.act.getLsbD j && e.pred j pa)) ∧
  (∀ (h : Hdr) (d : BitVec 8) (a : Src) (p : PSrc) (s : State) (e : Env), h.sc = false → Issues h (Uses.later (usesOf h [a] [] [p] (some (d.setWidth 9)) 2 [])) .anywhere s e →
    Late (exec (.matchx h (.mask d) a p) s) h s e [d.toNat, d.toNat + 1] [] (fun _ => 0) fun l r _ =>
      sticky (r d.toNat) = false ∧ sticky (r (d.toNat + 1)) = false ∧
      ∀ j, j < 64 → (pairOf r d.toNat).getLsbD j = (e.act.getLsbD j && e.pred j p && e.pay j a == e.pay l a)) ∧
  ∀ (h : Hdr) (pd : BitVec 3) (a : Src) (p : PSrc) (s : State) (e : Env), h.sc = false → Issues h (Uses.later (usesOf h [a] [] [p] none 0 [pd.toNat])) .anywhere s e →
    let mem := fun j => e.act.getLsbD j = true ∧ e.pred j p = true
    Late (exec (.matchx h (.one pd) a p) s) h s e [] [pd.toNat] (fun _ => 0) fun _ _ q =>
      pd ≠ 7 → (q pd.toNat = true ↔ ∀ i j, mem i → mem j → e.pay i a = e.pay j a)

/-- R153, R154: REDX combines all members, SCANX those at or below (below, under `.exc`) the reading lane.
R156: REBAL finds the member whose row holds the item that a lane asks for, and its place in the row, or gives
the item's distance beyond the last row. -/
def Obligations.ReductionsScansRebalance : Prop :=
  (∀ (h : Hdr) (d : BitVec 8) (a : Src) (o : ROp) (rm : RMod) (p : PSrc) (s : State) (e : Env), h.sc = false →
     Issues h (Uses.later (usesOf h [a] [] [p] (some (d.setWidth 9)) 1 [])) .anywhere s e →
     let set := fun (q : Nat → Bool) => (((List.range 64).filter fun j => e.act.getLsbD j && e.pred j p && q j).map fun j => e.src j a)
     (∃ r, LateF (exec (.redx h d a o rm p) s) h s e (d.setWidth 9) (fun _ => r) ∧ ReduceSpec o (e.mode rm) (set fun _ => true) r) ∧
     ∀ exc, ∃ r, LateF (exec (.scanx h d a o rm exc p) s) h s e (d.setWidth 9) r ∧
       ∀ l, l < 64 → ReduceSpec o (e.mode rm) (set fun j => if exc then decide (j < l) else decide (j ≤ l)) (r l)) ∧
  (∀ (h : Hdr) (d : BitVec 8) (a b : Src) (p : PSrc) (s : State) (e : Env), h.sc = false →
     Issues h (Uses.later (usesOf h [a, b] [] [p] (some (d.setWidth 9)) 2 [])) .anywhere s e →
     let before := fun j => (((List.range 64).filter fun i => e.act.getLsbD i && e.pred i p && decide (i < j)).map fun i => (e.pay i a).toNat).sum
     Late (exec (.rebal h d a b p) s) h s e [d.toNat, d.toNat + 1] [] (fun _ => 0) fun l r _ =>
       let t := (e.pay l b).toNat
       sticky (r d.toNat) = false ∧ sticky (r (d.toNat + 1)) = false ∧
       (∀ j, e.act.getLsbD j = true → e.pred j p = true → before j ≤ t → t < before j + (e.pay j a).toNat →
         (pay (r d.toNat)).toNat = j ∧ (pay (r (d.toNat + 1))).toNat = t - before j) ∧
       (before 64 ≤ t → (pay (r d.toNat)).toNat = 0xFFFFFFFF ∧ (pay (r (d.toNat + 1))).toNat = t - before 64))


-- control (R53 to R65, R76, R77)

/-- NOP in its three lengths and PREF change nothing but their member, which passes them; PREF does so
whatever its address is (R182).
R76: BRK and TRAP trap with their codes, and resume at the next instruction, where the member still has the
instruction's switch marker before it (R23, R47). -/
def Obligations.PassesAndSoftwareTraps : Prop :=
  (∀ (h : Hdr) (s : State) (e : Env),
     (Issues h {} .anywhere s e → Passes (exec (.nop h) s) h s e ∧ Passes (exec (.nopLong h) s) h s e) ∧
     ∀ (l2 : Bool) (m : MemOpd), Issues h { memUses false m with quiet := true } .anywhere s e → Passes (exec (.pref h l2 m) s) h s e) ∧
  (∀ (h : Hdr) (k : BitVec 8) (w : BitVec 16) (s : State) (e : Env), Issues h {} .swarm s e → e.n ≠ 64 →
     Traps (exec (.brk h k) s) s e { cause := 0x11, pc := e.m.nextPc h, mask := e.act, addr := 0, info := BitVec.ofNat 32 k.toNat } ∧
     Traps (exec (.trap h w) s) s e { cause := 0x10, pc := e.m.nextPc h, mask := e.act, addr := 0, info := BitVec.ofNat 32 w.toNat } ∧
     ∀ i ∈ [Instr.brk h k, .trap h w], ∃ t y m', exec i s = .next t ∧ t.slot? e.c e.n = some y ∧ y.mem? e.m.id = some m' ∧ m'.y = h.y)

/-- R53 to R55: the five control transfers. CALL and CALLX write the return address, S clear, in the lanes whose
guard is true. -/
def Obligations.ControlTransfers : Prop :=
  (∀ (h : Hdr) (u : Bool) (off : Word) (s : State) (e : Env), Issues h {} .anywhere s e →
    Transfers (exec (.bra h u off) s) h s e u none fun _ => e.m.pc + off.signExtend 64) ∧
  (∀ (h : Hdr) (u : Bool) (d : BitVec 8) (off : Word) (s : State) (e : Env), Issues h { wv := List.range' d.toNat 2 } .anywhere s e →
    Transfers (exec (.call h u d off) s) h s e u (some d) fun _ => e.m.pc + off.signExtend 64) ∧
  (∀ (h : Hdr) (u : Bool) (a : Src) (s : State) (e : Env), Issues h { rv := useV 2 a, rs := useS 2 a } .anywhere s e →
    Transfers (exec (.brx h u a) s) h s e u none (fun l => e.pair l false a) ∧
    Transfers (exec (.ret h u a) s) h s e u none fun l => e.pair l false a) ∧
  ∀ (h : Hdr) (u : Bool) (d : BitVec 8) (a : Src) (s : State) (e : Env), Issues h (linkUses d [a]) .anywhere s e →
    Transfers (exec (.callx h u d a) s) h s e u (some d) fun l => e.pair l false a

/-- R29, R56: RCV parks a member of a branch or merged family at the RCV, and any other member as at a switch
marker behind it.
R65, R174, R220, R222: WAITC and LWAIT go on when their counter reads n or less and the swarm owes no MCHK for an
operation they wait for, and park at their own address until then; only the wait for matrix operations keeps a
lease.
Where the spec is silent the clauses rest on the model's choices, log entry 22. -/
def Obligations.ReconvergenceAndCounterWaits : Prop :=
  (∀ (h : Hdr) (s : State) (e : Env) (x : Slot), Issues h {} .anywhere s e → s.slot? e.c e.n = some x →
     ((∃ g, x.fam? e.m.fam = some g ∧ ∀ l r, g.kind ≠ .vcall l r) → Parks (exec (.rcv h) s) s e .rcv e.m.pc) ∧
     ((x.fam? e.m.fam = none ∨ ∃ g l r, x.fam? e.m.fam = some g ∧ g.kind = .vcall l r) → Parks (exec (.rcv h) s) s e .marker (e.m.nextPc h))) ∧
  (∀ (h : Hdr) (c : EngClass) (n : BitVec 6) (s : State) (e : Env) (x : Slot), s.slot? e.c e.n = some x →
     let owes := fun (c : EngClass) => ∃ d ∈ x.due, d.covers c n.toNat = true
     let count : EngClass → Nat := fun c => match c with
       | .copy => x.copies.length | .mtx => x.mtx.length | .post => x.posts | .child => x.kids.length
     (Issues h {} .anywhere s e →
       (count c ≤ n.toNat → ¬owes c → Passes (exec (.waitc h c n) s) h s e) ∧
       (n.toNat < count c ∨ owes c → c ≠ .mtx → ParksFree (exec (.waitc h c n) s) s e (.waitc c n.toNat) e.m.pc) ∧
       (n.toNat < count c ∨ owes c → c = .mtx → Parks (exec (.waitc h c n) s) s e (.waitc c n.toNat) e.m.pc)) ∧
     (Issues h {} .swarm s e →
       (count .child ≤ n.toNat → Passes (exec (.lwait h n) s) h s e) ∧
       (n.toNat < count .child → ParksFree (exec (.lwait h n) s) s e (.waitc .child n.toNat) e.m.pc)))

/-- R60: END takes the fibres of the lanes taking part out of the swarm, out of the live count of their colony, and
drops their outstanding results; what stays keeps its registers; engine counters and memory stand.
Where the spec is silent the clauses rest on the model's choices, log entry 48. -/
def Obligations.EndRemovesFibres : Prop :=
  ∀ (h : Hdr) (s : State) (e : Env) (x : Slot), Issues h {} .swarm s e → s.slot? e.c e.n = some x →
    ∃ t y, exec (.endf h) s = .next t ∧ t.slot? e.c e.n = some y ∧
      (∀ l, y.fibre? l = if e.act.getLsbD l then none else x.fibre? l) ∧ (∀ n, y.s n = x.s n) ∧ y.fflags = x.fflags ∧
      (∀ k ∈ y.members, k.mask &&& e.act = 0 ∧ k.mask ≠ 0) ∧
      (∀ o ∈ y.late, ∀ w ∈ o.writes, ∀ l n, w.dst = .v l n ∨ w.dst = .p l n → e.act.getLsbD l = false) ∧
      y.copies.length = x.copies.length ∧ y.mtx.length = x.mtx.length ∧ y.posts = x.posts ∧ y.kids = x.kids ∧
      (∀ z, s.colony? e.x.grid e.x.col = some z → ∃ z', t.colony? e.x.grid e.x.col = some z' ∧
        z'.live = z.live - (lanesOf e.act).length ∧ z'.nextFid = z.nextFid) ∧
      (∀ g k, ¬(g = e.x.grid ∧ k = e.x.col) → t.colony? g k = s.colony? g k) ∧
      (∀ a, t.rdByte a = s.rdByte a) ∧ ∀ a, t.rdHdr a = s.rdHdr a

/-- R14, R57, R58: FORK writes false and creates nothing in a colony with 16384 live fibres; with room in a bin of
its entry, a lane's fibre joins the bin with the next FID and the four arguments, the live count rises, the
predicate is true, and the fork count of the lane rises. -/
def Obligations.ForkCreatesOrRefuses : Prop :=
  ∀ (h : Hdr) (pd : BitVec 3) (w : Word) (c : BitVec 8) (s : State) (e : Env) (x : Slot) (g : Grid) (z : Colony),
    Issues h { rv := List.range' c.toNat 4, wp := [pd.toNat] } .swarm s e → s.slot? e.c e.n = some x → s.grid? x.grid = some g →
    s.colony? x.grid x.col = some z → (∀ l, (e.x.fibre l).done = false) → pd ≠ 7 →
    let entry := e.m.pc + w.signExtend 64
    entry.extractLsb' 0 2 = 0 → entry.extractLsb' 52 12 = 0 →
    (16384 ≤ z.live → ∃ t y, exec (.fork h pd (.off w) c) s = .next t ∧ t.slot? e.c e.n = some y ∧ OneMember e.m.id x y (Passed h) ∧
      (∀ l n, y.pbit l n = if e.act.getLsbD l && n == pd.toNat then false else x.pbit l n) ∧
      (∀ l n, y.v l n = x.v l n) ∧ (∀ n, y.s n = x.s n) ∧ (t.core e.c).bins = (s.core e.c).bins ∧
      (∃ z', t.colony? x.grid x.col = some z' ∧ z'.live = z.live ∧ z'.nextFid = z.nextFid) ∧ ∀ a, t.rdByte a = s.rdByte a) ∧
    ∀ l b bin, e.act = 1#64 <<< l → l < 64 → (x.fibre? l).isSome = true → z.live < 16384 → z.nextFid + s.unnamed x.grid x.col < 0x80000000 →
      g.det = false → (s.core e.c).bins.find? (fun k => k.2.grid == x.grid && k.2.col == x.col && k.2.entry == entry &&
        decide (k.1 < 1024) && decide (k.2.fibres.length < 64)) = some (b, bin) → lfind (s.core e.c).bins b = some bin →
      bin.fibres.length % 64 ≠ 0 → bin.fibres.length < 63 →
      ∃ t y, exec (.fork h pd (.off w) c) s = .next t ∧ t.slot? e.c e.n = some y ∧ OneMember e.m.id x y (Passed h) ∧
        lfind (t.core e.c).bins b = some { bin with fibres := bin.fibres ++
          [{ fid := some z.nextFid, parent := (x.fibre l).fid, seq := (x.fibre l).forks, args := (List.range 4).map fun i => e.x.v l (c.toNat + i) }] } ∧
        (∃ z', t.colony? x.grid x.col = some z' ∧ z'.live = z.live + 1 ∧ z'.nextFid = z.nextFid + 1) ∧
        y.pbit l pd.toNat = true ∧ (y.fibre l).forks = (x.fibre l).forks + 1 ∧ (y.fibre l).done = false ∧
        (∀ l n, y.v l n = x.v l n) ∧ (∀ n, y.s n = x.s n) ∧ ∀ a, t.rdByte a = s.rdByte a

/-- R19, R63, R64: BAR traps where its lanes do not agree, its count is too large or not the round's, or a fibre
arrives twice; an arrival that leaves the round open is counted, and BAR.WAIT parks where BAR.PASS goes on; the
last arrival empties the barrier and wakes the members of the colony that wait at it.
Where the spec is silent the clauses rest on the model's choices, log entry 41. -/
def Obligations.BarrierArrivals : Prop :=
  ∀ (h : Hdr) (b : BitVec 4) (c : Cnt) (s : State) (e : Env) (x : Slot) (z : Colony), Issues h (cntUses c) .swarm s e →
    s.slot? e.c e.n = some x → s.colony? e.x.grid e.x.col = some z → e.n ≠ 64 →
    let count := match c with | .allLive => 0 | .reg n => (pay (e.x.s n.toNat)).toNat | .lit w => w.toNat
    let r := z.bar b.toNat
    let fids := (lanesOf e.act).map fun l => (e.x.fibre l).fid
    let expected := if r.arrived = 0 then (if count = 0 then z.live else count) else r.expected
    let legal := count ≤ 16384 ∧ (∀ f ∈ fids, f ∉ r.fids) ∧ (r.arrived ≠ 0 → r.form = count) ∧ r.arrived + fids.length ≤ expected
    let out := e.m.mask &&& ~~~e.act
    let both := fun (p : Instr → Prop) => p (.barWait h b c) ∧ p (.barPass h b c)
    let ill := fun (k : Nat) (i : Instr) => Traps (exec i s) s e { cause := 1, pc := e.m.pc, mask := e.m.mask, addr := 0, info := BitVec.ofNat 32 k }
    let arrived := fun (t : State) (y : Slot) => t.slot? e.c e.n = some y ∧ SameRegs x y ∧ (∀ a, t.rdByte a = s.rdByte a) ∧
      ∃ z', t.colony? e.x.grid e.x.col = some z' ∧ z'.live = z.live ∧ (∀ k, k ≠ b.toNat → z'.bars[k]? = z.bars[k]?)
    (out ≠ 0 → both fun i => Traps (exec i s) s e { cause := 4, pc := e.m.pc, mask := out, addr := 0, info := 0 }) ∧
    (out = 0 → 16384 < count → both (ill 8)) ∧
    (out = 0 → count ≤ 16384 → (∃ f ∈ fids, f ∈ r.fids) → both (ill 9)) ∧
    (out = 0 → count ≤ 16384 → (∀ f ∈ fids, f ∉ r.fids) → ((r.arrived ≠ 0 ∧ r.form ≠ count) ∨ expected < r.arrived + fids.length) → both (ill 8)) ∧
    (out = 0 → legal → r.arrived + fids.length < expected → z.bars.length = 16 →
      let new : Barrier := { expected := expected, form := count, arrived := r.arrived + fids.length, fids := r.fids ++ fids }
      (∃ t y, exec (.barWait h b c) s = .next t ∧ arrived t y ∧ OneMember e.m.id x y (Parked (.bar b.toNat) (e.m.nextPc h)) ∧
        (t.colony? e.x.grid e.x.col).map (·.bar b.toNat) = some new) ∧
      ∃ t y, exec (.barPass h b c) s = .next t ∧ arrived t y ∧ OneMember e.m.id x y (Passed h) ∧
        (t.colony? e.x.grid e.x.col).map (·.bar b.toNat) = some new) ∧
    (out = 0 → legal → r.arrived + fids.length = expected → both fun i => ∃ t y, exec i s = .next t ∧ arrived t y ∧
      (∃ m', y.mem? e.m.id = some m' ∧ m'.pc = e.m.nextPc h ∧ m'.st = if h.y then .marker else .ready) ∧
      (t.colony? e.x.grid e.x.col).map (fun z' => (z'.bar b.toNat).arrived) = some 0 ∧
      ∀ j ∈ t.cores, ∀ k ∈ j.2.slots, k.2.grid = e.x.grid → k.2.col = e.x.col → ∀ m' ∈ k.2.members, m'.st ≠ .bar b.toNat)


-- status registers, exceptions and their return, the handler's instructions (R78 to R85, R273 to R279)

/-- R78, R79, R82, R248, R274, R323, R324: CSRR of every status register but the late ones writes its value with S clear; in
the handler the registers that describe a swarm, its colony and its grid read those of the swarm under service, and
the others the handler's own. ENGCNT, ENRG and REFC are delivered late; an unassigned number traps ILL, TINFO 0x0B,
and a trap register read by a swarm traps PRIV. Reading CYCLO latches the upper half of the cycle count in CYCHI, and
reading MONMIN latches the monitor for MONMAX and the bins.
Where the spec is silent the clauses rest on the model's choices, log entries 46, 47, 60, 120. -/
def Obligations.StatusRegisterReads : Prop :=
  ∀ (h : Hdr) (d : BitVec 9) (n : BitVec 12) (s : State) (e : Env) (x : Slot),
    Issues h { wv := if h.sc then [] else [d.toNat], ws := if h.sc then [d.toNat] else [], late := csrLate n.toNat } .anywhere s e → s.slot? e.c e.n = some x →
    let sub := s.subject e.c e.n
    let z := sub.bind fun y => s.colony? y.grid y.col
    let g := sub.bind fun y => s.grid? y.grid
    let own := (s.core e.c).handler
    let fib := fun l => (sub.bind fun y => y.fibre? l).getD fibreReset
    let bit := fun (b : Bool) => if b then 1 else 0
    let value : Nat → Option Word := fun l => match n.toNat with
      | 0x000 => some 64 | 0x001 => some (BitVec.ofNat 32 l) | 0x003 => some (BitVec.ofNat 32 e.n)
      | 0x002 => some (BitVec.ofNat 32 (fib l).fid)
      | 0x004 => sub.map fun y => BitVec.ofNat 32 y.col
      | 0x005 => z.map fun z => BitVec.ofNat 32 z.live
      | 0x006 => sub.map fun y => BitVec.ofNat 32 y.rank
      | 0x007 => z.map fun z => BitVec.ofNat 32 z.cores.length
      | 0x008 => sub.map fun y => BitVec.ofNat 32 y.grid
      | 0x009 => g.map fun g => BitVec.ofNat 32 g.depth
      | 0x00A => g.map fun g => g.launch.arg.extractLsb' 0 32
      | 0x00B => g.map fun g => g.launch.arg.extractLsb' 32 32
      | 0x010 => some (x.fmode.setWidth 32) | 0x011 => some (x.fflags.setWidth 32)
      | 0x021 => some x.cychi | 0x022 => some (BitVec.ofNat 32 (s.now / 2000))
      | 0x033 => sub.bind fun y => g.map fun g => BitVec.ofNat 32 (256 * g.launch.heat + 16 * g.prio + y.prio)
      | 0x040 => some (BitVec.ofNat 32 (match (fib l).frames with | [] => (fib l).baseT | f :: _ => f.vtb))
      | 0x041 => some (BitVec.ofNat 32 (match (fib l).frames with | [] => (fib l).baseE | f :: _ => f.veb))
      | 0x042 => some (match (fib l).frames with | [] => 0 | f :: _ => BitVec.ofNat 32 f.vql)
      | 0x043 => some (match (fib l).frames with
        | [] => 0x80000000 | f :: r => BitVec.ofNat 32 (256 * (r.length + 1) + 16 * f.tier + f.entry))
      | 0x050 => g.map fun g => BitVec.ofNat 32 (bit g.det + 2 * bit g.debug + 4 * bit g.lease)
      | 0x060 => some own.tcause | 0x061 => some own.tpc | 0x062 => some own.tmask | 0x063 => some own.taddrlo
      | 0x064 => some own.taddrhi | 0x065 => some own.tinfo | 0x066 => some own.tmaskhi | 0x067 => some own.tpchi
      | 0x070 => some (s.core e.c).monSel
      | 0x072 => some (BitVec.ofNat 32 x.latch.max)
      | 0x090 => some (BitVec.ofNat 32 s.live.length)
      | k => if 0x073 ≤ k ∧ k ≤ 0x082 then some (BitVec.ofNat 32 (x.latch.bins.getD (k - 0x073) 0)) else none
    let trapReg := 0x060 ≤ n.toNat ∧ n.toNat ≤ 0x067
    ((e.n = 64 ∨ ¬trapReg) → (∀ l, e.act.getLsbD l = true → (value l).isSome = true) →
      Gives (exec (.csrr h d n) s) h s e d fun l r => some r = (value l).map pureImg) ∧
    (n.toNat = 0x020 → ∃ t y, exec (.csrr h d n) s = .next t ∧ OnlySlot e s t x y ∧ OneMember e.m.id x y (Passed h) ∧
      y.plain = { x.plain with cychi := BitVec.ofNat 32 (s.now / 2 ^ 32) } ∧
      ∀ l, e.act.getLsbD l = true → (x.fibre? l).isSome = true → (if h.sc then y.s d.toNat else y.v l d.toNat) = pureImg (BitVec.ofNat 32 s.now)) ∧
    (n.toNat = 0x071 → ∃ t y, exec (.csrr h d n) s = .next t ∧ OnlySlot e s t x y ∧ OneMember e.m.id x y (Passed h) ∧
      y.plain = { x.plain with latch := (s.core e.c).mon } ∧
      ∀ l, e.act.getLsbD l = true → (x.fibre? l).isSome = true →
        (if h.sc then y.s d.toNat else y.v l d.toNat) = pureImg (BitVec.ofNat 32 (s.core e.c).mon.min)) ∧
    (n.toNat = 0x030 → ∀ y, sub = some y → Late (exec (.csrr h d n) s) h s e [d.toNat] [] (fun _ => 0) fun _ r _ => r d.toNat = pureImg (BitVec.ofNat 32
      (y.copies.length + 256 * y.mtx.length + 65536 * y.posts + 16777216 * y.kids.length))) ∧
    (n.toNat = 0x031 → ∀ k, z = some k → Late (exec (.csrr h d n) s) h s e [d.toNat] [] (fun _ => 0) fun _ r _ =>
      r d.toNat = pureImg (BitVec.ofNat 32 (k.energy / 16000))) ∧
    (n.toNat = 0x032 → ∀ k, z = some k → Late (exec (.csrr h d n) s) h s e [d.toNat] [] (fun _ => 0) fun _ r _ =>
      r d.toNat = pureImg (BitVec.ofNat 32 (k.refresh / 1000))) ∧
    (e.n ≠ 64 → (0x00C ≤ n.toNat ∧ n.toNat < 0x010 ∨ 0x012 ≤ n.toNat ∧ n.toNat < 0x020 ∨ 0x023 ≤ n.toNat ∧ n.toNat < 0x030 ∨
      0x034 ≤ n.toNat ∧ n.toNat < 0x040 ∨ 0x044 ≤ n.toNat ∧ n.toNat < 0x050 ∨ 0x051 ≤ n.toNat ∧ n.toNat < 0x060 ∨ 0x068 ≤ n.toNat ∧ n.toNat < 0x070 ∨
      0x083 ≤ n.toNat ∧ n.toNat < 0x090 ∨ 0x091 ≤ n.toNat) →
      Traps (exec (.csrr h d n) s) s e { cause := 1, pc := e.m.pc, mask := e.m.mask, addr := 0, info := 0x0B }) ∧
    (e.n ≠ 64 → trapReg → Traps (exec (.csrr h d n) s) s e { cause := 3, pc := e.m.pc, mask := e.m.mask, addr := 0, info := 0 })

/-- R78, R80, R81, R274, R323, R324: CSRW of FMODE and FFLAGS writes their fields; a rounding mode above 4 traps ILL,
TINFO 0x0C; every register that swarms may only read, and every one of the handler's, traps PRIV, and an unassigned
number ILL, TINFO 0x0B. In the handler a write of a
trap register writes it, TCAUSE's high bits and TPCHI's as zero; a write of MONSEL sets its fields and clears the
monitor, a sample of the same cycle leaves nothing, and a later one of the selected quantity is counted.
R77: PRIO sets the swarm's priority, at most the priority its grid has.
Where the spec is silent the clauses rest on the model's choices, log entries 47, 120. -/
def Obligations.StatusRegisterWrites : Prop :=
  (∀ (h : Hdr) (a : Src) (n : BitVec 12) (s : State) (e : Env) (x : Slot), Issues h { rv := useV 1 a, rs := useS 1 a } .anywhere s e → s.slot? e.c e.n = some x →
     let w := e.pay (lowest e.act) a
     (n.toNat = 0x010 → w.toNat % 8 ≤ 4 → ∃ t y, exec (.csrw h a n) s = .next t ∧ OnlySlot e s t x y ∧ OneMember e.m.id x y (Passed h) ∧
       y.plain = { x.plain with fmode := w.extractLsb' 0 3 } ∧ SameRegs x y) ∧
     (n.toNat = 0x011 → ∃ t y, exec (.csrw h a n) s = .next t ∧ OnlySlot e s t x y ∧ OneMember e.m.id x y (Passed h) ∧
       y.plain = x.plain ∧ y.fflags = w.extractLsb' 0 6 ∧ (∀ l k, y.v l k = x.v l k) ∧ (∀ k, y.s k = x.s k) ∧ ∀ l k, y.pbit l k = x.pbit l k) ∧
     (e.n ≠ 64 → n.toNat = 0x010 → 4 < w.toNat % 8 → Traps (exec (.csrw h a n) s) s e { cause := 1, pc := e.m.pc, mask := e.m.mask, addr := 0, info := 0x0C }) ∧
     (e.n ≠ 64 → (n.toNat ≤ 0x00B ∨ (0x020 ≤ n.toNat ∧ n.toNat ≤ 0x022) ∨ (0x030 ≤ n.toNat ∧ n.toNat ≤ 0x033) ∨ (0x040 ≤ n.toNat ∧ n.toNat ≤ 0x043) ∨
         n.toNat = 0x050 ∨ (0x060 ≤ n.toNat ∧ n.toNat ≤ 0x067) ∨ (0x070 ≤ n.toNat ∧ n.toNat ≤ 0x082) ∨ n.toNat = 0x090) →
       Traps (exec (.csrw h a n) s) s e { cause := 3, pc := e.m.pc, mask := e.m.mask, addr := 0, info := 0 }) ∧
     (e.n ≠ 64 → (0x00C ≤ n.toNat ∧ n.toNat < 0x010 ∨ 0x012 ≤ n.toNat ∧ n.toNat < 0x020 ∨ 0x023 ≤ n.toNat ∧ n.toNat < 0x030 ∨
       0x034 ≤ n.toNat ∧ n.toNat < 0x040 ∨ 0x044 ≤ n.toNat ∧ n.toNat < 0x050 ∨ 0x051 ≤ n.toNat ∧ n.toNat < 0x060 ∨ 0x068 ≤ n.toNat ∧ n.toNat < 0x070 ∨
       0x083 ≤ n.toNat ∧ n.toNat < 0x090 ∨ 0x091 ≤ n.toNat) →
       Traps (exec (.csrw h a n) s) s e { cause := 1, pc := e.m.pc, mask := e.m.mask, addr := 0, info := 0x0B }) ∧
     (e.n = 64 → 0x060 ≤ n.toNat → n.toNat ≤ 0x067 → ∃ t, exec (.csrw h a n) s = .next t ∧
       let old := (s.core e.c).handler
       let new := (t.core e.c).handler
       new.tcause = (if n.toNat = 0x060 then w &&& 0xFF#32 else old.tcause) ∧ new.tpc = (if n.toNat = 0x061 then w else old.tpc) ∧
       new.tmask = (if n.toNat = 0x062 then w else old.tmask) ∧ new.taddrlo = (if n.toNat = 0x063 then w else old.taddrlo) ∧
       new.taddrhi = (if n.toNat = 0x064 then w else old.taddrhi) ∧ new.tinfo = (if n.toNat = 0x065 then w else old.tinfo) ∧
       new.tmaskhi = (if n.toNat = 0x066 then w else old.tmaskhi) ∧ new.tpchi = (if n.toNat = 0x067 then w &&& 0xFFFFF#32 else old.tpchi) ∧
       new.pending = old.pending ∧ new.service = old.service ∧ (∀ a, t.rdByte a = s.rdByte a)) ∧
     (e.n = 64 → n.toNat = 0x070 → w.toNat % 8 ≤ 5 → ∃ t, exec (.csrw h a n) s = .next t ∧
       let k := t.core e.c
       k.monSel = w &&& 0xF7#32 ∧ k.mon = { min := 0xFFFFFFFF, max := 0, bins := List.replicate 16 0 } ∧
       (∀ q v, k.sample s.now q v = k) ∧
       (∀ now q v, now ≠ s.now → 1 ≤ q → w.toNat % 8 = q → let y := (k.sample now q v).mon
         y.min = min 0xFFFFFFFF v ∧ y.max = v ∧ ∀ i, i < 16 → y.bins.getD i 0 = if i = min (v / 2 ^ (w.toNat / 16 % 16)) 15 then 1 else 0) ∧
       (∀ now q v, w.toNat % 8 ≠ q → k.sample now q v = k) ∧
       (∀ j, j ≠ e.c → t.core j = s.core j) ∧ (∀ j, j ≠ 64 → t.slot? e.c j = s.slot? e.c j) ∧ ∀ a, t.rdByte a = s.rdByte a) ∧
     (e.n = 64 → n.toNat = 0x070 → 5 < w.toNat % 8 → ∃ t, exec (.csrw h a n) s = .next t ∧ (t.core e.c).handler.fault = some (1, e.m.pc, 0x0C) ∧
       (t.core e.c).monSel = (s.core e.c).monSel ∧ (t.core e.c).mon = (s.core e.c).mon)) ∧
  (∀ (h : Hdr) (a : Src) (s : State) (e : Env) (g : Grid), Issues h { rs := useS 1 a } .swarm s e → s.grid? e.x.grid = some g →
     ∃ t x y, exec (.prio h a) s = .next t ∧ OnlySlot e s t x y ∧ OneMember e.m.id x y (Passed h) ∧ SameRegs x y ∧
       y.plain = { x.plain with prio := y.prio } ∧ y.prio = min (e.pay (lowest e.act) a).toNat g.prio)

/-- R85, R274, R275, R277: the handler, idle and with a trap pending, starts at its entry with the first pending trap in
the trap registers; ERET then lets the member it stopped go on at TPCHI:TPC, with its mask, or park there at a switch
marker still to come (R23), and idles the handler.
Where the spec is silent the clauses rest on the model's choices, log entry 46. -/
def Obligations.HandlerEntryAndReturn : Prop :=
  (∀ (s : State) (c : Nat) (p : Pend) (r : List Pend), (s.core c).handler.service = none → (s.core c).handler.pending = p :: r →
    (∀ m ∈ (s.core c).handler.slot.members, m.st = .waiti) →
    ∃ t, exec (.handlerStart c) s = .next t ∧ let h := (t.core c).handler
      h.service = some p ∧ h.pending = r ∧ h.tcause.toNat = p.tr.cause % 256 ∧ h.tpchi ++ h.tpc = 0#12 ++ p.tr.pc.extractLsb' 0 52 ∧
      h.tmaskhi ++ h.tmask = p.tr.mask ∧ h.taddrhi ++ h.taddrlo = p.tr.addr ∧ h.tinfo = p.tr.info ∧
      h.slot.members.map (fun m => (m.mask, m.pc, m.st)) = [(BitVec.allOnes 64, BitVec.ofNat 64 (lget 0 s.handlerEntry c), .ready)] ∧
      (∀ k, k ≠ 64 → t.slot? c k = s.slot? c k) ∧ (∀ k, k ≠ c → t.core k = s.core k) ∧ ∀ a, t.rdByte a = s.rdByte a) ∧
  ∀ (h : Hdr) (s : State) (e : Env) (p : Pend) (id : Nat) (x : Slot) (m : Member), Issues h {} .handler s e →
    (s.core e.c).handler.service = some p → (s.core e.c).handler.saved = false → p.mem = some id → p.tr.cause ≠ 0x0D → p.slot ≠ 64 →
    s.slot? e.c p.slot = some x → x.mem? id = some m →
    ∃ t y, exec (.eret h) s = .next t ∧ t.slot? e.c p.slot = some y ∧ y.plain = x.plain ∧ SameRegs x y ∧
      OneMember id x y (fun m m' => m'.pc = 0#12 ++ (s.core e.c).handler.tpchi.extractLsb' 0 20 ++ (s.core e.c).handler.tpc ∧ m'.st = (if m.y then .marker else .ready) ∧ m'.mask = m.mask ∧ m'.fam = m.fam) ∧
      (t.core e.c).handler.service = none ∧ (t.core e.c).handler.slot.members.map (·.st) = [.waiti] ∧ (t.core e.c).handler.pending = (s.core e.c).handler.pending ∧
      ∀ a, t.rdByte a = s.rdByte a

/-- R84, R85, R279, R280: TLBI in its three scopes drops the entries it names from the core's TLB and its cluster's, and no
others, and parks; WAITI idles the handler; SAVEC and RSTC, whose area is accessible, park for their transfer. Once
the swarm under service has drained, SAVEC's park ends with its area written, its slot released and the swarm SAVED, and
with the core record of the colony's last slot, its header and scratchpad among it; RSTC's ends with the swarm of a legal
area in WAITING. A malformed area, an uncorrectable word in a register, a scratchpad or an area, and a core record that the
handler may not write are handler faults.
Where the spec is silent the clauses rest on the model's choices, log entries 46, 52, 86, 98, 108, 109, 121, 122. -/
def Obligations.HandlerMaintenance : Prop :=
  (∀ (h : Hdr) (s : State) (e : Env), Issues h {} .handler s e →
    let dropped := fun (t : State) (p : TlbEntry → Bool) => (t.core e.c).tlb = (s.core e.c).tlb.filter (fun k => !p k) ∧
      (∀ k, k ≠ e.c → t.core k = s.core k) ∧ t.clTlbs = s.clTlbs.map (fun k => if k.1 = e.c / 8 then (k.1, k.2.filter fun y => !p y) else k) ∧
      (t.core e.c).handler.slot.members.all (fun m => m.id != e.m.id || m.st == .tlbi) = true ∧ ∀ a, t.rdByte a = s.rdByte a
    (∃ t, exec (.tlbiAll h) s = .next t ∧ dropped t fun _ => true) ∧
    (∃ t, exec (.tlbiAs h) s = .next t ∧ dropped t fun k => k.q == s.servedQueue e.c) ∧
    ∃ t, exec (.waiti h) s = .next t ∧ (t.core e.c).handler.slot.members.map (·.st) = [.waiti] ∧ (t.core e.c).handler.service = none ∧
      (t.core e.c).handler.pending = (s.core e.c).handler.pending ∧ (∀ k, k ≠ 64 → t.slot? e.c k = s.slot? e.c k) ∧ ∀ a, t.rdByte a = s.rdByte a) ∧
  (∀ (h : Hdr) (m : MemOpd) (s : State) (e : Env), Issues h (memUses false m) .handler s e →
    (∃ t, exec (.tlbiVa h m) s = .next t ∧ (t.core e.c).handler.slot.members.all (fun m => m.id != e.m.id || m.st == .tlbi) = true ∧
      let p := fun (k : TlbEntry) => (lanesOf e.act).any fun l => k.hit (s.servedQueue e.c) (e.gaddr l m).toNat
      (t.core e.c).tlb = (s.core e.c).tlb.filter (fun k => !p k) ∧ (∀ k, k ≠ e.c → t.core k = s.core k) ∧
      t.clTlbs = s.clTlbs.map (fun k => if k.1 = e.c / 8 then (k.1, k.2.filter fun y => !p y) else k) ∧ ∀ a, t.rdByte a = s.rdByte a) ∧
    let a := e.gaddr (lowest e.act) m
    (a.toNat % 256 = 0 → a.toNat < 2 ^ 50 →
      (∀ x, s.subject e.c e.n = some x → s.allowedRange mHandler a.toNat (swarmLen x.win) .write = true → swarmLen x.win ≠ 0 →
        Parks (exec (.savec h m) s) s e (.savec a.toNat) (e.m.nextPc h)) ∧
      (s.allowedRange mHandler a.toNat (swarmLen (32 * s.rdNat (a.toNat + 4) 1)) .read = true →
        Parks (exec (.rstc h m) s) s e (.rstc a.toNat) (e.m.nextPc h)))) ∧
  (∀ (s : State) (c id a : Nat) (m : Member) (p : Pend) (x : Slot), (s.core c).handler.slot.mem? id = some m → m.st = .savec a →
    (s.core c).handler.service = some p → (s.core c).handler.saved = false → p.slot ≠ 64 → s.slot? c p.slot = some x →
    (s.savable c x = false → exec (.parkEnd c 64 id) s = .next s) ∧
    (s.savable c x = true → x.badRegs ≠ [] → ∃ t, exec (.parkEnd c 64 id) s = .next t ∧ ((t.core c).handler.fault.map (·.1)) = some 0x23 ∧ (t.core c).handler.service = none) ∧
    (s.savable c x = true → x.badRegs = [] → s.lastSave c x p = true →
      ((s.core c).badAlloc x.grid x.col = true → ∃ t, exec (.parkEnd c 64 id) s = .next t ∧ ((t.core c).handler.fault.map (·.1)) = some 0x23) ∧
      ((s.core c).badAlloc x.grid x.col = false → s.recordOk c x = false → ∃ t, exec (.parkEnd c 64 id) s = .next t ∧ ((t.core c).handler.fault.map (·.1)) = some 0x22)) ∧
    (s.savable c x = true → x.badRegs = [] → x.due = [] → (s.lastSave c x p = true → (s.core c).badAlloc x.grid x.col = false ∧ s.recordOk c x = true) →
      ∃ t, exec (.parkEnd c 64 id) s = .next t ∧ t.slot? c p.slot = none ∧ (∀ k, k ≠ p.slot → k ≠ 64 → t.slot? c k = s.slot? c k) ∧
        (t.core c).handler.saved = true ∧ (t.core c).handler.service = some p ∧
        (t.core c).handler.pending = (s.core c).handler.pending.filter (fun r => r.slot != p.slot) ∧
        ((t.core c).handler.slot.mem? id).map (·.st) = some (if m.y then .marker else .ready) ∧
        (∀ z, s.colony? x.grid x.col = some z → ∃ z', t.colony? x.grid x.col = some z' ∧ z'.live = z.live ∧ z'.saved.length = z.saved.length + 1) ∧
        (s.lastSave c x p = false → (∀ b, t.rdByte b = (s.saveSwarm a x).rdByte b) ∧ (t.core c).allocs = (s.core c).allocs) ∧
        ∀ r, s.lastSave c x p = true → (s.saveSwarm a x).dirAddr (s.queueOf x.grid) 2 c x.rank x.grid x.col = some r →
          (∀ y ∈ (t.core c).allocs, ¬(y.grid = x.grid ∧ y.col = x.col)) ∧
          ∀ al, (s.core c).allocs.find? (fun y => y.grid == x.grid && y.col == x.col) = some al →
            (∀ b, b < r ∨ r + coreRecLen al.size ≤ b → t.rdByte b = (s.saveSwarm a x).rdByte b) ∧
            (al.off + al.size ≤ 2 ^ 20 → al.off % 64 = 0 → ((s.core c).spad.map (·.1)).Nodup → (∀ y ∈ (s.core c).tiles, y.1 < 256) →
              (∀ y ∈ (s.core c).bins, ∀ f ∈ y.2.fibres, f.args.length = 4) → (∀ z, s.colony? x.grid x.col = some z → z.bars.length = 16) →
              t.rdNat r 4 = 2 ∧ t.rdNat (r + 4) 4 = x.col % 2 ^ 32 ∧ t.rdNat (r + 8) 4 = x.grid % 2 ^ 32 ∧ t.rdNat (r + 0xC) 1 = al.rank % 256 ∧
              t.rdNat (r + 0x10) 4 = al.size ∧ ∀ i, i < al.size → t.rdByte (r + 0x9600 + i) = lget 0 (s.core c).spad (al.off + i)))) ∧
  ∀ (s : State) (c id a : Nat) (m : Member) (g : Grid), (s.core c).handler.slot.mem? id = some m → m.st = .rstc a →
    let win := 32 * s.rdNat (a + 4) 1
    let col := s.rdNat (a + 0x18) 4
    s.grids.find? (fun g => g.id % 2 ^ 32 == s.rdNat (a + 0x1C) 4 && g.st == .running) = some g →
    let legal := s.rdNat a 4 = 1 ∧ win = g.launch.win ∧ s.reservedOk a swarmReserved = true ∧
      ∃ z ∈ (s.core c).allocs, z.grid = g.id ∧ z.col = col ∧ z.rank = s.rdNat (a + 0x20) 1
    ((g.id, col) ∈ (s.core c).restoring → exec (.parkEnd c 64 id) s = .next s) ∧
    ((g.id, col) ∉ (s.core c).restoring → s.badRange a (swarmLen win) = false → legal →
      ∃ t y, exec (.parkEnd c 64 id) s = .next t ∧ (t.core c).waiting = (s.core c).waiting ++ [y] ∧
        { y with form := 0, members := [] } = { s.loadSwarm a g.id y.kids with form := 0, members := [] } ∧
        y.members.map (fun k => (k.mask, k.pc, k.fam, k.left)) = (s.loadSwarm a g.id y.kids).members.map (fun k => (k.mask, k.pc, k.fam, k.left)) ∧
        ((t.core c).handler.slot.mem? id).map (·.st) = some (if m.y then .marker else .ready) ∧
        (t.core c).slots = (s.core c).slots ∧ ∀ b, t.rdByte b = s.rdByte b) ∧
    ((g.id, col) ∉ (s.core c).restoring → s.badRange a (swarmLen win) = true →
      ∃ t, exec (.parkEnd c 64 id) s = .next t ∧ ((t.core c).handler.fault.map (·.1)) = some 0x23 ∧ (t.core c).waiting = (s.core c).waiting) ∧
    ((g.id, col) ∉ (s.core c).restoring → s.badRange a (swarmLen win) = false → ¬legal →
      ∃ t, exec (.parkEnd c 64 id) s = .next t ∧ ((t.core c).handler.fault.map (·.1)) = some 0x21 ∧ (t.core c).waiting = (s.core c).waiting)


-- variants (R69 to R75, R225 to R238)

/-- R231: the selection chooses as the rule says, for every table, mode and limits.
R74: VPEEK writes in each lane the index and tier that a VCALL would choose there, or bit 31 alone, S clear, when
nothing of its swarm is outstanding and its table is legal. -/
def Obligations.SelectionAndVpeek : Prop :=
  (∀ (t : VTable) (m : VMode) (now tl el ql : Nat), PicksEntry t m now tl el ql (t.select m now tl el ql)) ∧
  (∀ (h : Hdr) (d : BitVec 8) (tab : BitVec 9) (disp : Word) (m : VMode) (l1 l2 : Src) (s s' : State) (e : Env) (x : Slot) (a : Dword) (t : VTable),
     Issues h ((Uses.and { wv := [d.toNat] } { parked := true, rv := useV 1 l1 ++ useV 1 l2, rs := [tab.toNat, tab.toNat + 1] ++ useS 1 l1 ++ useS 1 l2 })) .swarm s e →
     s.slot? e.c e.n = some x → x.drained = true → x.due = [] → h.sc = false → ReadsTable s e tab disp a t s' →
     FixedOver (exec (.vpeek h d tab disp m l1 l2) s) h s s' e [d.toNat] [] (fun _ => 0) fun l r _ =>
       ∃ tl el ql p, LaneLimits e l m l1 l2 tl el ql ∧ PicksEntry t m (e.m.usec.getD (s.selUsec e)) tl el ql p ∧
         r d.toNat = pureImg (match p with | some p => BitVec.ofNat 32 (p.1 + 16 * p.2) | none => 0x80000000#32))

/-- R71, R232: VCALL with something outstanding parks and is executed again; beyond 16 frames it traps VNEST; where no lane
of its member finds an entry it traps VSEL, as the group left of a new family (R29), or of the one its own replay stands
in. Otherwise the lanes of each entry become a sub-swarm that is still to be dispatched at the entry's address, with a
new frame each; the lanes whose guard is false wait at the return point; and those that find no entry, where there are
some, stay at the VCALL as one group of the family and trap VSEL, with no new frame.
Where the spec is silent the clauses rest on the model's choices, log entry 25. -/
def Obligations.VcallEffects : Prop :=
  ∀ (h : Hdr) (tab : BitVec 9) (disp : Word) (m : VMode) (l1 l2 : Src) (s : State) (e : Env) (x : Slot),
    Issues h (Uses.and {} { parked := true, rv := useV 1 l1 ++ useV 1 l2, rs := [tab.toNat, tab.toNat + 1] ++ useS 1 l1 ++ useS 1 l2 }) .swarm s e →
    s.slot? e.c e.n = some x →
    (x.drained = false → ∃ t y, exec (.vcall h tab disp m l1 l2) s = .next t ∧ OnlySlot e s t x y ∧ SameRegs x y ∧ y.plain = x.plain ∧
      OneMember e.m.id x y (Parked (.redo (.drained (e.m.usec.getD (s.selUsec e)))) e.m.pc)) ∧
    ∀ (s' : State) (a : Dword) (t : VTable), x.drained = true → x.due = [] → ReadsTable s e tab disp a t s' →
      let now := e.m.usec.getD (s.selUsec e)
      let picks := fun l p => ∃ tl el ql, LaneLimits e l m l1 l2 tl el ql ∧ PicksEntry t m now tl el ql p
      ((∃ l, e.act.getLsbD l = true ∧ 16 ≤ (e.x.fibre l).frames.length) → ∃ k : Mask,
        (∀ l, l < 64 → (k.getLsbD l = true ↔ e.act.getLsbD l = true ∧ 16 ≤ (e.x.fibre l).frames.length)) ∧
        Traps (exec (.vcall h tab disp m l1 l2) s) s e { cause := 20, pc := e.m.pc, mask := k, addr := 0, info := 1 }) ∧
      ((∀ l, e.act.getLsbD l = true → (e.x.fibre l).frames.length < 16) → e.act = e.m.mask → (∀ l, e.act.getLsbD l = true → picks l none) →
        let level := (e.x.fibre (lowest e.act)).frames.length + 1
        let again := ∃ f, x.fam? e.m.fam = some f ∧ f.kind = .vcall level (e.m.pc + 16)
        (again → ∃ i, Traps (exec (.vcall h tab disp m l1 l2) s) s e { cause := 13, pc := e.m.pc, mask := e.act, addr := a, info := i }) ∧
        (¬again → e.n ≠ 64 → (∀ k ∈ x.members, k.id < x.nextId) → ∃ i u y k, exec (.vcall h tab disp m l1 l2) s = .next u ∧ u.slot? e.c e.n = some y ∧ SameRegs x y ∧
          (∀ a, u.rdByte a = s.rdByte a) ∧ y.members = x.members.filter (fun k => k.id != e.m.id) ++ [k] ∧ k.mask = e.m.mask ∧ k.pc = e.m.pc ∧
          k.st = .trap { cause := 13, pc := e.m.pc, mask := e.act, addr := a, info := i } ∧
          y.fams = x.fams ++ [{ id := k.fam, outer := e.m.fam, kind := .vcall level (e.m.pc + 16), ent := e.m.ent }] ∧
          { cyc := s.now, slot := e.n, mem := some k.id, tr := { cause := 13, pc := e.m.pc, mask := e.act, addr := a, info := i } } ∈
            (u.core e.c).handler.pending)) ∧
      ((∀ l, e.act.getLsbD l = true → (e.x.fibre l).frames.length < 16 ∧ (x.fibre? l).isSome = true) → (∃ l, e.act.getLsbD l = true ∧ picks l none) →
        (e.act ≠ e.m.mask ∨ ∃ l p, e.act.getLsbD l = true ∧ picks l (some p)) → e.n ≠ 64 → (∀ k ∈ x.members, k.id < x.nextId) →
        ∃ u y new k i, exec (.vcall h tab disp m l1 l2) s = .next u ∧ u.slot? e.c e.n = some y ∧ SameRegs x y ∧ (∀ a, u.rdByte a = s.rdByte a) ∧
          y.members = x.members.filter (fun k => k.id != e.m.id) ++ new ∧
          (∀ k ∈ new, k.mask ≠ 0 ∧ ∀ l, k.mask.getLsbD l = true → e.m.mask.getLsbD l = true) ∧
          k ∈ new ∧ k.pc = e.m.pc ∧ k.st = .trap { cause := 13, pc := e.m.pc, mask := k.mask, addr := a, info := i } ∧
          (∀ l, l < 64 → (k.mask.getLsbD l = true ↔ e.act.getLsbD l = true ∧ picks l none)) ∧
          (∀ j, j < 16 → (i.getLsbD j = true ↔ ∃ v, t.entries[j]? = some v ∧ v.en = true)) ∧ (t.entries.length ≤ 16 →
            i.extractLsb' 16 2 = (match m with | .tq => 1 | .eq => 2 | .te => 3) ∧ i.extractLsb' 18 14 = 0) ∧
          { cyc := s.now, slot := e.n, mem := some k.id, tr := { cause := 13, pc := e.m.pc, mask := k.mask, addr := a, info := i } } ∈ (u.core e.c).handler.pending ∧
          (∀ l, e.act.getLsbD l = true → (picks l none → (y.fibre l).frames = (x.fibre l).frames) ∧
            ∀ j tier, picks l (some (j, tier)) → ∃ v f, t.entries[j]? = some v ∧
              (∃ k ∈ new, k.mask.getLsbD l = true ∧ k.st = .undispatched j ∧ k.ent = some j ∧ k.pc = BitVec.ofNat 64 v.addr) ∧
              (y.fibre l).frames = f :: (x.fibre l).frames ∧ LaneLimits e l m l1 l2 f.vtb f.veb f.vql ∧ f.entry = j ∧ f.tier = tier ∧ f.table = a ∧
              f.ret = e.m.pc + 16 ∧ f.tchg = v.ttag ∧ f.echg = v.etag ∧ f.report = none) ∧
          ∀ l, l < 64 → e.m.mask.getLsbD l = true → e.act.getLsbD l = false → (y.fibre l).frames = (x.fibre l).frames ∧
            ∃ k ∈ new, k.mask.getLsbD l = true ∧ k.st = .merge ∧ k.ent = none ∧ k.pc = e.m.pc + 16) ∧
      ((∀ l, e.act.getLsbD l = true → (e.x.fibre l).frames.length < 16 ∧ (x.fibre? l).isSome = true ∧ ∃ p, picks l (some p)) →
        ∃ u y new, exec (.vcall h tab disp m l1 l2) s = .next u ∧ u.slot? e.c e.n = some y ∧ SameRegs x y ∧ (∀ a, u.rdByte a = s.rdByte a) ∧
          y.members = x.members.filter (fun k => k.id != e.m.id) ++ new ∧
          (∀ k ∈ new, k.mask ≠ 0 ∧ ∀ l, k.mask.getLsbD l = true → e.m.mask.getLsbD l = true) ∧
          (∀ l, e.act.getLsbD l = true → ∃ i tier v f, picks l (some (i, tier)) ∧ t.entries[i]? = some v ∧ (∃ k ∈ new, k.mask.getLsbD l = true ∧
              k.st = .undispatched i ∧ k.ent = some i ∧ k.pc = BitVec.ofNat 64 v.addr) ∧
            (y.fibre l).frames = f :: (x.fibre l).frames ∧ LaneLimits e l m l1 l2 f.vtb f.veb f.vql ∧ f.entry = i ∧ f.tier = tier ∧ f.table = a ∧
            f.ret = e.m.pc + 16 ∧ f.tchg = v.ttag ∧ f.echg = v.etag ∧ f.report = none) ∧
          ∀ l, l < 64 → e.m.mask.getLsbD l = true → e.act.getLsbD l = false → (y.fibre l).frames = (x.fibre l).frames ∧
            ∃ k ∈ new, k.mask.getLsbD l = true ∧ k.st = .merge ∧ k.ent = none ∧ k.pc = e.m.pc + 16)

/-- R72, R73, R75: VRET traps where its lanes do not agree or have no frame, and else parks for the fibres of its
sub-swarm; VQUAL reports the result's quality in the top frame, at most 0xFFFF; VBUD lowers a budget. -/
def Obligations.FrameInstructions : Prop :=
  (∀ (h : Hdr) (s : State) (e : Env), Issues h {} .swarm s e → e.n ≠ 64 →
    (e.act ≠ e.m.mask → Traps (exec (.vret h) s) s e { cause := 4, pc := e.m.pc, mask := e.m.mask &&& ~~~e.act, addr := 0, info := 0 }) ∧
    (e.act = e.m.mask → (∀ l, e.act.getLsbD l = true → (e.x.fibre l).frames = []) →
      Traps (exec (.vret h) s) s e { cause := 20, pc := e.m.pc, mask := e.act, addr := 0, info := 2 }) ∧
    (e.act = e.m.mask → (∀ l, e.act.getLsbD l = true → (e.x.fibre l).frames ≠ []) → ∀ f r, (e.x.fibre (lowest e.act)).frames = f :: r →
      ∃ t x y, exec (.vret h) s = .next t ∧ OnlySlot e s t x y ∧ OneMember e.m.id x y (Parked (.vret f.x) e.m.pc) ∧ SameRegs x y ∧
        { y.plain with xs := [] } = { x.plain with xs := [] } ∧
        y.xs.map (fun k => { k with energy := 0 }) = x.xs.map (fun k => { k with energy := 0, vret := if k.id = f.x then s.seq + 1 else k.vret }))) ∧
  ∀ (h : Hdr) (a : Src) (s : State) (e : Env), Issues h { rv := useV 1 a, rs := useS 1 a } .swarm s e →
    let changes := fun (i : Instr) (f : Nat → Fibre → Fibre) => ∃ t x y, exec i s = .next t ∧ OnlySlot e s t x y ∧ OneMember e.m.id x y (Passed h) ∧
      SameRegs x y ∧ { y.plain with lanes := [] } = { x.plain with lanes := [] } ∧
      ∀ l, y.fibre? l = (x.fibre? l).map fun g => if e.act.getLsbD l then f l g else g
    changes (.vqual h a) (fun l g => { g with frames := match g.frames with
      | [] => [] | t :: r => { t with report := some (min (e.pay l a).toNat 0xFFFF) } :: r }) ∧
    changes (.vbud h false a) (fun l g => match g.frames with
      | [] => { g with baseT := min g.baseT (e.pay l a).toNat } | t :: r => { g with frames := { t with vtb := min t.vtb (e.pay l a).toNat } :: r }) ∧
    changes (.vbud h true a) fun l g => match g.frames with
      | [] => { g with baseE := min g.baseE (e.pay l a).toNat } | t :: r => { g with frames := { t with veb := min t.veb (e.pay l a).toNat } :: r }

/-- R69, R71, R72: a sub-swarm of a VCALL is dispatched once none of a lower entry is left, and not before; a VCALL
family whose last member is at its return point goes on as one; a sub-swarm all of whose fibres wait in VRET is
joined, or merged later, and its frames are popped: each outer frame is charged the time and the energy metered, or in
deterministic mode the tags of the snapshot, and one tag update with the worst quality reported is requested, which the
grid keeps in deterministic mode (R233 to R237) and which joins the frozen ones where its table is frozen (R238).
Where the spec is silent the clauses rest on the model's choices, log entries 21, 23, 24, 25, 85. -/
def Obligations.VariantProgress : Prop :=
  (∀ (s : State) (c n id i : Nat) (x : Slot) (m : Member), s.slot? c n = some x → x.mem? id = some m → m.st = .undispatched i →
    ((∀ k ∈ x.members, k.fam = m.fam → ∀ j, k.ent = some j → i ≤ j) → (∀ f ∈ x.fams, f.outer ≠ m.fam) →
      ∃ t y, exec (.variantDispatch c n id) s = .next t ∧ t.slot? c n = some y ∧ OneMember id x y (fun k k' => k' = { k with st := .ready, since := s.now }) ∧
        y.lanes = x.lanes ∧ SameRegs x y ∧ ∀ f r, (x.fibre (lowest m.mask)).frames = f :: r → ∀ k ∈ y.xs, k.id = f.x → k.start = some s.now) ∧
    ((∃ k ∈ x.members, k.fam = m.fam ∧ k.mask ≠ 0 ∧ k.st = .ready ∧ ∃ j, k.ent = some j ∧ j < i) → exec (.variantDispatch c n id) s = .next s)) ∧
  (∀ (s : State) (c n fam lv : Nat) (ret : Dword) (x : Slot) (f : Family) (m : Member), s.slot? c n = some x → x.fam? fam = some f → f.kind = .vcall lv ret →
    (x.drained = false → exec (.vcallMerge c n fam) s = .next s) ∧
    (x.drained = true → x.fams = [f] → x.members = [m] → m.fam = fam → m.st = .merge → m.mask ≠ 0 → f.outer = 0 → fam ≠ 0 →
      ∃ t y m', exec (.vcallMerge c n fam) s = .next t ∧ t.slot? c n = some y ∧ y.members = [m'] ∧ m'.pc = m.pc ∧ m'.mask = m.mask ∧ m'.st = .ready ∧
        m'.fam = 0 ∧ m'.ent = f.ent ∧ y.fams = [] ∧ y.lanes = x.lanes)) ∧
  ∀ (s : State) (c n id : Nat) (y : Slot) (r : XRec) (ret : Dword), s.slot? c n = some y → y.xs.find? (fun r => r.id == id) = some r →
    (y.lanes.map (·.1)).Nodup → (∀ e ∈ y.lanes, e.1 < 64) →
    let mine := y.lanes.filter fun e => e.2.frames.any fun f => f.x == id
    let waits := fun l => ∃ m ∈ y.members, m.st = .vret id ∧ m.mask.getLsbD l = true
    mine ≠ [] → (∀ e ∈ mine, ∃ f r, e.2.frames = f :: r ∧ f.x = id ∧ f.ret = ret) → (∀ l, waits l → ∃ e ∈ mine, e.1 = l) →
    ((∃ e ∈ mine, ¬waits e.1) → exec (.vretFramePop c n id) s = .next s) ∧
    ((∀ e ∈ mine, waits e.1) →
      let det := s.detSlot n y
      let time := min (r.before + (match r.start with | some t => s.now - t | none => 0)) 0xFFFFFFFF
      let energy := min (r.energy / 16 + r.share) 0xFFFFFFFF
      let frozen := s.frozenTable { q := s.queueOf y.grid, grid := y.grid, col := y.col, form := y.form, seq := r.vret, table := r.table, entry := r.entry, t := time, en := energy, qual := none }
      ∃ t z q, exec (.vretFramePop c n id) s = .next t ∧ t.slot? c n = some z ∧ z.xs = y.xs.filter (fun k => k.id != id) ∧
        (∀ e ∈ mine, ∀ f b, e.2.frames = f :: b → (z.fibre e.1).frames = match b with
          | [] => []
          | o :: b => { o with vtb := o.vtb - (if det then f.tchg else time), veb := o.veb - (if det then f.echg else energy) } :: b) ∧
        (∀ e ∈ y.lanes, e ∉ mine → z.fibre? e.1 = some e.2) ∧
        (∃ m ∈ z.members, m.pc = ret ∧ ∀ l, l < 64 → (m.mask.getLsbD l = true ↔ ∃ e ∈ mine, e.1 = l)) ∧
        q.table = r.table ∧ q.entry = r.entry ∧ q.seq = r.vret ∧ q.t = time ∧ q.en = energy ∧ q.q = s.queueOf y.grid ∧ q.grid = y.grid ∧ q.col = y.col ∧ q.form = y.form ∧
        (match q.qual with
          | none => ∀ e ∈ mine, ∀ f b, e.2.frames = f :: b → f.report = none
          | some v => (∃ e ∈ mine, ∃ f b, e.2.frames = f :: b ∧ f.report = some v) ∧ ∀ e ∈ mine, ∀ f b w, e.2.frames = f :: b → f.report = some w → v ≤ w) ∧
        (det = true → t.updates = s.updates ∧ t.frozen = s.frozen ∧ ∀ g, s.grid? y.grid = some g → ∃ g', t.grid? y.grid = some g' ∧ g'.updates = g.updates ++ [q]) ∧
        (det = false → frozen = false → t.updates = s.updates ++ [q] ∧ t.frozen = s.frozen) ∧
        (det = false → frozen = true → s.frozen.length < 65536 → t.updates = s.updates ∧ ∃ h, t.frozen = s.frozen ++ [{ q with home := h }]) ∧
        ((det = true ∨ frozen = false ∨ s.frozen.length < 65536) → ∀ a, t.rdByte a = s.rdByte a))

/-- R236 to R238, R249: where its queue's budget has room, a requested tag update of a reachable, unfrozen table writes the entry's tags: the value itself for a
first sample, else moved by an eighth of the difference, rounded down; NSAMP rises to at most 255 and STAMP is USEC. A
frozen table's update is queued, in the order of the requests, or dropped where 65536 are. One that the budget has no
room for waits in its order. The updates of a deterministic grid are applied at its completion, or join the frozen ones, in
the order of colony, formation, table, entry and VRET (R237).
Where the spec is silent the clauses rest on the model's choices, log entries 42, 54, 65, 129. -/
def Obligations.TagUpdates : Prop :=
  (∀ (s : State) (r : TagReq) (rest : List TagReq) (h p : Nat), s.updates = r :: rest → s.tagAddr r.q r.table.toNat = some h →
    let x := s.queue r.q
    r.toll.ask = none → r.toll.paid = 0 → x.asks = [] → (x.cby = 0 ∨ x.cbyUsed ≤ x.cby) →
    let room := x.vbw = 0 ∨ x.vbwUsed + 72 ≤ x.vbw
    (¬room → s.rdNat (h + 0xC) 1 % 2 = 0 → (Loc.phys h).inVault = true → ∃ t, exec (.tagUpdate 0) s = .next t ∧ t.frozen = s.frozen ∧
      t.updates = { r with toll := { paid := 0, ask := some x.nextAsk } } :: rest ∧ (t.queue r.q).asks = [x.nextAsk] ∧ ∀ a, t.rdByte a = s.rdByte a) ∧
    (s.rdNat (h + 0xC) 1 % 2 = 1 → s.frozen.length < 65536 →
      ∃ t, exec (.tagUpdate 0) s = .next t ∧ t.frozen = s.frozen ++ [{ r with toll := {}, home := some h }] ∧ t.updates = rest ∧ ∀ a, t.rdByte a = s.rdByte a) ∧
    (s.rdNat (h + 0xC) 1 % 2 = 1 → 65536 ≤ s.frozen.length → ∃ t, exec (.tagUpdate 0) s = .next t ∧ t.frozen = s.frozen ∧ t.updates = rest) ∧
    (∀ (k : Nat) (p : TagReq), 0 < k → s.updates[k]? = some p → s.tagAddr p.q p.table.toNat = some h → s.rdNat (h + 0xC) 1 % 2 = 1 → exec (.tagUpdate k) s = .next s) ∧
    (room → s.rdNat (h + 0xC) 1 % 2 = 0 → s.tagAddr r.q (r.table.toNat + 64 + 32 * r.entry) = some p → r.entry < s.rdNat (h + 1) 1 →
      s.pending = [] → h % 64 = 0 → p % 32 = 0 → h + 64 ≤ p → p + 32 ≤ dramEnd →
      walk s r.q r.table.toNat 4 (s.queue r.q).root = walk s r.q (r.table.toNat + 64 + 32 * r.entry) 4 (s.queue r.q).root →
      (∀ t a, walk s r.q r.table.toNat 4 (s.queue r.q).root ≠ .leaf t a true) →
      (∀ u : State, u.acc = s.acc → (∀ a, ¬(p ≤ a ∧ a < p + 32) → u.rdByte a = s.rdByte a) → walk u r.q r.table.toNat 4 (s.queue r.q).root = walk s r.q r.table.toNat 4 (s.queue r.q).root) →
      let n := s.rdNat (p + 0x12) 1
      let moves := fun (old new got : Nat) => if n = 0 then got = new else (got : Int) = old + ((new : Int) - old) / 8
      ∃ t, exec (.tagUpdate 0) s = .next t ∧ t.updates = rest ∧
        (r.t < 2 ^ 32 → moves (s.rdNat (p + 8) 4) r.t (t.rdNat (p + 8) 4)) ∧ (r.en < 2 ^ 32 → moves (s.rdNat (p + 0xC) 4) r.en (t.rdNat (p + 0xC) 4)) ∧
        (∀ v, r.qual = some v → v < 2 ^ 16 → moves (s.rdNat (p + 0x10) 2) v (t.rdNat (p + 0x10) 2)) ∧
        (r.qual = none → t.rdNat (p + 0x10) 2 = s.rdNat (p + 0x10) 2) ∧ t.rdNat (p + 0x12) 1 = min (n + 1) 255 ∧ t.rdNat (p + 0x14) 4 = s.now / 2000 % 2 ^ 32 ∧
        ∀ a, ¬(p + 8 ≤ a ∧ a < p + 0x18) → ¬(h + 0xC ≤ a ∧ a < h + 0x10) → t.rdByte a = s.rdByte a)) ∧
  ∀ (s : State) (g : Grid), s.grid? g.id = some g → g.st = .children → (∀ k ∈ s.grids, k.parent = some g.id → k.st = .complete) →
    ((s.queue g.q).grant g.toll (s.flushCosts g)).2.2 = true → g.combs = [] → g.bufs = [] →
    let key := fun (r : TagReq) => toLex (r.col, toLex (r.form, toLex (r.table.toNat, toLex (r.entry, r.seq))))
    ((∀ r ∈ g.updates, r.toll.ask = none ∧ s.frozenTable r = true) → s.frozen.length + g.updates.length ≤ 65536 →
      ∃ (t : State) (l : List TagReq), exec (.gridComplete g.id) s = .next t ∧ (t.grid? g.id).map (fun g => (g.st, g.updates)) = some (.complete, []) ∧
        l.Perm g.updates ∧ l.Pairwise (fun a b => key a ≤ key b) ∧ t.updates = s.updates ∧ (∀ a, t.rdByte a = s.rdByte a) ∧
        t.frozen = s.frozen ++ l.map fun r => { r with toll := {}, home := s.tagAddr r.q r.table.toNat }) ∧
    ∀ (u v : TagReq) (h p : Nat), g.updates = [u, v] ∨ g.updates = [v, u] → key u < key v → v.q = u.q → v.table = u.table → v.entry = u.entry → u.toll.ask = none → v.toll.ask = none →
      s.tagAddr u.q u.table.toNat = some h → s.tagAddr u.q (u.table.toNat + 64 + 32 * u.entry) = some p → s.rdNat (h + 0xC) 1 % 2 = 0 → u.entry < s.rdNat (h + 1) 1 →
      s.pending = [] → h % 64 = 0 → p % 32 = 0 → h + 64 ≤ p → p + 32 ≤ dramEnd →
      walk s u.q u.table.toNat 4 (s.queue u.q).root = walk s u.q (u.table.toNat + 64 + 32 * u.entry) 4 (s.queue u.q).root →
      (∀ t a, walk s u.q u.table.toNat 4 (s.queue u.q).root ≠ .leaf t a true) →
      (∀ w : State, w.acc = s.acc → (∀ a, ¬(p ≤ a ∧ a < p + 32) → ¬(h ≤ a ∧ a < h + 64) → w.rdByte a = s.rdByte a) → ∀ a, a = u.table.toNat ∨ a = u.table.toNat + 64 + 32 * u.entry →
        walk w u.q a 4 (s.queue u.q).root = walk s u.q a 4 (s.queue u.q).root) → u.t < 2 ^ 32 → v.t < 2 ^ 32 →
      let n := s.rdNat (p + 0x12) 1
      ∃ (t : State) (mid : Nat), exec (.gridComplete g.id) s = .next t ∧
        (if n = 0 then mid = u.t else (mid : Int) = s.rdNat (p + 8) 4 + ((u.t : Int) - s.rdNat (p + 8) 4) / 8) ∧
        (t.rdNat (p + 8) 4 : Int) = mid + ((v.t : Int) - mid) / 8 ∧ t.rdNat (p + 0x12) 1 = min (n + 2) 255


-- memory (R158 to R173)

/-- R159, R162, R283 to R286: the checks of an access come step by step, and the first step that some lanes fail traps
with all of them and the address of the lowest, which gives the cause: alignment; then, of a scratchpad access, its
address, rank, with the colony's allocation on its core, and end; of a global one, the 52 bits, and then what translation finds. A scratchpad access that passes
lands in the allocation of the colony on the rank's core, at the offset. A global one lands, byte by byte, where the
core's TLB, else the cluster's, else the walk of the queue's tables maps its address, and only where the page and the
access table allow it; the lanes whose page is not mapped fault, and the tracked pages of the others are noted once
each. Nothing but cached translations has changed. A load or a store some of whose lanes fault goes on for the others,
and the faulting lanes wait as one member for the service of the queue's next fault number.
Where the spec is silent the clauses rest on the model's choices, log entries 34, 38, 89, 98, 101. -/
def Obligations.AccessChecksInOrder : Prop :=
  (∀ (s : State) (e : Env) (r : Req) (ls : List LaneAcc),
    let odd := ls.filter fun a => a.addr.toNat % r.align ≠ 0
    (odd ≠ [] → ChecksTrap (s.check e r ls) 6 r.ainfo odd) ∧
    (odd = [] → r.spad = true → ∀ x z g, s.subject e.c e.n = some x → s.colony? x.grid x.col = some z → s.grid? x.grid = some g →
      let far := fun a : LaneAcc => decide (2 ^ 23 ≤ a.addr.toNat)
      let held := fun a : LaneAcc => (z.cores[a.addr.toNat / 2 ^ 20 % 8]?).bind fun c => (s.core c).allocs.find? fun y => y.grid == x.grid && y.col == x.col
      let rank := fun a : LaneAcc => decide (z.cores.length ≤ a.addr.toNat / 2 ^ 20 % 8) || (a.n != 0 && (held a).isNone)
      let past := fun a : LaneAcc => decide (g.launch.spad < a.addr.toNat % 2 ^ 20 + a.n)
      let bad := ls.filter fun a => far a || rank a || past a
      (∀ a l, bad = a :: l → ChecksTrap (s.check e r ls) 7 (if far a then 1 else if rank a then 2 else 3) bad) ∧
      (bad = [] → ∃ ps, s.check e r ls = .ok s ps [] none ∧ ps.length = ls.length ∧ ∀ (j : Nat) (a : LaneAcc) (p : Nat × List Part), ls[j]? = some a →
        ps[j]? = some p → p.1 = a.lane ∧ ∀ c al, z.cores[a.addr.toNat / 2 ^ 20 % 8]? = some c →
          (s.core c).allocs.find? (fun y => y.grid == x.grid && y.col == x.col) = some al →
          ∃ q, p.2 = [q] ∧ q.loc = .spad c (al.off + a.addr.toNat % 2 ^ 20) ∧ q.n = a.n)) ∧
    (odd = [] → r.spad = false → e.n ≠ 64 →
      let q := s.queueOf e.x.grid
      let high := ls.filter fun a => a.n != 0 && decide (2 ^ 52 < a.addr.toNat + a.n)
      let near := fun va => (s.core e.c).tlb.find? (·.hit q va)
      let cluster := fun va => (lget [] s.clTlbs (e.c / 8)).find? (·.hit q va)
      let maps := fun va => walk s q va 4 (s.queue q).root
      let fill := fun t => s.setCore e.c { s.core e.c with tlb := t :: (s.core e.c).tlb }
      (high ≠ [] → ChecksTrap (s.check e r ls) 9 1 high) ∧
      (high = [] → ∀ a, ls = [a] → a.n ≠ 0 → a.addr.toNat % 65536 + a.n ≤ 65536 → let va := a.addr.toNat
        (∀ t, near va = some t → PageAnswer (s.check e r ls) s q r a t s []) ∧
        (∀ t, near va = none → cluster va = some t → PageAnswer (s.check e r ls) s q r a t (fill t) []) ∧
        (near va = none → cluster va = none → match maps va with
          | .bad m => s.check e r ls = .ok s [] [] (some { mask := maskOf [a.lane], addr := a.addr, acc := r.acc, malformed := m })
          | .shut => ChecksTrap (s.check e r ls) 9 5 [a]
          | .leaf t la true => PageAnswer (s.check e r ls) s q r a t s [la]
          | .leaf t _ false => PageAnswer (s.check e r ls) s q r a t
              { fill t with clTlbs := lput s.clTlbs (e.c / 8) (t :: lget [] s.clTlbs (e.c / 8)) } [])) ∧
      ∀ s' ps lv pf, s.check e r ls = .ok s' ps lv pf →
        (s.setCore e.c (s.core e.c) = s → s'.noTlb = s.noTlb) ∧ (r.acc = 1 → lv = []) ∧
        (∀ p ∈ ps, ∀ x ∈ p.2, ∃ a, x.loc = .phys a ∧ s.allowedRange q a x.n (if r.acc = 1 then .read else .write) = true) ∧
        ((∀ a ∈ ls, a.n ≤ 65536 ∧ ∀ j, j < a.n → near (a.addr.toNat + j) = none ∧ cluster (a.addr.toNat + j) = none) →
          let miss := fun a : LaneAcc => (List.range a.n).any fun j => match maps (a.addr.toNat + j) with | .bad _ => true | _ => false
          let good := ls.filter fun a => !miss a
          ps.length = good.length ∧
          (∀ (k : Nat) (a : LaneAcc) (p : Nat × List Part), good[k]? = some a → ps[k]? = some p → p.1 = a.lane ∧ (locsOf p.2).length = a.n ∧
            ∀ j, j < a.n → ∃ t la trk, maps (a.addr.toNat + j) = .leaf t la trk ∧ (if r.acc = 1 then t.r else t.w) = true ∧
              (locsOf p.2)[j]? = some (.phys (t.pa + (a.addr.toNat + j - t.va)))) ∧
          (pf = none ↔ ls.filter miss = []) ∧
          (∀ f, pf = some f → f.acc = r.acc ∧ (∀ l, l < 64 → f.mask.getLsbD l = (ls.filter miss).any (·.lane == l)) ∧
            (ls.filter miss).head?.map (·.addr) = some f.addr) ∧
          (r.acc ≠ 1 → lv.Nodup ∧ ∀ la, la ∈ lv ↔ ∃ a ∈ good, ∃ j t, j < a.n ∧ maps (a.addr.toNat + j) = .leaf t la true)))) ∧
  (∀ (h : Hdr) (t : LdT) (o : Ordk) (d : BitVec 9) (m : MemOpd) (s s' : State) (e : Env) (ps : List (Nat × List Part)) (f : PageFault) (x : Slot),
    let ds := List.range' d.toNat (LdT.regs t)
    Issues h ((memUses false m).and { wv := if h.sc then [] else ds, ws := if h.sc then ds else [], late := true }) .anywhere s e →
    s.issuing.check e { spad := false, acc := 1, strong := Ordk.strong o, align := if Ordk.strong o then LdT.bytes t else 1, ainfo := 1, typed := false }
      (e.accs h.sc false m (LdT.bytes t)) = .ok s' ps [] (some f) → e.n ≠ 64 → s.slot? e.c e.n = some x → (∀ k ∈ x.members, k.id ≤ x.nextId) →
    ((s'.queue (s.queueOf e.x.grid)).fq = 0 ∨ s'.allowedRange (s.queueOf e.x.grid) (s'.queue (s.queueOf e.x.grid)).recAddr 64 .write = true) →
    (h.sc = true ∨ s'.loadFault (e.located false m ps) = none) →
    SplitOff (exec (.ld h t o d m) s) h s s' e { f with mask := if h.sc then e.m.mask else f.mask } [] [] fun x y =>
      if h.sc = true ∨ ps = [] then y = x
      else ∃ q, y = x ++ [q] ∧ q.flags = 0 ∧ ∀ p ∈ ps, Loaded t (leNat (s'.load e.own p.2)) fun i => q.value (.v p.1 (d.toNat + i))) ∧
  ∀ (h : Hdr) (t : StT) (o : Ordk) (d : BitVec 9) (m : MemOpd) (s s' : State) (e : Env) (ps : List (Nat × List Part)) (lv : List Nat) (f : PageFault) (x : Slot),
    let ds := List.range' d.toNat (StT.regs t)
    let s'' := lv.foldl (fun s a => s.countWrite a) s'
    h.sc = false → Issues h ((memUses false m).and { rv := ds }) .anywhere s e → owedFault e s.issuing (o == .sync .system) = none →
    s.issuing.check e { spad := false, acc := 2, strong := Ordk.strong o, align := if Ordk.strong o then StT.bytes t else 1, ainfo := 1, typed := false }
      (e.accs false false m (StT.bytes t)) = .ok s' ps lv (some f) → e.n ≠ 64 → s.slot? e.c e.n = some x → (∀ k ∈ x.members, k.id ≤ x.nextId) →
    (s'.queue (s.queueOf e.x.grid)).fq = 0 → (∀ p ∈ ps, ∀ l ∈ locsOf p.2, MemLoc l) →
    ∃ (b : Nat → List Byte) (fl : Nat → Fl), (∀ l, StoredBytes t e.mode (fun i => e.reg false l (d.toNat + i)) (b l) (fl l)) ∧
      SplitOff (exec (.st h t false o d m) s) h s (if ps = [] then s' else s'') e f (ps.map fun p => fl p.1)
        (ps.flatMap fun p => (locsOf p.2).zip (b p.1)) fun x y => y = x

/-- R165, R168, R173: loads whose access is allowed deliver late, in each lane the registers of its bytes as they
stand at the access (R177 for copies in flight).
Where the spec is silent the clauses rest on the model's choices, log entry 4. -/
def Obligations.LoadResults : Prop :=
  (∀ (h : Hdr) (spad : Bool) (t : LdT) (o : Ordk) (d : BitVec 9) (m : MemOpd) (s s' : State) (e : Env) (ps : List (Nat × List Part)),
    let ds := List.range' d.toNat (LdT.regs t)
    Issues h ((memUses spad m).and { wv := if h.sc then [] else ds, ws := if h.sc then ds else [], late := true }) .anywhere s e →
    s.issuing.check e { spad := spad, acc := 1, strong := Ordk.strong o, align := if Ordk.strong o then LdT.bytes t else 1, ainfo := 1, typed := false }
      (e.accs h.sc spad m (LdT.bytes t)) = .ok s' ps [] none → s'.loadFault (e.located spad m ps) = none →
    LateOver (exec (if spad then .lds h t o d m else .ld h t o d m) s) h s s' e ds [] (fun _ => 0) fun l r _ =>
      ∃ p ∈ ps, p.1 = l ∧ Loaded t (leNat (s'.load e.own p.2)) fun i => r (d.toNat + i)) ∧
  (∀ (h : Hdr) (g : Option Fmt) (spad : Bool) (o : Ordk) (d : BitVec 8) (m : MemOpd) (s s' : State) (e : Env) (ps : List (Nat × List Part)),
    h.sc = false → Issues h ((memUses spad m).and { wv := List.range' d.toNat 17, late := true }) .anywhere s e →
    s.issuing.check e { spad := spad, acc := 1, strong := Ordk.strong o, align := 64, ainfo := 2, typed := g.isNone }
      (e.accs false spad m 64) = .ok s' ps [] none → s'.loadFault ((e.located spad m ps).map fun p => (p.1, p.2.1, p.2.2 ++ hdrMark (firstLoc p.2.2))) = none →
    (∀ p ∈ ps, badHdr (s'.blockHdr g p.2) = false ∧ ∀ f, g = some f → hdrFmt (s'.blockHdr g p.2) = 0 ∨ hdrFmt (s'.blockHdr g p.2) = fmtNum f) →
    LateOver (exec (.ldb h g spad o d m) s) h s s' e (List.range' d.toNat 17) [] (fun _ => 0) fun l r _ =>
      ∃ p ∈ ps, p.1 = l ∧ let hd := s'.blockHdr g p.2
        r (d.toNat + 16) = (if hdrFmt hd = 0 then 0 else pureImg hd) ∧
        ∀ i, i < 16 → r (d.toNat + i) = if hdrFmt hd = 0 then 0 else pureImg (BitVec.ofNat 32 (leNat (s'.load e.own p.2) / 2 ^ (32 * i)))) ∧
  ∀ (h : Hdr) (n : BitVec 5) (spad : Bool) (d : BitVec 8) (m : MemOpd) (s s' : State) (e : Env) (ps : List (Nat × List Part)),
    let k := n.toNat + 1
    h.sc = false → Issues h ((memUses spad m).and { wv := List.range' d.toNat k, late := true }) .anywhere s e →
    s.issuing.check e { spad := spad, acc := 1, strong := false, align := 4, ainfo := 2, typed := false } (e.accs false spad m (4 * k + 4)) = .ok s' ps [] none →
    s'.loadFault (e.located spad m ps) = none →
    LateOver (exec (.fill h n spad d m) s) h s s' e (List.range' d.toNat k) [] (fun _ => 0) fun l r _ =>
      ∃ p ∈ ps, p.1 = l ∧ let b := s'.load e.own p.2
        ∀ i, i < k → pay (r (d.toNat + i)) = BitVec.ofNat 32 (leNat ((b.drop (4 * i)).take 4)) ∧
          sticky (r (d.toNat + i)) = (leNat ((b.drop (4 * k)).take 4)).testBit i

/-- R166, R169, R173: stores whose access is allowed and reaches memory write each lane's bytes at the places of its
access, the higher lane standing where two meet (R163), and nothing else but the write counts of tracked pages (R286); STB writes
the header of a typed page too. A `.t` store of a deterministic colony without the ticket is staged instead, and parks
while the staging space has no room for it (R255).
Where the spec is silent the clauses rest on the model's choices, log entries 4, 41, 104. -/
def Obligations.StoreResults : Prop :=
  (∀ (h : Hdr) (spad tick : Bool) (t : StT) (o : Ordk) (d : BitVec 9) (m : MemOpd) (s s1 : State) (e : Env) (ps : List (Nat × List Part)) (lv : List Nat),
    let ds := List.range' d.toNat (StT.regs t)
    let s' := lv.foldl (fun s a => s.countWrite a) s1
    let full := s.stages e tick = true ∧ s.staging < s.stagedBytes + StT.bytes t * (if h.sc then 1 else (lanesOf e.act).length)
    Issues h ((memUses spad m).and { rv := if h.sc then [] else ds, rs := if h.sc then ds else [] }) .anywhere s e →
    owedFault e s.issuing (!spad && o == .sync .system) = none →
    (spad = false → full → Parks (exec (.st h t tick o d m) s) s e (.redo .staging) e.m.pc) ∧
    (s.issuing.check e { spad := spad, acc := 2, strong := Ordk.strong o, align := if Ordk.strong o then StT.bytes t else 1, ainfo := 1, typed := false }
      (e.accs h.sc spad m (StT.bytes t)) = .ok s1 ps lv none → (∀ p ∈ ps, ∀ l ∈ locsOf p.2, MemLoc l) → (spad = true ∨ ¬full) →
    ∃ (b : Nat → List Byte) (fl : Nat → Fl), (∀ l, StoredBytes t e.mode (fun i => e.reg h.sc l (d.toNat + i)) (b l) (fl l)) ∧
      (spad = true ∨ s'.stages e tick = false →
        Effects (exec (if spad then .sts h t o d m else .st h t tick o d m) s) h s s' e (ps.map fun p => fl p.1)
          (ps.flatMap fun p => (locsOf p.2).zip (b p.1)) [] 0 fun x y => y = x) ∧
      (spad = false → s'.stages e tick = true → ∃ u g g', exec (.st h t tick o d m) s = .next u ∧ (∀ a, u.rdByte a = s'.rdByte a) ∧
        s.grid? e.x.grid = some g ∧ u.grid? e.x.grid = some g' ∧ g'.staged = g.staged ++ ps.map fun p =>
          { col := e.x.col, cells := ((locsOf p.2).zip (b p.1)).filterMap fun c => match c.1 with | .phys a => some (a, c.2) | _ => none
            pages := p.2.map (·.page), fids := (if h.sc then lanesOf e.act else [p.1]).map fun l => (e.x.fibre l).fid }))) ∧
  (∀ (h : Hdr) (f : StbForm) (spad : Bool) (o : Ordk) (d : BitVec 8) (m : MemOpd) (s s1 : State) (e : Env) (ps : List (Nat × List Part)) (lv : List Nat),
    let n := match f with | .block g _ _ _ _ => elems g | .frag => 17
    let s' := lv.foldl (fun s a => s.countWrite a) s1
    Issues h ((memUses spad m).and { rv := List.range' d.toNat n }) .anywhere s e → owedFault e s.issuing (!spad && o == .sync .system) = none →
    s.issuing.check e { spad := spad, acc := 2, strong := Ordk.strong o, align := 64, ainfo := 2, typed := false } (e.accs false spad m 64) = .ok s1 ps lv none →
    (∀ p ∈ ps, ∀ l ∈ locsOf p.2, MemLoc l) → (f = .frag → ∀ p ∈ ps, badHdr (pay (e.x.v p.1 (d.toNat + 16))) = false) →
    ∃ (b : Nat → List Byte) (hd : Nat → Word) (fl : Nat → Fl),
      (∀ l, match f with
        | .frag => fl l = 0 ∧ hd l = pay (e.x.v l (d.toNat + 16)) ∧ (b l).length = 64 ∧
          ∀ i, i < 64 → (b l)[i]? = some ((pay (e.x.v l (d.toNat + i / 4))).extractLsb' (8 * (i % 4)) 8)
        | .block g f rm as sp => let k := packBlock ((List.range' d.toNat n).map (e.x.v l)) f g (e.mode rm) as sp
          fl l = k.fl ∧ hd l = k.hdr ∧ b l = natLe 64 (layCodes (fmtBits g) k.codes)) ∧
      Effects (exec (.stb h f spad o d m) s) h s s' e (ps.map fun p => fl p.1) (ps.flatMap fun p => (locsOf p.2).zip (b p.1))
        ((ps.filter fun p => p.2.all (·.typ)).map fun p => ((firstLoc p.2).block, hd p.1)) 0 fun x y => y = x) ∧
  ∀ (h : Hdr) (n : BitVec 5) (spad : Bool) (d : BitVec 8) (m : MemOpd) (s s1 : State) (e : Env) (ps : List (Nat × List Part)) (lv : List Nat),
    let k := n.toNat + 1
    let s' := lv.foldl (fun s a => s.countWrite a) s1
    Issues h ((memUses spad m).and { rv := List.range' d.toNat k }) .anywhere s e →
    s.issuing.check e { spad := spad, acc := 2, strong := false, align := 4, ainfo := 2, typed := false } (e.accs false spad m (4 * k + 4)) = .ok s1 ps lv none →
    (∀ p ∈ ps, ∀ l ∈ locsOf p.2, MemLoc l) →
    ∃ b : Nat → List Byte, (∀ l, (b l).length = 4 * k + 4 ∧
        (∀ i, i < 4 * k → (b l)[i]? = some ((pay (e.x.v l (d.toNat + i / 4))).extractLsb' (8 * (i % 4)) 8)) ∧
        ∀ i, i < 32 → (leNat ((b l).drop (4 * k))).testBit i = (decide (i < k) && sticky (e.x.v l (d.toNat + i)))) ∧
      Effects (exec (.spill h n spad d m) s) h s s' e [] (ps.flatMap fun p => (locsOf p.2).zip (b p.1)) [] 0 fun x y => y = x

/-- R170, R171: an atomic whose access is allowed and reaches memory acts lane by lane, ascending, each lane on
what the lanes before it left; it delivers the old values late, or, posted, adds one to POST; FADD raises NX for an
operand with S set; a 64th posted one parks. In a deterministic grid a posted global one is held (R252, R254).
Where the spec is silent the clauses rest on the model's choices, log entry 4. -/
def Obligations.AtomicResults : Prop :=
  ∀ (h : Hdr) (spad : Bool) (o : AtOp) (w64 ar post : Bool) (sc : Scope) (d : BitVec 9) (b : Src) (m : MemOpd) (s : State) (e : Env) (x : Slot),
    let k := (if o = .cas then 2 else 1) * (if w64 then 2 else 1)
    let ds := if post then [] else List.range' d.toNat (if w64 then 2 else 1)
    let i : Instr := if spad then .atoms h o w64 ar post sc d b m else .atom h o w64 ar post sc d b m
    let n := if w64 then 8 else 4
    Issues h ((memUses spad m).and { rv := useV k b, rs := useS k b, wv := if h.sc then [] else ds, ws := if h.sc then ds else [], late := true }) .anywhere s e →
    s.slot? e.c e.n = some x →
    (post = true → 63 ≤ x.posts → Parks (exec i s) s e (.redo (.counter .post)) e.m.pc) ∧
    ∀ (s1 : State) (ps : List (Nat × List Part)) (lv : List Nat), let s' := lv.foldl (fun s a => s.countWrite a) s1
      (post = true → x.posts < 63) → owedFault e s.issuing (!spad && ar && sc == .system) = none →
      s.issuing.check e { spad := spad, acc := 3, strong := true, align := n, ainfo := 1, typed := false } (e.accs h.sc spad m n) = .ok s1 ps lv none →
      s1.loadFault (e.located spad m ps) = none → (∀ p ∈ ps, ∀ l ∈ locsOf p.2, MemLoc l ∧ ∀ c ∈ s.pending, c.dst ≠ l) →
      let fls := if o = .fadd ∧ (∃ p ∈ ps, sticky (e.src p.1 b) = true) then [fNX] else []
      let held := post = true ∧ spad = false ∧ s.detSlot e.n x = true
      (¬held → ∃ old new : Nat → Dword,
        let cells := fun (qs : List (Nat × List Part)) => qs.flatMap fun p => (locsOf p.2).zip (natLe n (new p.1).toNat)
        (∀ (j : Nat) (p : Nat × List Part), ps[j]? = some p →
          (old p.1).toNat = leNat ((locsOf p.2).map fun l => (lastAt (cells (ps.take j)) l).getD (s'.locByte l)) ∧
          if w64 then AtomSpec o (e.mode .fmode) (old p.1) (e.atData p.1 true 0 b) (e.atData p.1 true 1 b) (new p.1)
          else ∃ v : Word, new p.1 = v.setWidth 64 ∧ AtomSpec o (e.mode .fmode) ((old p.1).setWidth 32) ((e.atData p.1 false 0 b).setWidth 32)
            ((e.atData p.1 false 1 b).setWidth 32) v) ∧
        Effects (exec i s) h s s' e fls (cells ps) [] (if post then 1 else 0) fun x y =>
          if post then y = x
          else ∃ q, y = x ++ [q] ∧ q.flags = 0 ∧ (∀ w ∈ q.writes, written h e ds [] w.dst = true ∧ w.clobbered = false) ∧
            ∀ l, e.act.getLsbD l = true → let r := fun n => q.value (if h.sc then .s n else .v l n)
              if w64 then pairOf r d.toNat = old (giver h e l) ∧ sticky (r d.toNat) = false ∧ sticky (r (d.toNat + 1)) = false
              else r d.toNat = pureImg ((old (giver h e l)).setWidth 32)) ∧
      (held → ∀ (g : Grid) (pa : Nat → Nat), s.grid? x.grid = some g → (∀ p ∈ ps, firstLoc p.2 = .phys (pa p.1)) →
        ∃ g', Effects (exec i s) h s s' e fls [] [] 1 (fun x y => y = x) ∧ (∃ t, exec i s = .next t ∧ t.grid? x.grid = some g') ∧
          (o = .fadd → g'.bufs = g.bufs ∧
            g'.combs = g.combs ++ ps.map fun p => { addr := pa p.1, col := x.col, rm := x.fmode.toNat, val := (e.atData p.1 w64 0 b).setWidth 32, page := firstPage p.2 }) ∧
          (o ≠ .fadd → g'.combs = g.combs ∧ g'.bufs = g.bufs ++ ps.map fun p =>
            { col := x.col, form := x.form, lane := p.1, seq := s.seq + 1, op := o, w64 := w64, addr := pa p.1, val := e.atData p.1 w64 0 b, page := firstPage p.2 }))


/-- R61, R172, R182, R183, R301: FENCE parks until its accesses are performed, and at SYSTEM scope traps the MCHK its
lanes owe; FENCO marks the store buffer; FENCR parks as FENCE and holds every core of its scope, to ask each to serialise when
that part is over (ParksEndAndResultsReturn), which a core does and acknowledges; both park at their own address (the model's
choice, log 119); CCTL.IC drops its blocks from every instruction cache and parks; CCTL.INV passes; SLEEP parks while a
watched word equals its comparand.
Where the spec is silent the clauses rest on the model's choices, log entries 4, 41, 44, 105, 110, 119. -/
def Obligations.FencesSleepAndCaches : Prop :=
  (∀ (h : Hdr) (sc : Scope) (s : State) (e : Env) (x : Slot), Issues h {} .anywhere s e → s.slot? e.c e.n = some x →
    let owed := fun l => e.act.getLsbD l && (e.x.fibre l).owed
    ((sc ≠ .system ∨ ∀ l, owed l = false) → Parks (exec (.fence h sc) s) s e .fence e.m.pc) ∧
    (sc = .system → (∃ l, owed l = true) → e.n ≠ 64 → ∃ k : Mask, (∀ l, l < 64 → k.getLsbD l = owed l) ∧
      Traps (exec (.fence h sc) s) s e { cause := 0x12, pc := e.m.pc, mask := k, addr := 0, info := 5 }) ∧
    (∃ t y, exec (.fenco h sc) s = .next t ∧ t.slot? e.c e.n = some y ∧ OneMember e.m.id x y (Passed h) ∧ y.plain = x.plain ∧ SameRegs x y ∧
      (t.core e.c).marks = (s.core e.c).marks + 1 ∧ ∀ a, t.rdByte a = s.rdByte a) ∧
    ∃ cs, Parks (exec (.fencr h sc) s) s e (.fencr false cs) e.m.pc ∧
      (sc = .colony → e.n ≠ 64 → ∀ z, s.colony? x.grid x.col = some z → cs = z.cores) ∧
      (sc = .cluster → ∀ c, c ∈ cs ↔ c / 8 = e.c / 8) ∧ (sc = .device ∨ sc = .system → ∀ c, c ∈ cs ↔ c < 8 * s.live.length)) ∧
  (∀ (s : State) (core : Nat), ((s.core core).serialise = false → exec (.storeBufferSerialise core) s = .next s) ∧
    ((s.core core).serialise = true → ∃ t, exec (.storeBufferSerialise core) s = .next t ∧ (t.core core).serialise = false ∧ (t.core core).marks = 0 ∧
      (∀ c n x, s.slot? c n = some x → ∃ y, t.slot? c n = some y ∧ { y with members := x.members } = x ∧
        y.members = x.members.map fun m => match m.st with | .fencr true cs => { m with st := .fencr true (cs.filter (· != core)) } | _ => m) ∧
      ∀ a, t.rdByte a = s.rdByte a)) ∧
  (∀ (h : Hdr) (m : MemOpd) (s s' : State) (e : Env) (x : Slot) (ps : List (Nat × List Part)), Issues h (memUses false m) .anywhere s e → s.slot? e.c e.n = some x →
    s.issuing.check e { spad := false, acc := 1, strong := false, align := 1, ainfo := 1, typed := false } (e.accs false false m 1) = .ok s' ps [] none →
    FixedOver (exec (.cctlInv h m) s) h s s' e [] [] (fun _ => 0) (fun _ _ _ => True) ∧
    ∃ t y, exec (.cctlIc h m) s = .next t ∧ t.slot? e.c e.n = some y ∧ OneMember e.m.id x y (Parked .icinv (e.m.nextPc h)) ∧ y.plain = x.plain ∧ SameRegs x y ∧
      (∀ a, t.rdByte a = s.rdByte a) ∧ ∀ c, (∀ k ∈ (t.core c).icache, k ∈ (s.core c).icache) ∧
        ∀ k ∈ (t.core c).icache, ∀ p ∈ ps, ∀ a, Loc.phys a ∈ locsOf p.2 → a / 64 ≠ k.1) ∧
  ∀ (h : Hdr) (m : MemOpd) (d : BitVec 8) (w : BitVec 5) (s s' : State) (e : Env) (x : Slot) (ps : List (Nat × List Part)),
    Issues h ((memUses false m).and { rv := [d.toNat] }) .swarm s e → s.slot? e.c e.n = some x →
    s.issuing.check e { spad := false, acc := 1, strong := true, align := 4, ainfo := 1, typed := false } (e.accs false false m 4) = .ok s' ps [] none → s'.readFault (e.located false m ps) = none →
    let cmp := fun l => pay (e.x.v l d.toNat)
    let equal := ∃ p ∈ ps, BitVec.ofNat 32 (leNat (s'.load e.own p.2)) = cmp p.1
    (¬equal → FixedOver (exec (.sleep h m d w) s) h s s' e [] [] (fun _ => 0) fun _ _ _ => True) ∧
    (equal → ∃ t y, exec (.sleep h m d w) s = .next t ∧ t.slot? e.c e.n = some y ∧ y.plain = x.plain ∧ SameRegs x y ∧ (∀ a, t.rdByte a = s.rdByte a) ∧
      OneMember e.m.id x y (Parked (.sleep (s.now + e.m.left.getD (64 * 2 ^ w.toNat)) (ps.map fun p => (p.1, (e.gaddr p.1 m).toNat, cmp p.1))) e.m.pc))

/-- R175, R176, R179 to R181: CPY records its bytes, those beyond the count as zero fill; TSET defines a tile it owns or
nobody does, and traps TILE with a reason else; CPYT sets an EMPTY tile FILLING and records its blocks; TREL counts a
reader out; TSTAT reads the record; LDT delivers words, or blocks with their headers, of a READY tile, and traps BLKFMT for a
malformed header. What is not
yet EMPTY or READY parks.
Where the spec is silent the clauses rest on the model's choices, log entries 19, 43, 102, 123. -/
def Obligations.CopiesAndTiles : Prop :=
  (∀ (h : Hdr) (g2s : Bool) (d : BitVec 8) (m : MemOpd) (n : Src) (s : State) (e : Env) (x : Slot),
    Issues h ((memUses false m).and { rv := d.toNat :: useV 1 n, rs := useS 1 n }) .anywhere s e → s.slot? e.c e.n = some x →
    let i : Instr := if g2s then .cpyG2s h d m n else .cpyS2g h d m n
    let valid := fun l => min (e.pay l n).toNat 32
    (63 ≤ x.copies.length → Parks (exec i s) s e (.redo (.counter .copy)) e.m.pc) ∧
    ∀ (s1 s2 : State) (sp ps : List (Nat × List Part)) (lv : List Nat), let s' := lv.foldl (fun s a => s.countWrite a) s2
      x.copies.length < 63 →
      s.issuing.check e { spad := true, acc := if g2s then 2 else 1, strong := false, align := 32, ainfo := 2, typed := false }
        ((lanesOf e.act).map fun l => ⟨l, (pay (e.x.v l d.toNat)).setWidth 64, 32⟩) = .ok s1 sp [] none →
      s1.check e { spad := false, acc := if g2s then 1 else 2, strong := false, align := 1, ainfo := 1, typed := false }
        ((lanesOf e.act).map fun l => ⟨l, e.gaddr l m, if g2s then valid l else 32⟩) = .ok s2 ps lv none →
      ∃ t y o, exec i s = .next t ∧ t.slot? e.c e.n = some y ∧ OneMember e.m.id x y (Passed h) ∧ y.plain = { x.plain with copies := x.copies ++ [o], due := x.due.map fun d => if d.info.extractLsb' 0 8 = 4#8 then { d with after := d.after + 1 } else d } ∧
        SameRegs x y ∧ o.lanes = ps.map (·.1) ∧ o.pages = (ps.flatMap fun p => p.2.map (·.page)) ∧ o.tile = none ∧ o.finished = false ∧ o.hdrs = [] ∧ (∀ b ∈ o.bytes, b.touched = false) ∧ (∀ a, t.rdByte a = s'.rdByte a) ∧
        o.bytes.map (fun b => (b.dst, b.src)) = ps.flatMap fun p =>
          let near := locsOf (lanePart sp p.1)
          let far := locsOf p.2
          let src := if g2s then far else near
          (if g2s then near else far).zipIdx.map fun k => (k.1, match src[k.2]? with | some l => if k.2 < valid p.1 then CopySrc.loc l else .zero | none => .zero)) ∧
  (∀ (h : Hdr) (t : BitVec 8) (so : BitVec 9) (w : Src) (s : State) (e : Env) (x : Slot) (g : Grid), Issues h { rs := so.toNat :: useS 1 w } .anywhere s e →
    s.slot? e.c e.n = some x → e.n ≠ 64 → s.grid? x.grid = some g →
    let off := (pay (e.x.s so.toNat)).toNat
    let v := e.pay (lowest e.act) w
    let size := v.toNat % 2048
    let rd := v.toNat / 65536 % 1024
    let old := (s.core e.c).tile? t.toNat
    let other := ∃ y, old = some y ∧ ¬(y.grid = x.grid ∧ y.col = x.col)
    let busy := ∃ y, old = some y ∧ y.st ≠ .empty
    let badWord := size = 0 ∨ 1024 < size ∨ rd = 0 ∨ v.toNat / 2048 % 32 ≠ 0 ∨ v.toNat / 2 ^ 26 ≠ 0
    let badPlace := off % 64 ≠ 0 ∨ g.launch.spad < off + 64 * size
    let traps := fun k => Traps (exec (.tset h t so w) s) s e { cause := 12, pc := e.m.pc, mask := e.act, addr := 0, info := BitVec.ofNat 32 k }
    (other → traps 1) ∧ (¬other → busy → traps 2) ∧ (¬other → ¬busy → badWord → traps 3) ∧ (¬other → ¬busy → ¬badWord → badPlace → traps 6) ∧
    (¬other → ¬busy → ¬badWord → ¬badPlace → ∃ u y, exec (.tset h t so w) s = .next u ∧ u.slot? e.c e.n = some y ∧ OneMember e.m.id x y (Passed h) ∧
      y.plain = x.plain ∧ SameRegs x y ∧ (∀ a, u.rdByte a = s.rdByte a) ∧ (∀ k, k ≠ t.toNat → (u.core e.c).tile? k = (s.core e.c).tile? k) ∧
      (u.core e.c).tile? t.toNat = some { grid := x.grid, col := x.col, off := off, size := size, readers := rd, count := 0, st := .empty })) ∧
  (∀ (h : Hdr) (t : BitVec 8) (base : BitVec 9) (disp : Word) (stride : Option (BitVec 9)) (cnt : BitVec 10) (s : State) (e : Env) (x : Slot) (y : Tile),
    Issues h { rs := [base.toNat, base.toNat + 1] ++ (match stride with | some r => [r.toNat] | none => []) } .anywhere s e → s.slot? e.c e.n = some x →
    s.issuing.ownTile e t.toNat = some y →
    let n := cnt.toNat + 1
    let i : Instr := .cpyt h t base disp stride cnt
    let step : Dword := match stride with | some r => (pay (e.x.s r.toNat)).signExtend 64 | none => 64
    let src := fun k => e.pair (lowest e.act) false (.s base) + disp.signExtend 64 + BitVec.ofNat 64 k * step
    (y.st ≠ .empty → y.st ≠ .ready → ParksFree (exec i s) s e (.redo (.tileEmpty t.toNat)) e.m.pc) ∧
    (y.st = .ready → Parks (exec i s) s e (.redo (.tileEmpty t.toNat)) e.m.pc) ∧
    (y.st = .empty → 63 ≤ x.copies.length → Parks (exec i s) s e (.redo (.counter .copy)) e.m.pc) ∧
    (y.st = .empty → x.copies.length < 63 → (∀ k, k < n → (src k).toNat % 64 = 0 ∧ (src k).toNat < 2 ^ 52) → e.n ≠ 64 → y.size < n →
      Traps (exec i s) s e { cause := 12, pc := e.m.pc, mask := e.act, addr := 0, info := 5 }) ∧
    ∀ (s' : State) (ps : List (Nat × List Part)) (c b : Nat), y.st = .empty → x.copies.length < 63 → (∀ k, k < n → (src k).toNat % 64 = 0) → n ≤ y.size →
      s.issuing.check e { spad := false, acc := 1, strong := false, align := 1, ainfo := 2, typed := true }
        ((List.range n).map fun k => ⟨lowest e.act, src k, 64⟩) = .ok s' ps [] none →
      s.rankBase y.grid y.col (((s.colony? y.grid y.col).map fun z => z.cores.findIdx (· == e.c)).getD 0) = some (c, b) →
      ∃ u z o, exec i s = .next u ∧ u.slot? e.c e.n = some z ∧ OneMember e.m.id x z (Passed h) ∧ z.plain = { x.plain with copies := x.copies ++ [o], due := x.due.map fun d => if d.info.extractLsb' 0 8 = 4#8 then { d with after := d.after + 1 } else d } ∧
        SameRegs x z ∧ (∀ a, u.rdByte a = s.rdByte a) ∧ (u.core e.c).tile? t.toNat = some { y with st := .filling, count := y.readers } ∧
        o.tile = some t.toNat ∧ o.finished = false ∧ o.bytes.length = 64 * y.size ∧
        ∀ k j, k < y.size → j < 64 → ∃ q, o.bytes[64 * k + j]? = some q ∧ q.dst = .spad e.c (b + y.off + 64 * k + j) ∧ q.touched = false ∧
          q.src = match (locsOf ((ps.map (·.2)).getD k []))[j]? with | some l => if k < n then .loc l else .zero | none => .zero) ∧
  ∀ (h : Hdr) (t : TileSel) (s : State) (e : Env) (x : Slot), s.slot? e.c e.n = some x →
    let n := e.tileNo t
    let rels := fun (i : Instr) => ∀ y, s.issuing.ownTile e n = some y →
      (y.st ≠ .ready → ParksFree (exec i s) s e (.redo (.tileReady n)) e.m.pc) ∧
      (y.st = .ready → ∃ u z, exec i s = .next u ∧ u.slot? e.c e.n = some z ∧ OneMember e.m.id x z (Passed h) ∧ z.plain = x.plain ∧ SameRegs x z ∧
        (∀ a, u.rdByte a = s.rdByte a) ∧ (∀ k, k ≠ n → (u.core e.c).tile? k = (s.core e.c).tile? k) ∧
        (u.core e.c).tile? n = some { y with count := y.count - 1, st := if y.count ≤ 1 then .draining else .ready })
    (Issues h { rs := tileUses t } .anywhere s e → rels (.trel64 h t) ∧ ∀ k, t = .imm k → rels (.trel h k)) ∧
    (∀ d : BitVec 8, h.sc = false → Issues h { rs := tileUses t, wv := [d.toNat] } .anywhere s e →
      Gives (exec (.tstat h d t) s) h s e (d.setWidth 9) fun _ r => r = pureImg (match (s.core e.c).tile? n with
        | none => 0
        | some y => BitVec.ofNat 32 (65536 * y.count + 16 * y.size + (if (s.issuing.ownTile e n).isSome then 8 else 0) + 4 +
          match y.st with | .empty => 0 | .filling => 1 | .ready => 2 | .draining => 3))) ∧
    ∀ (d : BitVec 8) (b : Src) (y : Tile) (frag : Bool), h.sc = false →
      Issues h { rs := tileUses t ++ useS 1 b, rv := useV 1 b, wv := List.range' d.toNat (if frag then 17 else 1), late := true } .anywhere s e →
      s.issuing.ownTile e n = some y →
      let unit := if frag then 64 else 4
      let i : Instr := if frag then .ldtFrag h d t b else .ldtWord h d t b
      (y.st ≠ .ready → ParksFree (exec i s) s e (.redo (.tileReady n)) e.m.pc) ∧
      ∀ base, y.st = .ready → s.rankBase y.grid y.col (((s.colony? y.grid y.col).map fun z => z.cores.findIdx (· == e.c)).getD 0) = some (e.c, base) →
        (∀ l, e.act.getLsbD l = true → e.index l b < (if frag then y.size else 16 * y.size)) →
        let part := fun l => (⟨.spad e.c (base + y.off + unit * e.index l b), unit, true, false, false, (0, 0)⟩ : Part)
        let hd := fun l => s.locHdr (part l).loc
        (∀ l, frag = true → e.n ≠ 64 → l < 64 → e.act = 1#64 <<< l → (∀ k ∈ locsOf (part l :: hdrMark (part l).loc), s.badLoc k = none) → badHdr (hd l) = true →
          Traps (exec i s) s e { cause := 11, pc := e.m.pc, mask := e.act, info := 1
                                 addr := BitVec.ofNat 64 (((((s.colony? y.grid y.col).map fun z => z.cores.findIdx (· == e.c)).getD 0) * 2 ^ 20 + y.off + 64 * e.index l b) % 2 ^ 32) }) ∧
        ((frag = true → ∀ l, e.act.getLsbD l = true → badHdr (hd l) = false) →
        (∀ l, e.act.getLsbD l = true → ∀ k ∈ locsOf (part l :: if frag then hdrMark (part l).loc else []), s.badLoc k = none) →
        ∃ u z, exec i s = .next u ∧ u.slot? e.c e.n = some z ∧ OneMember e.m.id x z (Passed h) ∧ (∀ a, u.rdByte a = s.rdByte a) ∧
          LateResults h e x z (List.range' d.toNat (if frag then 17 else 1)) [] (fun _ => 0) fun l r _ =>
            let w := leNat (s.issuing.load e.own [part l])
            if frag then r (d.toNat + 16) = (if hd l = 0 then 0 else pureImg (hd l)) ∧
              ∀ j, j < 16 → r (d.toNat + j) = if hd l = 0 then 0 else pureImg (BitVec.ofNat 32 (w / 2 ^ (32 * j)))
            else r d.toNat = pureImg (BitVec.ofNat 32 w))

/-- R66 to R68: LAUNCH of one lane, with a legal record and room in CHILD, queues a grid one level deeper, with its
parent's queue and modes, as the newest child; two lanes trap UNIF, level 9 traps NEST, an illegal record ILL.
Where the spec is silent the clauses rest on the model's choices, log entries 55, 106. -/
def Obligations.LaunchQueuesAGrid : Prop :=
  (∀ (b : List Byte) (r : LaunchRec), readLaunch b = some r → r.entry % 4 = 0 ∧ r.entry < 2 ^ 52 ∧ 0 < r.colonies ∧ r.colonies < 2 ^ 24 ∧ 0 < r.fibres ∧
    r.fibres ≤ 16384 ∧ r.cores ∈ [1, 2, 4, 8] ∧ r.win ∈ [32, 64, 96, 128, 160, 192, 224, 256] ∧ r.spad % 64 = 0 ∧ r.spad ≤ 0x100000 ∧ r.heat ≤ 7) ∧
  ∀ (h : Hdr) (m : MemOpd) (arg : Option Src) (s : State) (e : Env) (x : Slot) (g : Grid),
    Issues h ((memUses false m).and { rv := arg.toList.flatMap (useV 2), rs := arg.toList.flatMap (useS 2) }) .swarm s e → s.slot? e.c e.n = some x →
    s.grid? x.grid = some g → e.n ≠ 64 →
    let l := lowest e.act
    let a := e.gaddr l m
    let alone := e.act = 1#64 <<< l
    (¬alone → Traps (exec (.launch h m arg) s) s e { cause := 4, pc := e.m.pc, mask := e.act &&& ~~~(1#64 <<< l), addr := 0, info := 0 }) ∧
    (alone → a.toNat % 64 = 0 → 9 ≤ g.depth → Traps (exec (.launch h m arg) s) s e { cause := 15, pc := e.m.pc, mask := e.act, addr := 0, info := 0 }) ∧
    (alone → a.toNat % 64 = 0 → g.depth < 9 → 63 ≤ x.kids.length → Parks (exec (.launch h m arg) s) s e (.redo (.counter .child)) e.m.pc) ∧
    ∀ (s' : State) (ps : List (Nat × List Part)), alone → a.toNat % 64 = 0 → g.depth < 9 → x.kids.length < 63 →
      s.issuing.check e { spad := false, acc := 1, strong := false, align := 64, ainfo := 2, typed := false } [⟨l, a, 64⟩] = .ok s' ps [] none →
      s'.loadFault (ps.map fun p => (p.1, a, p.2)) = none →
      (readLaunch (s'.load e.own (ps.flatMap (·.2))) = none →
        Traps (exec (.launch h m arg) s) s e { cause := 1, pc := e.m.pc, mask := e.act, addr := a, info := 0x0A }) ∧
      ∀ r, readLaunch (s'.load e.own (ps.flatMap (·.2))) = some r →
        ∃ t y k, exec (.launch h m arg) s = .next t ∧ t.slot? e.c e.n = some y ∧ OneMember e.m.id x y (Passed h) ∧ SameRegs x y ∧
          y.plain = { x.plain with kids := x.kids ++ [s.nextGrid] } ∧ (∀ a, t.rdByte a = s.rdByte a) ∧ t.nextGrid = s.nextGrid + 1 ∧
          t.grids = s.grids ++ [k] ∧ k.id = s.nextGrid ∧ k.q = g.q ∧ k.depth = g.depth + 1 ∧ k.parent = some g.id ∧ k.st = .queued ∧ k.det = g.det ∧
          k.debug = g.debug ∧ k.lease = g.lease ∧ k.prio = (s.queue g.q).prio ∧ k.nextCol = 0 ∧
          k.launch = { r with arg := match arg with | some p => e.pair l false p | none => r.arg }

/-- R209, R210, R212, R217 to R220: the matrix operations are issued in order behind the slot's earlier ones, unless
63 are outstanding, or a header is malformed or of another format; registers that overlap trap ILL, whatever the guard;
MZERO clears a tile; MSCL sets
or moves SCALE; MLEASE and MFREE act in lease mode alone.
Where the spec is silent the clauses rest on the model's choices, log entries 48, 126, 127. -/
def Obligations.MatrixIssue : Prop :=
  (∀ (h : Hdr) (d a b : BitVec 8) (fa fb : Fmt) (rm : RMod) (zc : Bool) (s : State) (e : Env) (x : Slot), s.slot? e.c e.n = some x →
    let src := (List.range' a.toNat 17 ++ List.range' b.toNat 17) ++ if zc then [] else List.range' d.toNat 64
    let apart := fun (k n : Nat) => (∀ r ∈ List.range' a.toNat 17 ++ List.range' b.toNat 17, ¬(k ≤ r ∧ r < k + n))
    let fits := mtxHdr e x (mmaHdrs e a b fa fb) = none
    (Issues h { rv := src, wv := List.range' d.toNat 64, cols := List.range' b.toNat 17, mtx := true, late := true } .anywhere s e → apart d.toNat 64 →
      (x.mtx.length < 63 → fits → IssuesMatrix (exec (.mma h d a b fa fb rm zc) s) h s e x (.mma h d a b fa fb rm zc)) ∧
      (63 ≤ x.mtx.length → Parks (exec (.mma h d a b fa fb rm zc) s) s e (.redo (.counter .mtx)) e.m.pc)) ∧
    ∀ k : BitVec 8, Issues h { rv := src, wv := List.range' d.toNat 64 ++ List.range' k.toNat 17, cols := List.range' b.toNat 17, mtx := true, late := true } .anywhere s e → apart d.toNat 64 →
      apart k.toNat 17 → ¬(d.toNat < k.toNat + 17 ∧ k.toNat < d.toNat + 64) → x.mtx.length < 63 → fits →
      IssuesMatrix (exec (.mmad h d k a b fa fb rm zc) s) h s e x (.mmad h d k a b fa fb rm zc)) ∧
  (∀ (h : Hdr) (d k a b : BitVec 8) (fa fb g : Fmt) (i32 : Bool) (rm : RMod) (zc as sp hi : Bool) (vh : Option (BitVec 8)) (s : State) (e : Env),
    s.env h = some e → e.n ≠ 64 →
    let ab := List.range' a.toNat 17 ++ List.range' b.toNat 17
    let traps := fun (i : Instr) => Traps (exec i s) s e { cause := 1, pc := e.m.pc, mask := e.m.mask, addr := 0, info := 4 }
    let inD := fun r => d.toNat ≤ r ∧ r < d.toNat + 64
    let inK := fun r => k.toNat ≤ r ∧ r < k.toNat + 17
    ((∃ r ∈ ab, inD r) → traps (.mma h d a b fa fb rm zc)) ∧
    ((∃ r ∈ ab, inD r ∨ inK r) ∨ (∃ r, inD r ∧ inK r) → traps (.mmad h d k a b fa fb rm zc)) ∧
    ((∃ p ∈ mtxSrc (.mcvt h d a g i32 rm as sp hi vh), ∃ r, p.1 ≤ r ∧ r < p.1 + p.2 ∧ d.toNat ≤ r ∧ r < d.toNat + 17) → traps (.mcvt h d a g i32 rm as sp hi vh))) ∧
  (∀ (h : Hdr) (d a : BitVec 8) (g : Fmt) (i32 : Bool) (rm : RMod) (as sp hi : Bool) (vh : Option (BitVec 8)) (s : State) (e : Env) (x : Slot),
    s.slot? e.c e.n = some x →
    let i : Instr := .mcvt h d a g i32 rm as sp hi vh
    let src := (mtxSrc i).flatMap fun r => List.range' r.1 r.2
    Issues h { rv := src, wv := List.range' d.toNat 17, mtx := true, late := true } .anywhere s e → (∀ r ∈ src, ¬(d.toNat ≤ r ∧ r < d.toNat + 17)) →
    x.mtx.length < 63 → IssuesMatrix (exec i s) h s e x i) ∧
  (∀ (h : Hdr) (d : BitVec 8) (s : State) (e : Env), h.sc = false → Issues h { wv := List.range' d.toNat 64 } .anywhere s e →
    Fixed (exec (.mzero h d) s) h s e (List.range' d.toNat 64) [] (fun _ => 0) fun _ r _ => ∀ i, i < 64 → r (d.toNat + i) = 0) ∧
  (∀ (h : Hdr) (d : BitVec 8) (b : Src) (s : State) (e : Env), h.sc = false →
    Issues h { rv := (d.toNat + 16) :: useV 1 b, rs := useS 1 b, wv := [d.toNat + 16] } .anywhere s e →
    let r := d.toNat + 16
    let old := fun l => pay (e.x.v l r)
    let moved := fun l => (hdrScale (old l) : Int) + (e.pay l b).toInt
    let skips := fun l => hdrFmt (old l) = 0 ∨ hdrScale (old l) = 255
    let keeps := fun l w => hdrFmt w = hdrFmt (old l) ∧ hdrSpecial w = hdrSpecial (old l) ∧ hdrSpe w = hdrSpe (old l)
    ((∀ l, e.act.getLsbD l = true → badHdr (old l) = false) →
      Fixed (exec (.msclAdd h d b) s) h s e [r] [] (fun l => if skips l then 0 else if 254 < moved l then fOF else if moved l < 0 then fUF else 0) (fun l q _ =>
        sticky (q r) = false ∧ keeps l (pay (q r)) ∧ (hdrScale (pay (q r)) : Int) = if skips l then (hdrScale (old l) : Int) else min (max (moved l) 0) 254) ∧
      Fixed (exec (.msclSet h d b) s) h s e [r] [] (fun _ => 0) fun l q _ =>
        sticky (q r) = false ∧ keeps l (pay (q r)) ∧ hdrScale (pay (q r)) = if hdrFmt (old l) = 0 then hdrScale (old l) else (e.pay l b).toNat % 256) ∧
    (e.n ≠ 64 → (∃ l, e.act.getLsbD l = true ∧ badHdr (old l) = true) → ∃ k : Mask, (∀ l, l < 64 → k.getLsbD l = (e.act.getLsbD l && badHdr (old l))) ∧
      Traps (exec (.msclAdd h d b) s) s e { cause := 11, pc := e.m.pc, mask := k, addr := 0, info := 1 } ∧
      Traps (exec (.msclSet h d b) s) s e { cause := 11, pc := e.m.pc, mask := k, addr := 0, info := 1 })) ∧
  ∀ (h : Hdr) (s : State) (e : Env) (x : Slot), Issues h {} .anywhere s e → s.slot? e.c e.n = some x →
    let on := e.n ≠ 64 ∧ ∃ g, s.grid? x.grid = some g ∧ g.lease = true
    let acts := fun (i : Instr) (more : List (Nat × Nat)) => ∃ t y, exec i s = .next t ∧ t.slot? e.c e.n = some y ∧ OneMember e.m.id x y (Passed h) ∧
      SameRegs x y ∧ y.lease = ⟨none, none⟩ ∧ { y.plain with lease := x.lease } = x.plain ∧
      (t.core e.c).engine.requests = (s.core e.c).engine.requests.filter (·.1 != e.n) ++ more ∧ (∀ k, (t.core e.c).engine.holder ≠ some (e.n, k)) ∧
      (∀ c k, c ≠ e.n → (s.core e.c).engine.holder = some (c, k) → (t.core e.c).engine.holder = some (c, k)) ∧ ∀ a, t.rdByte a = s.rdByte a
    (¬on → Passes (exec (.mlease h) s) h s e ∧ Passes (exec (.mfree h) s) h s e) ∧ (on → acts (.mlease h) [(e.n, 256)] ∧ acts (.mfree h) [])

/-- R209, R214 to R216, R221, R222, R265: the engine performs a slot's oldest operation once it may, and its results reach the
registers on a slice edge, one operation on each, through the inbound FIFO of 16 where others wait or the slice is in a switch (the
model's choice, log 18: that every result of the core domain passes it). MMA gives each row and
column the sum of its products and the accumulator; MMAD the same and the drained block; MCVT commits a block. A
first residue mismatch counts a replay; a second discards the slot's operations, changes no register, and owes an
MCHK that counts them; what the slot issues until it is raised is discarded too.
Where the spec is silent the clauses rest on the model's choices, log entries 18, 48, 51. -/
def Obligations.MatrixResults : Prop :=
  ∀ (s : State) (c n : Nat) (r : Residue) (x : Slot) (o : MtxOp) (rest : List MtxOp), s.slot? c n = some x → x.mtx = o :: rest →
    let clk := (s.core c).power.slice x.slice
    let fifo := (s.core c).inbound x.slice
    let delivers := clk.isFrozen s.now = false ∧ clk.edge s.now = true ∧ clk.lastIn ≠ some s.now ∧ (fifo = [] ∨ fifo.head? = some (n, o.seq))
    let enters := ¬delivers ∧ (n, o.seq) ∉ fifo ∧ fifo.length < 16
    let found : Residue := if o.checked = true then r else .pass
    let performed := fun (t : State) => (t.core c).engine.lastOp = some s.now ∧
      (t.core c).engine.replays = (s.core c).engine.replays + (if o.checked = true ∧ r ≠ .pass then 1 else 0)
    let retired := fun (q : Residue) (t : State) (y : Slot) =>
      (∀ a, t.rdByte a = s.rdByte a) ∧ y.members = x.members ∧ (∀ k, y.s k = x.s k) ∧
      (∀ rows, q = .twice rows → y.mtx = [] ∧ (∀ l k, y.v l k = x.v l k) ∧ y.fflags = x.fflags ∧
        y.due = x.due ++ [{ info := 1, mask := rows &&& o.rows, addr := o.pc, after := rest.length }]) ∧
      ((∀ rows, q ≠ .twice rows) → y.mtx.map MtxOp.bare = rest.map MtxOp.bare ∧ y.due = x.due ∧
      (∀ l k, (o.rows.getLsbD l = false ∨ inRanges k (mtxDst o.op) = false) → y.v l k = x.v l k) ∧
      (x.late = [] → o.shadows = [] → o.clobbered = [] → o.void = [] →
        let frag := fun (f : Fmt) (base l : Nat) => (List.range (elems f)).map fun i =>
          elemVal (pay (x.v l (base + 16))) f (elemCode ((List.range 16).map fun k => pay (x.v l (base + k))) f i)
        let col := fun (f : Fmt) (base j : Nat) => if o.cols.getLsbD j then frag f base j else List.replicate (elems f) (.fin false 0 0)
        let block := fun (g : Fmt) (k : Block) (base l : Nat) => ∀ i, i < 17 → some (y.v l (base + i)) = ((k.frag g)[i]?).map pureImg
        let sums := fun (d a b : BitVec 8) (fa fb : Fmt) (rm : RMod) (zc : Bool) => mmaPair fa fb = true → ∃ fl : Nat → Nat → Fl,
          (∀ i j, j < 64 → o.rows.getLsbD i = true → (x.fibre? i).isSome = true →
            let acc := x.v i (d.toNat + j)
            if mmaInt fa then IntElemSpec (frag fa a.toNat i) (col fb b.toNat j) (if zc then 0 else (pay acc).toInt) (y.v i (d.toNat + j), fl i j)
            else ElemSpec (modeOf (BitVec.ofNat 3 o.fm) rm) (frag fa a.toNat i) (col fb b.toNat j) (if zc then [] else [f32 acc]) (y.v i (d.toNat + j), fl i j)) ∧
          ∀ i j k, o.rows.getLsbD i = true → (x.fibre? i).isSome = true → j < 64 → (fl i j).getLsbD k = true → y.fflags.getLsbD k = true
        match o.op with
        | .mma _ d a b fa fb rm zc => sums d a b fa fb rm zc
        | .mmad _ d k a b fa fb rm zc => ¬(d.toNat < k.toNat + 17 ∧ k.toNat < d.toNat + 64) → sums d a b fa fb rm zc ∧
            ∀ l, o.rows.getLsbD l = true → (x.fibre? l).isSome = true →
              block .e4m3 (packBlock ((List.range 64).map fun j => y.v l (d.toNat + j)) .fp32 .e4m3 (Mode.of (BitVec.ofNat 3 o.fm)) true false) k.toNat l
        | .mcvt _ d a g false rm as sp hi none => g ≠ .int4 → g ≠ .e2m1 → ∀ l, o.rows.getLsbD l = true → (x.fibre? l).isSome = true →
            let half := g = .bf16 ∨ g = .fp16
            block g (packBlock ((List.range (if half then 32 else 64)).map fun i => x.v l (a.toNat + (if half ∧ hi = true then 32 else 0) + i)) .fp32 g
              (modeOf (BitVec.ofNat 3 o.fm) rm) as sp) d.toNat l
        | _ => True))
    (∀ q, o.ret = some q → delivers → ∃ t y, exec (.matrixOpRetire c n r) s = .next t ∧ t.slot? c n = some y ∧ retired q t y ∧
      (t.core c).engine = (s.core c).engine) ∧
    ((∀ p ∈ x.mtx, p.ret = none) →
      (x.due.any (·.covers .mtx 0) = true → exec (.matrixOpRetire c n r) s = .next (s.onSlot c n fun x => { x with mtx := rest })) ∧
      (x.due.any (·.covers .mtx 0) = false → (s.core c).mayPerform n s.now o = false → exec (.matrixOpRetire c n r) s = .next s) ∧
      (x.due.any (·.covers .mtx 0) = false → (s.core c).mayPerform n s.now o = true →
        (¬delivers → ¬enters → exec (.matrixOpRetire c n r) s = .next s) ∧
        (enters → x.slice < (s.core c).power.slices.length → (∀ p ∈ rest, p.seq ≠ o.seq) → ∃ t y, exec (.matrixOpRetire c n r) s = .next t ∧
          t.slot? c n = some y ∧ { y with mtx := x.mtx, xs := x.xs } = x ∧ y.mtx = { o with ret := some found } :: rest ∧ performed t ∧
          ((t.core c).power.slice x.slice).inbox = fifo ++ [(n, o.seq)] ∧ ∀ a, t.rdByte a = s.rdByte a) ∧
        (delivers → ∃ t y, exec (.matrixOpRetire c n r) s = .next t ∧ t.slot? c n = some y ∧ retired found t y ∧ performed t)))


/-- R185, R189 to R194, R198, R200 to R202: in every execution the axioms allow, a load that happens after a store of a byte
reads that store or one after it in coherence order, never the initial value; so does a load after an acquire point that
synchronises with a release point after the store, and one of the two loads of a FENCO and FENCR pair; an atomic, and an engine's read, may go ahead of what its own colony has
staged (R255); nothing stands between what a read-modify-write reads and its own write; overlapping lanes of one instruction store in ascending lane
order; a weak-coded access to a page of strong order is made of naturally aligned ones; only a strong access
synchronises; a strong access is made once, an acquiring read of a SLEEP is its last, a scalar form is one event of its swarm,
and a posted atomic of a deterministic grid, but not an ATOMS, is its flush's; a FORK lane is before the start of a fibre of its
colony (R192), each arrival of a round before each of its releases (R195), and the retirement of an operation before the
WAITC that covers it (R196); what the host stored before a KICK is seen by the packets that it
covers, and the store that a FENCE packet has seen by the later packets (R294, R296); and a strong load sees all of a strong
store of its bytes or none. The scope of a flush's read-modify-writes is the model's choice (log 125), and so is what is naturally aligned on a page of
strong order (log 124).
Where the spec is silent the clauses rest on the model's choices, log entries 38, 111, 118, 124, 125. -/
def Obligations.OrderedAccesses : Prop :=
  ∀ x : Candidate, x.allowed = true →
    let sees := fun (w l : Nat) (b : Loc) => ∃ v, x.src l b = some (some v) ∧ (v = w ∨ before (x.order b) w v = true)
    (∀ (w l : Nat) (b : Loc), x.stores w b = true → x.loads l b = true → (w, l) ∈ x.hb → x.bypasses w l = false → sees w l b) ∧
    (∀ (w r q l : Nat) (b : Loc), x.stores w b = true → x.loads l b = true → x.ppo w r = true ∨ x.fo w r = true → x.sw r q = true →
      x.ppo q l = true ∨ x.fo q l = true → x.bypasses w l = false → sees w l b) ∧
    (∀ (f g w l w' l' : Nat) (b c : Loc), x.paired f g = true → x.po w f = true → x.po f l = true → x.po w' g = true → x.po g l' = true →
      x.stores w b = true → x.loads l' b = true → x.stores w' c = true → x.loads l c = true → x.bypasses w l' = false → x.bypasses w' l = false → sees w l' b ∨ sees w' l c) ∧
    (∀ (u v : Nat) (o p : OrdEvent) (b : Loc), x.evs[u]? = some o → x.evs[v]? = some p → x.stores u b = true → x.stores v b = true → o.op ≠ none → o.op = p.op →
      o.nth = p.nth → inScope .swarm o.agent p.agent = true → o.lane < p.lane → before (x.order b) u v = true) ∧
    (∀ (e : Nat) (o : OrdEvent) (a : AccEv), x.evs[e]? = some o → o.kind = .access a → o.engine = false → a.strong = false → a.attr = .so →
      ∃ s n, a.bytes = (List.range n).map (fun i => Loc.phys (s + i)) ∧ n ∈ [1, 2, 4, 8, 16, 32, 64, 128] ∧ s % n = 0) ∧
    (∀ (e : Nat) (a : AccEv), x.acc? e = some a → (a.acq = true ∨ a.rel = true ∨ (a.rd = true ∧ a.wr = true) → a.strong = true) ∧ (a.attr = .uo → a.strong = false) ∧
      ((∃ b ∈ a.bytes, b.isSpad = true) → a.attr = .rc)) ∧
    (∀ (e f : Nat) (o p : OrdEvent) (a b : AccEv) (i : Instr), x.evs[e]? = some o → x.evs[f]? = some p → o.kind = .access a → p.kind = .access b → o.engine = false →
      p.engine = false → o.op = some i → p.op = some i → o.nth = p.nth → o.agent = p.agent →
      match i with
      | .sleep _ _ _ _ => a.acq = true → x.po e f = false
      | .vcall _ _ _ _ _ _ | .vpeek _ _ _ _ _ _ _ => True
      | _ => a.strong = true → f = e ∧ a.bytes.length = accSize i) ∧
    (∀ (e : Nat) (o : OrdEvent) (a : AccEv) (i : Instr), x.evs[e]? = some o → o.kind = .access a → o.op = some i →
      (o.engine = false → o.once = isOnce i) ∧ (isHeld i = true → (∃ g ∈ x.det, o.agent.grid? = some g) → o.engine = true)) ∧
    (∀ (k : KickEv) (w l : Nat) (b : Loc), k ∈ x.kicks → x.agent? w = some .host → x.po w k.kick = true → l ∈ k.events → x.stores w b = true → x.loads l b = true → sees w l b) ∧
    (∀ (f : FencePktEv) (v q l : Nat) (b c : Loc), f ∈ x.fencePkts → q ∈ f.polls → x.src q c = some (some v) → l ∈ f.later → x.stores v b = true → x.loads l b = true → x.bypasses v l = false → sees v l b) ∧
    (∀ e : Nat, x.isMark e .fork = true → ∃ f, x.isMark f .start = true ∧ (x.agent? e).bind (·.colony?) = (x.agent? f).bind (·.colony?) ∧ x.sw e f = true) ∧
    (∀ (e : Nat), x.isMark e .release = true → ∃ r ∈ x.rounds, e ∈ r.releases ∧ ∀ a ∈ r.arrivals, x.barrier? a = x.barrier? e ∧ x.bo a e = true) ∧
    (∀ (o : OpEv) (r : Nat), o ∈ x.ops → x.covers o r = true → ∃ m, o.retire = some m ∧ x.eo m r = true) ∧
    (∀ (a l : Nat) (b : Loc), a ∈ x.staged → x.stores a b = true → x.loads l b = true → x.po a l = true → x.bypasses a l = false → sees a l b) ∧
    (∀ (l w : Nat) (p q : AccEv), x.acc? l = some p → x.acc? w = some q → l ≠ w → p.rd = true → q.wr = true → p.strong = true → q.strong = true → p.bytes = q.bytes →
      (∀ b ∈ p.bytes, x.src l b = some (some w)) ∨ ∀ b ∈ p.bytes, x.src l b ≠ some (some w)) ∧
    ∀ (u v : Nat) (b : Loc), x.loads u b = true → x.stores u b = true → x.stores v b = true → before (x.order b) v u = true →
      ∃ p, x.src u b = some (some p) ∧ before (x.order b) p u = true ∧ (v = p ∨ before (x.order b) v p = true)


-- what the device does by itself: slots, grids, engines (R11 to R31, R65 to R68, R174 to R180, R220, R252)

/-- R13, R24, R25, R65, R172, R222, R255, R265: a late result returns to its registers and flags on a slice edge, one on each; between
edges, behind others and while its slice is in a clock switch it waits in the inbound FIFO of 16 (the model's choice, log 18); a
FENCR asks its cores to serialise when its fence part is over; a member whose park
condition holds goes on, behind its instruction or at it, and one whose condition does not hold stays, at a FENCE until no
load is outstanding and no store of its fibres is staged (DEDUCED, log 110); an owed MCHK is raised at the wait point that covers it, and one of a matrix failure discards and counts
what was issued since.
Where the spec is silent the clauses rest on the model's choices, log entries 18, 29, 41, 51, 74, 110, 119. -/
def Obligations.ParksEndAndResultsReturn : Prop :=
  (∀ (s : State) (c n k : Nat) (x : Slot) (o : LateOp), s.slot? c n = some x → x.late[k]? = some o →
    let clk := (s.core c).power.slice x.slice
    let fifo := (s.core c).inbound x.slice
    let delivers := clk.isFrozen s.now = false ∧ clk.edge s.now = true ∧ clk.lastIn ≠ some s.now ∧ (fifo = [] ∨ fifo.head? = some (n, o.seq))
    let enters := ¬delivers ∧ (n, o.seq) ∉ fifo ∧ fifo.length < 16
    (¬delivers → ¬enters → exec (.lateResultReturn c n k) s = .next s) ∧
    (enters → x.slice < (s.core c).power.slices.length →
      ∃ t, exec (.lateResultReturn c n k) s = .next t ∧ t.slot? c n = some x ∧ ((t.core c).power.slice x.slice).inbox = fifo ++ [(n, o.seq)] ∧
        ∀ a, t.rdByte a = s.rdByte a) ∧
    (delivers → (o.writes.map (·.dst)).Nodup →
    (∀ w ∈ o.writes, w.clobbered = false ∧ ∀ l q, w.dst = .p l q → q < 7) →
    ∃ t y, exec (.lateResultReturn c n k) s = .next t ∧ t.slot? c n = some y ∧ y.members = x.members ∧ y.plain = x.plain ∧ y.fflags = x.fflags ||| o.flags ∧
      y.late.length + 1 = x.late.length ∧ (∀ a, t.rdByte a = s.rdByte a) ∧
      (x.slice < (s.core c).power.slices.length → ((t.core c).power.slice x.slice).inbox = fifo.drop 1 ∧ ((t.core c).power.slice x.slice).lastIn = some s.now) ∧
      (∀ w ∈ o.writes, match w.dst with
        | .v l r => (x.fibre? l).isSome = true → y.v l r = w.val
        | .s r => y.s r = w.val
        | .p l q => (x.fibre? l).isSome = true → y.pbit l q = w.val.getLsbD 0) ∧
      (∀ l r, (∀ w ∈ o.writes, w.dst ≠ .v l r) → y.v l r = x.v l r) ∧ (∀ r, (∀ w ∈ o.writes, w.dst ≠ .s r) → y.s r = x.s r) ∧
      ∀ l q, (∀ w ∈ o.writes, w.dst ≠ .p l q) → y.pbit l q = x.pbit l q)) ∧
  ∀ (s : State) (c n id : Nat) (x : Slot) (m : Member), s.slot? c n = some x → x.mem? id = some m →
    let ends := fun (cond : Prop) (next : Dword) (st : Park) => (¬cond → exec (.parkEnd c n id) s = .next s) ∧
      (cond → ∃ t y, exec (.parkEnd c n id) s = .next t ∧ t.slot? c n = some y ∧ y.plain = x.plain ∧ SameRegs x y ∧ (∀ a, t.rdByte a = s.rdByte a) ∧
        OneMember id x y fun m m' => m'.pc = next ∧ m'.st = st ∧ m'.mask = m.mask ∧ m'.fam = m.fam)
    let woken : Park := if m.y then .marker else .ready
    let behind := m.pc + BitVec.ofNat 64 m.len
    let tile := fun t => ((s.core c).tile? t).map (·.st)
    (x.due = [] →
      (m.st = .marker → ends (x.drained = true) m.pc .ready) ∧
      (m.st = .rcv → ends (x.drained = true ∧ x.rcvWaits m.fam = false) behind .ready) ∧
      (∀ u, m.st = .redo (.drained u) → ends (x.drained = true) m.pc .ready)) ∧
    (∀ k j, m.st = .waitc k j → (∀ d ∈ x.due, d.covers k j = false) → ends (x.counter k ≤ j) behind woken) ∧
    (m.st = .redo .staging → ∀ g, s.grid? x.grid = some g → ends (g.ticket = x.col ∨ s.stagedBytes < s.staging) m.pc .ready) ∧
    (∀ k, m.st = .redo (.counter k) → ends (x.counter k < 63) m.pc .ready) ∧
    (∀ k, m.st = .redo (.tileEmpty k) → ends (tile k = none ∨ tile k = some .empty) m.pc .ready) ∧
    (∀ k, m.st = .redo (.tileReady k) → ends (tile k = none ∨ tile k = some .ready) m.pc .ready) ∧
    (m.st = .redo .bin → ends (((s.core c).bins.filter fun b => decide (b.1 < 16)).length < 16) m.pc .ready) ∧
    (m.st = .fence → ends ((∀ o ∈ x.late, o.load = false) ∧ (n = 64 ∨ s.hasStaged x m = false)) behind woken) ∧
    (∀ cs, m.st = .fencr true cs → ends (cs = []) behind woken) ∧
    (∀ cs, m.st = .fencr false cs → let quiet := (∀ o ∈ x.late, o.load = false) ∧ (n = 64 ∨ s.hasStaged x m = false)
      (¬quiet → exec (.parkEnd c n id) s = .next s) ∧
      (quiet → ∃ t y, exec (.parkEnd c n id) s = .next t ∧ t.slot? c n = some y ∧ y.plain = x.plain ∧ SameRegs x y ∧ (∀ a, t.rdByte a = s.rdByte a) ∧
        OneMember id x y (fun m m' => m' = { m with st := .fencr true cs }) ∧ ∀ d ∈ cs, (t.core d).serialise = true)) ∧
    (m.st = .icinv ∨ m.st = .tlbi → ends True m.pc woken) ∧
    ∀ d r, x.due = d :: r → n ≠ 64 →
      (m.st = .marker ∧ x.drained = true ∨ (m.st = .rcv ∧ x.drained = true ∧ x.rcvWaits m.fam = false) ∨ ((∃ u, m.st = .redo (.drained u)) ∧ x.drained = true) ∨ (∃ k j, m.st = .waitc k j ∧ x.counter k ≤ j ∧ d.covers k j = true)) →
      ∃ t y, exec (.parkEnd c n id) s = .next t ∧ t.slot? c n = some y ∧ y.due = r ∧ y.mtx = (if d.info.toNat % 256 = 1 then [] else x.mtx) ∧
        (∀ l k, y.v l k = x.v l k) ∧ (∀ a, t.rdByte a = s.rdByte a) ∧
        OneMember id x y fun m m' => m'.pc = m.src ∧ m'.mask = m.mask ∧ m'.st = .trap (d.record m.src)

/-- R11, R12, R13, R20, R29 to R31, R222, R255: a waiting swarm becomes resident in the lowest free slot, on the least occupied
slice, when its window fits; a family all of whose members wait at one RCV goes on as one member with the same
fibres, in deterministic mode in FID order, an uncorrectable register following its fibre, but takes an MCHK the swarm
owes first; a slot is freed when it holds no fibre and its engines are done, and its
colony ends with its last slot, which passes the grid's ticket: a store staged by the next colony is then performed (the
model's choice, log 107: not while the handler serves a trap of the slot).
Where the spec is silent the clauses rest on the model's choices, log entries 21, 23, 51, 56, 85, 107. -/
def Obligations.SlotsFamiliesColonies : Prop :=
  (∀ (s : State) (c n i : Nat) (x : Slot) (r : List Slot), (s.core c).waiting = x :: r → (s.queue (s.queueOf x.grid)).st = .running →
    (s.core c).restoring = [] → n < 64 → lfind (s.core c).slots n = none → (∀ k, k < n → (lfind (s.core c).slots k).isSome = true) →
    let occ := fun j => ((s.core c).slots.filter fun e => e.2.slice == j).length
    let sum := ((s.core c).slots.map fun e => e.2.win).sum
    (6144 < sum + x.win → exec (.swarmResidency c) s = .next s) ∧
    (sum + x.win ≤ 6144 → i < 8 → (∀ j, j < 8 → occ i ≤ occ j ∧ (occ j = occ i → i ≤ j)) →
      ∃ t y, exec (.swarmResidency c) s = .next t ∧ lfind (t.core c).slots n = some y ∧ y.slice = i ∧ (t.core c).waiting = r ∧
        { y with slice := x.slice, members := x.members } = x ∧ (∀ k, y.mem? k = (x.mem? k).map fun m => { m with since := s.now }) ∧
        (∀ k, k ≠ n → lfind (t.core c).slots k = lfind (s.core c).slots k) ∧ ∀ a, t.rdByte a = s.rdByte a)) ∧
  (∀ (s : State) (c n : Nat) (x : Slot) (f : Family) (p : Dword), s.slot? c n = some x → x.fams = [f] → f.id ≠ 0 → f.outer = 0 → (∀ l r, f.kind ≠ .vcall l r) →
    (∀ m ∈ x.members, m.fam = f.id) →
    ((x.drained = false ∨ ∃ m ∈ x.members, m.st = .ready ∧ m.mask ≠ 0) → exec (.familyRelease c n f.id) s = .next s) ∧
    (x.drained = true → 2 ≤ x.members.length → (∀ m ∈ x.members, m.st = .rcv ∧ m.pc = p ∧ m.mask ≠ 0) → (x.members.map (·.id)).Nodup →
      (x.lanes.map (·.1)).Nodup → (∀ e ∈ x.lanes, e.1 < 64 ∧ ∃ m ∈ x.members, m.mask.getLsbD e.1 = true) → x.lanes ≠ [] →
      (∀ d r, x.due = d :: r → n ≠ 64 → ∃ t y m m', exec (.familyRelease c n f.id) s = .next t ∧ t.slot? c n = some y ∧ y.due = r ∧ x.members.head? = some m ∧
        y.mem? m.id = some m' ∧ m'.st = .trap (d.record m.src) ∧ (∀ l k, y.v l k = x.v l k) ∧ ∀ a, t.rdByte a = s.rdByte a) ∧
      (x.due = [] → ∃ t y m, exec (.familyRelease c n f.id) s = .next t ∧ t.slot? c n = some y ∧ y.members = [m] ∧ m.pc = p + 4 ∧ m.st = .ready ∧ m.fam = 0 ∧ y.fams = [] ∧
        (y.lanes.map (·.2)).Perm (x.lanes.map (·.2)) ∧ (∀ l, l < 64 → m.mask.getLsbD l = (y.fibre? l).isSome) ∧ (∀ k, y.s k = x.s k) ∧
        (∀ l k b, (x.fibre? l).isSome = true → (Dest.v l k, b) ∈ x.badRegs → ∃ j, y.fibre? j = x.fibre? l ∧ (Dest.v j k, b) ∈ y.badRegs) ∧
        (s.detSlot n x = true → y.lanes.map (·.1) = List.range x.lanes.length ∧ (y.lanes.map (·.2.fid)).Pairwise (· ≤ ·)) ∧ ∀ a, t.rdByte a = s.rdByte a))) ∧
  ∀ (s : State) (c n : Nat) (x : Slot), lfind (s.core c).slots n = some x → n ≠ 64 →
    (x.lanes ≠ [] ∨ x.copies ≠ [] ∨ x.mtx ≠ [] ∨ x.posts ≠ 0 → exec (.slotRetire c n) s = .next s) ∧
    (x.lanes = [] → x.copies = [] → x.mtx = [] → x.posts = 0 → (s.core c).handler.service = none →
      (∀ g, s.grid? x.grid = some g → g.staged = []) →
      ∃ t, exec (.slotRetire c n) s = .next t ∧ lfind (t.core c).slots n = none ∧ (∀ k, k ≠ n → lfind (t.core c).slots k = lfind (s.core c).slots k) ∧
        (∀ p ∈ (t.core c).handler.pending, p.slot ≠ n) ∧ (∀ a, t.rdByte a = s.rdByte a) ∧
        ∀ k, s.cores = [(c, k)] → k.slots = [(n, x)] → k.waiting = [] → k.bins = [] → ∀ z, s.colony? x.grid x.col = some z → z.live = 0 → z.saved = [] →
          t.colony? x.grid x.col = none ∧ ∀ a ∈ (t.core c).allocs, ¬(a.grid = x.grid ∧ a.col = x.col)) ∧
    (∀ g w k z, x.lanes = [] → x.copies = [] → x.mtx = [] → x.posts = 0 → s.cores = [(c, k)] → k.slots = [(n, x)] → k.waiting = [] → k.bins = [] →
      k.handler.service = none → s.colony? x.grid x.col = some z → z.live = 0 → z.saved = [] → s.grid? x.grid = some g → g.ended = List.range x.col →
      x.col + 1 < g.launch.colonies → g.staged = [w] → w.col = x.col + 1 → (w.cells.map (·.1)).Nodup → (∀ p ∈ w.cells, MemLoc (.phys p.1)) →
      ∃ t, exec (.slotRetire c n) s = .next t ∧ (t.grid? x.grid).map (fun g => (g.staged, g.ticket)) = some ([], x.col + 1) ∧
        (∀ p ∈ w.cells, t.rdByte p.1 = p.2) ∧ ∀ a, (∀ p ∈ w.cells, p.1 ≠ a) → t.rdByte a = s.rdByte a)

/-- R14 to R16, R21, R65, R68, R252, R254: a bin whose timer has run out is launched in normal mode as one swarm in entry
order, and at once where its colony can add nothing more, in deterministic mode with FIDs by parent and sequence; a
grid whose colonies and children are complete becomes COMPLETE once its queue's budget grants the flush (R249), its comb
word summed once and its buffered atomics performed in the order of colony, formation, lane and issue (R254); its DONE counter then counts one; a complete child is counted out.
Where the spec is silent the clauses rest on the model's choices, log entries 40, 42, 54, 56. -/
def Obligations.BinsAndGrids : Prop :=
  (∀ (s : State) (c n : Nat) (b : Bin) (g : Grid) (z : Colony), lfind (s.core c).bins n = some b → s.grid? b.grid = some g → s.colony? b.grid b.col = some z →
    let formed := fun (t : State) (fids : List Nat) => lfind (t.core c).bins n = none ∧ (∀ a, t.rdByte a = s.rdByte a) ∧
      ∃ w m, (t.core c).waiting = (s.core c).waiting ++ [w] ∧ w.grid = b.grid ∧ w.col = b.col ∧ w.win = g.launch.win ∧ w.prio = g.prio ∧ w.form = z.forms ∧
        w.lanes.map (fun e => (e.1, e.2.fid)) = (List.range b.fibres.length).zip fids ∧ w.members = [m] ∧ m.pc = b.entry ∧ m.st = .ready ∧
        (∀ l, l < 64 → m.mask.getLsbD l = decide (l < b.fibres.length))
    let held := ∃ a ∈ (s.core c).allocs, a.grid = b.grid ∧ a.col = b.col
    (s.now < b.limit ∨ g.det = true ∨ ¬held → exec (.binTimerExpiry c n) s = .next s) ∧
    (b.limit ≤ s.now → g.det = false → held → b.fibres.length ≤ 64 →
      ∃ t, exec (.binTimerExpiry c n) s = .next t ∧ formed t (b.fibres.map fun f => f.fid.getD 0xFFFFFFFF) ∧
        ∀ w ∈ (t.core c).waiting, w ∉ (s.core c).waiting → ∀ l f, b.fibres[l]? = some f → ∀ i v, f.args[i]? = some v → w.v l i = v) ∧
    (s.cannotAdd b.grid b.col = false → exec (.binLaunchNoAdd b.grid b.col) s = .next s) ∧
    (∀ k, s.cannotAdd b.grid b.col = true → s.cores = [(c, k)] → k.bins = [(n, b)] → n < 1024 → 0 < b.fibres.length → b.fibres.length ≤ 64 →
      (g.det = false → ∃ t, exec (.binLaunchNoAdd b.grid b.col) s = .next t ∧ formed t (b.fibres.map fun f => f.fid.getD 0xFFFFFFFF)) ∧
      (g.det = true → (∀ f ∈ b.fibres, f.fid = none) → (b.fibres.map fun f => (f.parent, f.seq)).Nodup →
        ∃ t, exec (.binLaunchNoAdd b.grid b.col) s = .next t ∧ formed t (List.range' z.nextFid b.fibres.length) ∧
          (t.colony? b.grid b.col).map (·.nextFid) = some (z.nextFid + b.fibres.length)))) ∧
  (∀ (s : State) (g : Grid), s.grid? g.id = some g →
    (g.st ≠ .children ∨ (∃ k ∈ s.grids, k.parent = some g.id ∧ k.st ≠ .complete) → exec (.gridComplete g.id) s = .next s) ∧
    let paid := (s.queue g.q).grant g.toll (s.flushCosts g)
    (g.st = .children → (∀ k ∈ s.grids, k.parent = some g.id → k.st = .complete) → paid.2.2 = false →
      ∃ t, exec (.gridComplete g.id) s = .next t ∧ t.grid? g.id = some { g with toll := paid.2.1 } ∧ t.queue g.q = paid.1 ∧ ∀ a, t.rdByte a = s.rdByte a) ∧
    (g.st = .children → (∀ k ∈ s.grids, k.parent = some g.id → k.st = .complete) → paid.2.2 = true → g.bufs = [] → g.updates = [] →
      (∀ k ∈ g.combs, ∀ j ∈ g.combs, k.addr = j.addr) → (∀ k ∈ g.combs, ∀ i, i < 4 → MemLoc (.phys (k.addr + i))) →
      ∃ t g', exec (.gridComplete g.id) s = .next t ∧ t.grid? g.id = some g' ∧ g'.st = .complete ∧ g'.combs = [] ∧ g'.staged = [] ∧ g'.gone = !g.launch.dn ∧
        (g.combs = [] → ∀ a, t.rdByte a = s.rdByte a) ∧
        ∀ k r, g.combs = k :: r → (∀ a, ¬(k.addr ≤ a ∧ a < k.addr + 4) → t.rdByte a = s.rdByte a) ∧
          ∃ v, SumSpec (if ∀ j ∈ r, j.rm = k.rm then Mode.of (BitVec.ofNat 3 k.rm) else .ne)
              ((pureImg (BitVec.ofNat 32 (s.rdNat k.addr 4)) :: g.combs.map fun j => pureImg j.val).map f32) v ∧
            t.rdNat k.addr 4 = (pay v.1).toNat) ∧
    (g.st = .children → (∀ k ∈ s.grids, k.parent = some g.id → k.st = .complete) → paid.2.2 = true → g.combs = [] → g.updates = [] → s.pending = [] →
      (∀ b ∈ g.bufs, ∀ i, i < 8 → MemLoc (.phys (b.addr + i))) →
      ∃ (t : State) (l : List BufOp) (old new : Nat → Dword), exec (.gridComplete g.id) s = .next t ∧ (t.grid? g.id).map (fun g => (g.st, g.bufs)) = some (.complete, []) ∧
        l.Perm g.bufs ∧ l.Pairwise (fun a b => toLex (a.col, toLex (a.form, toLex (a.lane, a.seq))) ≤ toLex (b.col, toLex (b.form, toLex (b.lane, b.seq)))) ∧
        let size := fun (b : BufOp) => if b.w64 then 8 else 4
        let cells := fun k => (l.take k).zipIdx.flatMap fun e => ((List.range (size e.1)).map fun i => Loc.phys (e.1.addr + i)).zip (natLe (size e.1) (new e.2).toNat)
        let seen := fun k a => (lastAt (cells k) (.phys a)).getD (s.rdByte a)
        (∀ k b, l[k]? = some b → (old k).toNat = leNat ((List.range (size b)).map fun i => seen k (b.addr + i)) ∧
          if b.w64 then AtomSpec b.op .ne (old k) b.val 0 (new k)
          else ∃ v : Word, new k = v.setWidth 64 ∧ AtomSpec b.op .ne ((old k).setWidth 32) (b.val.setWidth 32) 0 v) ∧
        ∀ a, t.rdByte a = seen l.length a)) ∧
  (∀ (s : State) (g : Grid), s.grid? g.id = some g →
    (g.st ≠ .complete ∨ g.gone = true ∨ g.doneSeq ≠ none → exec (.doneAddition g.id) s = .next s) ∧
    (g.st = .complete → g.gone = false → g.doneSeq = none → ∀ p, s.translateDev g.q g.launch.done .write = .ok p → p.uo = false → s.allowedRange g.q p.pa 8 .write = true →
      (∀ t a, walk s g.q g.launch.done 4 (s.queue g.q).root ≠ .leaf t a true) → (∀ i, i < 8 → MemLoc (.phys (p.pa + i))) →
      ∃ t g', exec (.doneAddition g.id) s = .next t ∧ t.grid? g.id = some g' ∧ g'.gone = true ∧ g'.st = .complete ∧
        t.rdNat p.pa 8 = (s.rdNat p.pa 8 + 1) % 2 ^ 64 ∧ ∀ a, ¬(p.pa ≤ a ∧ a < p.pa + 8) → t.rdByte a = s.rdByte a)) ∧
  ∀ (s : State) (c n k : Nat) (r : List Nat) (x : Slot) (g : Grid), s.slot? c n = some x → x.kids = k :: r → s.grid? k = some g →
    (¬(g.st = .complete ∧ g.gone = true) → exec (.childCountOut c n) s = .next s) ∧
    (g.st = .complete → g.gone = true → ∃ t, exec (.childCountOut c n) s = .next t ∧ t.slot? c n = some { x with kids := r } ∧ ∀ a, t.rdByte a = s.rdByte a)

/-- R174 to R180, R197, R220, R249, R268: a budget grants a transfer's requests in order, no older one waiting, never
past its value; a copy that is granted delivers the bytes of its sources, and retires in order; a CPYT's tile becomes
READY with its data; a DRAINING tile becomes EMPTY and a tile of an ended colony FREE; POST counts down; the oldest
lease request is granted once no older work remains; ramp filler is charged, no more than its density allows.
Where the spec is silent the clauses rest on the model's choices, log entries 19, 42, 50. -/
def Obligations.EngineEvents : Prop :=
  (∀ (x : Queue) (t : Toll) (costs : List (Nat × Nat)), let r := x.grant t costs
    let due := costs.drop t.paid
    let older := ∃ a ∈ x.asks, ∀ b, t.ask = some b → a < b
    (x.vbw ≠ 0 → x.vbwUsed ≤ x.vbw → r.1.vbwUsed ≤ x.vbw) ∧ (x.cby ≠ 0 → x.cbyUsed ≤ x.cby → r.1.cbyUsed ≤ x.cby) ∧
    (x.vbw = 0 → x.cby = 0 → ¬older → r.2.2 = true) ∧
    (older → due ≠ [] → r.2.2 = false ∧ r.1.vbwUsed = x.vbwUsed ∧ r.1.cbyUsed = x.cbyUsed) ∧
    (r.2.2 = true → r.1.cbyUsed = x.cbyUsed + (due.map (·.1)).sum ∧ r.1.vbwUsed = x.vbwUsed + (due.map (·.2)).sum ∧ r.2.1.ask = none) ∧
    (r.2.2 = false → (∀ b, t.ask = some b → b ∈ x.asks) → ∃ a, r.2.1.ask = some a ∧ a ∈ r.1.asks)) ∧
  (∀ l : List CopyByte, (∀ p ∈ copyCosts l, p.1 ≤ 2048 ∧ p.2 ≤ 4096) ∧ ((copyCosts l).map (·.1)).sum = l.length ∧ ((copyCosts l).map (·.2)).sum = vaultBytes l) ∧
  (∀ (s : State) (c n k : Nat) (x : Slot) (o : CopyOp), s.slot? c n = some x → x.copies[k]? = some o → n ≠ 64 →
    let paid := (s.queue (s.queueOf x.grid)).grant o.toll (copyCosts o.bytes)
    let moves := o.finished = false ∧ paid.2.2 = true
    let clean := s.pending = o.bytes ∧ (o.bytes.map (·.dst)).Nodup ∧ s.badMem = [] ∧ (∀ c, (s.core c).badSpad = []) ∧
      ∀ b ∈ o.bytes, MemLoc b.dst ∧ b.touched = false ∧ ∀ l, b.src = .loc l → MemLoc l ∧ ∀ d ∈ o.bytes, d.dst ≠ l
    let delivered := fun (t : State) =>
      (∀ b ∈ o.bytes, t.locByte b.dst = match b.src with | .zero => 0 | .loc l => s.locByte l | .got v => v) ∧
      (∀ a, (∀ b ∈ o.bytes, b.dst ≠ .phys a) → t.rdByte a = s.rdByte a) ∧
      (∀ d a, (∀ b ∈ o.bytes, b.dst ≠ .spad d a) → lget 0 (t.core d).spad a = lget 0 (s.core d).spad a)
    (o.tile = none → o.finished = true → exec (.copyRetire c n k) s = .next s) ∧
    (o.tile = none → o.finished = false → paid.2.2 = false → ∃ t, exec (.copyRetire c n k) s = .next t ∧ t.queue (s.queueOf x.grid) = paid.1 ∧
      t.slot? c n = some { x with copies := x.copies.set k { o with toll := paid.2.1 } } ∧ ∀ a, t.rdByte a = s.rdByte a) ∧
    (o.tile = none → moves → ∃ t y, exec (.copyRetire c n k) s = .next t ∧ t.slot? c n = some y ∧ y.members = x.members ∧ SameRegs x y ∧
      (clean → o.hdrs = [] → delivered t ∧ y.due = x.due) ∧ (k = 0 → y.copies.length < x.copies.length) ∧
      ((∀ p ∈ x.copies.take k, p.finished = false) → 0 < k → y.copies.length = x.copies.length)) ∧
    (∀ t y, o.tile = some t → (s.core c).tile? t = some y → y.st = .filling → y.grid = x.grid → (s.core c).fillOf t = some (n, k) → moves →
      ∃ u, exec (.tileReady c t) s = .next u ∧ (u.core c).tile? t = some { y with st := .ready } ∧
        (clean → (∀ h ∈ o.hdrs, h.2 = .zero ∨ ∃ j, h.2 = .block j) → delivered u ∧ ((o.hdrs.map (·.1)).Nodup → ∀ h ∈ o.hdrs,
          lget 0 (u.core c).spadHdr h.1 = match h.2 with | .block j => lget 0 s.hdrs j | .got w => w | .zero => 0)))) ∧
  (∀ (s : State) (c t : Nat) (y : Tile), (s.core c).tile? t = some y →
    (y.st ≠ .filling → exec (.tileReady c t) s = .next s) ∧
    (y.st ≠ .draining → exec (.tileDrainEmpty c t) s = .next s) ∧
    (y.st = .draining → ∃ u, exec (.tileDrainEmpty c t) s = .next u ∧ (u.core c).tile? t = some { y with st := .empty } ∧
      (∀ k, k ≠ t → (u.core c).tile? k = (s.core c).tile? k) ∧ ∀ a, u.rdByte a = s.rdByte a) ∧
    ((s.colony? y.grid y.col).isSome = true → exec (.tileFree c t) s = .next s) ∧
    (s.colony? y.grid y.col = none → (s.core c).fillOf t = none → ∃ u, exec (.tileFree c t) s = .next u ∧ (u.core c).tile? t = none ∧
      (∀ k, k ≠ t → (u.core c).tile? k = (s.core c).tile? k) ∧ ∀ a, u.rdByte a = s.rdByte a)) ∧
  (∀ (s : State) (c n : Nat) (x : Slot), s.slot? c n = some x → ∃ t, exec (.postedAtomicRetire c n) s = .next t ∧ t.slot? c n = some { x with posts := x.posts - 1 } ∧
    (∀ d k, ¬(d = c ∧ k = n) → t.slot? d k = s.slot? d k) ∧ ∀ a, t.rdByte a = s.rdByte a) ∧
  (∀ (s : State) (c : Nat), let k := s.core c
    (k.engine.holder ≠ none ∨ k.engine.requests = [] → exec (.leaseGrant c) s = .next s) ∧
    ∀ r rest, k.engine.holder = none → k.engine.requests = r :: rest →
      ((∃ o ∈ k.mtxOps, o.2.leased = true ∨ o.2.seq ≤ k.engine.drainTo) → exec (.leaseGrant c) s = .next s) ∧
      ((∀ o ∈ k.mtxOps, o.2.leased = false ∧ k.engine.drainTo < o.2.seq) → ∃ t, exec (.leaseGrant c) s = .next t ∧
        (t.core c).engine.holder = some r ∧ (t.core c).engine.requests = rest ∧ (∀ n, t.slot? c n = s.slot? c n) ∧ ∀ a, t.rdByte a = s.rdByte a)) ∧
  ∀ (s : State) (c n b u g k cls : Nat) (z : Colony), let e := (s.core c).engine
    e.busySince = some b → e.lastOp = some u → e.lastClass = some (g, k, cls) → s.colony? g k = some z →
    let d := s.now - u
    let allowed := (8 * min d 1000 + 4 * min (d - 1000) 1000 + 2 * min (d - 2000) 1000 + min (d - 3000) 1000) / 128
    let queued := ∃ o ∈ (s.core c).mtxOps, o.2.ret = none
    (queued ∨ u < b + 2000 ∨ (allowed < e.ramp + n ∧ 0 < n) → exec (.rampDownFiller c n) s = .next s) ∧
    (¬queued → b + 2000 ≤ u → e.ramp + n ≤ allowed ∨ n = 0 → ∃ t, exec (.rampDownFiller c n) s = .next t ∧
      (t.core c).engine.busySince = (if u + 4000 ≤ s.now then none else some b) ∧ (t.core c).engine.ramp = e.ramp + n ∧
      t.colony? g k = some { z with energy := z.energy + n * s.weights.getD cls 0 } ∧ (∀ n, t.slot? c n = s.slot? c n) ∧ ∀ a, t.rdByte a = s.rdByte a)


-- heat, clocks, placement (R240 to R271, R325 to R327)

/-- R260 to R267, R325, R326: the code of a CLKREQ word, in the order of its checks, and the steps of one that passes; a
rail change takes effect when it is acknowledged, a fall only when no slice is in a switch (DEDUCED, log 100); a slice's clock
switch sets the freeze edge, the slice's next on which it has not issued, and the new clock no sooner than five cycles behind
it; a slice in a switch counts with the ratio that it comes to; the cap, and what takes a slice to it; a measurement only raises the
guard band; a boost is set only below the ceiling, and leaves an idle engine.
Where the spec is silent the clauses rest on the model's choices, log entries 18, 28, 37, 57, 100, 117. -/
def Obligations.ClockRequests : Prop :=
  (∀ (s : State) (c : Nat) (w : Word), let p := (s.core c).power
    let vreq := w.toNat / 2 ^ 24 % 128
    let ratio := w.toNat % 32
    let picks := fun i => decide (i < 8) && w.getLsbD (16 + i) && ratio != 0
    let v := if vreq = 0 then p.vset else vreq
    let after := fun i => if picks i then ratio else (p.slice i).coming
    let malformed := w.getLsbD 31 = true ∨ w.toNat / 32 % 2048 ≠ 0 ∨ (ratio ≠ 0 ∧ (ratio < 4 ∨ 16 < ratio)) ∨ (ratio ≠ 0 ∧ w.toNat / 65536 % 256 = 0)
    let capped := ∃ i, i < 8 ∧ w.getLsbD (16 + i) = true ∧ s.cap c < ratio
    let short := ∃ i, i < 8 ∧ v < s.vminAt (after i) + p.guard
    let raises := ∃ i, picks i = true ∧ (p.slice i).coming < ratio
    let coded := fun (k n : Nat) => ∃ t, exec (.clkreqWrite c w) s = .next t ∧ (t.core c).power = { p with code := k, seq := n } ∧ (∀ n, t.slot? c n = s.slot? c n) ∧
      ∀ a, t.rdByte a = s.rdByte a
    let refused := fun k => coded k ((p.seq + 1) % 256)
    (s.isCore c = false → exec (.clkreqWrite c w) s = .next s) ∧ (∀ i, (p.slice i).coming = if (p.slice i).frozen = none then (p.slice i).ratio else (p.slice i).goal) ∧
    (s.isCore c = true →
    (p.todo ≠ [] → coded 1 p.seq) ∧ (p.todo = [] → malformed → refused 7) ∧ (p.todo = [] → ¬malformed → v < 55 → refused 2) ∧
    (p.todo = [] → ¬malformed → 55 ≤ v → p.ceil < v → refused 3) ∧ (p.todo = [] → ¬malformed → 55 ≤ v → v ≤ p.ceil → capped → refused 6) ∧
    (p.todo = [] → ¬malformed → 55 ≤ v → v ≤ p.ceil → ¬capped → short → (raises → refused 4) ∧ (¬raises → refused 5)) ∧
    (p.todo = [] → ¬malformed → 55 ≤ v → v ≤ p.ceil → ¬capped → ¬short → ∃ t, exec (.clkreqWrite c w) s = .next t ∧ (∀ a, t.rdByte a = s.rdByte a) ∧
      let q := (t.core c).power
      let steps := (List.range 8).filter fun i => picks i && (p.slice i).coming != ratio
      q.vset = p.vset ∧ (∀ i, (q.slice i).ratio = (p.slice i).ratio) ∧ (p.slices.length = 8 → ∀ i, picks i = true → (q.slice i).want = ratio) ∧
      (v = p.vset → steps = [] → q.todo = [] ∧ q.code = 0 ∧ q.seq = (p.seq + 1) % 256) ∧
      (v ≠ p.vset ∨ steps ≠ [] → q.todo = (if p.vset < v then [.rail v] else []) ++ steps.map (fun i => .switch i ratio) ++ (if v < p.vset then [.rail v] else []) ++ [.done])))) ∧
  (∀ (s : State) (c : Nat), let p := (s.core c).power
    let plain := fun (r : List ClkAct) => ∀ a ∈ r, ∀ g, a ≠ .ageing g ∧ a ≠ .plan g
    let finished := fun (r : List ClkAct) (q : Power) => (r = [.done] → q.todo = [] ∧ q.code = 0 ∧ q.seq = (p.seq + 1) % 256)
    (∀ v r, p.todo = .rail v :: r → p.switching = true → v < p.vset → exec (.railChangeDone c) s = .next s) ∧
    (∀ v r, p.todo = .rail v :: r → p.switching = false ∨ p.vset ≤ v → ∃ t, exec (.railChangeDone c) s = .next t ∧ let q := (t.core c).power
      q.vset = v ∧ (∀ a, t.rdByte a = s.rdByte a) ∧
      (plain r → q.boost = (p.boost && v != p.ceil) ∧ q.slices = p.slices ∧ q.guard = p.guard) ∧ finished r q ∧
      ∀ g, r = [.ageing g] → p.switching = false → q.todo = [] ∧ q.guard = g ∧ q.slices = p.slices ∧ q.boost = (p.boost && v != p.ceil && decide (v < 85 - g / 2)) ∧
        (85 - g / 2 < 75 + g → s.live.getD (c / 8) 0 < 32 → t.worn.getLsbD (s.live.getD (c / 8) 0) = true)) ∧
    ((∀ v r, p.todo ≠ .rail v :: r) → exec (.railChangeDone c) s = .next s) ∧
    (∀ i, let x := p.slice i
      let due := (∃ n r, p.todo = .switch i n :: r) ∨ (p.todo = [] ∧ s.capTarget c i ≠ x.ratio)
      let sets := fun (y : SliceClk) (t : State) => exec (.sliceClockSwitch c i) s = .next t ∧ (t.core c).power.slice i = y ∧
        (∀ j, j ≠ i → (t.core c).power.slice j = p.slice j) ∧ (t.core c).power.vset = p.vset ∧ ∀ a, t.rdByte a = s.rdByte a
      let fresh := fun (f : Nat) => { x with ratio := x.goal, origin := s.now, frozen := none, past := (x.origin, x.ratio, f) :: x.past }
      let begins := fun (n : Nat) => ∃ t, sets { x with frozen := some (x.freezeEdge s.now), goal := n } t ∧ (t.core c).power.todo = p.todo
      (8 ≤ i ∨ (x.frozen = none ∧ ¬due) ∨ (∃ f, x.frozen = some f ∧ s.now < f + 5) → exec (.sliceClockSwitch c i) s = .next s) ∧
      (i < 8 → p.slices.length = 8 →
        (∀ n r, x.frozen = none → p.todo = .switch i n :: r → begins n) ∧
        (x.frozen = none → p.todo = [] → s.capTarget c i ≠ x.ratio → begins (s.capTarget c i)) ∧
        (∀ f r, x.frozen = some f → f + 5 ≤ s.now → p.todo = .switch i x.goal :: r → plain r → ∃ t, sets (fresh f) t ∧ finished r (t.core c).power) ∧
        (∀ f, x.frozen = some f → f + 5 ≤ s.now → plain p.todo → (∀ r, p.todo ≠ .switch i x.goal :: r ∧ p.todo ≠ .done :: r) →
          ∃ t, sets { fresh f with capped := decide (x.goal < x.want) } t ∧ (t.core c).power.todo = p.todo)) ∧
      (s.cap c < x.ratio → s.capTarget c i = s.cap c) ∧
      (x.ratio ≤ s.cap c → x.capped = false → s.capTarget c i = x.ratio) ∧
      (4 ≤ x.ratio → x.ratio ≤ 16 → s.now ≤ x.nextEdge s.now ∧ x.nextEdge s.now < s.now + 4 ∧ x.edge (x.nextEdge s.now) = true ∧
        s.now ≤ x.freezeEdge s.now ∧ x.freezeEdge s.now < s.now + 5 ∧ x.edge (x.freezeEdge s.now) = true ∧ (x.lastIssue = some s.now → s.now < x.freezeEdge s.now))) ∧
    (s.cap c = 8 ∨ s.cap c = 16) ∧
    (s.cap c = 8 ↔ (s.thermal.slow = true ∨ ∃ z ∈ s.colonies, z.forced = true ∧
      ((∃ e ∈ (s.core c).slots, e.2.grid = z.grid ∧ e.2.col = z.col) ∨ ∃ y ∈ (s.core c).waiting, y.grid = z.grid ∧ y.col = z.col))) ∧
    (∀ slow, let g := max (slow / 10) (p.newG.getD 0)
      (p.guard < g → s.isCore c = true → s.phase = 4 ∨ s.phase = 5 → ∃ t, exec (.ageingMeasure c slow) s = .next t ∧ (t.core c).power = { p with newG := some g } ∧ ∀ a, t.rdByte a = s.rdByte a) ∧
      (g ≤ p.guard ∨ s.isCore c = false ∨ (s.phase ≠ 4 ∧ s.phase ≠ 5) → exec (.ageingMeasure c slow) s = .next s)) ∧
    ((s.core c).engine.waitBoost = true → ∃ t, exec (.matrixBoostAck c) s = .next t ∧ (t.core c).engine.waitBoost = false ∧
      (t.core c).engine.busySince = some s.now ∧ (∀ n, t.slot? c n = s.slot? c n) ∧ (∀ a, t.rdByte a = s.rdByte a) ∧
      (p.vset < p.ceil → (t.core c).power = { p with boost := true }) ∧
      (p.ceil ≤ p.vset → (t.core c).power = p ∧ (t.core c).engine.slowUntil = s.now + 2000)) ∧
    ((s.core c).engine.waitBoost = false → exec (.matrixBoostAck c) s = .next s) ∧
    (p.boost = false → exec (.matrixBoostRemove c) s = .next s) ∧
    (∀ u, p.boost = true → (s.core c).engine.lastOp = some u → (s.now < u + 2000 → exec (.matrixBoostRemove c) s = .next s) ∧
      (u + 2000 ≤ s.now → (s.core c).mtxOps = [] → ∃ t, exec (.matrixBoostRemove c) s = .next t ∧ (t.core c).power = { p with boost := false } ∧
        (∀ n, t.slot? c n = s.slot? c n) ∧ ∀ a, t.rdByte a = s.rdByte a)))

/-- R61, R62, R85, R280, R286: a SLEEP ends at its timeout, or when a recheck finds no watched word equal; a firmware
event starts an idle handler of a live core with nothing under service; a shoot-down waits for every access translated through what it
names, and drops that from every TLB; a migration sets TRK and clears WVER, and its compare-and-swap moves the entry only
when no store has counted since, each only where the tables let the management core write (log 98); a colony is restored on a core only from its own record, and a record that is not,
or that the tables deny the handler, stops the handler with a fault.
Where the spec is silent the clauses rest on the model's choices, log entries 35, 44, 52, 54, 98, 117. -/
def Obligations.SleepFirmwareShootdownRestore : Prop :=
  (∀ (s : State) (c n id lim : Nat) (x : Slot) (m : Member) (watch : List (Nat × Nat × Word)), s.slot? c n = some x → x.mem? id = some m → m.st = .sleep lim watch →
    let wakes := fun (i : Instr) => ∃ t y, exec i s = .next t ∧ t.slot? c n = some y ∧ y.plain = x.plain ∧ SameRegs x y ∧ (∀ a, t.rdByte a = s.rdByte a) ∧
      OneMember id x y fun k k' => k'.pc = k.pc + BitVec.ofNat 64 k.len ∧ k'.st = (if k.y then .marker else .ready) ∧ k'.mask = k.mask ∧ k'.fam = k.fam
    (lim ≤ s.now → wakes (.sleepTimeout c n id)) ∧
    (s.now < lim → (x.members.map (·.id)).Nodup → ∃ t, exec (.sleepTimeout c n id) s = .next t ∧ t.slot? c n = some x ∧ ∀ a, t.rdByte a = s.rdByte a) ∧
    ∀ pa : Nat × Nat × Word → Nat, (∀ w ∈ watch, m.mask.getLsbD w.1 = true ∧ w.2.1 % 4 = 0 ∧ w.2.1 < 2 ^ 52 ∧
        ∃ t k, (s.core c).tlb.find? (·.hit (s.queueOf x.grid) w.2.1) = some t ∧ k = t.pa + (w.2.1 - t.va) ∧ pa w = k ∧ t.r = true ∧
          (∀ i, i < 4 → MemLoc (.phys (k + i))) ∧ s.allowedRange (s.queueOf x.grid) k 4 .read = true) → (watch.map (·.1)).Nodup →
      s.badMem = [] → s.pending = [] → ((s.grid? x.grid).map (·.staged)).getD [] = [] →
      ((∃ w ∈ watch, BitVec.ofNat 32 (s.rdNat (pa w) 4) = w.2.2) → ∃ t, exec (.sleepRecheck c n id) s = .next t ∧ t.slot? c n = some x) ∧
      ((∀ w ∈ watch, BitVec.ofNat 32 (s.rdNat (pa w) 4) ≠ w.2.2) → wakes (.sleepRecheck c n id))) ∧
  (∀ (s : State) (c : Nat), let h := (s.core c).handler
    let idle := h.service = none ∧ h.pending = [] ∧ ∀ m ∈ h.slot.members, m.st = .waiti
    (¬idle ∨ s.isCore c = false → exec (.firmwareEvent c) s = .next s) ∧
    (idle → s.isCore c = true → ∃ t, exec (.firmwareEvent c) s = .next t ∧ (t.core c).handler.service = none ∧ (∀ a, t.rdByte a = s.rdByte a) ∧
      (t.core c).handler.slot.members.map (fun m => (m.mask, m.pc, m.st)) = [(BitVec.allOnes 64, BitVec.ofNat 64 (lget 0 s.handlerEntry c), .ready)])) ∧
  (∀ (s : State) (w : Shoot),
    let covers := fun (k : Nat) (p : Nat × Nat) => match w with | .page q va => k = q ∧ p.1 ≤ va ∧ va < p.1 + p.2 | .queue q => k = q | .all => k < 64
    (s.shootWaits w = true → exec (.tlbShootdown w) s = .next s) ∧
    (∀ k ∈ s.cores, ∀ e ∈ k.2.slots, ∀ o ∈ e.2.copies, ∀ p ∈ o.pages, o.finished = false → covers (s.queueOf e.2.grid) p → s.shootWaits w = true) ∧
    (∀ g ∈ s.grids, (∀ b ∈ g.staged, ∀ p ∈ b.pages, covers g.q p → s.shootWaits w = true) ∧ (∀ b ∈ g.bufs, covers g.q b.page → s.shootWaits w = true) ∧
      ∀ b ∈ g.combs, covers g.q b.page → s.shootWaits w = true) ∧
    (s.shootWaits w = false → ∃ t, exec (.tlbShootdown w) s = .next t ∧ t.shoots = s.shoots + 1 ∧ (∀ a, t.rdByte a = s.rdByte a) ∧ t.noTlb = { s.noTlb with shoots := s.shoots + 1 } ∧
    let gone := fun (k : TlbEntry) => match w with | .page q va => k.q = q ∧ k.va ≤ va ∧ va < k.va + k.size | .queue q => k.q = q | .all => True
    (∀ c, ∀ k ∈ (t.core c).tlb, k ∈ (s.core c).tlb ∧ ¬gone k) ∧ (∀ c, ∀ k ∈ (s.core c).tlb, ¬gone k → k ∈ (t.core c).tlb) ∧
    ∀ e ∈ t.clTlbs, ∀ k ∈ e.2, ¬gone k)) ∧
  (∀ (s : State) (q va a new : Nat) (t : TlbEntry) (trk : Bool), walk s q va 4 (s.queue q).root = .leaf t a trk → va < 2 ^ 52 → s.pending = [] →
    (∀ i, i < 8 → MemLoc (.phys (a + i))) → let e := s.rdNat a 8
    let puts := fun (t : State) (v : Nat) => t.rdNat a 8 = v ∧ ∀ j, ¬(a ≤ j ∧ j < a + 8) → t.rdByte j = s.rdByte j
    let may := s.allowedRange 65 a 8 .write
    (may = false → s.deed (.trackPage q va) = s) ∧ (may = true → puts (s.deed (.trackPage q va)) (e % 2 ^ 52 + if trk then 0 else 2 ^ 10)) ∧
    (trk = false ∨ new % t.size ≠ 0 ∨ may = false → s.deed (.movePage q va new) = s) ∧
    (trk = true → new % t.size = 0 → may = true → new < 2 ^ 50 → (e / 2 ^ 52 = 0 → puts (s.deed (.movePage q va new)) (e % 2 ^ 16 - 2 ^ 10 + new)) ∧
      (e / 2 ^ 52 ≠ 0 → puts (s.deed (.movePage q va new)) (e - 2 ^ 10)))) ∧
  ∀ (s : State) (c g k a : Nat) (z : Colony), s.colony? g k = some z →
    ((g, k) ∉ (s.core c).restoring ∨ (s.queue (s.queueOf g)).st ≠ .running → exec (.colonyRestore c g k) s = .next s) ∧
    let rank := z.cores.findIdx (· == c)
    let may := s.allowedRange 64 a (coreRecLen (s.rdNat (a + 0x10) 4)) .read
    let its := s.rdNat a 4 = 2 ∧ s.rdNat (a + 4) 4 = k ∧ s.rdNat (a + 8) 4 = g % 2 ^ 32 ∧ s.rdNat (a + 0xC) 1 = rank ∧ s.reservedOk a coreReserved = true
    ((g, k) ∈ (s.core c).restoring → (s.queue (s.queueOf g)).st = .running → s.dirAddr (s.queueOf g) 2 c rank g k = some a → s.badMem = [] → may = false ∨ ¬its →
      ∃ t pc, exec (.colonyRestore c g k) s = .next t ∧ (t.core c).handler.fault = some ((if may then 0x21 else 0x22), pc, 0) ∧ ∀ m ∈ (t.core c).handler.slot.members, m.st = .waiti) ∧
    ((g, k) ∈ (s.core c).restoring → (s.queue (s.queueOf g)).st = .running → rank ≠ 0 →
      s.dirAddr (s.queueOf g) 2 c rank g k = some a → s.badMem = [] → may = true → its → (∀ t, (s.core c).tile? t = none) → (s.core c).allocs = [] → s.rdNat (a + 0x10) 4 ≤ 0x100000 →
      ∃ t, exec (.colonyRestore c g k) s = .next t ∧ (t.core c).restoring = (s.core c).restoring.filter (· != (g, k)) ∧
        (t.core c).allocs = [{ grid := g, col := k, rank := s.rdNat (a + 0xC) 1, off := 0, size := s.rdNat (a + 0x10) 4 }] ∧
        (∀ i, i < s.rdNat (a + 0x10) 4 → lget 0 (t.core c).spad i = s.rdByte (a + 0x9600 + i)) ∧ (∀ j, t.rdByte j = s.rdByte j) ∧
        ∀ i, i < 256 → ((t.core c).tile? i).isSome = decide (128 ≤ s.rdNat (a + 0x200 + 16 * i) 1))

/-- R240 to R248, R258, R269 to R271: the dispatcher places the next colony of the queue and grid that come first on the
first group that fits, records its heat, and else counts a refusal and holds the queue to the next period; a period's
latch comes when its 10 µs are over, and sets temperatures and bands with their hysteresis, the slow-down, which lasts
while any notice is held, the stops, the budgets, each slice's STALL word from its counts of issued and memory-stalled periods, and each colony's charge
for the refreshes of the vaults its cores couple to; a notice set acts at a latch and one cleared at once, from a port
that is up, and firmware releases one only of a port that is down or has been since.
Where the spec is silent the clauses rest on the model's choices, log entries 56, 57, 116, 128. -/
def Obligations.PlacementAndControlPeriods : Prop :=
  (∀ (s : State), (∃ t, exec .placementDecision s = .next t ∧ ∀ a, t.rdByte a = s.rdByte a) ∧ (s.nextQueue = none → exec .placementDecision s = .next s) ∧
    ∀ (q : Nat) (g : Grid), s.nextQueue = some q → s.placeHead q = some g → s.grid? g.id = some g →
      let heat := if g.forced then g.launch.heat / 2 else g.launch.heat
      let fits := fun grp => s.eligible g.launch.spad grp = true ∧ s.accepts (s.place.ht.getD heat 0) g.forced grp = true
      ((∀ grp ∈ s.groups g.launch.cores, ¬fits grp) → ∃ t, exec .placementDecision s = .next t ∧ t.lastQ = q ∧ t.colonies = s.colonies ∧ t.cores = s.cores ∧
        t.grid? g.id = some { g with refusals := g.refusals + 1, forced := g.forced || decide (64 ≤ g.refusals + 1) } ∧
        t.queue q = { s.queue q with heldTo := s.thermal.period + 1 }) ∧
      ∀ pre grp post, s.groups g.launch.cores = pre ++ grp :: post → (∀ k ∈ pre, ¬fits k) → fits grp → s.colony? g.id g.nextCol = none →
        ∃ t, exec .placementDecision s = .next t ∧ t.lastQ = q ∧ (∀ a, t.rdByte a = s.rdByte a) ∧
          (∃ z, t.colonies = s.colonies ++ [z] ∧ z.grid = g.id ∧ z.col = g.nextCol ∧ z.cores = grp ∧ z.live = g.launch.fibres ∧ z.nextFid = g.launch.fibres ∧
            z.heat = heat ∧ z.forced = g.forced ∧ z.energy = 0 ∧ z.bars = List.replicate 16 { expected := 0, form := 0, arrived := 0, fids := [] }) ∧
          ∃ g', t.grid? g.id = some g' ∧ g'.nextCol = g.nextCol + 1 ∧ g'.st = .running ∧ g'.refusals = 0 ∧ g'.forced = false ∧
            (g.st = .queued → g'.usec = s.now / 2000 % 2 ^ 32)) ∧
  (∀ (s : State) (q : Nat), s.nextQueue = some q → ∃ g, s.placeHead q = some g ∧ g.q = q ∧ g.nextCol < g.launch.colonies ∧ (s.queue q).heldTo ≤ s.thermal.period ∧
    (∀ k ∈ s.grids, k.q = q → (k.st = .queued ∨ k.st = .running) → k.nextCol < k.launch.colonies → k.depth ≤ g.depth ∧ (k.depth = g.depth → g.id ≤ k.id)) ∧
    ∀ r k, r < 64 → s.placeHead r = some k → (s.queue r).heldTo ≤ s.thermal.period → k.prio ≤ g.prio ∧
      (k.prio = g.prio → (q + 63 * (s.lastQ + 1)) % 64 ≤ (r + 63 * (s.lastQ + 1)) % 64)) ∧
  (∀ (s : State) (temps : List (Nat × Int)) (droop : List (Nat × Nat)) (next : Option PlaceParams),
    (s.now < 20000 * (s.thermal.period + 1) → exec (.controlPeriodLatch temps droop next) s = .next s) ∧
    (20000 * (s.thermal.period + 1) ≤ s.now → ∃ t, exec (.controlPeriodLatch temps droop next) s = .next t ∧
    t.thermal.period = s.thermal.period + 1 ∧ t.place = next.getD s.place ∧ t.thermal.inbox = [] ∧
    (∀ i, i < 16 → t.thermal.held.getLsbD i = (s.thermal.held.getLsbD i || s.thermal.inbox.contains i)) ∧
    (∀ q, (t.queue q).vbwUsed = 0 ∧ (t.queue q).cbyUsed = 0) ∧
    (∀ v w, lfind s.thermal.vaults v = some w → ∃ w', lfind t.thermal.vaults v = some w' ∧ w'.rise = 0 ∧ w'.temp = lget w.temp temps v ∧
      let b := bandOf w'.temp
      w'.band = if w.band ≤ b then b else if w'.temp ≤ bandEdge w.band - 16 then b else w.band) ∧
    (t.thermal.coolFor = if ∀ e ∈ t.thermal.vaults, e.2.temp < 880 then s.thermal.coolFor + 1 else 0) ∧
    (t.thermal.slow = true ↔ (∃ e ∈ t.thermal.vaults, 920 ≤ e.2.temp) ∨ t.thermal.held &&& s.thermal.group ≠ 0 ∨ (s.thermal.slow = true ∧ (t.thermal.coolFor < 10 ∨ t.thermal.held ≠ 0))) ∧
    ((∃ e ∈ t.thermal.vaults, 920 ≤ e.2.temp) → t.thermal.own = true) ∧
    (∀ e ∈ t.thermal.vaults, 1000 ≤ e.2.temp → e.1 ∈ t.thermal.dieStop) ∧ (∀ v ∈ t.thermal.dieStop, ∃ w, (v, w) ∈ t.thermal.vaults ∧ 920 ≤ w.temp) ∧
    ((∀ k ∈ s.cores, k.2.power.newG = none) →
      (∀ c i x, c < 8 * s.live.length → (s.core c).power.slices[i]? = some x → x.edges ≠ 0 → x.ratio < 32 →
        let y := (t.core c).power.slice i
        let part := fun (lo n : Nat) => (y.stall.toNat / 2 ^ lo) % 2 ^ n
        part 24 8 = min (256 * x.memStall / x.edges) 255 ∧ part 16 8 = min (256 * x.issued / x.edges) 255 ∧ part 13 3 = 0 ∧ part 8 5 = x.ratio ∧ part 1 7 = 0 ∧
        part 0 1 = (if s.cap c < x.want then 1 else 0) ∧ y.edges = 0 ∧ y.issued = 0 ∧ y.memStall = 0) ∧
      ∀ z ∈ s.colonies, (∀ y ∈ s.colonies, y.grid = z.grid → y.col = z.col → y = z) → s.colonies.Nodup →
        let mult := fun (b : Nat) => if b = 0 then 1 else if b = 1 then 2 else if b = 2 then 4 else 8
        let on := fun (y : Colony) => y.cores.filter fun c => (s.core c).allocs.any fun a => a.grid == y.grid && a.col == y.col
        let P := fun (y : Colony) (v : Nat) => ((on y).map fun c => Machine.PlaceParams.coupling s.place v (8 * s.live.getD (c / 8) 0 + c % 8)).sum * s.place.ht.getD y.heat 0
        let charge := (s.thermal.vaults.map fun v => (mult v.2.band - 1) * s.place.rw * P z v.1 / (s.colonies.map fun y => P y v.1).sum).sum
        t.colony? z.grid z.col = some { z with refresh := z.refresh + charge, energy := z.energy + 16 * charge }))) ∧
  (∀ (s : State) (c i : Nat) (k : Core) (x : SliceClk), s.isOff = false → lfind s.cores c = some k → k.power.slices[i]? = some x → x.frozen = none → x.past = [] →
    x.origin ≤ s.now → 4 ≤ x.ratio → x.ratio ≤ 16 →
    let y := ((s.advance 1).core c).power.slice i
    let issued := x.counted = some s.now
    (x.edge s.now = false → ¬issued → y.edges = x.edges ∧ y.issued = x.issued ∧ y.memStall = x.memStall) ∧
    (x.edge s.now = true → y.edges = x.edges + 1 ∧ (issued → y.issued = x.issued + 1 ∧ y.memStall = x.memStall) ∧
      (¬issued → y.issued = x.issued ∧
        ((∃ e ∈ k.slots, e.2.slice = i ∧ ∃ m ∈ e.2.members, (∃ b, m.st = .bar b) ∨ (∃ l w, m.st = .sleep l w) ∨ (∃ n, m.st = .waitc .copy n) ∨
          (∃ n, m.st = .redo (.tileReady n)) ∨ (m.st = .marker ∧ ∃ o ∈ e.2.late, o.load = true)) → y.memStall = x.memStall + 1) ∧
        ((∀ e ∈ k.slots, e.2.slice = i → ∀ m ∈ e.2.members, m.st = .ready) → y.memStall = x.memStall)))) ∧
  ∀ (s : State) (p : Nat), (s.thermal.peerUp.getLsbD p = false → ∀ b, exec (.peerNotice p b) s = .next s) ∧
    (s.thermal.peerUp.getLsbD p = true →
      exec (.peerNotice p true) s = .next { s with thermal := { s.thermal with inbox := s.thermal.inbox ++ [p] } } ∧
      ∃ (h st : BitVec 16) (l : List Nat), exec (.peerNotice p false) s = .next { s with thermal := { s.thermal with held := h, stale := st, inbox := l } } ∧
        h.getLsbD p = false ∧ st.getLsbD p = false ∧ (∀ i, i ≠ p → st.getLsbD i = s.thermal.stale.getLsbD i) ∧ (∀ i, i ≠ p → h.getLsbD i = s.thermal.held.getLsbD i) ∧ ∀ i, i ∈ l ↔ i ∈ s.thermal.inbox ∧ i ≠ p) ∧
    (s.thermal.peerUp.getLsbD p = true → s.thermal.stale.getLsbD p = false → exec (.noticeRelease p) s = .next s) ∧
    (s.thermal.peerUp.getLsbD p = false ∨ s.thermal.stale.getLsbD p = true → ∃ h st : BitVec 16, exec (.noticeRelease p) s = .next { s with thermal := { s.thermal with held := h, stale := st } } ∧
      h.getLsbD p = false ∧ st.getLsbD p = false ∧ ∀ i, i ≠ p → h.getLsbD i = s.thermal.held.getLsbD i ∧ st.getLsbD i = s.thermal.stale.getLsbD i) ∧
    (s.thermal.held.getLsbD p = true → ∃ t, exec (.peerPortDown p) s = .next t ∧ t.thermal.stale.getLsbD p = true ∧ t.thermal.held = s.thermal.held)


-- the host's queues, the outside world, bring-up (R291 to R304, R321 to R328)

/-- R285, R291 to R293, R295, R297, R298: KICK moves the tail forward over free slots alone; each command ends with
done, busy or illegal, and does its work when legal, a DISCARD in STOPPING too; a reported fault lets its member go on; ring registers change in
DISABLED alone; a packet that stays torn faults the queue at the 8th reading.
Where the spec is silent the clauses rest on the model's choices, log entries 61, 62, 66. -/
def Obligations.QueueRegistersAndCommands : Prop :=
  (∀ (s : State) (q : Nat) (w : Word), let x := s.queue q
    let n := 2 ^ x.logN
    let adv := ((w.toNat : Int) - x.tail) % (2 * n : Nat)
    let room := ((x.head : Int) + n - x.tail) % (2 * n : Nat)
    ∃ t, exec (.kick q w) s = .next t ∧ (∀ a, t.rdByte a = s.rdByte a) ∧ (∀ k, k ≠ q → t.queue k = s.queue k) ∧
      t.queue q = if 0 < adv ∧ adv ≤ room then { x with tail := w.toNat % (2 * n) } else x) ∧
  (∀ (s : State) (q : Nat), let x := s.queue q
    let result := fun (i : Instr) (k : Nat) => ∃ t, exec i s = .next t ∧ t.queue q = { x with cres := k } ∧ (∀ a, t.rdByte a = s.rdByte a) ∧ t.grids = s.grids ∧ t.cores = s.cores
    let all := fun (p : Instr → Prop) => p (.qcmdEnable q) ∧ p (.qcmdPreempt q) ∧ p (.qcmdResume q) ∧ p (.qcmdDiscard q) ∧ p (.qcmdDisable q)
    let idle := ∀ g ∈ s.grids, g.q = q → g.st = .complete
    (s.phase ≠ 5 → all fun i => result i 2) ∧
    (s.phase = 5 → x.st = .stopping → result (.qcmdEnable q) 1 ∧ result (.qcmdPreempt q) 1 ∧ result (.qcmdResume q) 1 ∧ result (.qcmdDisable q) 1) ∧
    (s.phase = 5 → x.st ≠ .disabled → ∃ t, exec (.qcmdDiscard q) s = .next t ∧
      t.queue q = { x with st := .disabled, parse := .idle, copies := [], asks := [], cres := if x.st = .stopping then 1 else 0 } ∧
      t.grids = s.grids.filter (fun g => g.q != q) ∧ (∀ a, t.rdByte a = s.rdByte a) ∧
      ∀ c n y, n ≠ 64 → s.slot? c n = some y → ((∃ g ∈ s.grids, g.id = y.grid ∧ g.q = q) → ∀ z, t.slot? c n = some z → z.grid ≠ y.grid) ∧
        ((∀ g ∈ s.grids, g.id = y.grid → g.q ≠ q) → t.slot? c n = some y)) ∧
    (s.phase = 5 → x.st ≠ .stopping →
      (x.st ≠ .disabled → result (.qcmdEnable q) 2) ∧ (x.st ≠ .running → result (.qcmdPreempt q) 2) ∧
      (x.st = .disabled ∨ x.st = .running ∨ (x.st = .faulted ∧ x.freason = 6) → result (.qcmdResume q) 2) ∧ (x.st = .disabled → result (.qcmdDiscard q) 2) ∧
      (x.st ≠ .running ∨ ¬idle → result (.qcmdDisable q) 2) ∧
      (x.st = .disabled → ∃ t, exec (.qcmdEnable q) s = .next t ∧ t.queue q = { x with st := .running, head := 0, tail := 0, seq := 0, parse := .idle, cres := 0 } ∧
        ∀ a, t.rdByte a = s.rdByte a) ∧
      (x.st = .running → idle → ∃ t, exec (.qcmdDisable q) s = .next t ∧ t.queue q = { x with st := .disabled, parse := .idle, cres := 0 } ∧
        ∀ a, t.rdByte a = s.rdByte a) ∧
      (x.st = .preempted ∨ (x.st = .faulted ∧ x.freason ≠ 6) → ∃ t, exec (.qcmdResume q) s = .next t ∧ (t.queue q).st = .running ∧ (t.queue q).cres = 0 ∧
        (∀ a, t.rdByte a = s.rdByte a) ∧ ∀ c n y, n ≠ 64 → s.slot? c n = some y → s.queueOf y.grid = q → ∃ z, t.slot? c n = some z ∧ z = { y with stopped := false, resumed := false }) ∧
      (x.st = .running → (layOut 0 (s.saveItems q none)).2 ≤ 65536 * x.sregSz → ∃ t, exec (.qcmdPreempt q) s = .next t ∧ (t.queue q).cres = 0 ∧
        ((t.queue q).st = .stopping ∧ (t.queue q).outcome = .preempted ∨ (t.queue q).st = .preempted) ∧
        ∀ c n y, n ≠ 64 → s.slot? c n = some y → s.queueOf y.grid = q → ∃ z, t.slot? c n = some z ∧ z.stopped = true ∧ SameRegs y z ∧ z.members = y.members ∧
          ∃ p ∈ (t.core c).handler.pending, p.slot = n ∧ p.mem = none ∧ p.tr.cause = 0x13 ∧ p.tr.info = BitVec.ofNat 32 q))) ∧
  (∀ (s : State) (q : Nat) (w : Word),
    (∃ t, exec (.fqhead q w) s = .next t ∧ t.queue q = { s.queue q with fqHead := w.toNat } ∧ ∀ a, t.rdByte a = s.rdByte a) ∧
    ∃ t, exec (.fserv q w) s = .next t ∧ (∀ a, t.rdByte a = s.rdByte a) ∧ (t.queue q).served = w.toNat :: (s.queue q).served ∧
      ∀ c n x, n ≠ 64 → s.slot? c n = some x → ∃ y, t.slot? c n = some y ∧ { y with members := x.members } = x ∧
        y.members = if s.queueOf x.grid = q then x.members.map fun m => if m.awaits w.toNat then { m with st := .ready, since := s.now } else m else x.members) ∧
  (∀ (s : State) (q : Nat) (w : Word), q < 64 → let x := s.queue q
    let at_ := fun (o : Nat) => ∃ t, exec (.registerWrite (0x10000 + 256 * q + o) w) s = .next t ∧ (∀ a, t.rdByte a = s.rdByte a) ∧
      match o with
      | 0x00 => t.queue q = { x with prio := w.toNat % 8 }
      | 0x20 => t.queue q = if x.st = .disabled then { x with root := x.root / 2 ^ 32 * 2 ^ 32 + w.toNat } else x
      | 0x0C => t.queue q = if x.st = .disabled ∧ 4 ≤ w.toNat % 16 then { x with logN := w.toNat % 16 } else x
      | 0x50 => t.queue q = if x.st = .disabled then { x with sregSz := w.toNat } else x
      | _ => t.queue q = x
    at_ 0x00 ∧ at_ 0x20 ∧ at_ 0x0C ∧ at_ 0x50 ∧ at_ 0x18 ∧ at_ 0x08 ∧ ∀ off, off % 4 ≠ 0 → exec (.registerWrite off w) s = .next s) ∧
  ∀ (s : State) (q : Nat), s.packet q = .torn → let n := match (s.queue q).parse with | .retry n => n | _ => 0
    (n + 1 < 8 → ∃ t, exec (.packetRetry q) s = .next t ∧ t.queue q = { s.queue q with parse := .retry (n + 1) } ∧ ∀ a, t.rdByte a = s.rdByte a) ∧
    (8 ≤ n + 1 → (layOut 0 (s.saveItems q none)).2 ≤ 65536 * (s.queue q).sregSz → ∃ t, exec (.packetRetry q) s = .next t ∧ (t.queue q).freason = 1 ∧
      (t.queue q).parse = .idle ∧ ((t.queue q).st = .stopping ∧ (t.queue q).outcome = .faulted ∨ (t.queue q).st = .faulted))

/-- R238, R249, R251, R294 to R296, R300: a whole packet with legal fields has its effect and HEAD passes it: NOP,
LAUNCH, FENCE when its counters have come, SIGNAL when all earlier work is complete, COPY at once and its transfer
later, the three VTAB operations, a freeze taking the requested updates of its table into the frozen ones and a thaw out of them, MODE; one with an illegal field faults its queue with the reason.
R68, R249, R294, R296: each counter of a FENCE is polled until it once reads at least its value, and when none is left
HEAD passes the packet; the transfer of a COPY packet, once its budget grants it, delivers its bytes, and adds to no
counter when its DONE is 0.
Where the spec is silent the clauses rest on the model's choices, log entries 42, 58, 63, 64, 65. -/
def Obligations.PacketEffects : Prop :=
  (∀ (s : State) (q : Nat) (b : List Byte), s.packet q = .ok b → s.pending = [] →
     let x := s.queue q
     let type := numAt b 0 1
     let zero := unnamedZero b
     let passed : Queue := { x with head := (x.head + 1) % (2 * 2 ^ x.logN), seq := (x.seq + 1) % 2 ^ 32, parse := .idle }
     let passes := fun (i : Instr) => ∃ t, exec i s = .next t ∧ t.queue q = passed ∧ (∀ a, t.rdByte a = s.rdByte a) ∧ t.cores = s.cores ∧ t.grids = s.grids
     let faults := fun (i : Instr) (r : Nat) => (layOut 0 (s.saveItems q none)).2 ≤ 65536 * x.sregSz → ∃ t, exec i s = .next t ∧ (t.queue q).freason = r ∧
       ((t.queue q).st = .stopping ∧ (t.queue q).outcome = .faulted ∨ (t.queue q).st = .faulted)
     let plain := fun (ps : List Part) => ∀ l ∈ locsOf ps, MemLoc l
     let writes := fun (t : State) (cells : List (Loc × Byte)) => ∀ a, t.rdByte a = (lastAt cells (.phys a)).getD (s.rdByte a)
     (type = 0 → zero [] = true → passes (.pktNop q)) ∧ (type = 0 → zero [] = false → faults (.pktNop q) 2) ∧ (6 < type → faults (.pktNop q) 2) ∧
     (type = 1 → zero [(8, 40)] = true →
       (readLaunch ((b.drop 8).take 40 ++ List.replicate 24 0) = none → faults (.pktLaunch q) 3) ∧
       ∀ r, readLaunch ((b.drop 8).take 40 ++ List.replicate 24 0) = some r → ∃ t g, exec (.pktLaunch q) s = .next t ∧ t.queue q = passed ∧
         t.grids = s.grids ++ [g] ∧ g.id = s.nextGrid ∧ t.nextGrid = s.nextGrid + 1 ∧ g.q = q ∧ g.depth = 0 ∧ g.parent = none ∧ g.launch = r ∧ g.st = .queued ∧
         g.prio = x.prio ∧ g.det = x.det ∧ g.debug = x.debug ∧ g.lease = x.lease ∧ ∀ a, t.rdByte a = s.rdByte a) ∧
     (type = 2 → zero [(8, 9)] = true → let list := numAt b 8 8
       let n := numAt b 16 1
       (x.det = true → s.allComplete q = false → exec (.pktFence q) s = .next s) ∧
       (x.det = false → 12 < n ∨ list % 64 ≠ 0 → faults (.pktFence q) 4) ∧
       ∀ ps, x.det = false ∨ s.allComplete q = true → n ≤ 12 → list % 64 = 0 → s.operand q list (16 * n) .read = .ok ps →
         let cs := (List.range n).map fun i => (numAt (partBytes s ps) (16 * i) 8, numAt (partBytes s ps) (16 * i + 8) 8)
         ((∃ c ∈ cs, c.1 % 8 ≠ 0) → faults (.pktFence q) 4) ∧
         ((∀ c ∈ cs, c.1 % 8 = 0) → ∃ t, exec (.pktFence q) s = .next t ∧ t.queue q = { x with parse := .fence cs } ∧ ∀ a, t.rdByte a = s.rdByte a)) ∧
     (type = 3 → zero [(8, 19)] = true → let a := numAt b 8 8
       let add := numAt b 24 1 = 1
       let done := s.allComplete q = true ∧ x.copies = []
       (¬done → exec (.pktSignal q) s = .next s) ∧
       (done → a % 8 ≠ 0 ∨ 1 < numAt b 24 1 ∨ 1 < numAt b 25 1 → faults (.pktSignal q) 2) ∧
       ∀ ps, done → a % 8 = 0 → numAt b 24 1 ≤ 1 → numAt b 25 1 ≤ 1 → s.operand q a 8 .write = .ok ps → plain ps →
         s.devWrites q a 8 = s → ∃ t, exec (.pktSignal q) s = .next t ∧ t.queue q = passed ∧
           writes t ((locsOf ps).zip (natLe 8 (if add then (leNat (partBytes s ps) + numAt b 16 8) % 2 ^ 64 else numAt b 16 8))) ∧
           t.irqs = s.irqs ++ if numAt b 25 1 = 1 then [⟨q, numAt b 26 1⟩] else []) ∧
     (type = 4 → zero [(8, 21), (32, 8)] = true → let n := numAt b 24 4
       ∀ ps pd, numAt b 28 1 = 0 → s.operand q (numAt b 8 8) n .read = .ok ps → s.operand q (numAt b 16 8) n .write = .ok pd → s.devWrites q (numAt b 16 8) n = s →
         ∃ t bytes, exec (.pktCopy q) s = .next t ∧ t.queue q = { passed with copies := x.copies ++ [.copy bytes [] (numAt b 32 8) {}] } ∧
           bytes.map (·.dst) = locsOf pd ∧ (∀ a, t.rdByte a = s.rdByte a) ∧
           ∀ (i : Nat) (k : CopyByte), bytes[i]? = some k → k.touched = false ∧ k.src = match (locsOf ps)[i]? with | some l => if i < n then .loc l else .zero | none => .zero) ∧
     (type = 5 → zero [(8, 9)] = true → let a := numAt b 8 8
       let op := numAt b 16 1
       (a % 64 ≠ 0 ∨ 2 < op → faults (.vtabFreeze q) 2) ∧
       ∀ ps p, a % 64 = 0 → s.operand q a 64 .write = .ok ps → firstLoc ps = .phys p → (∀ i, i < 64 → MemLoc (.phys (p + i))) → (∀ n, s.devWrites q a n = s) → s.devWrite q a = s →
         let t0 := readTable (partBytes s ps)
         (headerOk t0 = false → (op = 0 → faults (.vtabFreeze q) 2) ∧ (op = 1 → faults (.vtabThaw q) 2) ∧ (op = 2 → faults (.vtabReset q) 2)) ∧
         (headerOk t0 = true → op = 0 → (∀ r ∈ s.updates, r.toll.ask = none) → s.frozen.length + s.updates.length ≤ 65536 →
           let mine := s.updates.filter fun r => s.tagAddr r.q r.table.toNat == some p
           ∃ t, exec (.vtabFreeze q) s = .next t ∧ t.queue q = passed ∧ writes t [(.phys (p + 0xC), s.rdByte (p + 0xC) ||| 1)] ∧
             t.updates = s.updates.filter (fun r => s.tagAddr r.q r.table.toNat != some p) ∧
             ∃ l, t.frozen = s.frozen ++ l ∧ l.map (fun r => { r with home := none }) = mine.map fun r => { r with toll := {}, home := none }) ∧
         (headerOk t0 = true → op = 1 → ∃ t, exec (.vtabThaw q) s = .next t ∧ t.frozen = s.frozen.filter fun r => r.home != some p) ∧
         (headerOk t0 = true → op = 1 → (∀ r ∈ s.frozen, r.home ≠ some p) → ∃ t, exec (.vtabThaw q) s = .next t ∧ t.queue q = passed ∧
           writes t [(.phys (p + 0xC), BitVec.ofNat 8 ((s.rdByte (p + 0xC)).toNat / 4 * 4))]) ∧
         ∀ ws, headerOk t0 = true → op = 2 → s.operand q a (64 + 32 * t0.count) .write = .ok ws → plain ws → ∃ t, exec (.vtabReset q) s = .next t ∧ t.queue q = passed ∧
           writes t ((locsOf ws).zipIdx.map fun e => let o := (e.2 - 64) % 32
             (e.1, if 64 ≤ e.2 ∧ (o = 0x12 ∨ (0x14 ≤ o ∧ o < 0x18)) then 0 else s.locByte e.1))) ∧
     (type = 6 → zero [(8, 1), (12, 12)] = true → let m := numAt b 8 1
       let low := fun n => 0 < n ∧ n < 4096
       let bint := numAt b 20 4
       let illegal := low (numAt b 12 4) ∨ low (numAt b 16 4) ∨ (bint ≠ 0 ∧ (bint < 16 ∨ 65536 < bint))
       let same := m.testBit 0 = x.det ∧ m.testBit 1 = x.debug ∧ m.testBit 2 = x.lease
       (7 < m → faults (.pktMode q) 2) ∧ (m ≤ 7 → illegal → faults (.pktMode q) 8) ∧
       (m ≤ 7 → ¬illegal → ¬same → s.allComplete q = false → exec (.pktMode q) s = .next s) ∧
       (m ≤ 7 → ¬illegal → same ∨ s.allComplete q = true → ∃ t, exec (.pktMode q) s = .next t ∧ (∀ a, t.rdByte a = s.rdByte a) ∧
         t.queue q = { passed with det := m.testBit 0, debug := m.testBit 1, lease := m.testBit 2, vbw := numAt b 12 4, cby := numAt b 16 4
                                   bint := if bint = 0 then 512 else bint }))) ∧
  ((∀ (s : State) (q : Nat) (cs : List (Nat × Nat)) (at_ : Nat → Nat), let x := s.queue q
     x.parse = .fence cs → x.st = .running →
     (∀ c ∈ cs, (∃ ty o pg, s.operand q c.1 8 .read = .ok [⟨.phys (at_ c.1), 8, ty, false, o, pg⟩]) ∧ ∀ i, i < 8 → MemLoc (.phys (at_ c.1 + i))) →
     let left := cs.filter fun c => decide (s.rdNat (at_ c.1) 8 < c.2)
     (left ≠ [] → exec (.fenceCountersPass q) s = .next (s.setQueue q { x with parse := .fence left })) ∧
     (left = [] → ∃ t, exec (.fenceCountersPass q) s = .next t ∧ (∀ a, t.rdByte a = s.rdByte a) ∧
       t.queue q = { x with head := (x.head + 1) % (2 * 2 ^ x.logN), seq := (x.seq + 1) % 2 ^ 32, parse := .idle })) ∧
   ∀ (s : State) (q : Nat) (bytes : List CopyByte) (rest : List Parse) (toll : Toll), let x := s.queue q
     x.copies = .copy bytes [] 0 toll :: rest →
     let paid := x.grant toll (copyCosts bytes)
     (paid.2.2 = false → exec (.copyPacketDone q) s = .next (s.setQueue q { paid.1 with copies := .copy bytes [] 0 paid.2.1 :: rest })) ∧
     (paid.2.2 = true → s.pending = bytes → (bytes.map (·.dst)).Nodup → s.badMem = [] →
       (∀ b ∈ bytes, b.touched = false ∧ (∃ a, b.dst = .phys a ∧ MemLoc (.phys a)) ∧ ∀ l, b.src = .loc l → (∃ a, l = .phys a ∧ MemLoc (.phys a)) ∧ ∀ d ∈ bytes, d.dst ≠ l) →
       ∃ t, exec (.copyPacketDone q) s = .next t ∧ (t.queue q).copies = rest ∧ (t.queue q).head = x.head ∧ (∀ k, k ≠ q → t.queue k = s.queue k) ∧
         (∀ b ∈ bytes, t.locByte b.dst = match b.src with | .zero => 0 | .loc l => s.locByte l | .got v => v) ∧
         ∀ a, (∀ b ∈ bytes, b.dst ≠ .phys a) → t.rdByte a = s.rdByte a))

/-- R204, R291, R301 to R304: a host or peer write that its window and the access tables allow writes its bytes, one that
a table denies or a read changes nothing; peer ports go up and down; an attestation answers with the device's
measurements and key digest, another one once the debug fuse is blown, spends one leaf, and is refused once the leaves
are spent; a nonce may be written into the attestation block.
Where the spec is silent the clauses rest on the model's choices, log entries 32, 69, 93, 115. -/
def Obligations.OutsideAccessesAndAttestation : Prop :=
  (∀ (s : State) (addr : Nat) (l : List Byte), (∀ n, exec (.hostAccess (.read addr n)) s = .next s ∧ ∀ p, exec (.peerAccess p (.read addr n)) s = .next s) ∧
    let puts := fun (i : Instr) (p : Nat) => ∃ t, exec i s = .next t ∧ ∀ a, t.rdByte a = if p ≤ a ∧ a < p + l.length then l.getD (a - p) 0 else s.rdByte a
    (0x8000000000 ≤ addr → addr + l.length ≤ 0xE000000000 →
      (s.allowedRange mHost (addr - 0x8000000000) l.length .write = true → puts (.hostAccess (.write addr l)) (addr - 0x8000000000)) ∧
      (s.allowedRange mHost (addr - 0x8000000000) l.length .write = false → exec (.hostAccess (.write addr l)) s = .next s)) ∧
    (0x1000000 ≤ addr → addr < 0x8000000000 → exec (.hostAccess (.write addr l)) s = .next s) ∧
    (s.pending = [] → 0x1000 ≤ addr → addr + 32 ≤ 0x2000 → l.length = 32 → s.allowedRange mHost (statusBase + addr) 32 .write = true →
      exec (.hostAccess (.write addr l)) s = exec (.attestationRequest l) s) ∧
    (hostBase ≤ addr → addr + l.length ≤ peerBase → puts (.hostAccess (.write addr l)) addr) ∧
    ∀ p, (s.thermal.peerUp.getLsbD p = false ∨ s.allowedRange (mPeer p) addr l.length .write = false → exec (.peerAccess p (.write addr l)) s = .next s) ∧
      (s.thermal.peerUp.getLsbD p = true → s.allowedRange (mPeer p) addr l.length .write = true → addr + l.length ≤ dramEnd → puts (.peerAccess p (.write addr l)) addr)) ∧
  (∀ (s : State) (p : Nat), p < 16 →
    (∃ w v : BitVec 16, exec (.peerPortDown p) s = .next { s with thermal := { s.thermal with peerUp := w, stale := v } } ∧ w.getLsbD p = false ∧
      v.getLsbD p = (s.thermal.stale.getLsbD p || s.thermal.held.getLsbD p) ∧ (∀ i, i ≠ p → v.getLsbD i = s.thermal.stale.getLsbD i) ∧ ∀ i, i ≠ p → w.getLsbD i = s.thermal.peerUp.getLsbD i) ∧
    ∃ w : BitVec 16, exec (.peerPortUp p) s = .next { s with thermal := { s.thermal with peerUp := w } } ∧ w.getLsbD p = true ∧ ∀ i, i ≠ p → w.getLsbD i = s.thermal.peerUp.getLsbD i) ∧
  ∀ (s : State) (nonce : List Byte), nonce.length = 32 →
    (s.phase ≠ 4 → s.phase ≠ 5 → exec (.attestationRequest nonce) s = .next s) ∧
    (s.phase = 4 ∨ s.phase = 5 → ∃ t, exec (.attestationRequest nonce) s = .next t ∧ t.nonce = nonce ∧ (∀ a, t.rdByte a = s.rdByte a) ∧ t.mreg0 = s.mreg0 ∧ t.mreg1 = s.mreg1 ∧
      (32767 < s.leaf → t.attStatus = 3 ∧ t.attReply = none ∧ t.leaf = s.leaf) ∧
      (s.leaf ≤ 32767 → t.attStatus = 0 ∧ t.leaf = s.leaf + 1 ∧ ∃ r, t.attReply = some r ∧ r.devId = s.devId ∧ r.nonce = nonce ∧ r.leaf = s.leaf ∧
        r.clusters = s.live.length ∧ r.mreg0 = s.mreg0 ∧ r.mreg1 = s.mreg1 ∧ (s.debugFuse = false → r.keyDigest = s.keyDigest) ∧
        (s.debugFuse = true → r.keyDigest ≠ s.keyDigest) ∧
        r.signature = Config.lmsSign s.leaf (attMessage s.devId s.live.length s.mreg0 s.mreg1 nonce s.leaf r.keyDigest)))

/-- R1, R303, R304, R321, R322, R325, R327, R328: bring-up goes from POWER over rails, memory training, boot check and
firmware load to READY, and to FAILED with its error; the 30 lowest enabled clusters live, and fewer than 26 fail; the
host stages an image in the first two phases, and the boot check compares its key, signature, digest, length and
version; MREG0 measures the image and MREG1 the tables; every core that is not dead stands at a rail between Required
and CEIL; a reset keeps the fused identity, key digest, rollback counter and debug fuse, the worn clusters and the leaf
counter; EXTEST holds the device in reset, in which no time passes, until another test instruction is selected; outside it these
only select.
Where the spec is silent the clauses rest on the model's choices, log entries 2, 7, 8, 14, 68, 70, 90, 91, 92, 95. -/
def Obligations.BringUpAndTestPort : Prop :=
  ∀ (s : State),
    let cycles := fun (i : Instr) (ph : Nat) (j : Jtag) => ∃ t, exec i s = .next t ∧ t.phase = ph ∧ t.jtag = j ∧ t.clMask = s.clMask &&& ~~~s.worn ∧ t.worn = 0 ∧
      t.devId = s.devId ∧ t.cert = s.cert ∧ t.leaf = s.leaf ∧ t.keyDigest = s.keyDigest ∧ t.rollback = s.rollback ∧ t.debugFuse = s.debugFuse ∧ t.staged = none ∧ t.cores = [] ∧ t.grids = [] ∧ t.queues = [] ∧ t.live = [] ∧ t.mreg0 = 0 ∧ t.mreg1 = 0 ∧ t.now = 0 ∧
      (∀ a, a < hostBase → t.rdByte a = 0)
    let fails := fun (i : Instr) (k : Nat) => exec i s = .next { s with phase := 15, bootErr := k }
    cycles .powerOnReset 1 .idcode ∧ cycles .powerLoss 0 .idcode ∧ cycles (.extest true) 1 .extest ∧
    (s.jtag = .extest → cycles (.extest false) 1 .bypass) ∧ (s.jtag ≠ .extest → exec (.extest false) s = .next s) ∧
    (s.jtag ≠ .extest → exec .bypass s = .next { s with jtag := .bypass } ∧ exec .idcode s = .next { s with jtag := .idcode } ∧
      exec .samplePreload s = .next { s with jtag := .sample }) ∧
    (s.jtag = .extest → cycles .bypass 1 .bypass ∧ cycles .idcode 1 .idcode ∧ cycles .samplePreload 1 .sample ∧ ∀ n, s.advance n = s) ∧
    (s.phase ≠ 1 → exec .railsUp s = .next s) ∧ (s.phase = 1 → exec .railsUp s = .next { s with phase := 2 }) ∧
    (∀ ok, s.phase ≠ 2 → exec (.dramTrainingDone ok) s = .next s) ∧ (s.phase = 2 → fails (.dramTrainingDone false) 4) ∧
    (s.phase = 2 → let on := (List.range 32).filter fun i => s.clMask.getLsbD i
      (on.length < 26 → fails (.dramTrainingDone true) 5) ∧ (26 ≤ on.length → exec (.dramTrainingDone true) s = .next { s with phase := 3, live := on.take 30 })) ∧
    (∀ f, (s.phase = 1 ∨ s.phase = 2 → s.deed (.stageFirmware f) = { s with staged := some f }) ∧ (s.phase ≠ 1 → s.phase ≠ 2 → s.deed (.stageFirmware f) = s)) ∧
    (∀ key, (s.phase ≠ 3 → exec (.firmwareVerify key) s = .next s) ∧ (s.phase = 3 → s.staged = none → fails (.firmwareVerify key) 1)) ∧
    (∀ key f, s.phase = 3 → s.staged = some f → let known := Config.sha256 key == s.keyDigest
      let genuine := f.magic == Config.fwMagic && f.length == f.body.length && f.digest == Config.sha256 f.body && Config.lmsVerify key (f.header ++ f.body) f.sig
      exec (.firmwareVerify key) s = .next (if !known then { s with phase := 15, bootErr := 3 } else if !genuine then { s with phase := 15, bootErr := 1 }
        else if f.version.toNat < s.rollback then { s with phase := 15, bootErr := 2 } else { s with phase := 4, mreg0 := Config.sha256 f.bytes, mreg1 := 0 })) ∧
    ∀ f : FwLoad, (s.phase ≠ 4 → exec (.firmwareLoadDone f) s = .next s) ∧
      (s.phase = 4 → ∃ t, exec (.firmwareLoadDone f) s = .next t ∧ t.phase = 5 ∧ t.weights = f.weights ∧ t.place = f.place ∧ t.vmin = f.vmin ∧
        t.handlerEntry = f.handlerEntry ∧ t.thermal.group = f.group ∧ t.mreg0 = s.mreg0 ∧ t.mreg1 = (loadTables f).foldl extend s.mreg1 ∧ t.staging = f.staging ∧ t.leaf = s.leaf ∧
        t.acc = f.acc.map (fun e => (e.1, e.2.take 32)) ∧
        ∀ c, c < 8 * s.live.length → (s.core c).power.slices.length = 8 → let p := (t.core c).power
          (∀ l, (s.core c).power.todo = l ++ [.done] → .done ∉ l → p.seq = ((s.core c).power.seq + 1) % 256 ∧ p.code = 0) ∧
          lget 0 f.slow c / 10 ≤ p.guard ∧ (p.dead = true ∨ (p.todo = [] ∧ p.vset ≤ 85 - p.guard / 2 ∧
            ∀ i, i < 8 → f.vmin.getD ((p.slice i).ratio - 4) 0 + p.guard ≤ p.vset)))
end

