-- ==== Sys2Proof/Laws/Table.lean ====
section
/-! SUPPORT. Laws of the sparse tables: what a write or a removal leaves, for any list; and that writes keep
the canonical form. -/

namespace Sys2Proof.Machine

section
variable {α : Type}

theorem lget_lput_self (d : α) (l : List (Nat × α)) (n : Nat) (x : α) : lget d (lput l n x) n = x := by
  induction l with
  | nil => simp [lput, lget]
  | cons a r ih =>
    obtain ⟨k, v⟩ := a
    by_cases h : n < k
    · simp [lput, h, lget]
    · by_cases e : k = n <;> simp [lput, h, e, lget, ih]

theorem lget_lput_ne (d : α) (l : List (Nat × α)) {n m : Nat} (x : α) (h : m ≠ n) : lget d (lput l n x) m = lget d l m := by
  induction l with
  | nil => simp [lput, lget, Ne.symm h]
  | cons a r ih =>
    obtain ⟨k, v⟩ := a
    by_cases g : n < k
    · simp [lput, g, lget, Ne.symm h]
    · by_cases e : k = n
      · simp [lput, e, lget, Ne.symm h]
      · simp [lput, g, e, lget, ih]

theorem lget_lput (d : α) (l : List (Nat × α)) (n m : Nat) (x : α) : lget d (lput l n x) m = if m = n then x else lget d l m := by
  by_cases h : m = n
  · subst h; simp [lget_lput_self]
  · simp [h, lget_lput_ne]

theorem lget_ldel_self (d : α) (l : List (Nat × α)) (n : Nat) : lget d (ldel l n) n = d := by
  induction l with
  | nil => rfl
  | cons a r ih =>
    obtain ⟨k, v⟩ := a
    by_cases e : k = n <;> simp [ldel, e, lget, ih]

theorem lget_ldel_ne (d : α) (l : List (Nat × α)) {n m : Nat} (h : m ≠ n) : lget d (ldel l n) m = lget d l m := by
  induction l with
  | nil => rfl
  | cons a r ih =>
    obtain ⟨k, v⟩ := a
    by_cases e : k = n
    · subst e; simp [ldel, lget, ih, Ne.symm h]
    · simp [ldel, e, lget, ih]

theorem lfind_lput_self (l : List (Nat × α)) (n : Nat) (x : α) : lfind (lput l n x) n = some x := by
  induction l with
  | nil => simp [lput, lfind]
  | cons a r ih =>
    obtain ⟨k, v⟩ := a
    by_cases h : n < k
    · simp [lput, h, lfind]
    · by_cases e : k = n <;> simp [lput, h, e, lfind, ih]

theorem lfind_lput_ne (l : List (Nat × α)) {n m : Nat} (x : α) (h : m ≠ n) : lfind (lput l n x) m = lfind l m := by
  induction l with
  | nil => simp [lput, lfind, Ne.symm h]
  | cons a r ih =>
    obtain ⟨k, v⟩ := a
    by_cases g : n < k
    · simp [lput, g, lfind, Ne.symm h]
    · by_cases e : k = n
      · simp [lput, e, lfind, Ne.symm h]
      · simp [lput, g, e, lfind, ih]

theorem lfind_ldel_self (l : List (Nat × α)) (n : Nat) : lfind (ldel l n) n = none := by
  induction l with
  | nil => rfl
  | cons a r ih =>
    obtain ⟨k, v⟩ := a
    by_cases e : k = n <;> simp [ldel, e, lfind, ih]

theorem lfind_ldel_ne (l : List (Nat × α)) {n m : Nat} (h : m ≠ n) : lfind (ldel l n) m = lfind l m := by
  induction l with
  | nil => rfl
  | cons a r ih =>
    obtain ⟨k, v⟩ := a
    by_cases e : k = n
    · subst e; simp [ldel, lfind, ih, Ne.symm h]
    · simp [ldel, e, lfind, ih]

/-- The later of two writes to one key stands. -/
theorem lput_lput_self (l : List (Nat × α)) (n : Nat) (x y : α) : lput (lput l n x) n y = lput l n y := by
  induction l with
  | nil => simp [lput]
  | cons a r ih =>
    obtain ⟨k, v⟩ := a
    by_cases h : n < k
    · simp [lput, h]
    · by_cases e : k = n <;> simp [lput, h, e, ih]

theorem lget_map_key (d : α) (f : α → α) (k n : Nat) (l : List (Nat × α)) :
    lget d (l.map fun e => if e.1 = k then (k, f e.2) else e) n =
      if n = k ∧ (lfind l n).isSome then f (lget d l n) else lget d l n := by
  induction l with
  | nil => simp [lget, lfind]
  | cons a r ih =>
    obtain ⟨j, v⟩ := a
    by_cases h : j = k
    · subst h
      by_cases g : j = n
      · subst g; simp [lget, lfind]
      · simp only [List.map_cons, if_true, lget, lfind, g, if_false, ih]
    · by_cases g : j = n
      · subst g; simp [lget, lfind, h]
      · simp [lget, lfind, h, g, ih]

theorem lfind_map_key (f : α → α) (k n : Nat) (l : List (Nat × α)) :
    lfind (l.map fun e => if e.1 = k then (k, f e.2) else e) n = if n = k then (lfind l n).map f else lfind l n := by
  induction l with
  | nil => simp [lfind]
  | cons a r ih =>
    obtain ⟨j, v⟩ := a
    by_cases h : j = k
    · subst h
      by_cases g : j = n
      · subst g; simp [lfind]
      · simp [lfind, g, ih]
    · by_cases g : j = n
      · subst g; simp [lfind, h]
      · simp [lfind, h, g, ih]

theorem lget_eq_lfind (d : α) (l : List (Nat × α)) (n : Nat) : lget d l n = (lfind l n).getD d := by
  induction l with
  | nil => rfl
  | cons a r ih =>
    obtain ⟨k, v⟩ := a
    by_cases h : k = n <;> simp [lget, lfind, h, ih]
end

section
variable {α : Type} [DecidableEq α]

/-- Reading after a write, for any list. -/
theorem lget_cset (d : α) (l : List (Nat × α)) (n m : Nat) (x : α) : lget d (cset d l n x) m = if m = n then x else lget d l m := by
  unfold cset
  by_cases hx : x = d
  · by_cases h : m = n
    · subst h; simp [hx, lget_ldel_self]
    · simp [hx, h, lget_ldel_ne]
  · simp [hx, lget_lput]

theorem cwfFrom_weaken {d : α} {lo hi : Nat} {l : List (Nat × α)} (h : cwfFrom d (some hi) l = true) (g : lo ≤ hi) :
    cwfFrom d (some lo) l = true := by
  cases l with
  | nil => rfl
  | cons a r =>
    obtain ⟨k, v⟩ := a
    simp only [cwfFrom, Bool.and_eq_true, decide_eq_true_eq] at h ⊢
    exact ⟨⟨by omega, h.1.2⟩, h.2⟩

theorem cwfFrom_none {d : α} {lo : Nat} {l : List (Nat × α)} (h : cwfFrom d (some lo) l = true) : cwfFrom d none l = true := by
  cases l with
  | nil => rfl
  | cons a r => simp only [cwfFrom, Bool.and_eq_true] at h ⊢; exact ⟨⟨trivial, h.1.2⟩, h.2⟩

theorem cwfFrom_ldel {d : α} {lo : Nat} {l : List (Nat × α)} (n : Nat) (h : cwfFrom d (some lo) l = true) :
    cwfFrom d (some lo) (ldel l n) = true := by
  induction l generalizing lo with
  | nil => rfl
  | cons a r ih =>
    obtain ⟨k, v⟩ := a
    simp only [cwfFrom, Bool.and_eq_true, decide_eq_true_eq] at h
    by_cases e : k = n
    · simp only [ldel, e, if_true]; exact ih (cwfFrom_weaken h.2 (Nat.le_of_lt h.1.1))
    · simp only [ldel, e, if_false, cwfFrom, Bool.and_eq_true, decide_eq_true_eq]; exact ⟨h.1, ih h.2⟩

theorem cwfFrom_lput {d : α} {lo : Nat} {l : List (Nat × α)} {n : Nat} {x : α} (hx : x ≠ d) (hn : lo < n)
    (h : cwfFrom d (some lo) l = true) : cwfFrom d (some lo) (lput l n x) = true := by
  induction l generalizing lo with
  | nil => simp [lput, cwfFrom, hx, hn]
  | cons a r ih =>
    obtain ⟨k, v⟩ := a
    simp only [cwfFrom, Bool.and_eq_true, decide_eq_true_eq] at h
    by_cases g : n < k
    · simp only [lput, g, if_true, cwfFrom, Bool.and_eq_true, decide_eq_true_eq]
      exact ⟨⟨hn, hx⟩, ⟨⟨by trivial, h.1.2⟩, h.2⟩⟩
    · by_cases e : k = n
      · subst e
        simp only [lput, g, if_false, if_true, cwfFrom, Bool.and_eq_true, decide_eq_true_eq]
        exact ⟨⟨hn, hx⟩, h.2⟩
      · simp only [lput, g, e, if_false, cwfFrom, Bool.and_eq_true, decide_eq_true_eq]
        exact ⟨h.1, ih (by omega) h.2⟩

theorem cwf_ldel {d : α} {l : List (Nat × α)} (n : Nat) (h : cwf d l = true) : cwf d (ldel l n) = true := by
  cases l with
  | nil => rfl
  | cons a r =>
    obtain ⟨k, v⟩ := a
    simp only [cwf, cwfFrom, Bool.and_eq_true] at h
    by_cases e : k = n
    · simp only [cwf, ldel, e, if_true]; exact cwfFrom_none (cwfFrom_ldel n h.2)
    · simp only [cwf, ldel, e, if_false, cwfFrom, Bool.and_eq_true]; exact ⟨h.1, cwfFrom_ldel n h.2⟩

theorem cwf_lput {d : α} {l : List (Nat × α)} {n : Nat} {x : α} (hx : x ≠ d) (h : cwf d l = true) : cwf d (lput l n x) = true := by
  cases l with
  | nil => simp [cwf, lput, cwfFrom, hx]
  | cons a r =>
    obtain ⟨k, v⟩ := a
    simp only [cwf, cwfFrom, Bool.and_eq_true, decide_eq_true_eq] at h
    by_cases g : n < k
    · simp only [cwf, lput, g, if_true, cwfFrom, Bool.and_eq_true, decide_eq_true_eq]
      exact ⟨⟨trivial, hx⟩, ⟨trivial, h.1.2⟩, h.2⟩
    · by_cases e : k = n
      · subst e
        simp only [cwf, lput, g, if_false, if_true, cwfFrom, Bool.and_eq_true, decide_eq_true_eq]
        exact ⟨⟨trivial, hx⟩, h.2⟩
      · simp only [cwf, lput, g, e, if_false, cwfFrom, Bool.and_eq_true, decide_eq_true_eq]
        exact ⟨h.1, cwfFrom_lput hx (by omega) h.2⟩

/-- A write keeps the canonical form. -/
theorem cwf_cset {d : α} {l : List (Nat × α)} (n : Nat) (x : α) (h : cwf d l = true) : cwf d (cset d l n x) = true := by
  unfold cset
  split
  · exact cwf_ldel n h
  · exact cwf_lput ‹_› h

theorem cwfFrom_filter {d : α} {lo : Nat} {l : List (Nat × α)} (p : Nat × α → Bool) (h : cwfFrom d (some lo) l = true) :
    cwfFrom d (some lo) (l.filter p) = true := by
  induction l generalizing lo with
  | nil => rfl
  | cons a r ih =>
    obtain ⟨k, v⟩ := a
    simp only [cwfFrom, Bool.and_eq_true, decide_eq_true_eq] at h
    by_cases e : p (k, v) = true
    · simp only [List.filter_cons_of_pos e, cwfFrom, Bool.and_eq_true, decide_eq_true_eq]; exact ⟨h.1, ih h.2⟩
    · rw [List.filter_cons_of_neg e]; exact ih (cwfFrom_weaken h.2 (Nat.le_of_lt h.1.1))

theorem cwf_filter {d : α} {l : List (Nat × α)} (p : Nat × α → Bool) (h : cwf d l = true) : cwf d (l.filter p) = true := by
  cases l with
  | nil => rfl
  | cons a r =>
    obtain ⟨k, v⟩ := a
    simp only [cwf, cwfFrom, Bool.and_eq_true] at h
    by_cases e : p (k, v) = true
    · simp only [cwf, List.filter_cons_of_pos e, cwfFrom, Bool.and_eq_true]; exact ⟨h.1, cwfFrom_filter p h.2⟩
    · rw [cwf, List.filter_cons_of_neg e]; exact cwfFrom_none (cwfFrom_filter p h.2)
end

end Sys2Proof.Machine
end

