-- ==== Sys2Proof/Laws/State.lean ====
section
/-! SUPPORT. What the updates of the state and of a slot leave unchanged, field by field; reading a core, a
queue or a slot after a write. -/

namespace Sys2Proof.Machine

@[simp] theorem State.setCore_now (s : State) (c : Nat) (k : Core) : (s.setCore c k).now = s.now := rfl
@[simp] theorem State.setCore_phase (s : State) (c : Nat) (k : Core) : (s.setCore c k).phase = s.phase := rfl
@[simp] theorem State.setCore_bootErr (s : State) (c : Nat) (k : Core) : (s.setCore c k).bootErr = s.bootErr := rfl
@[simp] theorem State.setCore_clMask (s : State) (c : Nat) (k : Core) : (s.setCore c k).clMask = s.clMask := rfl
@[simp] theorem State.setCore_worn (s : State) (c : Nat) (k : Core) : (s.setCore c k).worn = s.worn := rfl
@[simp] theorem State.setCore_live (s : State) (c : Nat) (k : Core) : (s.setCore c k).live = s.live := rfl
@[simp] theorem State.setCore_devId (s : State) (c : Nat) (k : Core) : (s.setCore c k).devId = s.devId := rfl
@[simp] theorem State.setCore_cert (s : State) (c : Nat) (k : Core) : (s.setCore c k).cert = s.cert := rfl
@[simp] theorem State.setCore_mreg0 (s : State) (c : Nat) (k : Core) : (s.setCore c k).mreg0 = s.mreg0 := rfl
@[simp] theorem State.setCore_mreg1 (s : State) (c : Nat) (k : Core) : (s.setCore c k).mreg1 = s.mreg1 := rfl
@[simp] theorem State.setCore_leaf (s : State) (c : Nat) (k : Core) : (s.setCore c k).leaf = s.leaf := rfl
@[simp] theorem State.setCore_nonce (s : State) (c : Nat) (k : Core) : (s.setCore c k).nonce = s.nonce := rfl
@[simp] theorem State.setCore_attStatus (s : State) (c : Nat) (k : Core) : (s.setCore c k).attStatus = s.attStatus := rfl
@[simp] theorem State.setCore_attReply (s : State) (c : Nat) (k : Core) : (s.setCore c k).attReply = s.attReply := rfl
@[simp] theorem State.setCore_jtag (s : State) (c : Nat) (k : Core) : (s.setCore c k).jtag = s.jtag := rfl
@[simp] theorem State.setCore_mem (s : State) (c : Nat) (k : Core) : (s.setCore c k).mem = s.mem := rfl
@[simp] theorem State.setCore_hdrs (s : State) (c : Nat) (k : Core) : (s.setCore c k).hdrs = s.hdrs := rfl
@[simp] theorem State.setCore_badMem (s : State) (c : Nat) (k : Core) : (s.setCore c k).badMem = s.badMem := rfl
@[simp] theorem State.setCore_clTlbs (s : State) (c : Nat) (k : Core) : (s.setCore c k).clTlbs = s.clTlbs := rfl
@[simp] theorem State.setCore_shoots (s : State) (c : Nat) (k : Core) : (s.setCore c k).shoots = s.shoots := rfl
@[simp] theorem State.setCore_queues (s : State) (c : Nat) (k : Core) : (s.setCore c k).queues = s.queues := rfl
@[simp] theorem State.setCore_lastQ (s : State) (c : Nat) (k : Core) : (s.setCore c k).lastQ = s.lastQ := rfl
@[simp] theorem State.setCore_grids (s : State) (c : Nat) (k : Core) : (s.setCore c k).grids = s.grids := rfl
@[simp] theorem State.setCore_nextGrid (s : State) (c : Nat) (k : Core) : (s.setCore c k).nextGrid = s.nextGrid := rfl
@[simp] theorem State.setCore_colonies (s : State) (c : Nat) (k : Core) : (s.setCore c k).colonies = s.colonies := rfl
@[simp] theorem State.setCore_updates (s : State) (c : Nat) (k : Core) : (s.setCore c k).updates = s.updates := rfl
@[simp] theorem State.setCore_frozen (s : State) (c : Nat) (k : Core) : (s.setCore c k).frozen = s.frozen := rfl
@[simp] theorem State.setCore_place (s : State) (c : Nat) (k : Core) : (s.setCore c k).place = s.place := rfl
@[simp] theorem State.setCore_thermal (s : State) (c : Nat) (k : Core) : (s.setCore c k).thermal = s.thermal := rfl
@[simp] theorem State.setCore_weights (s : State) (c : Nat) (k : Core) : (s.setCore c k).weights = s.weights := rfl
@[simp] theorem State.setCore_vmin (s : State) (c : Nat) (k : Core) : (s.setCore c k).vmin = s.vmin := rfl
@[simp] theorem State.setCore_handlerEntry (s : State) (c : Nat) (k : Core) : (s.setCore c k).handlerEntry = s.handlerEntry := rfl
@[simp] theorem State.setCore_acc (s : State) (c : Nat) (k : Core) : (s.setCore c k).acc = s.acc := rfl
@[simp] theorem State.setCore_irqs (s : State) (c : Nat) (k : Core) : (s.setCore c k).irqs = s.irqs := rfl
@[simp] theorem State.setCore_dropped (s : State) (c : Nat) (k : Core) : (s.setCore c k).dropped = s.dropped := rfl
@[simp] theorem State.setCore_agenda (s : State) (c : Nat) (k : Core) : (s.setCore c k).agenda = s.agenda := rfl
@[simp] theorem State.setCore_cur (s : State) (c : Nat) (k : Core) : (s.setCore c k).cur = s.cur := rfl
@[simp] theorem State.setCore_ctr (s : State) (c : Nat) (k : Core) : (s.setCore c k).ctr = s.ctr := rfl
@[simp] theorem State.setCore_seq (s : State) (c : Nat) (k : Core) : (s.setCore c k).seq = s.seq := rfl
@[simp] theorem State.setCore_staged (s : State) (c : Nat) (k : Core) : (s.setCore c k).staged = s.staged := rfl
@[simp] theorem State.setCore_keyDigest (s : State) (c : Nat) (k : Core) : (s.setCore c k).keyDigest = s.keyDigest := rfl
@[simp] theorem State.setCore_rollback (s : State) (c : Nat) (k : Core) : (s.setCore c k).rollback = s.rollback := rfl
@[simp] theorem State.setCore_debugFuse (s : State) (c : Nat) (k : Core) : (s.setCore c k).debugFuse = s.debugFuse := rfl
@[simp] theorem State.setCore_staging (s : State) (c : Nat) (k : Core) : (s.setCore c k).staging = s.staging := rfl
@[simp] theorem State.setCore_corrected (s : State) (c : Nat) (k : Core) : (s.setCore c k).corrected = s.corrected := rfl

@[simp] theorem State.setQueue_now (s : State) (q : Nat) (k : Queue) : (s.setQueue q k).now = s.now := rfl
@[simp] theorem State.setQueue_phase (s : State) (q : Nat) (k : Queue) : (s.setQueue q k).phase = s.phase := rfl
@[simp] theorem State.setQueue_bootErr (s : State) (q : Nat) (k : Queue) : (s.setQueue q k).bootErr = s.bootErr := rfl
@[simp] theorem State.setQueue_clMask (s : State) (q : Nat) (k : Queue) : (s.setQueue q k).clMask = s.clMask := rfl
@[simp] theorem State.setQueue_worn (s : State) (q : Nat) (k : Queue) : (s.setQueue q k).worn = s.worn := rfl
@[simp] theorem State.setQueue_live (s : State) (q : Nat) (k : Queue) : (s.setQueue q k).live = s.live := rfl
@[simp] theorem State.setQueue_devId (s : State) (q : Nat) (k : Queue) : (s.setQueue q k).devId = s.devId := rfl
@[simp] theorem State.setQueue_cert (s : State) (q : Nat) (k : Queue) : (s.setQueue q k).cert = s.cert := rfl
@[simp] theorem State.setQueue_mreg0 (s : State) (q : Nat) (k : Queue) : (s.setQueue q k).mreg0 = s.mreg0 := rfl
@[simp] theorem State.setQueue_mreg1 (s : State) (q : Nat) (k : Queue) : (s.setQueue q k).mreg1 = s.mreg1 := rfl
@[simp] theorem State.setQueue_leaf (s : State) (q : Nat) (k : Queue) : (s.setQueue q k).leaf = s.leaf := rfl
@[simp] theorem State.setQueue_nonce (s : State) (q : Nat) (k : Queue) : (s.setQueue q k).nonce = s.nonce := rfl
@[simp] theorem State.setQueue_attStatus (s : State) (q : Nat) (k : Queue) : (s.setQueue q k).attStatus = s.attStatus := rfl
@[simp] theorem State.setQueue_attReply (s : State) (q : Nat) (k : Queue) : (s.setQueue q k).attReply = s.attReply := rfl
@[simp] theorem State.setQueue_jtag (s : State) (q : Nat) (k : Queue) : (s.setQueue q k).jtag = s.jtag := rfl
@[simp] theorem State.setQueue_mem (s : State) (q : Nat) (k : Queue) : (s.setQueue q k).mem = s.mem := rfl
@[simp] theorem State.setQueue_hdrs (s : State) (q : Nat) (k : Queue) : (s.setQueue q k).hdrs = s.hdrs := rfl
@[simp] theorem State.setQueue_badMem (s : State) (q : Nat) (k : Queue) : (s.setQueue q k).badMem = s.badMem := rfl
@[simp] theorem State.setQueue_cores (s : State) (q : Nat) (k : Queue) : (s.setQueue q k).cores = s.cores := rfl
@[simp] theorem State.setQueue_clTlbs (s : State) (q : Nat) (k : Queue) : (s.setQueue q k).clTlbs = s.clTlbs := rfl
@[simp] theorem State.setQueue_shoots (s : State) (q : Nat) (k : Queue) : (s.setQueue q k).shoots = s.shoots := rfl
@[simp] theorem State.setQueue_lastQ (s : State) (q : Nat) (k : Queue) : (s.setQueue q k).lastQ = s.lastQ := rfl
@[simp] theorem State.setQueue_grids (s : State) (q : Nat) (k : Queue) : (s.setQueue q k).grids = s.grids := rfl
@[simp] theorem State.setQueue_nextGrid (s : State) (q : Nat) (k : Queue) : (s.setQueue q k).nextGrid = s.nextGrid := rfl
@[simp] theorem State.setQueue_colonies (s : State) (q : Nat) (k : Queue) : (s.setQueue q k).colonies = s.colonies := rfl
@[simp] theorem State.setQueue_updates (s : State) (q : Nat) (k : Queue) : (s.setQueue q k).updates = s.updates := rfl
@[simp] theorem State.setQueue_frozen (s : State) (q : Nat) (k : Queue) : (s.setQueue q k).frozen = s.frozen := rfl
@[simp] theorem State.setQueue_place (s : State) (q : Nat) (k : Queue) : (s.setQueue q k).place = s.place := rfl
@[simp] theorem State.setQueue_thermal (s : State) (q : Nat) (k : Queue) : (s.setQueue q k).thermal = s.thermal := rfl
@[simp] theorem State.setQueue_weights (s : State) (q : Nat) (k : Queue) : (s.setQueue q k).weights = s.weights := rfl
@[simp] theorem State.setQueue_vmin (s : State) (q : Nat) (k : Queue) : (s.setQueue q k).vmin = s.vmin := rfl
@[simp] theorem State.setQueue_handlerEntry (s : State) (q : Nat) (k : Queue) : (s.setQueue q k).handlerEntry = s.handlerEntry := rfl
@[simp] theorem State.setQueue_acc (s : State) (q : Nat) (k : Queue) : (s.setQueue q k).acc = s.acc := rfl
@[simp] theorem State.setQueue_irqs (s : State) (q : Nat) (k : Queue) : (s.setQueue q k).irqs = s.irqs := rfl
@[simp] theorem State.setQueue_dropped (s : State) (q : Nat) (k : Queue) : (s.setQueue q k).dropped = s.dropped := rfl
@[simp] theorem State.setQueue_agenda (s : State) (q : Nat) (k : Queue) : (s.setQueue q k).agenda = s.agenda := rfl
@[simp] theorem State.setQueue_cur (s : State) (q : Nat) (k : Queue) : (s.setQueue q k).cur = s.cur := rfl
@[simp] theorem State.setQueue_ctr (s : State) (q : Nat) (k : Queue) : (s.setQueue q k).ctr = s.ctr := rfl
@[simp] theorem State.setQueue_seq (s : State) (q : Nat) (k : Queue) : (s.setQueue q k).seq = s.seq := rfl
@[simp] theorem State.setQueue_staged (s : State) (q : Nat) (k : Queue) : (s.setQueue q k).staged = s.staged := rfl
@[simp] theorem State.setQueue_keyDigest (s : State) (q : Nat) (k : Queue) : (s.setQueue q k).keyDigest = s.keyDigest := rfl
@[simp] theorem State.setQueue_rollback (s : State) (q : Nat) (k : Queue) : (s.setQueue q k).rollback = s.rollback := rfl
@[simp] theorem State.setQueue_debugFuse (s : State) (q : Nat) (k : Queue) : (s.setQueue q k).debugFuse = s.debugFuse := rfl
@[simp] theorem State.setQueue_staging (s : State) (q : Nat) (k : Queue) : (s.setQueue q k).staging = s.staging := rfl
@[simp] theorem State.setQueue_corrected (s : State) (q : Nat) (k : Queue) : (s.setQueue q k).corrected = s.corrected := rfl

@[simp] theorem State.setSlot_now (s : State) (c n : Nat) (x : Slot) : (s.setSlot c n x).now = s.now := rfl
@[simp] theorem State.setSlot_phase (s : State) (c n : Nat) (x : Slot) : (s.setSlot c n x).phase = s.phase := rfl
@[simp] theorem State.setSlot_bootErr (s : State) (c n : Nat) (x : Slot) : (s.setSlot c n x).bootErr = s.bootErr := rfl
@[simp] theorem State.setSlot_clMask (s : State) (c n : Nat) (x : Slot) : (s.setSlot c n x).clMask = s.clMask := rfl
@[simp] theorem State.setSlot_worn (s : State) (c n : Nat) (x : Slot) : (s.setSlot c n x).worn = s.worn := rfl
@[simp] theorem State.setSlot_live (s : State) (c n : Nat) (x : Slot) : (s.setSlot c n x).live = s.live := rfl
@[simp] theorem State.setSlot_devId (s : State) (c n : Nat) (x : Slot) : (s.setSlot c n x).devId = s.devId := rfl
@[simp] theorem State.setSlot_cert (s : State) (c n : Nat) (x : Slot) : (s.setSlot c n x).cert = s.cert := rfl
@[simp] theorem State.setSlot_mreg0 (s : State) (c n : Nat) (x : Slot) : (s.setSlot c n x).mreg0 = s.mreg0 := rfl
@[simp] theorem State.setSlot_mreg1 (s : State) (c n : Nat) (x : Slot) : (s.setSlot c n x).mreg1 = s.mreg1 := rfl
@[simp] theorem State.setSlot_leaf (s : State) (c n : Nat) (x : Slot) : (s.setSlot c n x).leaf = s.leaf := rfl
@[simp] theorem State.setSlot_nonce (s : State) (c n : Nat) (x : Slot) : (s.setSlot c n x).nonce = s.nonce := rfl
@[simp] theorem State.setSlot_attStatus (s : State) (c n : Nat) (x : Slot) : (s.setSlot c n x).attStatus = s.attStatus := rfl
@[simp] theorem State.setSlot_attReply (s : State) (c n : Nat) (x : Slot) : (s.setSlot c n x).attReply = s.attReply := rfl
@[simp] theorem State.setSlot_jtag (s : State) (c n : Nat) (x : Slot) : (s.setSlot c n x).jtag = s.jtag := rfl
@[simp] theorem State.setSlot_mem (s : State) (c n : Nat) (x : Slot) : (s.setSlot c n x).mem = s.mem := rfl
@[simp] theorem State.setSlot_hdrs (s : State) (c n : Nat) (x : Slot) : (s.setSlot c n x).hdrs = s.hdrs := rfl
@[simp] theorem State.setSlot_badMem (s : State) (c n : Nat) (x : Slot) : (s.setSlot c n x).badMem = s.badMem := rfl
@[simp] theorem State.setSlot_clTlbs (s : State) (c n : Nat) (x : Slot) : (s.setSlot c n x).clTlbs = s.clTlbs := rfl
@[simp] theorem State.setSlot_shoots (s : State) (c n : Nat) (x : Slot) : (s.setSlot c n x).shoots = s.shoots := rfl
@[simp] theorem State.setSlot_queues (s : State) (c n : Nat) (x : Slot) : (s.setSlot c n x).queues = s.queues := rfl
@[simp] theorem State.setSlot_lastQ (s : State) (c n : Nat) (x : Slot) : (s.setSlot c n x).lastQ = s.lastQ := rfl
@[simp] theorem State.setSlot_grids (s : State) (c n : Nat) (x : Slot) : (s.setSlot c n x).grids = s.grids := rfl
@[simp] theorem State.setSlot_nextGrid (s : State) (c n : Nat) (x : Slot) : (s.setSlot c n x).nextGrid = s.nextGrid := rfl
@[simp] theorem State.setSlot_colonies (s : State) (c n : Nat) (x : Slot) : (s.setSlot c n x).colonies = s.colonies := rfl
@[simp] theorem State.setSlot_updates (s : State) (c n : Nat) (x : Slot) : (s.setSlot c n x).updates = s.updates := rfl
@[simp] theorem State.setSlot_frozen (s : State) (c n : Nat) (x : Slot) : (s.setSlot c n x).frozen = s.frozen := rfl
@[simp] theorem State.setSlot_place (s : State) (c n : Nat) (x : Slot) : (s.setSlot c n x).place = s.place := rfl
@[simp] theorem State.setSlot_thermal (s : State) (c n : Nat) (x : Slot) : (s.setSlot c n x).thermal = s.thermal := rfl
@[simp] theorem State.setSlot_weights (s : State) (c n : Nat) (x : Slot) : (s.setSlot c n x).weights = s.weights := rfl
@[simp] theorem State.setSlot_vmin (s : State) (c n : Nat) (x : Slot) : (s.setSlot c n x).vmin = s.vmin := rfl
@[simp] theorem State.setSlot_handlerEntry (s : State) (c n : Nat) (x : Slot) : (s.setSlot c n x).handlerEntry = s.handlerEntry := rfl
@[simp] theorem State.setSlot_acc (s : State) (c n : Nat) (x : Slot) : (s.setSlot c n x).acc = s.acc := rfl
@[simp] theorem State.setSlot_irqs (s : State) (c n : Nat) (x : Slot) : (s.setSlot c n x).irqs = s.irqs := rfl
@[simp] theorem State.setSlot_dropped (s : State) (c n : Nat) (x : Slot) : (s.setSlot c n x).dropped = s.dropped := rfl
@[simp] theorem State.setSlot_agenda (s : State) (c n : Nat) (x : Slot) : (s.setSlot c n x).agenda = s.agenda := rfl
@[simp] theorem State.setSlot_cur (s : State) (c n : Nat) (x : Slot) : (s.setSlot c n x).cur = s.cur := rfl
@[simp] theorem State.setSlot_ctr (s : State) (c n : Nat) (x : Slot) : (s.setSlot c n x).ctr = s.ctr := rfl
@[simp] theorem State.setSlot_seq (s : State) (c n : Nat) (x : Slot) : (s.setSlot c n x).seq = s.seq := rfl
@[simp] theorem State.setSlot_staged (s : State) (c n : Nat) (x : Slot) : (s.setSlot c n x).staged = s.staged := rfl
@[simp] theorem State.setSlot_keyDigest (s : State) (c n : Nat) (x : Slot) : (s.setSlot c n x).keyDigest = s.keyDigest := rfl
@[simp] theorem State.setSlot_rollback (s : State) (c n : Nat) (x : Slot) : (s.setSlot c n x).rollback = s.rollback := rfl
@[simp] theorem State.setSlot_debugFuse (s : State) (c n : Nat) (x : Slot) : (s.setSlot c n x).debugFuse = s.debugFuse := rfl
@[simp] theorem State.setSlot_staging (s : State) (c n : Nat) (x : Slot) : (s.setSlot c n x).staging = s.staging := rfl
@[simp] theorem State.setSlot_corrected (s : State) (c n : Nat) (x : Slot) : (s.setSlot c n x).corrected = s.corrected := rfl

@[simp] theorem State.onCore_now (s : State) (c : Nat) (f : Core → Core) : (s.onCore c f).now = s.now := rfl
@[simp] theorem State.onCore_phase (s : State) (c : Nat) (f : Core → Core) : (s.onCore c f).phase = s.phase := rfl
@[simp] theorem State.onCore_bootErr (s : State) (c : Nat) (f : Core → Core) : (s.onCore c f).bootErr = s.bootErr := rfl
@[simp] theorem State.onCore_clMask (s : State) (c : Nat) (f : Core → Core) : (s.onCore c f).clMask = s.clMask := rfl
@[simp] theorem State.onCore_worn (s : State) (c : Nat) (f : Core → Core) : (s.onCore c f).worn = s.worn := rfl
@[simp] theorem State.onCore_live (s : State) (c : Nat) (f : Core → Core) : (s.onCore c f).live = s.live := rfl
@[simp] theorem State.onCore_devId (s : State) (c : Nat) (f : Core → Core) : (s.onCore c f).devId = s.devId := rfl
@[simp] theorem State.onCore_cert (s : State) (c : Nat) (f : Core → Core) : (s.onCore c f).cert = s.cert := rfl
@[simp] theorem State.onCore_mreg0 (s : State) (c : Nat) (f : Core → Core) : (s.onCore c f).mreg0 = s.mreg0 := rfl
@[simp] theorem State.onCore_mreg1 (s : State) (c : Nat) (f : Core → Core) : (s.onCore c f).mreg1 = s.mreg1 := rfl
@[simp] theorem State.onCore_leaf (s : State) (c : Nat) (f : Core → Core) : (s.onCore c f).leaf = s.leaf := rfl
@[simp] theorem State.onCore_nonce (s : State) (c : Nat) (f : Core → Core) : (s.onCore c f).nonce = s.nonce := rfl
@[simp] theorem State.onCore_attStatus (s : State) (c : Nat) (f : Core → Core) : (s.onCore c f).attStatus = s.attStatus := rfl
@[simp] theorem State.onCore_attReply (s : State) (c : Nat) (f : Core → Core) : (s.onCore c f).attReply = s.attReply := rfl
@[simp] theorem State.onCore_jtag (s : State) (c : Nat) (f : Core → Core) : (s.onCore c f).jtag = s.jtag := rfl
@[simp] theorem State.onCore_mem (s : State) (c : Nat) (f : Core → Core) : (s.onCore c f).mem = s.mem := rfl
@[simp] theorem State.onCore_hdrs (s : State) (c : Nat) (f : Core → Core) : (s.onCore c f).hdrs = s.hdrs := rfl
@[simp] theorem State.onCore_badMem (s : State) (c : Nat) (f : Core → Core) : (s.onCore c f).badMem = s.badMem := rfl
@[simp] theorem State.onCore_clTlbs (s : State) (c : Nat) (f : Core → Core) : (s.onCore c f).clTlbs = s.clTlbs := rfl
@[simp] theorem State.onCore_shoots (s : State) (c : Nat) (f : Core → Core) : (s.onCore c f).shoots = s.shoots := rfl
@[simp] theorem State.onCore_queues (s : State) (c : Nat) (f : Core → Core) : (s.onCore c f).queues = s.queues := rfl
@[simp] theorem State.onCore_lastQ (s : State) (c : Nat) (f : Core → Core) : (s.onCore c f).lastQ = s.lastQ := rfl
@[simp] theorem State.onCore_grids (s : State) (c : Nat) (f : Core → Core) : (s.onCore c f).grids = s.grids := rfl
@[simp] theorem State.onCore_nextGrid (s : State) (c : Nat) (f : Core → Core) : (s.onCore c f).nextGrid = s.nextGrid := rfl
@[simp] theorem State.onCore_colonies (s : State) (c : Nat) (f : Core → Core) : (s.onCore c f).colonies = s.colonies := rfl
@[simp] theorem State.onCore_updates (s : State) (c : Nat) (f : Core → Core) : (s.onCore c f).updates = s.updates := rfl
@[simp] theorem State.onCore_frozen (s : State) (c : Nat) (f : Core → Core) : (s.onCore c f).frozen = s.frozen := rfl
@[simp] theorem State.onCore_place (s : State) (c : Nat) (f : Core → Core) : (s.onCore c f).place = s.place := rfl
@[simp] theorem State.onCore_thermal (s : State) (c : Nat) (f : Core → Core) : (s.onCore c f).thermal = s.thermal := rfl
@[simp] theorem State.onCore_weights (s : State) (c : Nat) (f : Core → Core) : (s.onCore c f).weights = s.weights := rfl
@[simp] theorem State.onCore_vmin (s : State) (c : Nat) (f : Core → Core) : (s.onCore c f).vmin = s.vmin := rfl
@[simp] theorem State.onCore_handlerEntry (s : State) (c : Nat) (f : Core → Core) : (s.onCore c f).handlerEntry = s.handlerEntry := rfl
@[simp] theorem State.onCore_acc (s : State) (c : Nat) (f : Core → Core) : (s.onCore c f).acc = s.acc := rfl
@[simp] theorem State.onCore_irqs (s : State) (c : Nat) (f : Core → Core) : (s.onCore c f).irqs = s.irqs := rfl
@[simp] theorem State.onCore_dropped (s : State) (c : Nat) (f : Core → Core) : (s.onCore c f).dropped = s.dropped := rfl
@[simp] theorem State.onCore_agenda (s : State) (c : Nat) (f : Core → Core) : (s.onCore c f).agenda = s.agenda := rfl
@[simp] theorem State.onCore_cur (s : State) (c : Nat) (f : Core → Core) : (s.onCore c f).cur = s.cur := rfl
@[simp] theorem State.onCore_ctr (s : State) (c : Nat) (f : Core → Core) : (s.onCore c f).ctr = s.ctr := rfl
@[simp] theorem State.onCore_seq (s : State) (c : Nat) (f : Core → Core) : (s.onCore c f).seq = s.seq := rfl
@[simp] theorem State.onCore_staged (s : State) (c : Nat) (f : Core → Core) : (s.onCore c f).staged = s.staged := rfl
@[simp] theorem State.onCore_keyDigest (s : State) (c : Nat) (f : Core → Core) : (s.onCore c f).keyDigest = s.keyDigest := rfl
@[simp] theorem State.onCore_rollback (s : State) (c : Nat) (f : Core → Core) : (s.onCore c f).rollback = s.rollback := rfl
@[simp] theorem State.onCore_debugFuse (s : State) (c : Nat) (f : Core → Core) : (s.onCore c f).debugFuse = s.debugFuse := rfl
@[simp] theorem State.onCore_staging (s : State) (c : Nat) (f : Core → Core) : (s.onCore c f).staging = s.staging := rfl
@[simp] theorem State.onCore_corrected (s : State) (c : Nat) (f : Core → Core) : (s.onCore c f).corrected = s.corrected := rfl

@[simp] theorem State.onQueue_now (s : State) (q : Nat) (f : Queue → Queue) : (s.onQueue q f).now = s.now := rfl
@[simp] theorem State.onQueue_phase (s : State) (q : Nat) (f : Queue → Queue) : (s.onQueue q f).phase = s.phase := rfl
@[simp] theorem State.onQueue_bootErr (s : State) (q : Nat) (f : Queue → Queue) : (s.onQueue q f).bootErr = s.bootErr := rfl
@[simp] theorem State.onQueue_clMask (s : State) (q : Nat) (f : Queue → Queue) : (s.onQueue q f).clMask = s.clMask := rfl
@[simp] theorem State.onQueue_worn (s : State) (q : Nat) (f : Queue → Queue) : (s.onQueue q f).worn = s.worn := rfl
@[simp] theorem State.onQueue_live (s : State) (q : Nat) (f : Queue → Queue) : (s.onQueue q f).live = s.live := rfl
@[simp] theorem State.onQueue_devId (s : State) (q : Nat) (f : Queue → Queue) : (s.onQueue q f).devId = s.devId := rfl
@[simp] theorem State.onQueue_cert (s : State) (q : Nat) (f : Queue → Queue) : (s.onQueue q f).cert = s.cert := rfl
@[simp] theorem State.onQueue_mreg0 (s : State) (q : Nat) (f : Queue → Queue) : (s.onQueue q f).mreg0 = s.mreg0 := rfl
@[simp] theorem State.onQueue_mreg1 (s : State) (q : Nat) (f : Queue → Queue) : (s.onQueue q f).mreg1 = s.mreg1 := rfl
@[simp] theorem State.onQueue_leaf (s : State) (q : Nat) (f : Queue → Queue) : (s.onQueue q f).leaf = s.leaf := rfl
@[simp] theorem State.onQueue_nonce (s : State) (q : Nat) (f : Queue → Queue) : (s.onQueue q f).nonce = s.nonce := rfl
@[simp] theorem State.onQueue_attStatus (s : State) (q : Nat) (f : Queue → Queue) : (s.onQueue q f).attStatus = s.attStatus := rfl
@[simp] theorem State.onQueue_attReply (s : State) (q : Nat) (f : Queue → Queue) : (s.onQueue q f).attReply = s.attReply := rfl
@[simp] theorem State.onQueue_jtag (s : State) (q : Nat) (f : Queue → Queue) : (s.onQueue q f).jtag = s.jtag := rfl
@[simp] theorem State.onQueue_mem (s : State) (q : Nat) (f : Queue → Queue) : (s.onQueue q f).mem = s.mem := rfl
@[simp] theorem State.onQueue_hdrs (s : State) (q : Nat) (f : Queue → Queue) : (s.onQueue q f).hdrs = s.hdrs := rfl
@[simp] theorem State.onQueue_badMem (s : State) (q : Nat) (f : Queue → Queue) : (s.onQueue q f).badMem = s.badMem := rfl
@[simp] theorem State.onQueue_cores (s : State) (q : Nat) (f : Queue → Queue) : (s.onQueue q f).cores = s.cores := rfl
@[simp] theorem State.onQueue_clTlbs (s : State) (q : Nat) (f : Queue → Queue) : (s.onQueue q f).clTlbs = s.clTlbs := rfl
@[simp] theorem State.onQueue_shoots (s : State) (q : Nat) (f : Queue → Queue) : (s.onQueue q f).shoots = s.shoots := rfl
@[simp] theorem State.onQueue_lastQ (s : State) (q : Nat) (f : Queue → Queue) : (s.onQueue q f).lastQ = s.lastQ := rfl
@[simp] theorem State.onQueue_grids (s : State) (q : Nat) (f : Queue → Queue) : (s.onQueue q f).grids = s.grids := rfl
@[simp] theorem State.onQueue_nextGrid (s : State) (q : Nat) (f : Queue → Queue) : (s.onQueue q f).nextGrid = s.nextGrid := rfl
@[simp] theorem State.onQueue_colonies (s : State) (q : Nat) (f : Queue → Queue) : (s.onQueue q f).colonies = s.colonies := rfl
@[simp] theorem State.onQueue_updates (s : State) (q : Nat) (f : Queue → Queue) : (s.onQueue q f).updates = s.updates := rfl
@[simp] theorem State.onQueue_frozen (s : State) (q : Nat) (f : Queue → Queue) : (s.onQueue q f).frozen = s.frozen := rfl
@[simp] theorem State.onQueue_place (s : State) (q : Nat) (f : Queue → Queue) : (s.onQueue q f).place = s.place := rfl
@[simp] theorem State.onQueue_thermal (s : State) (q : Nat) (f : Queue → Queue) : (s.onQueue q f).thermal = s.thermal := rfl
@[simp] theorem State.onQueue_weights (s : State) (q : Nat) (f : Queue → Queue) : (s.onQueue q f).weights = s.weights := rfl
@[simp] theorem State.onQueue_vmin (s : State) (q : Nat) (f : Queue → Queue) : (s.onQueue q f).vmin = s.vmin := rfl
@[simp] theorem State.onQueue_handlerEntry (s : State) (q : Nat) (f : Queue → Queue) : (s.onQueue q f).handlerEntry = s.handlerEntry := rfl
@[simp] theorem State.onQueue_acc (s : State) (q : Nat) (f : Queue → Queue) : (s.onQueue q f).acc = s.acc := rfl
@[simp] theorem State.onQueue_irqs (s : State) (q : Nat) (f : Queue → Queue) : (s.onQueue q f).irqs = s.irqs := rfl
@[simp] theorem State.onQueue_dropped (s : State) (q : Nat) (f : Queue → Queue) : (s.onQueue q f).dropped = s.dropped := rfl
@[simp] theorem State.onQueue_agenda (s : State) (q : Nat) (f : Queue → Queue) : (s.onQueue q f).agenda = s.agenda := rfl
@[simp] theorem State.onQueue_cur (s : State) (q : Nat) (f : Queue → Queue) : (s.onQueue q f).cur = s.cur := rfl
@[simp] theorem State.onQueue_ctr (s : State) (q : Nat) (f : Queue → Queue) : (s.onQueue q f).ctr = s.ctr := rfl
@[simp] theorem State.onQueue_seq (s : State) (q : Nat) (f : Queue → Queue) : (s.onQueue q f).seq = s.seq := rfl
@[simp] theorem State.onQueue_staged (s : State) (q : Nat) (f : Queue → Queue) : (s.onQueue q f).staged = s.staged := rfl
@[simp] theorem State.onQueue_keyDigest (s : State) (q : Nat) (f : Queue → Queue) : (s.onQueue q f).keyDigest = s.keyDigest := rfl
@[simp] theorem State.onQueue_rollback (s : State) (q : Nat) (f : Queue → Queue) : (s.onQueue q f).rollback = s.rollback := rfl
@[simp] theorem State.onQueue_debugFuse (s : State) (q : Nat) (f : Queue → Queue) : (s.onQueue q f).debugFuse = s.debugFuse := rfl
@[simp] theorem State.onQueue_staging (s : State) (q : Nat) (f : Queue → Queue) : (s.onQueue q f).staging = s.staging := rfl
@[simp] theorem State.onQueue_corrected (s : State) (q : Nat) (f : Queue → Queue) : (s.onQueue q f).corrected = s.corrected := rfl

@[simp] theorem State.onGrid_now (s : State) (g : Nat) (f : Grid → Grid) : (s.onGrid g f).now = s.now := rfl
@[simp] theorem State.onGrid_phase (s : State) (g : Nat) (f : Grid → Grid) : (s.onGrid g f).phase = s.phase := rfl
@[simp] theorem State.onGrid_bootErr (s : State) (g : Nat) (f : Grid → Grid) : (s.onGrid g f).bootErr = s.bootErr := rfl
@[simp] theorem State.onGrid_clMask (s : State) (g : Nat) (f : Grid → Grid) : (s.onGrid g f).clMask = s.clMask := rfl
@[simp] theorem State.onGrid_worn (s : State) (g : Nat) (f : Grid → Grid) : (s.onGrid g f).worn = s.worn := rfl
@[simp] theorem State.onGrid_live (s : State) (g : Nat) (f : Grid → Grid) : (s.onGrid g f).live = s.live := rfl
@[simp] theorem State.onGrid_devId (s : State) (g : Nat) (f : Grid → Grid) : (s.onGrid g f).devId = s.devId := rfl
@[simp] theorem State.onGrid_cert (s : State) (g : Nat) (f : Grid → Grid) : (s.onGrid g f).cert = s.cert := rfl
@[simp] theorem State.onGrid_mreg0 (s : State) (g : Nat) (f : Grid → Grid) : (s.onGrid g f).mreg0 = s.mreg0 := rfl
@[simp] theorem State.onGrid_mreg1 (s : State) (g : Nat) (f : Grid → Grid) : (s.onGrid g f).mreg1 = s.mreg1 := rfl
@[simp] theorem State.onGrid_leaf (s : State) (g : Nat) (f : Grid → Grid) : (s.onGrid g f).leaf = s.leaf := rfl
@[simp] theorem State.onGrid_nonce (s : State) (g : Nat) (f : Grid → Grid) : (s.onGrid g f).nonce = s.nonce := rfl
@[simp] theorem State.onGrid_attStatus (s : State) (g : Nat) (f : Grid → Grid) : (s.onGrid g f).attStatus = s.attStatus := rfl
@[simp] theorem State.onGrid_attReply (s : State) (g : Nat) (f : Grid → Grid) : (s.onGrid g f).attReply = s.attReply := rfl
@[simp] theorem State.onGrid_jtag (s : State) (g : Nat) (f : Grid → Grid) : (s.onGrid g f).jtag = s.jtag := rfl
@[simp] theorem State.onGrid_mem (s : State) (g : Nat) (f : Grid → Grid) : (s.onGrid g f).mem = s.mem := rfl
@[simp] theorem State.onGrid_hdrs (s : State) (g : Nat) (f : Grid → Grid) : (s.onGrid g f).hdrs = s.hdrs := rfl
@[simp] theorem State.onGrid_badMem (s : State) (g : Nat) (f : Grid → Grid) : (s.onGrid g f).badMem = s.badMem := rfl
@[simp] theorem State.onGrid_cores (s : State) (g : Nat) (f : Grid → Grid) : (s.onGrid g f).cores = s.cores := rfl
@[simp] theorem State.onGrid_clTlbs (s : State) (g : Nat) (f : Grid → Grid) : (s.onGrid g f).clTlbs = s.clTlbs := rfl
@[simp] theorem State.onGrid_shoots (s : State) (g : Nat) (f : Grid → Grid) : (s.onGrid g f).shoots = s.shoots := rfl
@[simp] theorem State.onGrid_queues (s : State) (g : Nat) (f : Grid → Grid) : (s.onGrid g f).queues = s.queues := rfl
@[simp] theorem State.onGrid_lastQ (s : State) (g : Nat) (f : Grid → Grid) : (s.onGrid g f).lastQ = s.lastQ := rfl
@[simp] theorem State.onGrid_nextGrid (s : State) (g : Nat) (f : Grid → Grid) : (s.onGrid g f).nextGrid = s.nextGrid := rfl
@[simp] theorem State.onGrid_colonies (s : State) (g : Nat) (f : Grid → Grid) : (s.onGrid g f).colonies = s.colonies := rfl
@[simp] theorem State.onGrid_updates (s : State) (g : Nat) (f : Grid → Grid) : (s.onGrid g f).updates = s.updates := rfl
@[simp] theorem State.onGrid_frozen (s : State) (g : Nat) (f : Grid → Grid) : (s.onGrid g f).frozen = s.frozen := rfl
@[simp] theorem State.onGrid_place (s : State) (g : Nat) (f : Grid → Grid) : (s.onGrid g f).place = s.place := rfl
@[simp] theorem State.onGrid_thermal (s : State) (g : Nat) (f : Grid → Grid) : (s.onGrid g f).thermal = s.thermal := rfl
@[simp] theorem State.onGrid_weights (s : State) (g : Nat) (f : Grid → Grid) : (s.onGrid g f).weights = s.weights := rfl
@[simp] theorem State.onGrid_vmin (s : State) (g : Nat) (f : Grid → Grid) : (s.onGrid g f).vmin = s.vmin := rfl
@[simp] theorem State.onGrid_handlerEntry (s : State) (g : Nat) (f : Grid → Grid) : (s.onGrid g f).handlerEntry = s.handlerEntry := rfl
@[simp] theorem State.onGrid_acc (s : State) (g : Nat) (f : Grid → Grid) : (s.onGrid g f).acc = s.acc := rfl
@[simp] theorem State.onGrid_irqs (s : State) (g : Nat) (f : Grid → Grid) : (s.onGrid g f).irqs = s.irqs := rfl
@[simp] theorem State.onGrid_dropped (s : State) (g : Nat) (f : Grid → Grid) : (s.onGrid g f).dropped = s.dropped := rfl
@[simp] theorem State.onGrid_agenda (s : State) (g : Nat) (f : Grid → Grid) : (s.onGrid g f).agenda = s.agenda := rfl
@[simp] theorem State.onGrid_cur (s : State) (g : Nat) (f : Grid → Grid) : (s.onGrid g f).cur = s.cur := rfl
@[simp] theorem State.onGrid_ctr (s : State) (g : Nat) (f : Grid → Grid) : (s.onGrid g f).ctr = s.ctr := rfl
@[simp] theorem State.onGrid_seq (s : State) (g : Nat) (f : Grid → Grid) : (s.onGrid g f).seq = s.seq := rfl
@[simp] theorem State.onGrid_staged (s : State) (g : Nat) (f : Grid → Grid) : (s.onGrid g f).staged = s.staged := rfl
@[simp] theorem State.onGrid_keyDigest (s : State) (g : Nat) (f : Grid → Grid) : (s.onGrid g f).keyDigest = s.keyDigest := rfl
@[simp] theorem State.onGrid_rollback (s : State) (g : Nat) (f : Grid → Grid) : (s.onGrid g f).rollback = s.rollback := rfl
@[simp] theorem State.onGrid_debugFuse (s : State) (g : Nat) (f : Grid → Grid) : (s.onGrid g f).debugFuse = s.debugFuse := rfl
@[simp] theorem State.onGrid_staging (s : State) (g : Nat) (f : Grid → Grid) : (s.onGrid g f).staging = s.staging := rfl
@[simp] theorem State.onGrid_corrected (s : State) (g : Nat) (f : Grid → Grid) : (s.onGrid g f).corrected = s.corrected := rfl

@[simp] theorem State.onColony_now (s : State) (g k : Nat) (f : Colony → Colony) : (s.onColony g k f).now = s.now := rfl
@[simp] theorem State.onColony_phase (s : State) (g k : Nat) (f : Colony → Colony) : (s.onColony g k f).phase = s.phase := rfl
@[simp] theorem State.onColony_bootErr (s : State) (g k : Nat) (f : Colony → Colony) : (s.onColony g k f).bootErr = s.bootErr := rfl
@[simp] theorem State.onColony_clMask (s : State) (g k : Nat) (f : Colony → Colony) : (s.onColony g k f).clMask = s.clMask := rfl
@[simp] theorem State.onColony_worn (s : State) (g k : Nat) (f : Colony → Colony) : (s.onColony g k f).worn = s.worn := rfl
@[simp] theorem State.onColony_live (s : State) (g k : Nat) (f : Colony → Colony) : (s.onColony g k f).live = s.live := rfl
@[simp] theorem State.onColony_devId (s : State) (g k : Nat) (f : Colony → Colony) : (s.onColony g k f).devId = s.devId := rfl
@[simp] theorem State.onColony_cert (s : State) (g k : Nat) (f : Colony → Colony) : (s.onColony g k f).cert = s.cert := rfl
@[simp] theorem State.onColony_mreg0 (s : State) (g k : Nat) (f : Colony → Colony) : (s.onColony g k f).mreg0 = s.mreg0 := rfl
@[simp] theorem State.onColony_mreg1 (s : State) (g k : Nat) (f : Colony → Colony) : (s.onColony g k f).mreg1 = s.mreg1 := rfl
@[simp] theorem State.onColony_leaf (s : State) (g k : Nat) (f : Colony → Colony) : (s.onColony g k f).leaf = s.leaf := rfl
@[simp] theorem State.onColony_nonce (s : State) (g k : Nat) (f : Colony → Colony) : (s.onColony g k f).nonce = s.nonce := rfl
@[simp] theorem State.onColony_attStatus (s : State) (g k : Nat) (f : Colony → Colony) : (s.onColony g k f).attStatus = s.attStatus := rfl
@[simp] theorem State.onColony_attReply (s : State) (g k : Nat) (f : Colony → Colony) : (s.onColony g k f).attReply = s.attReply := rfl
@[simp] theorem State.onColony_jtag (s : State) (g k : Nat) (f : Colony → Colony) : (s.onColony g k f).jtag = s.jtag := rfl
@[simp] theorem State.onColony_mem (s : State) (g k : Nat) (f : Colony → Colony) : (s.onColony g k f).mem = s.mem := rfl
@[simp] theorem State.onColony_hdrs (s : State) (g k : Nat) (f : Colony → Colony) : (s.onColony g k f).hdrs = s.hdrs := rfl
@[simp] theorem State.onColony_badMem (s : State) (g k : Nat) (f : Colony → Colony) : (s.onColony g k f).badMem = s.badMem := rfl
@[simp] theorem State.onColony_cores (s : State) (g k : Nat) (f : Colony → Colony) : (s.onColony g k f).cores = s.cores := rfl
@[simp] theorem State.onColony_clTlbs (s : State) (g k : Nat) (f : Colony → Colony) : (s.onColony g k f).clTlbs = s.clTlbs := rfl
@[simp] theorem State.onColony_shoots (s : State) (g k : Nat) (f : Colony → Colony) : (s.onColony g k f).shoots = s.shoots := rfl
@[simp] theorem State.onColony_queues (s : State) (g k : Nat) (f : Colony → Colony) : (s.onColony g k f).queues = s.queues := rfl
@[simp] theorem State.onColony_lastQ (s : State) (g k : Nat) (f : Colony → Colony) : (s.onColony g k f).lastQ = s.lastQ := rfl
@[simp] theorem State.onColony_grids (s : State) (g k : Nat) (f : Colony → Colony) : (s.onColony g k f).grids = s.grids := rfl
@[simp] theorem State.onColony_nextGrid (s : State) (g k : Nat) (f : Colony → Colony) : (s.onColony g k f).nextGrid = s.nextGrid := rfl
@[simp] theorem State.onColony_updates (s : State) (g k : Nat) (f : Colony → Colony) : (s.onColony g k f).updates = s.updates := rfl
@[simp] theorem State.onColony_frozen (s : State) (g k : Nat) (f : Colony → Colony) : (s.onColony g k f).frozen = s.frozen := rfl
@[simp] theorem State.onColony_place (s : State) (g k : Nat) (f : Colony → Colony) : (s.onColony g k f).place = s.place := rfl
@[simp] theorem State.onColony_thermal (s : State) (g k : Nat) (f : Colony → Colony) : (s.onColony g k f).thermal = s.thermal := rfl
@[simp] theorem State.onColony_weights (s : State) (g k : Nat) (f : Colony → Colony) : (s.onColony g k f).weights = s.weights := rfl
@[simp] theorem State.onColony_vmin (s : State) (g k : Nat) (f : Colony → Colony) : (s.onColony g k f).vmin = s.vmin := rfl
@[simp] theorem State.onColony_handlerEntry (s : State) (g k : Nat) (f : Colony → Colony) : (s.onColony g k f).handlerEntry = s.handlerEntry := rfl
@[simp] theorem State.onColony_acc (s : State) (g k : Nat) (f : Colony → Colony) : (s.onColony g k f).acc = s.acc := rfl
@[simp] theorem State.onColony_irqs (s : State) (g k : Nat) (f : Colony → Colony) : (s.onColony g k f).irqs = s.irqs := rfl
@[simp] theorem State.onColony_dropped (s : State) (g k : Nat) (f : Colony → Colony) : (s.onColony g k f).dropped = s.dropped := rfl
@[simp] theorem State.onColony_agenda (s : State) (g k : Nat) (f : Colony → Colony) : (s.onColony g k f).agenda = s.agenda := rfl
@[simp] theorem State.onColony_cur (s : State) (g k : Nat) (f : Colony → Colony) : (s.onColony g k f).cur = s.cur := rfl
@[simp] theorem State.onColony_ctr (s : State) (g k : Nat) (f : Colony → Colony) : (s.onColony g k f).ctr = s.ctr := rfl
@[simp] theorem State.onColony_seq (s : State) (g k : Nat) (f : Colony → Colony) : (s.onColony g k f).seq = s.seq := rfl
@[simp] theorem State.onColony_staged (s : State) (g k : Nat) (f : Colony → Colony) : (s.onColony g k f).staged = s.staged := rfl
@[simp] theorem State.onColony_keyDigest (s : State) (g k : Nat) (f : Colony → Colony) : (s.onColony g k f).keyDigest = s.keyDigest := rfl
@[simp] theorem State.onColony_rollback (s : State) (g k : Nat) (f : Colony → Colony) : (s.onColony g k f).rollback = s.rollback := rfl
@[simp] theorem State.onColony_debugFuse (s : State) (g k : Nat) (f : Colony → Colony) : (s.onColony g k f).debugFuse = s.debugFuse := rfl
@[simp] theorem State.onColony_staging (s : State) (g k : Nat) (f : Colony → Colony) : (s.onColony g k f).staging = s.staging := rfl
@[simp] theorem State.onColony_corrected (s : State) (g k : Nat) (f : Colony → Colony) : (s.onColony g k f).corrected = s.corrected := rfl

@[simp] theorem State.wrByte_now (s : State) (a : Nat) (b : Byte) : (s.wrByte a b).now = s.now := rfl
@[simp] theorem State.wrByte_phase (s : State) (a : Nat) (b : Byte) : (s.wrByte a b).phase = s.phase := rfl
@[simp] theorem State.wrByte_bootErr (s : State) (a : Nat) (b : Byte) : (s.wrByte a b).bootErr = s.bootErr := rfl
@[simp] theorem State.wrByte_clMask (s : State) (a : Nat) (b : Byte) : (s.wrByte a b).clMask = s.clMask := rfl
@[simp] theorem State.wrByte_worn (s : State) (a : Nat) (b : Byte) : (s.wrByte a b).worn = s.worn := rfl
@[simp] theorem State.wrByte_live (s : State) (a : Nat) (b : Byte) : (s.wrByte a b).live = s.live := rfl
@[simp] theorem State.wrByte_devId (s : State) (a : Nat) (b : Byte) : (s.wrByte a b).devId = s.devId := rfl
@[simp] theorem State.wrByte_cert (s : State) (a : Nat) (b : Byte) : (s.wrByte a b).cert = s.cert := rfl
@[simp] theorem State.wrByte_mreg0 (s : State) (a : Nat) (b : Byte) : (s.wrByte a b).mreg0 = s.mreg0 := rfl
@[simp] theorem State.wrByte_mreg1 (s : State) (a : Nat) (b : Byte) : (s.wrByte a b).mreg1 = s.mreg1 := rfl
@[simp] theorem State.wrByte_leaf (s : State) (a : Nat) (b : Byte) : (s.wrByte a b).leaf = s.leaf := rfl
@[simp] theorem State.wrByte_nonce (s : State) (a : Nat) (b : Byte) : (s.wrByte a b).nonce = s.nonce := rfl
@[simp] theorem State.wrByte_attStatus (s : State) (a : Nat) (b : Byte) : (s.wrByte a b).attStatus = s.attStatus := rfl
@[simp] theorem State.wrByte_attReply (s : State) (a : Nat) (b : Byte) : (s.wrByte a b).attReply = s.attReply := rfl
@[simp] theorem State.wrByte_jtag (s : State) (a : Nat) (b : Byte) : (s.wrByte a b).jtag = s.jtag := rfl
@[simp] theorem State.wrByte_hdrs (s : State) (a : Nat) (b : Byte) : (s.wrByte a b).hdrs = s.hdrs := rfl
@[simp] theorem State.wrByte_badMem (s : State) (a : Nat) (b : Byte) : (s.wrByte a b).badMem = s.badMem := rfl
@[simp] theorem State.wrByte_cores (s : State) (a : Nat) (b : Byte) : (s.wrByte a b).cores = s.cores := rfl
@[simp] theorem State.wrByte_clTlbs (s : State) (a : Nat) (b : Byte) : (s.wrByte a b).clTlbs = s.clTlbs := rfl
@[simp] theorem State.wrByte_shoots (s : State) (a : Nat) (b : Byte) : (s.wrByte a b).shoots = s.shoots := rfl
@[simp] theorem State.wrByte_queues (s : State) (a : Nat) (b : Byte) : (s.wrByte a b).queues = s.queues := rfl
@[simp] theorem State.wrByte_lastQ (s : State) (a : Nat) (b : Byte) : (s.wrByte a b).lastQ = s.lastQ := rfl
@[simp] theorem State.wrByte_grids (s : State) (a : Nat) (b : Byte) : (s.wrByte a b).grids = s.grids := rfl
@[simp] theorem State.wrByte_nextGrid (s : State) (a : Nat) (b : Byte) : (s.wrByte a b).nextGrid = s.nextGrid := rfl
@[simp] theorem State.wrByte_colonies (s : State) (a : Nat) (b : Byte) : (s.wrByte a b).colonies = s.colonies := rfl
@[simp] theorem State.wrByte_updates (s : State) (a : Nat) (b : Byte) : (s.wrByte a b).updates = s.updates := rfl
@[simp] theorem State.wrByte_frozen (s : State) (a : Nat) (b : Byte) : (s.wrByte a b).frozen = s.frozen := rfl
@[simp] theorem State.wrByte_place (s : State) (a : Nat) (b : Byte) : (s.wrByte a b).place = s.place := rfl
@[simp] theorem State.wrByte_thermal (s : State) (a : Nat) (b : Byte) : (s.wrByte a b).thermal = s.thermal := rfl
@[simp] theorem State.wrByte_weights (s : State) (a : Nat) (b : Byte) : (s.wrByte a b).weights = s.weights := rfl
@[simp] theorem State.wrByte_vmin (s : State) (a : Nat) (b : Byte) : (s.wrByte a b).vmin = s.vmin := rfl
@[simp] theorem State.wrByte_handlerEntry (s : State) (a : Nat) (b : Byte) : (s.wrByte a b).handlerEntry = s.handlerEntry := rfl
@[simp] theorem State.wrByte_acc (s : State) (a : Nat) (b : Byte) : (s.wrByte a b).acc = s.acc := rfl
@[simp] theorem State.wrByte_irqs (s : State) (a : Nat) (b : Byte) : (s.wrByte a b).irqs = s.irqs := rfl
@[simp] theorem State.wrByte_dropped (s : State) (a : Nat) (b : Byte) : (s.wrByte a b).dropped = s.dropped := rfl
@[simp] theorem State.wrByte_agenda (s : State) (a : Nat) (b : Byte) : (s.wrByte a b).agenda = s.agenda := rfl
@[simp] theorem State.wrByte_cur (s : State) (a : Nat) (b : Byte) : (s.wrByte a b).cur = s.cur := rfl
@[simp] theorem State.wrByte_ctr (s : State) (a : Nat) (b : Byte) : (s.wrByte a b).ctr = s.ctr := rfl
@[simp] theorem State.wrByte_seq (s : State) (a : Nat) (b : Byte) : (s.wrByte a b).seq = s.seq := rfl
@[simp] theorem State.wrByte_staged (s : State) (a : Nat) (b : Byte) : (s.wrByte a b).staged = s.staged := rfl
@[simp] theorem State.wrByte_keyDigest (s : State) (a : Nat) (b : Byte) : (s.wrByte a b).keyDigest = s.keyDigest := rfl
@[simp] theorem State.wrByte_rollback (s : State) (a : Nat) (b : Byte) : (s.wrByte a b).rollback = s.rollback := rfl
@[simp] theorem State.wrByte_debugFuse (s : State) (a : Nat) (b : Byte) : (s.wrByte a b).debugFuse = s.debugFuse := rfl
@[simp] theorem State.wrByte_staging (s : State) (a : Nat) (b : Byte) : (s.wrByte a b).staging = s.staging := rfl
@[simp] theorem State.wrByte_corrected (s : State) (a : Nat) (b : Byte) : (s.wrByte a b).corrected = s.corrected := rfl

@[simp] theorem State.wrHdr_now (s : State) (a : Nat) (h : Word) : (s.wrHdr a h).now = s.now := rfl
@[simp] theorem State.wrHdr_phase (s : State) (a : Nat) (h : Word) : (s.wrHdr a h).phase = s.phase := rfl
@[simp] theorem State.wrHdr_bootErr (s : State) (a : Nat) (h : Word) : (s.wrHdr a h).bootErr = s.bootErr := rfl
@[simp] theorem State.wrHdr_clMask (s : State) (a : Nat) (h : Word) : (s.wrHdr a h).clMask = s.clMask := rfl
@[simp] theorem State.wrHdr_worn (s : State) (a : Nat) (h : Word) : (s.wrHdr a h).worn = s.worn := rfl
@[simp] theorem State.wrHdr_live (s : State) (a : Nat) (h : Word) : (s.wrHdr a h).live = s.live := rfl
@[simp] theorem State.wrHdr_devId (s : State) (a : Nat) (h : Word) : (s.wrHdr a h).devId = s.devId := rfl
@[simp] theorem State.wrHdr_cert (s : State) (a : Nat) (h : Word) : (s.wrHdr a h).cert = s.cert := rfl
@[simp] theorem State.wrHdr_mreg0 (s : State) (a : Nat) (h : Word) : (s.wrHdr a h).mreg0 = s.mreg0 := rfl
@[simp] theorem State.wrHdr_mreg1 (s : State) (a : Nat) (h : Word) : (s.wrHdr a h).mreg1 = s.mreg1 := rfl
@[simp] theorem State.wrHdr_leaf (s : State) (a : Nat) (h : Word) : (s.wrHdr a h).leaf = s.leaf := rfl
@[simp] theorem State.wrHdr_nonce (s : State) (a : Nat) (h : Word) : (s.wrHdr a h).nonce = s.nonce := rfl
@[simp] theorem State.wrHdr_attStatus (s : State) (a : Nat) (h : Word) : (s.wrHdr a h).attStatus = s.attStatus := rfl
@[simp] theorem State.wrHdr_attReply (s : State) (a : Nat) (h : Word) : (s.wrHdr a h).attReply = s.attReply := rfl
@[simp] theorem State.wrHdr_jtag (s : State) (a : Nat) (h : Word) : (s.wrHdr a h).jtag = s.jtag := rfl
@[simp] theorem State.wrHdr_mem (s : State) (a : Nat) (h : Word) : (s.wrHdr a h).mem = s.mem := rfl
@[simp] theorem State.wrHdr_badMem (s : State) (a : Nat) (h : Word) : (s.wrHdr a h).badMem = s.badMem := rfl
@[simp] theorem State.wrHdr_cores (s : State) (a : Nat) (h : Word) : (s.wrHdr a h).cores = s.cores := rfl
@[simp] theorem State.wrHdr_clTlbs (s : State) (a : Nat) (h : Word) : (s.wrHdr a h).clTlbs = s.clTlbs := rfl
@[simp] theorem State.wrHdr_shoots (s : State) (a : Nat) (h : Word) : (s.wrHdr a h).shoots = s.shoots := rfl
@[simp] theorem State.wrHdr_queues (s : State) (a : Nat) (h : Word) : (s.wrHdr a h).queues = s.queues := rfl
@[simp] theorem State.wrHdr_lastQ (s : State) (a : Nat) (h : Word) : (s.wrHdr a h).lastQ = s.lastQ := rfl
@[simp] theorem State.wrHdr_grids (s : State) (a : Nat) (h : Word) : (s.wrHdr a h).grids = s.grids := rfl
@[simp] theorem State.wrHdr_nextGrid (s : State) (a : Nat) (h : Word) : (s.wrHdr a h).nextGrid = s.nextGrid := rfl
@[simp] theorem State.wrHdr_colonies (s : State) (a : Nat) (h : Word) : (s.wrHdr a h).colonies = s.colonies := rfl
@[simp] theorem State.wrHdr_updates (s : State) (a : Nat) (h : Word) : (s.wrHdr a h).updates = s.updates := rfl
@[simp] theorem State.wrHdr_frozen (s : State) (a : Nat) (h : Word) : (s.wrHdr a h).frozen = s.frozen := rfl
@[simp] theorem State.wrHdr_place (s : State) (a : Nat) (h : Word) : (s.wrHdr a h).place = s.place := rfl
@[simp] theorem State.wrHdr_thermal (s : State) (a : Nat) (h : Word) : (s.wrHdr a h).thermal = s.thermal := rfl
@[simp] theorem State.wrHdr_weights (s : State) (a : Nat) (h : Word) : (s.wrHdr a h).weights = s.weights := rfl
@[simp] theorem State.wrHdr_vmin (s : State) (a : Nat) (h : Word) : (s.wrHdr a h).vmin = s.vmin := rfl
@[simp] theorem State.wrHdr_handlerEntry (s : State) (a : Nat) (h : Word) : (s.wrHdr a h).handlerEntry = s.handlerEntry := rfl
@[simp] theorem State.wrHdr_acc (s : State) (a : Nat) (h : Word) : (s.wrHdr a h).acc = s.acc := rfl
@[simp] theorem State.wrHdr_irqs (s : State) (a : Nat) (h : Word) : (s.wrHdr a h).irqs = s.irqs := rfl
@[simp] theorem State.wrHdr_dropped (s : State) (a : Nat) (h : Word) : (s.wrHdr a h).dropped = s.dropped := rfl
@[simp] theorem State.wrHdr_agenda (s : State) (a : Nat) (h : Word) : (s.wrHdr a h).agenda = s.agenda := rfl
@[simp] theorem State.wrHdr_cur (s : State) (a : Nat) (h : Word) : (s.wrHdr a h).cur = s.cur := rfl
@[simp] theorem State.wrHdr_ctr (s : State) (a : Nat) (h : Word) : (s.wrHdr a h).ctr = s.ctr := rfl
@[simp] theorem State.wrHdr_seq (s : State) (a : Nat) (h : Word) : (s.wrHdr a h).seq = s.seq := rfl
@[simp] theorem State.wrHdr_staged (s : State) (a : Nat) (h : Word) : (s.wrHdr a h).staged = s.staged := rfl
@[simp] theorem State.wrHdr_keyDigest (s : State) (a : Nat) (h : Word) : (s.wrHdr a h).keyDigest = s.keyDigest := rfl
@[simp] theorem State.wrHdr_rollback (s : State) (a : Nat) (h : Word) : (s.wrHdr a h).rollback = s.rollback := rfl
@[simp] theorem State.wrHdr_debugFuse (s : State) (a : Nat) (h : Word) : (s.wrHdr a h).debugFuse = s.debugFuse := rfl
@[simp] theorem State.wrHdr_staging (s : State) (a : Nat) (h : Word) : (s.wrHdr a h).staging = s.staging := rfl
@[simp] theorem State.wrHdr_corrected (s : State) (a : Nat) (h : Word) : (s.wrHdr a h).corrected = s.corrected := rfl

@[simp] theorem State.tick_now (s : State)  : (s.tick).now = s.now := rfl
@[simp] theorem State.tick_phase (s : State)  : (s.tick).phase = s.phase := rfl
@[simp] theorem State.tick_bootErr (s : State)  : (s.tick).bootErr = s.bootErr := rfl
@[simp] theorem State.tick_clMask (s : State)  : (s.tick).clMask = s.clMask := rfl
@[simp] theorem State.tick_worn (s : State)  : (s.tick).worn = s.worn := rfl
@[simp] theorem State.tick_live (s : State)  : (s.tick).live = s.live := rfl
@[simp] theorem State.tick_devId (s : State)  : (s.tick).devId = s.devId := rfl
@[simp] theorem State.tick_cert (s : State)  : (s.tick).cert = s.cert := rfl
@[simp] theorem State.tick_mreg0 (s : State)  : (s.tick).mreg0 = s.mreg0 := rfl
@[simp] theorem State.tick_mreg1 (s : State)  : (s.tick).mreg1 = s.mreg1 := rfl
@[simp] theorem State.tick_leaf (s : State)  : (s.tick).leaf = s.leaf := rfl
@[simp] theorem State.tick_nonce (s : State)  : (s.tick).nonce = s.nonce := rfl
@[simp] theorem State.tick_attStatus (s : State)  : (s.tick).attStatus = s.attStatus := rfl
@[simp] theorem State.tick_attReply (s : State)  : (s.tick).attReply = s.attReply := rfl
@[simp] theorem State.tick_jtag (s : State)  : (s.tick).jtag = s.jtag := rfl
@[simp] theorem State.tick_mem (s : State)  : (s.tick).mem = s.mem := rfl
@[simp] theorem State.tick_hdrs (s : State)  : (s.tick).hdrs = s.hdrs := rfl
@[simp] theorem State.tick_badMem (s : State)  : (s.tick).badMem = s.badMem := rfl
@[simp] theorem State.tick_cores (s : State)  : (s.tick).cores = s.cores := rfl
@[simp] theorem State.tick_clTlbs (s : State)  : (s.tick).clTlbs = s.clTlbs := rfl
@[simp] theorem State.tick_shoots (s : State)  : (s.tick).shoots = s.shoots := rfl
@[simp] theorem State.tick_queues (s : State)  : (s.tick).queues = s.queues := rfl
@[simp] theorem State.tick_lastQ (s : State)  : (s.tick).lastQ = s.lastQ := rfl
@[simp] theorem State.tick_grids (s : State)  : (s.tick).grids = s.grids := rfl
@[simp] theorem State.tick_nextGrid (s : State)  : (s.tick).nextGrid = s.nextGrid := rfl
@[simp] theorem State.tick_colonies (s : State)  : (s.tick).colonies = s.colonies := rfl
@[simp] theorem State.tick_updates (s : State)  : (s.tick).updates = s.updates := rfl
@[simp] theorem State.tick_frozen (s : State)  : (s.tick).frozen = s.frozen := rfl
@[simp] theorem State.tick_place (s : State)  : (s.tick).place = s.place := rfl
@[simp] theorem State.tick_thermal (s : State)  : (s.tick).thermal = s.thermal := rfl
@[simp] theorem State.tick_weights (s : State)  : (s.tick).weights = s.weights := rfl
@[simp] theorem State.tick_vmin (s : State)  : (s.tick).vmin = s.vmin := rfl
@[simp] theorem State.tick_handlerEntry (s : State)  : (s.tick).handlerEntry = s.handlerEntry := rfl
@[simp] theorem State.tick_acc (s : State)  : (s.tick).acc = s.acc := rfl
@[simp] theorem State.tick_irqs (s : State)  : (s.tick).irqs = s.irqs := rfl
@[simp] theorem State.tick_dropped (s : State)  : (s.tick).dropped = s.dropped := rfl
@[simp] theorem State.tick_agenda (s : State)  : (s.tick).agenda = s.agenda := rfl
@[simp] theorem State.tick_seq (s : State)  : (s.tick).seq = s.seq := rfl
@[simp] theorem State.tick_staged (s : State)  : (s.tick).staged = s.staged := rfl
@[simp] theorem State.tick_keyDigest (s : State)  : (s.tick).keyDigest = s.keyDigest := rfl
@[simp] theorem State.tick_rollback (s : State)  : (s.tick).rollback = s.rollback := rfl
@[simp] theorem State.tick_debugFuse (s : State)  : (s.tick).debugFuse = s.debugFuse := rfl
@[simp] theorem State.tick_staging (s : State)  : (s.tick).staging = s.staging := rfl
@[simp] theorem State.tick_corrected (s : State)  : (s.tick).corrected = s.corrected := rfl

@[simp] theorem State.issuing_now (s : State)  : (s.issuing).now = s.now := rfl
@[simp] theorem State.issuing_phase (s : State)  : (s.issuing).phase = s.phase := rfl
@[simp] theorem State.issuing_bootErr (s : State)  : (s.issuing).bootErr = s.bootErr := rfl
@[simp] theorem State.issuing_clMask (s : State)  : (s.issuing).clMask = s.clMask := rfl
@[simp] theorem State.issuing_worn (s : State)  : (s.issuing).worn = s.worn := rfl
@[simp] theorem State.issuing_live (s : State)  : (s.issuing).live = s.live := rfl
@[simp] theorem State.issuing_devId (s : State)  : (s.issuing).devId = s.devId := rfl
@[simp] theorem State.issuing_cert (s : State)  : (s.issuing).cert = s.cert := rfl
@[simp] theorem State.issuing_mreg0 (s : State)  : (s.issuing).mreg0 = s.mreg0 := rfl
@[simp] theorem State.issuing_mreg1 (s : State)  : (s.issuing).mreg1 = s.mreg1 := rfl
@[simp] theorem State.issuing_leaf (s : State)  : (s.issuing).leaf = s.leaf := rfl
@[simp] theorem State.issuing_nonce (s : State)  : (s.issuing).nonce = s.nonce := rfl
@[simp] theorem State.issuing_attStatus (s : State)  : (s.issuing).attStatus = s.attStatus := rfl
@[simp] theorem State.issuing_attReply (s : State)  : (s.issuing).attReply = s.attReply := rfl
@[simp] theorem State.issuing_jtag (s : State)  : (s.issuing).jtag = s.jtag := rfl
@[simp] theorem State.issuing_mem (s : State)  : (s.issuing).mem = s.mem := rfl
@[simp] theorem State.issuing_hdrs (s : State)  : (s.issuing).hdrs = s.hdrs := rfl
@[simp] theorem State.issuing_badMem (s : State)  : (s.issuing).badMem = s.badMem := rfl
@[simp] theorem State.issuing_cores (s : State)  : (s.issuing).cores = s.cores := rfl
@[simp] theorem State.issuing_clTlbs (s : State)  : (s.issuing).clTlbs = s.clTlbs := rfl
@[simp] theorem State.issuing_shoots (s : State)  : (s.issuing).shoots = s.shoots := rfl
@[simp] theorem State.issuing_queues (s : State)  : (s.issuing).queues = s.queues := rfl
@[simp] theorem State.issuing_lastQ (s : State)  : (s.issuing).lastQ = s.lastQ := rfl
@[simp] theorem State.issuing_grids (s : State)  : (s.issuing).grids = s.grids := rfl
@[simp] theorem State.issuing_nextGrid (s : State)  : (s.issuing).nextGrid = s.nextGrid := rfl
@[simp] theorem State.issuing_colonies (s : State)  : (s.issuing).colonies = s.colonies := rfl
@[simp] theorem State.issuing_updates (s : State)  : (s.issuing).updates = s.updates := rfl
@[simp] theorem State.issuing_frozen (s : State)  : (s.issuing).frozen = s.frozen := rfl
@[simp] theorem State.issuing_place (s : State)  : (s.issuing).place = s.place := rfl
@[simp] theorem State.issuing_thermal (s : State)  : (s.issuing).thermal = s.thermal := rfl
@[simp] theorem State.issuing_weights (s : State)  : (s.issuing).weights = s.weights := rfl
@[simp] theorem State.issuing_vmin (s : State)  : (s.issuing).vmin = s.vmin := rfl
@[simp] theorem State.issuing_handlerEntry (s : State)  : (s.issuing).handlerEntry = s.handlerEntry := rfl
@[simp] theorem State.issuing_acc (s : State)  : (s.issuing).acc = s.acc := rfl
@[simp] theorem State.issuing_irqs (s : State)  : (s.issuing).irqs = s.irqs := rfl
@[simp] theorem State.issuing_dropped (s : State)  : (s.issuing).dropped = s.dropped := rfl
@[simp] theorem State.issuing_agenda (s : State)  : (s.issuing).agenda = s.agenda := rfl
@[simp] theorem State.issuing_cur (s : State)  : (s.issuing).cur = s.cur := rfl
@[simp] theorem State.issuing_ctr (s : State)  : (s.issuing).ctr = s.ctr := rfl
@[simp] theorem State.issuing_staged (s : State)  : (s.issuing).staged = s.staged := rfl
@[simp] theorem State.issuing_keyDigest (s : State)  : (s.issuing).keyDigest = s.keyDigest := rfl
@[simp] theorem State.issuing_rollback (s : State)  : (s.issuing).rollback = s.rollback := rfl
@[simp] theorem State.issuing_debugFuse (s : State)  : (s.issuing).debugFuse = s.debugFuse := rfl
@[simp] theorem State.issuing_staging (s : State)  : (s.issuing).staging = s.staging := rfl
@[simp] theorem State.issuing_corrected (s : State)  : (s.issuing).corrected = s.corrected := rfl

@[simp] theorem State.onSlot_now (s : State) (c n : Nat) (f : Slot → Slot) : (s.onSlot c n f).now = s.now := by unfold State.onSlot; split <;> rfl
@[simp] theorem State.onSlot_phase (s : State) (c n : Nat) (f : Slot → Slot) : (s.onSlot c n f).phase = s.phase := by unfold State.onSlot; split <;> rfl
@[simp] theorem State.onSlot_bootErr (s : State) (c n : Nat) (f : Slot → Slot) : (s.onSlot c n f).bootErr = s.bootErr := by unfold State.onSlot; split <;> rfl
@[simp] theorem State.onSlot_clMask (s : State) (c n : Nat) (f : Slot → Slot) : (s.onSlot c n f).clMask = s.clMask := by unfold State.onSlot; split <;> rfl
@[simp] theorem State.onSlot_worn (s : State) (c n : Nat) (f : Slot → Slot) : (s.onSlot c n f).worn = s.worn := by unfold State.onSlot; split <;> rfl
@[simp] theorem State.onSlot_live (s : State) (c n : Nat) (f : Slot → Slot) : (s.onSlot c n f).live = s.live := by unfold State.onSlot; split <;> rfl
@[simp] theorem State.onSlot_devId (s : State) (c n : Nat) (f : Slot → Slot) : (s.onSlot c n f).devId = s.devId := by unfold State.onSlot; split <;> rfl
@[simp] theorem State.onSlot_cert (s : State) (c n : Nat) (f : Slot → Slot) : (s.onSlot c n f).cert = s.cert := by unfold State.onSlot; split <;> rfl
@[simp] theorem State.onSlot_mreg0 (s : State) (c n : Nat) (f : Slot → Slot) : (s.onSlot c n f).mreg0 = s.mreg0 := by unfold State.onSlot; split <;> rfl
@[simp] theorem State.onSlot_mreg1 (s : State) (c n : Nat) (f : Slot → Slot) : (s.onSlot c n f).mreg1 = s.mreg1 := by unfold State.onSlot; split <;> rfl
@[simp] theorem State.onSlot_leaf (s : State) (c n : Nat) (f : Slot → Slot) : (s.onSlot c n f).leaf = s.leaf := by unfold State.onSlot; split <;> rfl
@[simp] theorem State.onSlot_nonce (s : State) (c n : Nat) (f : Slot → Slot) : (s.onSlot c n f).nonce = s.nonce := by unfold State.onSlot; split <;> rfl
@[simp] theorem State.onSlot_attStatus (s : State) (c n : Nat) (f : Slot → Slot) : (s.onSlot c n f).attStatus = s.attStatus := by unfold State.onSlot; split <;> rfl
@[simp] theorem State.onSlot_attReply (s : State) (c n : Nat) (f : Slot → Slot) : (s.onSlot c n f).attReply = s.attReply := by unfold State.onSlot; split <;> rfl
@[simp] theorem State.onSlot_jtag (s : State) (c n : Nat) (f : Slot → Slot) : (s.onSlot c n f).jtag = s.jtag := by unfold State.onSlot; split <;> rfl
@[simp] theorem State.onSlot_mem (s : State) (c n : Nat) (f : Slot → Slot) : (s.onSlot c n f).mem = s.mem := by unfold State.onSlot; split <;> rfl
@[simp] theorem State.onSlot_hdrs (s : State) (c n : Nat) (f : Slot → Slot) : (s.onSlot c n f).hdrs = s.hdrs := by unfold State.onSlot; split <;> rfl
@[simp] theorem State.onSlot_badMem (s : State) (c n : Nat) (f : Slot → Slot) : (s.onSlot c n f).badMem = s.badMem := by unfold State.onSlot; split <;> rfl
@[simp] theorem State.onSlot_clTlbs (s : State) (c n : Nat) (f : Slot → Slot) : (s.onSlot c n f).clTlbs = s.clTlbs := by unfold State.onSlot; split <;> rfl
@[simp] theorem State.onSlot_shoots (s : State) (c n : Nat) (f : Slot → Slot) : (s.onSlot c n f).shoots = s.shoots := by unfold State.onSlot; split <;> rfl
@[simp] theorem State.onSlot_queues (s : State) (c n : Nat) (f : Slot → Slot) : (s.onSlot c n f).queues = s.queues := by unfold State.onSlot; split <;> rfl
@[simp] theorem State.onSlot_lastQ (s : State) (c n : Nat) (f : Slot → Slot) : (s.onSlot c n f).lastQ = s.lastQ := by unfold State.onSlot; split <;> rfl
@[simp] theorem State.onSlot_grids (s : State) (c n : Nat) (f : Slot → Slot) : (s.onSlot c n f).grids = s.grids := by unfold State.onSlot; split <;> rfl
@[simp] theorem State.onSlot_nextGrid (s : State) (c n : Nat) (f : Slot → Slot) : (s.onSlot c n f).nextGrid = s.nextGrid := by unfold State.onSlot; split <;> rfl
@[simp] theorem State.onSlot_colonies (s : State) (c n : Nat) (f : Slot → Slot) : (s.onSlot c n f).colonies = s.colonies := by unfold State.onSlot; split <;> rfl
@[simp] theorem State.onSlot_updates (s : State) (c n : Nat) (f : Slot → Slot) : (s.onSlot c n f).updates = s.updates := by unfold State.onSlot; split <;> rfl
@[simp] theorem State.onSlot_frozen (s : State) (c n : Nat) (f : Slot → Slot) : (s.onSlot c n f).frozen = s.frozen := by unfold State.onSlot; split <;> rfl
@[simp] theorem State.onSlot_place (s : State) (c n : Nat) (f : Slot → Slot) : (s.onSlot c n f).place = s.place := by unfold State.onSlot; split <;> rfl
@[simp] theorem State.onSlot_thermal (s : State) (c n : Nat) (f : Slot → Slot) : (s.onSlot c n f).thermal = s.thermal := by unfold State.onSlot; split <;> rfl
@[simp] theorem State.onSlot_weights (s : State) (c n : Nat) (f : Slot → Slot) : (s.onSlot c n f).weights = s.weights := by unfold State.onSlot; split <;> rfl
@[simp] theorem State.onSlot_vmin (s : State) (c n : Nat) (f : Slot → Slot) : (s.onSlot c n f).vmin = s.vmin := by unfold State.onSlot; split <;> rfl
@[simp] theorem State.onSlot_handlerEntry (s : State) (c n : Nat) (f : Slot → Slot) : (s.onSlot c n f).handlerEntry = s.handlerEntry := by unfold State.onSlot; split <;> rfl
@[simp] theorem State.onSlot_acc (s : State) (c n : Nat) (f : Slot → Slot) : (s.onSlot c n f).acc = s.acc := by unfold State.onSlot; split <;> rfl
@[simp] theorem State.onSlot_irqs (s : State) (c n : Nat) (f : Slot → Slot) : (s.onSlot c n f).irqs = s.irqs := by unfold State.onSlot; split <;> rfl
@[simp] theorem State.onSlot_dropped (s : State) (c n : Nat) (f : Slot → Slot) : (s.onSlot c n f).dropped = s.dropped := by unfold State.onSlot; split <;> rfl
@[simp] theorem State.onSlot_agenda (s : State) (c n : Nat) (f : Slot → Slot) : (s.onSlot c n f).agenda = s.agenda := by unfold State.onSlot; split <;> rfl
@[simp] theorem State.onSlot_cur (s : State) (c n : Nat) (f : Slot → Slot) : (s.onSlot c n f).cur = s.cur := by unfold State.onSlot; split <;> rfl
@[simp] theorem State.onSlot_ctr (s : State) (c n : Nat) (f : Slot → Slot) : (s.onSlot c n f).ctr = s.ctr := by unfold State.onSlot; split <;> rfl
@[simp] theorem State.onSlot_seq (s : State) (c n : Nat) (f : Slot → Slot) : (s.onSlot c n f).seq = s.seq := by unfold State.onSlot; split <;> rfl
@[simp] theorem State.onSlot_staged (s : State) (c n : Nat) (f : Slot → Slot) : (s.onSlot c n f).staged = s.staged := by unfold State.onSlot; split <;> rfl
@[simp] theorem State.onSlot_keyDigest (s : State) (c n : Nat) (f : Slot → Slot) : (s.onSlot c n f).keyDigest = s.keyDigest := by unfold State.onSlot; split <;> rfl
@[simp] theorem State.onSlot_rollback (s : State) (c n : Nat) (f : Slot → Slot) : (s.onSlot c n f).rollback = s.rollback := by unfold State.onSlot; split <;> rfl
@[simp] theorem State.onSlot_debugFuse (s : State) (c n : Nat) (f : Slot → Slot) : (s.onSlot c n f).debugFuse = s.debugFuse := by unfold State.onSlot; split <;> rfl
@[simp] theorem State.onSlot_staging (s : State) (c n : Nat) (f : Slot → Slot) : (s.onSlot c n f).staging = s.staging := by unfold State.onSlot; split <;> rfl
@[simp] theorem State.onSlot_corrected (s : State) (c n : Nat) (f : Slot → Slot) : (s.onSlot c n f).corrected = s.corrected := by unfold State.onSlot; split <;> rfl

@[simp] theorem State.wrBytes_now (s : State) (a : Nat) (l : List Byte) : (s.wrBytes a l).now = s.now := by
  induction l generalizing s a with
  | nil => rfl
  | cons b r ih => rw [State.wrBytes, ih]; rfl
@[simp] theorem State.wrBytes_phase (s : State) (a : Nat) (l : List Byte) : (s.wrBytes a l).phase = s.phase := by
  induction l generalizing s a with
  | nil => rfl
  | cons b r ih => rw [State.wrBytes, ih]; rfl
@[simp] theorem State.wrBytes_bootErr (s : State) (a : Nat) (l : List Byte) : (s.wrBytes a l).bootErr = s.bootErr := by
  induction l generalizing s a with
  | nil => rfl
  | cons b r ih => rw [State.wrBytes, ih]; rfl
@[simp] theorem State.wrBytes_clMask (s : State) (a : Nat) (l : List Byte) : (s.wrBytes a l).clMask = s.clMask := by
  induction l generalizing s a with
  | nil => rfl
  | cons b r ih => rw [State.wrBytes, ih]; rfl
@[simp] theorem State.wrBytes_worn (s : State) (a : Nat) (l : List Byte) : (s.wrBytes a l).worn = s.worn := by
  induction l generalizing s a with
  | nil => rfl
  | cons b r ih => rw [State.wrBytes, ih]; rfl
@[simp] theorem State.wrBytes_live (s : State) (a : Nat) (l : List Byte) : (s.wrBytes a l).live = s.live := by
  induction l generalizing s a with
  | nil => rfl
  | cons b r ih => rw [State.wrBytes, ih]; rfl
@[simp] theorem State.wrBytes_devId (s : State) (a : Nat) (l : List Byte) : (s.wrBytes a l).devId = s.devId := by
  induction l generalizing s a with
  | nil => rfl
  | cons b r ih => rw [State.wrBytes, ih]; rfl
@[simp] theorem State.wrBytes_cert (s : State) (a : Nat) (l : List Byte) : (s.wrBytes a l).cert = s.cert := by
  induction l generalizing s a with
  | nil => rfl
  | cons b r ih => rw [State.wrBytes, ih]; rfl
@[simp] theorem State.wrBytes_mreg0 (s : State) (a : Nat) (l : List Byte) : (s.wrBytes a l).mreg0 = s.mreg0 := by
  induction l generalizing s a with
  | nil => rfl
  | cons b r ih => rw [State.wrBytes, ih]; rfl
@[simp] theorem State.wrBytes_mreg1 (s : State) (a : Nat) (l : List Byte) : (s.wrBytes a l).mreg1 = s.mreg1 := by
  induction l generalizing s a with
  | nil => rfl
  | cons b r ih => rw [State.wrBytes, ih]; rfl
@[simp] theorem State.wrBytes_leaf (s : State) (a : Nat) (l : List Byte) : (s.wrBytes a l).leaf = s.leaf := by
  induction l generalizing s a with
  | nil => rfl
  | cons b r ih => rw [State.wrBytes, ih]; rfl
@[simp] theorem State.wrBytes_nonce (s : State) (a : Nat) (l : List Byte) : (s.wrBytes a l).nonce = s.nonce := by
  induction l generalizing s a with
  | nil => rfl
  | cons b r ih => rw [State.wrBytes, ih]; rfl
@[simp] theorem State.wrBytes_attStatus (s : State) (a : Nat) (l : List Byte) : (s.wrBytes a l).attStatus = s.attStatus := by
  induction l generalizing s a with
  | nil => rfl
  | cons b r ih => rw [State.wrBytes, ih]; rfl
@[simp] theorem State.wrBytes_attReply (s : State) (a : Nat) (l : List Byte) : (s.wrBytes a l).attReply = s.attReply := by
  induction l generalizing s a with
  | nil => rfl
  | cons b r ih => rw [State.wrBytes, ih]; rfl
@[simp] theorem State.wrBytes_jtag (s : State) (a : Nat) (l : List Byte) : (s.wrBytes a l).jtag = s.jtag := by
  induction l generalizing s a with
  | nil => rfl
  | cons b r ih => rw [State.wrBytes, ih]; rfl
@[simp] theorem State.wrBytes_hdrs (s : State) (a : Nat) (l : List Byte) : (s.wrBytes a l).hdrs = s.hdrs := by
  induction l generalizing s a with
  | nil => rfl
  | cons b r ih => rw [State.wrBytes, ih]; rfl
@[simp] theorem State.wrBytes_badMem (s : State) (a : Nat) (l : List Byte) : (s.wrBytes a l).badMem = s.badMem := by
  induction l generalizing s a with
  | nil => rfl
  | cons b r ih => rw [State.wrBytes, ih]; rfl
@[simp] theorem State.wrBytes_cores (s : State) (a : Nat) (l : List Byte) : (s.wrBytes a l).cores = s.cores := by
  induction l generalizing s a with
  | nil => rfl
  | cons b r ih => rw [State.wrBytes, ih]; rfl
@[simp] theorem State.wrBytes_clTlbs (s : State) (a : Nat) (l : List Byte) : (s.wrBytes a l).clTlbs = s.clTlbs := by
  induction l generalizing s a with
  | nil => rfl
  | cons b r ih => rw [State.wrBytes, ih]; rfl
@[simp] theorem State.wrBytes_shoots (s : State) (a : Nat) (l : List Byte) : (s.wrBytes a l).shoots = s.shoots := by
  induction l generalizing s a with
  | nil => rfl
  | cons b r ih => rw [State.wrBytes, ih]; rfl
@[simp] theorem State.wrBytes_queues (s : State) (a : Nat) (l : List Byte) : (s.wrBytes a l).queues = s.queues := by
  induction l generalizing s a with
  | nil => rfl
  | cons b r ih => rw [State.wrBytes, ih]; rfl
@[simp] theorem State.wrBytes_lastQ (s : State) (a : Nat) (l : List Byte) : (s.wrBytes a l).lastQ = s.lastQ := by
  induction l generalizing s a with
  | nil => rfl
  | cons b r ih => rw [State.wrBytes, ih]; rfl
@[simp] theorem State.wrBytes_grids (s : State) (a : Nat) (l : List Byte) : (s.wrBytes a l).grids = s.grids := by
  induction l generalizing s a with
  | nil => rfl
  | cons b r ih => rw [State.wrBytes, ih]; rfl
@[simp] theorem State.wrBytes_nextGrid (s : State) (a : Nat) (l : List Byte) : (s.wrBytes a l).nextGrid = s.nextGrid := by
  induction l generalizing s a with
  | nil => rfl
  | cons b r ih => rw [State.wrBytes, ih]; rfl
@[simp] theorem State.wrBytes_colonies (s : State) (a : Nat) (l : List Byte) : (s.wrBytes a l).colonies = s.colonies := by
  induction l generalizing s a with
  | nil => rfl
  | cons b r ih => rw [State.wrBytes, ih]; rfl
@[simp] theorem State.wrBytes_updates (s : State) (a : Nat) (l : List Byte) : (s.wrBytes a l).updates = s.updates := by
  induction l generalizing s a with
  | nil => rfl
  | cons b r ih => rw [State.wrBytes, ih]; rfl
@[simp] theorem State.wrBytes_frozen (s : State) (a : Nat) (l : List Byte) : (s.wrBytes a l).frozen = s.frozen := by
  induction l generalizing s a with
  | nil => rfl
  | cons b r ih => rw [State.wrBytes, ih]; rfl
@[simp] theorem State.wrBytes_place (s : State) (a : Nat) (l : List Byte) : (s.wrBytes a l).place = s.place := by
  induction l generalizing s a with
  | nil => rfl
  | cons b r ih => rw [State.wrBytes, ih]; rfl
@[simp] theorem State.wrBytes_thermal (s : State) (a : Nat) (l : List Byte) : (s.wrBytes a l).thermal = s.thermal := by
  induction l generalizing s a with
  | nil => rfl
  | cons b r ih => rw [State.wrBytes, ih]; rfl
@[simp] theorem State.wrBytes_weights (s : State) (a : Nat) (l : List Byte) : (s.wrBytes a l).weights = s.weights := by
  induction l generalizing s a with
  | nil => rfl
  | cons b r ih => rw [State.wrBytes, ih]; rfl
@[simp] theorem State.wrBytes_vmin (s : State) (a : Nat) (l : List Byte) : (s.wrBytes a l).vmin = s.vmin := by
  induction l generalizing s a with
  | nil => rfl
  | cons b r ih => rw [State.wrBytes, ih]; rfl
@[simp] theorem State.wrBytes_handlerEntry (s : State) (a : Nat) (l : List Byte) : (s.wrBytes a l).handlerEntry = s.handlerEntry := by
  induction l generalizing s a with
  | nil => rfl
  | cons b r ih => rw [State.wrBytes, ih]; rfl
@[simp] theorem State.wrBytes_acc (s : State) (a : Nat) (l : List Byte) : (s.wrBytes a l).acc = s.acc := by
  induction l generalizing s a with
  | nil => rfl
  | cons b r ih => rw [State.wrBytes, ih]; rfl
@[simp] theorem State.wrBytes_irqs (s : State) (a : Nat) (l : List Byte) : (s.wrBytes a l).irqs = s.irqs := by
  induction l generalizing s a with
  | nil => rfl
  | cons b r ih => rw [State.wrBytes, ih]; rfl
@[simp] theorem State.wrBytes_dropped (s : State) (a : Nat) (l : List Byte) : (s.wrBytes a l).dropped = s.dropped := by
  induction l generalizing s a with
  | nil => rfl
  | cons b r ih => rw [State.wrBytes, ih]; rfl
@[simp] theorem State.wrBytes_agenda (s : State) (a : Nat) (l : List Byte) : (s.wrBytes a l).agenda = s.agenda := by
  induction l generalizing s a with
  | nil => rfl
  | cons b r ih => rw [State.wrBytes, ih]; rfl
@[simp] theorem State.wrBytes_cur (s : State) (a : Nat) (l : List Byte) : (s.wrBytes a l).cur = s.cur := by
  induction l generalizing s a with
  | nil => rfl
  | cons b r ih => rw [State.wrBytes, ih]; rfl
@[simp] theorem State.wrBytes_ctr (s : State) (a : Nat) (l : List Byte) : (s.wrBytes a l).ctr = s.ctr := by
  induction l generalizing s a with
  | nil => rfl
  | cons b r ih => rw [State.wrBytes, ih]; rfl
@[simp] theorem State.wrBytes_seq (s : State) (a : Nat) (l : List Byte) : (s.wrBytes a l).seq = s.seq := by
  induction l generalizing s a with
  | nil => rfl
  | cons b r ih => rw [State.wrBytes, ih]; rfl
@[simp] theorem State.wrBytes_staged (s : State) (a : Nat) (l : List Byte) : (s.wrBytes a l).staged = s.staged := by
  induction l generalizing s a with
  | nil => rfl
  | cons b r ih => rw [State.wrBytes, ih]; rfl
@[simp] theorem State.wrBytes_keyDigest (s : State) (a : Nat) (l : List Byte) : (s.wrBytes a l).keyDigest = s.keyDigest := by
  induction l generalizing s a with
  | nil => rfl
  | cons b r ih => rw [State.wrBytes, ih]; rfl
@[simp] theorem State.wrBytes_rollback (s : State) (a : Nat) (l : List Byte) : (s.wrBytes a l).rollback = s.rollback := by
  induction l generalizing s a with
  | nil => rfl
  | cons b r ih => rw [State.wrBytes, ih]; rfl
@[simp] theorem State.wrBytes_debugFuse (s : State) (a : Nat) (l : List Byte) : (s.wrBytes a l).debugFuse = s.debugFuse := by
  induction l generalizing s a with
  | nil => rfl
  | cons b r ih => rw [State.wrBytes, ih]; rfl
@[simp] theorem State.wrBytes_staging (s : State) (a : Nat) (l : List Byte) : (s.wrBytes a l).staging = s.staging := by
  induction l generalizing s a with
  | nil => rfl
  | cons b r ih => rw [State.wrBytes, ih]; rfl
@[simp] theorem State.wrBytes_corrected (s : State) (a : Nat) (l : List Byte) : (s.wrBytes a l).corrected = s.corrected := by
  induction l generalizing s a with
  | nil => rfl
  | cons b r ih => rw [State.wrBytes, ih]; rfl

@[simp] theorem State.wrNat_now (s : State) (a n x : Nat) : (s.wrNat a n x).now = s.now := State.wrBytes_now s a _
@[simp] theorem State.wrNat_phase (s : State) (a n x : Nat) : (s.wrNat a n x).phase = s.phase := State.wrBytes_phase s a _
@[simp] theorem State.wrNat_bootErr (s : State) (a n x : Nat) : (s.wrNat a n x).bootErr = s.bootErr := State.wrBytes_bootErr s a _
@[simp] theorem State.wrNat_clMask (s : State) (a n x : Nat) : (s.wrNat a n x).clMask = s.clMask := State.wrBytes_clMask s a _
@[simp] theorem State.wrNat_worn (s : State) (a n x : Nat) : (s.wrNat a n x).worn = s.worn := State.wrBytes_worn s a _
@[simp] theorem State.wrNat_live (s : State) (a n x : Nat) : (s.wrNat a n x).live = s.live := State.wrBytes_live s a _
@[simp] theorem State.wrNat_devId (s : State) (a n x : Nat) : (s.wrNat a n x).devId = s.devId := State.wrBytes_devId s a _
@[simp] theorem State.wrNat_cert (s : State) (a n x : Nat) : (s.wrNat a n x).cert = s.cert := State.wrBytes_cert s a _
@[simp] theorem State.wrNat_mreg0 (s : State) (a n x : Nat) : (s.wrNat a n x).mreg0 = s.mreg0 := State.wrBytes_mreg0 s a _
@[simp] theorem State.wrNat_mreg1 (s : State) (a n x : Nat) : (s.wrNat a n x).mreg1 = s.mreg1 := State.wrBytes_mreg1 s a _
@[simp] theorem State.wrNat_leaf (s : State) (a n x : Nat) : (s.wrNat a n x).leaf = s.leaf := State.wrBytes_leaf s a _
@[simp] theorem State.wrNat_nonce (s : State) (a n x : Nat) : (s.wrNat a n x).nonce = s.nonce := State.wrBytes_nonce s a _
@[simp] theorem State.wrNat_attStatus (s : State) (a n x : Nat) : (s.wrNat a n x).attStatus = s.attStatus := State.wrBytes_attStatus s a _
@[simp] theorem State.wrNat_attReply (s : State) (a n x : Nat) : (s.wrNat a n x).attReply = s.attReply := State.wrBytes_attReply s a _
@[simp] theorem State.wrNat_jtag (s : State) (a n x : Nat) : (s.wrNat a n x).jtag = s.jtag := State.wrBytes_jtag s a _
@[simp] theorem State.wrNat_hdrs (s : State) (a n x : Nat) : (s.wrNat a n x).hdrs = s.hdrs := State.wrBytes_hdrs s a _
@[simp] theorem State.wrNat_badMem (s : State) (a n x : Nat) : (s.wrNat a n x).badMem = s.badMem := State.wrBytes_badMem s a _
@[simp] theorem State.wrNat_cores (s : State) (a n x : Nat) : (s.wrNat a n x).cores = s.cores := State.wrBytes_cores s a _
@[simp] theorem State.wrNat_clTlbs (s : State) (a n x : Nat) : (s.wrNat a n x).clTlbs = s.clTlbs := State.wrBytes_clTlbs s a _
@[simp] theorem State.wrNat_shoots (s : State) (a n x : Nat) : (s.wrNat a n x).shoots = s.shoots := State.wrBytes_shoots s a _
@[simp] theorem State.wrNat_queues (s : State) (a n x : Nat) : (s.wrNat a n x).queues = s.queues := State.wrBytes_queues s a _
@[simp] theorem State.wrNat_lastQ (s : State) (a n x : Nat) : (s.wrNat a n x).lastQ = s.lastQ := State.wrBytes_lastQ s a _
@[simp] theorem State.wrNat_grids (s : State) (a n x : Nat) : (s.wrNat a n x).grids = s.grids := State.wrBytes_grids s a _
@[simp] theorem State.wrNat_nextGrid (s : State) (a n x : Nat) : (s.wrNat a n x).nextGrid = s.nextGrid := State.wrBytes_nextGrid s a _
@[simp] theorem State.wrNat_colonies (s : State) (a n x : Nat) : (s.wrNat a n x).colonies = s.colonies := State.wrBytes_colonies s a _
@[simp] theorem State.wrNat_updates (s : State) (a n x : Nat) : (s.wrNat a n x).updates = s.updates := State.wrBytes_updates s a _
@[simp] theorem State.wrNat_frozen (s : State) (a n x : Nat) : (s.wrNat a n x).frozen = s.frozen := State.wrBytes_frozen s a _
@[simp] theorem State.wrNat_place (s : State) (a n x : Nat) : (s.wrNat a n x).place = s.place := State.wrBytes_place s a _
@[simp] theorem State.wrNat_thermal (s : State) (a n x : Nat) : (s.wrNat a n x).thermal = s.thermal := State.wrBytes_thermal s a _
@[simp] theorem State.wrNat_weights (s : State) (a n x : Nat) : (s.wrNat a n x).weights = s.weights := State.wrBytes_weights s a _
@[simp] theorem State.wrNat_vmin (s : State) (a n x : Nat) : (s.wrNat a n x).vmin = s.vmin := State.wrBytes_vmin s a _
@[simp] theorem State.wrNat_handlerEntry (s : State) (a n x : Nat) : (s.wrNat a n x).handlerEntry = s.handlerEntry := State.wrBytes_handlerEntry s a _
@[simp] theorem State.wrNat_acc (s : State) (a n x : Nat) : (s.wrNat a n x).acc = s.acc := State.wrBytes_acc s a _
@[simp] theorem State.wrNat_irqs (s : State) (a n x : Nat) : (s.wrNat a n x).irqs = s.irqs := State.wrBytes_irqs s a _
@[simp] theorem State.wrNat_dropped (s : State) (a n x : Nat) : (s.wrNat a n x).dropped = s.dropped := State.wrBytes_dropped s a _
@[simp] theorem State.wrNat_agenda (s : State) (a n x : Nat) : (s.wrNat a n x).agenda = s.agenda := State.wrBytes_agenda s a _
@[simp] theorem State.wrNat_cur (s : State) (a n x : Nat) : (s.wrNat a n x).cur = s.cur := State.wrBytes_cur s a _
@[simp] theorem State.wrNat_ctr (s : State) (a n x : Nat) : (s.wrNat a n x).ctr = s.ctr := State.wrBytes_ctr s a _
@[simp] theorem State.wrNat_seq (s : State) (a n x : Nat) : (s.wrNat a n x).seq = s.seq := State.wrBytes_seq s a _
@[simp] theorem State.wrNat_staged (s : State) (a n x : Nat) : (s.wrNat a n x).staged = s.staged := State.wrBytes_staged s a _
@[simp] theorem State.wrNat_keyDigest (s : State) (a n x : Nat) : (s.wrNat a n x).keyDigest = s.keyDigest := State.wrBytes_keyDigest s a _
@[simp] theorem State.wrNat_rollback (s : State) (a n x : Nat) : (s.wrNat a n x).rollback = s.rollback := State.wrBytes_rollback s a _
@[simp] theorem State.wrNat_debugFuse (s : State) (a n x : Nat) : (s.wrNat a n x).debugFuse = s.debugFuse := State.wrBytes_debugFuse s a _
@[simp] theorem State.wrNat_staging (s : State) (a n x : Nat) : (s.wrNat a n x).staging = s.staging := State.wrBytes_staging s a _
@[simp] theorem State.wrNat_corrected (s : State) (a n x : Nat) : (s.wrNat a n x).corrected = s.corrected := State.wrBytes_corrected s a _

@[simp] theorem Slot.onMem_grid (x : Slot) (id : Nat) (f : Member → Member) : (x.onMem id f).grid = x.grid := rfl
@[simp] theorem Slot.onMem_col (x : Slot) (id : Nat) (f : Member → Member) : (x.onMem id f).col = x.col := rfl
@[simp] theorem Slot.onMem_rank (x : Slot) (id : Nat) (f : Member → Member) : (x.onMem id f).rank = x.rank := rfl
@[simp] theorem Slot.onMem_slice (x : Slot) (id : Nat) (f : Member → Member) : (x.onMem id f).slice = x.slice := rfl
@[simp] theorem Slot.onMem_win (x : Slot) (id : Nat) (f : Member → Member) : (x.onMem id f).win = x.win := rfl
@[simp] theorem Slot.onMem_form (x : Slot) (id : Nat) (f : Member → Member) : (x.onMem id f).form = x.form := rfl
@[simp] theorem Slot.onMem_lanes (x : Slot) (id : Nat) (f : Member → Member) : (x.onMem id f).lanes = x.lanes := rfl
@[simp] theorem Slot.onMem_sregs (x : Slot) (id : Nat) (f : Member → Member) : (x.onMem id f).sregs = x.sregs := rfl
@[simp] theorem Slot.onMem_fmode (x : Slot) (id : Nat) (f : Member → Member) : (x.onMem id f).fmode = x.fmode := rfl
@[simp] theorem Slot.onMem_fflags (x : Slot) (id : Nat) (f : Member → Member) : (x.onMem id f).fflags = x.fflags := rfl
@[simp] theorem Slot.onMem_prio (x : Slot) (id : Nat) (f : Member → Member) : (x.onMem id f).prio = x.prio := rfl
@[simp] theorem Slot.onMem_cychi (x : Slot) (id : Nat) (f : Member → Member) : (x.onMem id f).cychi = x.cychi := rfl
@[simp] theorem Slot.onMem_latch (x : Slot) (id : Nat) (f : Member → Member) : (x.onMem id f).latch = x.latch := rfl
@[simp] theorem Slot.onMem_fams (x : Slot) (id : Nat) (f : Member → Member) : (x.onMem id f).fams = x.fams := rfl
@[simp] theorem Slot.onMem_nextId (x : Slot) (id : Nat) (f : Member → Member) : (x.onMem id f).nextId = x.nextId := rfl
@[simp] theorem Slot.onMem_late (x : Slot) (id : Nat) (f : Member → Member) : (x.onMem id f).late = x.late := rfl
@[simp] theorem Slot.onMem_copies (x : Slot) (id : Nat) (f : Member → Member) : (x.onMem id f).copies = x.copies := rfl
@[simp] theorem Slot.onMem_mtx (x : Slot) (id : Nat) (f : Member → Member) : (x.onMem id f).mtx = x.mtx := rfl
@[simp] theorem Slot.onMem_posts (x : Slot) (id : Nat) (f : Member → Member) : (x.onMem id f).posts = x.posts := rfl
@[simp] theorem Slot.onMem_kids (x : Slot) (id : Nat) (f : Member → Member) : (x.onMem id f).kids = x.kids := rfl
@[simp] theorem Slot.onMem_xs (x : Slot) (id : Nat) (f : Member → Member) : (x.onMem id f).xs = x.xs := rfl
@[simp] theorem Slot.onMem_lease (x : Slot) (id : Nat) (f : Member → Member) : (x.onMem id f).lease = x.lease := rfl
@[simp] theorem Slot.onMem_due (x : Slot) (id : Nat) (f : Member → Member) : (x.onMem id f).due = x.due := rfl
@[simp] theorem Slot.onMem_badRegs (x : Slot) (id : Nat) (f : Member → Member) : (x.onMem id f).badRegs = x.badRegs := rfl
@[simp] theorem Slot.onMem_last (x : Slot) (id : Nat) (f : Member → Member) : (x.onMem id f).last = x.last := rfl
@[simp] theorem Slot.onMem_stopped (x : Slot) (id : Nat) (f : Member → Member) : (x.onMem id f).stopped = x.stopped := rfl
@[simp] theorem Slot.onMem_resumed (x : Slot) (id : Nat) (f : Member → Member) : (x.onMem id f).resumed = x.resumed := rfl

@[simp] theorem Slot.onFibre_grid (x : Slot) (l : Nat) (f : Fibre → Fibre) : (x.onFibre l f).grid = x.grid := rfl
@[simp] theorem Slot.onFibre_col (x : Slot) (l : Nat) (f : Fibre → Fibre) : (x.onFibre l f).col = x.col := rfl
@[simp] theorem Slot.onFibre_rank (x : Slot) (l : Nat) (f : Fibre → Fibre) : (x.onFibre l f).rank = x.rank := rfl
@[simp] theorem Slot.onFibre_slice (x : Slot) (l : Nat) (f : Fibre → Fibre) : (x.onFibre l f).slice = x.slice := rfl
@[simp] theorem Slot.onFibre_win (x : Slot) (l : Nat) (f : Fibre → Fibre) : (x.onFibre l f).win = x.win := rfl
@[simp] theorem Slot.onFibre_form (x : Slot) (l : Nat) (f : Fibre → Fibre) : (x.onFibre l f).form = x.form := rfl
@[simp] theorem Slot.onFibre_sregs (x : Slot) (l : Nat) (f : Fibre → Fibre) : (x.onFibre l f).sregs = x.sregs := rfl
@[simp] theorem Slot.onFibre_fmode (x : Slot) (l : Nat) (f : Fibre → Fibre) : (x.onFibre l f).fmode = x.fmode := rfl
@[simp] theorem Slot.onFibre_fflags (x : Slot) (l : Nat) (f : Fibre → Fibre) : (x.onFibre l f).fflags = x.fflags := rfl
@[simp] theorem Slot.onFibre_prio (x : Slot) (l : Nat) (f : Fibre → Fibre) : (x.onFibre l f).prio = x.prio := rfl
@[simp] theorem Slot.onFibre_cychi (x : Slot) (l : Nat) (f : Fibre → Fibre) : (x.onFibre l f).cychi = x.cychi := rfl
@[simp] theorem Slot.onFibre_latch (x : Slot) (l : Nat) (f : Fibre → Fibre) : (x.onFibre l f).latch = x.latch := rfl
@[simp] theorem Slot.onFibre_members (x : Slot) (l : Nat) (f : Fibre → Fibre) : (x.onFibre l f).members = x.members := rfl
@[simp] theorem Slot.onFibre_fams (x : Slot) (l : Nat) (f : Fibre → Fibre) : (x.onFibre l f).fams = x.fams := rfl
@[simp] theorem Slot.onFibre_nextId (x : Slot) (l : Nat) (f : Fibre → Fibre) : (x.onFibre l f).nextId = x.nextId := rfl
@[simp] theorem Slot.onFibre_late (x : Slot) (l : Nat) (f : Fibre → Fibre) : (x.onFibre l f).late = x.late := rfl
@[simp] theorem Slot.onFibre_copies (x : Slot) (l : Nat) (f : Fibre → Fibre) : (x.onFibre l f).copies = x.copies := rfl
@[simp] theorem Slot.onFibre_mtx (x : Slot) (l : Nat) (f : Fibre → Fibre) : (x.onFibre l f).mtx = x.mtx := rfl
@[simp] theorem Slot.onFibre_posts (x : Slot) (l : Nat) (f : Fibre → Fibre) : (x.onFibre l f).posts = x.posts := rfl
@[simp] theorem Slot.onFibre_kids (x : Slot) (l : Nat) (f : Fibre → Fibre) : (x.onFibre l f).kids = x.kids := rfl
@[simp] theorem Slot.onFibre_xs (x : Slot) (l : Nat) (f : Fibre → Fibre) : (x.onFibre l f).xs = x.xs := rfl
@[simp] theorem Slot.onFibre_lease (x : Slot) (l : Nat) (f : Fibre → Fibre) : (x.onFibre l f).lease = x.lease := rfl
@[simp] theorem Slot.onFibre_due (x : Slot) (l : Nat) (f : Fibre → Fibre) : (x.onFibre l f).due = x.due := rfl
@[simp] theorem Slot.onFibre_badRegs (x : Slot) (l : Nat) (f : Fibre → Fibre) : (x.onFibre l f).badRegs = x.badRegs := rfl
@[simp] theorem Slot.onFibre_last (x : Slot) (l : Nat) (f : Fibre → Fibre) : (x.onFibre l f).last = x.last := rfl
@[simp] theorem Slot.onFibre_stopped (x : Slot) (l : Nat) (f : Fibre → Fibre) : (x.onFibre l f).stopped = x.stopped := rfl
@[simp] theorem Slot.onFibre_resumed (x : Slot) (l : Nat) (f : Fibre → Fibre) : (x.onFibre l f).resumed = x.resumed := rfl

@[simp] theorem Slot.addLate_grid (x : Slot) (o : LateOp) : (x.addLate o).grid = x.grid := rfl
@[simp] theorem Slot.addLate_col (x : Slot) (o : LateOp) : (x.addLate o).col = x.col := rfl
@[simp] theorem Slot.addLate_rank (x : Slot) (o : LateOp) : (x.addLate o).rank = x.rank := rfl
@[simp] theorem Slot.addLate_slice (x : Slot) (o : LateOp) : (x.addLate o).slice = x.slice := rfl
@[simp] theorem Slot.addLate_win (x : Slot) (o : LateOp) : (x.addLate o).win = x.win := rfl
@[simp] theorem Slot.addLate_form (x : Slot) (o : LateOp) : (x.addLate o).form = x.form := rfl
@[simp] theorem Slot.addLate_lanes (x : Slot) (o : LateOp) : (x.addLate o).lanes = x.lanes := rfl
@[simp] theorem Slot.addLate_sregs (x : Slot) (o : LateOp) : (x.addLate o).sregs = x.sregs := rfl
@[simp] theorem Slot.addLate_fmode (x : Slot) (o : LateOp) : (x.addLate o).fmode = x.fmode := rfl
@[simp] theorem Slot.addLate_fflags (x : Slot) (o : LateOp) : (x.addLate o).fflags = x.fflags := rfl
@[simp] theorem Slot.addLate_prio (x : Slot) (o : LateOp) : (x.addLate o).prio = x.prio := rfl
@[simp] theorem Slot.addLate_cychi (x : Slot) (o : LateOp) : (x.addLate o).cychi = x.cychi := rfl
@[simp] theorem Slot.addLate_latch (x : Slot) (o : LateOp) : (x.addLate o).latch = x.latch := rfl
@[simp] theorem Slot.addLate_members (x : Slot) (o : LateOp) : (x.addLate o).members = x.members := rfl
@[simp] theorem Slot.addLate_fams (x : Slot) (o : LateOp) : (x.addLate o).fams = x.fams := rfl
@[simp] theorem Slot.addLate_nextId (x : Slot) (o : LateOp) : (x.addLate o).nextId = x.nextId := rfl
@[simp] theorem Slot.addLate_copies (x : Slot) (o : LateOp) : (x.addLate o).copies = x.copies := rfl
@[simp] theorem Slot.addLate_mtx (x : Slot) (o : LateOp) : (x.addLate o).mtx = x.mtx := rfl
@[simp] theorem Slot.addLate_posts (x : Slot) (o : LateOp) : (x.addLate o).posts = x.posts := rfl
@[simp] theorem Slot.addLate_kids (x : Slot) (o : LateOp) : (x.addLate o).kids = x.kids := rfl
@[simp] theorem Slot.addLate_xs (x : Slot) (o : LateOp) : (x.addLate o).xs = x.xs := rfl
@[simp] theorem Slot.addLate_lease (x : Slot) (o : LateOp) : (x.addLate o).lease = x.lease := rfl
@[simp] theorem Slot.addLate_due (x : Slot) (o : LateOp) : (x.addLate o).due = x.due := rfl
@[simp] theorem Slot.addLate_badRegs (x : Slot) (o : LateOp) : (x.addLate o).badRegs = x.badRegs := rfl
@[simp] theorem Slot.addLate_last (x : Slot) (o : LateOp) : (x.addLate o).last = x.last := rfl
@[simp] theorem Slot.addLate_stopped (x : Slot) (o : LateOp) : (x.addLate o).stopped = x.stopped := rfl
@[simp] theorem Slot.addLate_resumed (x : Slot) (o : LateOp) : (x.addLate o).resumed = x.resumed := rfl

@[simp] theorem Slot.raw_grid (x : Slot) (d : Dest) (w : Img) : (x.raw d w).grid = x.grid := by cases d <;> rfl
@[simp] theorem Slot.raw_col (x : Slot) (d : Dest) (w : Img) : (x.raw d w).col = x.col := by cases d <;> rfl
@[simp] theorem Slot.raw_rank (x : Slot) (d : Dest) (w : Img) : (x.raw d w).rank = x.rank := by cases d <;> rfl
@[simp] theorem Slot.raw_slice (x : Slot) (d : Dest) (w : Img) : (x.raw d w).slice = x.slice := by cases d <;> rfl
@[simp] theorem Slot.raw_win (x : Slot) (d : Dest) (w : Img) : (x.raw d w).win = x.win := by cases d <;> rfl
@[simp] theorem Slot.raw_form (x : Slot) (d : Dest) (w : Img) : (x.raw d w).form = x.form := by cases d <;> rfl
@[simp] theorem Slot.raw_fmode (x : Slot) (d : Dest) (w : Img) : (x.raw d w).fmode = x.fmode := by cases d <;> rfl
@[simp] theorem Slot.raw_fflags (x : Slot) (d : Dest) (w : Img) : (x.raw d w).fflags = x.fflags := by cases d <;> rfl
@[simp] theorem Slot.raw_prio (x : Slot) (d : Dest) (w : Img) : (x.raw d w).prio = x.prio := by cases d <;> rfl
@[simp] theorem Slot.raw_cychi (x : Slot) (d : Dest) (w : Img) : (x.raw d w).cychi = x.cychi := by cases d <;> rfl
@[simp] theorem Slot.raw_latch (x : Slot) (d : Dest) (w : Img) : (x.raw d w).latch = x.latch := by cases d <;> rfl
@[simp] theorem Slot.raw_members (x : Slot) (d : Dest) (w : Img) : (x.raw d w).members = x.members := by cases d <;> rfl
@[simp] theorem Slot.raw_fams (x : Slot) (d : Dest) (w : Img) : (x.raw d w).fams = x.fams := by cases d <;> rfl
@[simp] theorem Slot.raw_nextId (x : Slot) (d : Dest) (w : Img) : (x.raw d w).nextId = x.nextId := by cases d <;> rfl
@[simp] theorem Slot.raw_late (x : Slot) (d : Dest) (w : Img) : (x.raw d w).late = x.late := by cases d <;> rfl
@[simp] theorem Slot.raw_copies (x : Slot) (d : Dest) (w : Img) : (x.raw d w).copies = x.copies := by cases d <;> rfl
@[simp] theorem Slot.raw_mtx (x : Slot) (d : Dest) (w : Img) : (x.raw d w).mtx = x.mtx := by cases d <;> rfl
@[simp] theorem Slot.raw_posts (x : Slot) (d : Dest) (w : Img) : (x.raw d w).posts = x.posts := by cases d <;> rfl
@[simp] theorem Slot.raw_kids (x : Slot) (d : Dest) (w : Img) : (x.raw d w).kids = x.kids := by cases d <;> rfl
@[simp] theorem Slot.raw_xs (x : Slot) (d : Dest) (w : Img) : (x.raw d w).xs = x.xs := by cases d <;> rfl
@[simp] theorem Slot.raw_lease (x : Slot) (d : Dest) (w : Img) : (x.raw d w).lease = x.lease := by cases d <;> rfl
@[simp] theorem Slot.raw_due (x : Slot) (d : Dest) (w : Img) : (x.raw d w).due = x.due := by cases d <;> rfl
@[simp] theorem Slot.raw_badRegs (x : Slot) (d : Dest) (w : Img) : (x.raw d w).badRegs = x.badRegs := by cases d <;> rfl
@[simp] theorem Slot.raw_last (x : Slot) (d : Dest) (w : Img) : (x.raw d w).last = x.last := by cases d <;> rfl
@[simp] theorem Slot.raw_stopped (x : Slot) (d : Dest) (w : Img) : (x.raw d w).stopped = x.stopped := by cases d <;> rfl
@[simp] theorem Slot.raw_resumed (x : Slot) (d : Dest) (w : Img) : (x.raw d w).resumed = x.resumed := by cases d <;> rfl

@[simp] theorem Slot.put_grid (x : Slot) (d : Dest) (w : Img) : (x.put d w).grid = x.grid := by cases d <;> rfl
@[simp] theorem Slot.put_col (x : Slot) (d : Dest) (w : Img) : (x.put d w).col = x.col := by cases d <;> rfl
@[simp] theorem Slot.put_rank (x : Slot) (d : Dest) (w : Img) : (x.put d w).rank = x.rank := by cases d <;> rfl
@[simp] theorem Slot.put_slice (x : Slot) (d : Dest) (w : Img) : (x.put d w).slice = x.slice := by cases d <;> rfl
@[simp] theorem Slot.put_win (x : Slot) (d : Dest) (w : Img) : (x.put d w).win = x.win := by cases d <;> rfl
@[simp] theorem Slot.put_form (x : Slot) (d : Dest) (w : Img) : (x.put d w).form = x.form := by cases d <;> rfl
@[simp] theorem Slot.put_fmode (x : Slot) (d : Dest) (w : Img) : (x.put d w).fmode = x.fmode := by cases d <;> rfl
@[simp] theorem Slot.put_fflags (x : Slot) (d : Dest) (w : Img) : (x.put d w).fflags = x.fflags := by cases d <;> rfl
@[simp] theorem Slot.put_prio (x : Slot) (d : Dest) (w : Img) : (x.put d w).prio = x.prio := by cases d <;> rfl
@[simp] theorem Slot.put_cychi (x : Slot) (d : Dest) (w : Img) : (x.put d w).cychi = x.cychi := by cases d <;> rfl
@[simp] theorem Slot.put_latch (x : Slot) (d : Dest) (w : Img) : (x.put d w).latch = x.latch := by cases d <;> rfl
@[simp] theorem Slot.put_members (x : Slot) (d : Dest) (w : Img) : (x.put d w).members = x.members := by cases d <;> rfl
@[simp] theorem Slot.put_fams (x : Slot) (d : Dest) (w : Img) : (x.put d w).fams = x.fams := by cases d <;> rfl
@[simp] theorem Slot.put_nextId (x : Slot) (d : Dest) (w : Img) : (x.put d w).nextId = x.nextId := by cases d <;> rfl
@[simp] theorem Slot.put_copies (x : Slot) (d : Dest) (w : Img) : (x.put d w).copies = x.copies := by cases d <;> rfl
@[simp] theorem Slot.put_posts (x : Slot) (d : Dest) (w : Img) : (x.put d w).posts = x.posts := by cases d <;> rfl
@[simp] theorem Slot.put_kids (x : Slot) (d : Dest) (w : Img) : (x.put d w).kids = x.kids := by cases d <;> rfl
@[simp] theorem Slot.put_xs (x : Slot) (d : Dest) (w : Img) : (x.put d w).xs = x.xs := by cases d <;> rfl
@[simp] theorem Slot.put_lease (x : Slot) (d : Dest) (w : Img) : (x.put d w).lease = x.lease := by cases d <;> rfl
@[simp] theorem Slot.put_due (x : Slot) (d : Dest) (w : Img) : (x.put d w).due = x.due := by cases d <;> rfl
@[simp] theorem Slot.put_last (x : Slot) (d : Dest) (w : Img) : (x.put d w).last = x.last := by cases d <;> rfl
@[simp] theorem Slot.put_stopped (x : Slot) (d : Dest) (w : Img) : (x.put d w).stopped = x.stopped := by cases d <;> rfl
@[simp] theorem Slot.put_resumed (x : Slot) (d : Dest) (w : Img) : (x.put d w).resumed = x.resumed := by cases d <;> rfl

-- reading after a write

@[simp] theorem State.core_setCore_self (s : State) (c : Nat) (k : Core) : (s.setCore c k).core c = k := by
  simp [State.core, State.setCore, lget_lput_self]

theorem State.core_setCore_ne (s : State) (k : Core) {c d : Nat} (h : d ≠ c) : (s.setCore c k).core d = s.core d := by
  simp [State.core, State.setCore, lget_lput_ne _ _ _ h]

@[simp] theorem State.queue_setQueue_self (s : State) (q : Nat) (k : Queue) : (s.setQueue q k).queue q = k := by
  simp [State.queue, State.setQueue, lget_lput_self]

theorem State.queue_setQueue_ne (s : State) (k : Queue) {q r : Nat} (h : r ≠ q) : (s.setQueue q k).queue r = s.queue r := by
  simp [State.queue, State.setQueue, lget_lput_ne _ _ _ h]

@[simp] theorem State.core_onCore_self (s : State) (c : Nat) (f : Core → Core) : (s.onCore c f).core c = f (s.core c) := by
  simp [State.onCore]

@[simp] theorem State.queue_onQueue_self (s : State) (q : Nat) (f : Queue → Queue) : (s.onQueue q f).queue q = f (s.queue q) := by
  simp [State.onQueue]

theorem State.setCore_setCore (s : State) (c : Nat) (k m : Core) : (s.setCore c k).setCore c m = s.setCore c m := by
  simp [State.setCore, lput_lput_self]

@[simp] theorem Core.slot?_setSlot_self (k : Core) (n : Nat) (x : Slot) : (k.setSlot n x).slot? n = some x := by
  unfold Core.setSlot Core.slot?
  split <;> simp [*, lfind_lput_self]

theorem Core.slot?_setSlot_ne (k : Core) (x : Slot) {n m : Nat} (h : m ≠ n) : (k.setSlot n x).slot? m = k.slot? m := by
  unfold Core.setSlot Core.slot?
  by_cases a : n = 64 <;> by_cases b : m = 64 <;> simp [a, b, lfind_lput_ne _ _ h]
  all_goals exact absurd (b.trans a.symm) h

theorem Core.setSlot_setSlot (k : Core) (n : Nat) (x y : Slot) : (k.setSlot n x).setSlot n y = k.setSlot n y := by
  unfold Core.setSlot
  split <;> simp [lput_lput_self]

@[simp] theorem State.slot?_setSlot_self (s : State) (c n : Nat) (x : Slot) : (s.setSlot c n x).slot? c n = some x := by
  simp [State.slot?, State.setSlot]

theorem State.setSlot_setSlot (s : State) (c n : Nat) (x y : Slot) : (s.setSlot c n x).setSlot c n y = s.setSlot c n y := by
  simp [State.setSlot, State.setCore_setCore, Core.setSlot_setSlot]

theorem State.onSlot_eq {s : State} {c n : Nat} {x : Slot} (f : Slot → Slot) (h : s.slot? c n = some x) :
    s.onSlot c n f = s.setSlot c n (f x) := by
  simp [State.onSlot, h]

theorem State.slot?_onSlot_self {s : State} {c n : Nat} {x : Slot} (f : Slot → Slot) (h : s.slot? c n = some x) :
    (s.onSlot c n f).slot? c n = some (f x) := by
  simp [State.onSlot_eq f h]

@[simp] theorem State.slot?_onColony (s : State) (g k : Nat) (f : Colony → Colony) (c n : Nat) :
    (s.onColony g k f).slot? c n = s.slot? c n := rfl

@[simp] theorem State.slot?_issuing (s : State) (c n : Nat) : s.issuing.slot? c n = s.slot? c n := rfl

@[simp] theorem State.rdByte_wrByte (s : State) (a b : Nat) (w : Byte) : (s.wrByte a w).rdByte b = if b = a then w else s.rdByte b :=
  lget_cset _ _ _ _ _

@[simp] theorem State.rdHdr_wrHdr (s : State) (a b : Nat) (w : Word) : (s.wrHdr a w).rdHdr b = if b / 64 = a / 64 then w else s.rdHdr b :=
  lget_cset _ _ _ _ _

/-- A byte write keeps the canonical form of memory. -/
theorem State.wrByte_wf {s : State} (a : Nat) (b : Byte) (h : Memory.wf s.mem = true) : Memory.wf (s.wrByte a b).mem = true :=
  cwf_cset a b h

theorem State.wrBytes_wf {s : State} (a : Nat) (l : List Byte) (h : Memory.wf s.mem = true) : Memory.wf (s.wrBytes a l).mem = true := by
  induction l generalizing s a with
  | nil => exact h
  | cons b r ih => exact ih _ (State.wrByte_wf a b h)

theorem State.wrNat_wf {s : State} (a n x : Nat) (h : Memory.wf s.mem = true) : Memory.wf (s.wrNat a n x).mem = true :=
  State.wrBytes_wf a _ h

/-- A header write keeps the canonical form of the headers. -/
theorem State.wrHdr_wf {s : State} (a : Nat) (w : Word) (h : cwf (0 : Word) s.hdrs = true) : cwf (0 : Word) (s.wrHdr a w).hdrs = true :=
  cwf_cset _ _ h

/-- The byte at an address after a list of bytes is written. -/
theorem State.rdByte_wrBytes (s : State) (a b : Nat) (l : List Byte) :
    (s.wrBytes a l).rdByte b = if a ≤ b ∧ b < a + l.length then l.getD (b - a) 0 else s.rdByte b := by
  induction l generalizing s a with
  | nil => simp [State.wrBytes]
  | cons w r ih =>
    rw [State.wrBytes, ih]
    by_cases e : b = a
    · subst e; simp
    · by_cases g : a + 1 ≤ b ∧ b < a + 1 + r.length
      · have h2 : b - a = (b - (a + 1)) + 1 := by omega
        have h3 : a ≤ b ∧ b < a + (w :: r).length := by simp only [List.length_cons]; omega
        rw [if_pos g, if_pos h3, h2]; rfl
      · have h3 : ¬(a ≤ b ∧ b < a + (w :: r).length) := by simp only [List.length_cons]; omega
        rw [if_neg g, if_neg h3, State.rdByte_wrByte, if_neg e]

/-- Bytes and numbers read the same where every byte does. -/
theorem State.rdBytes_congr {s u : State} {a n : Nat} (h : ∀ i, i < n → u.rdByte (a + i) = s.rdByte (a + i)) : u.rdBytes a n = s.rdBytes a n := by
  induction n generalizing a with
  | zero => rfl
  | succ n ih =>
    have h0 : u.rdByte a = s.rdByte a := h 0 (by omega)
    rw [State.rdBytes, State.rdBytes, h0, ih fun i hi => by rw [show a + 1 + i = a + (i + 1) by omega]; exact h _ (by omega)]

theorem State.rdNat_congr {s u : State} {a n : Nat} (h : ∀ i, i < n → u.rdByte (a + i) = s.rdByte (a + i)) : u.rdNat a n = s.rdNat a n := by
  rw [State.rdNat, State.rdNat, State.rdBytes_congr h]

end Sys2Proof.Machine
end

