-- ==== Sys2Proof/Laws/Ops.lean ====
section
/-! SUPPORT. What the shared operations of Machine/Ops.lean can do: an issue, what an instruction leaves
behind, metering and parks. -/

namespace Sys2Proof.Machine

-- issuing

/-- The environment is that of the issuing member, in its slot. -/
theorem State.env_spec {s : State} {h : Hdr} {e : Env} (he : s.env h = some e) :
    ∃ x, s.slot? e.c e.n = some x ∧ x.mem? e.m.id = some e.m ∧ e.x = (x.view s.ctr).mtxView s.ctr ∧
      e.act = maskOf ((lanesOf e.m.mask).filter fun l => e.x.p l h.pg != h.pn) := by
  unfold State.env at he
  split at he
  · cases he
  · split at he
    · cases he
    · split at he
      · cases he
      · rename_i u _ _ x hx _ m hm
        cases he
        have : m.id = u.mem := by
          have := List.find?_some hm
          simpa using this
        exact ⟨x, hx, by rw [this]; exact hm, rfl, rfl⟩

/-- An instruction that is issued, passes the common checks and takes part in some lane has its own effect. -/
theorem issue_own {h : Hdr} {cls : Nat} {u : Uses} {w : Where} {outer : Bool} {k : Env → State → Res} {s : State} {e : Env}
    (hi : Issues h u w s e) : issue h cls u w outer k s = .next ((k e s.issuing).settle e h cls outer) := by
  have := hi.some_lane
  simp only [issue, hi.env, hi.pass, this, if_false, State.issuing]

/-- One that takes part in no lane only passes; one with the never-true guard is not even metered (R48). -/
theorem issue_idle {h : Hdr} {cls : Nat} {u : Uses} {w : Where} {outer : Bool} {k : Env → State → Res} {s : State} {e : Env}
    (he : s.env h = some e) (hp : precheck e h u w s = none) (ha : e.act = 0) :
    issue h cls u w outer k s = .next ((Res.go s (idleCount h cls)).settle e h cls false) := by
  simp [issue, he, hp, ha]

/-- One that a common check stops traps. -/
theorem issue_stopped {h : Hdr} {cls : Nat} {u : Uses} {w : Where} {outer : Bool} {k : Env → State → Res} {s t : State} {e : Env} {r : Tr}
    (he : s.env h = some e) (hp : precheck e h u w s = some (r, t)) :
    issue h cls u w outer k s = .next ((Res.trap t r).settle e h cls outer) := by
  simp [issue, he, hp]

-- members

theorem Slot.mem?_onMem_self {x : Slot} {id : Nat} {m : Member} {f : Member → Member} (h : x.mem? id = some m)
    (hf : ∀ k, (f k).id = k.id) : (x.onMem id f).mem? id = some (f m) := by
  unfold Slot.mem? Slot.onMem at *
  simp only
  revert h
  induction x.members with
  | nil => simp
  | cons a r ih =>
    intro h
    by_cases e : a.id = id
    · have g : (a.id == id) = true := by simpa using e
      have g' : ((f a).id == id) = true := by rw [hf]; exact g
      simp only [List.find?, g, Option.some.injEq] at h
      subst h
      rw [List.map_cons, if_pos e, List.find?_cons_of_pos (by simpa using g')]
    · have e' : (a.id == id) = false := by simpa using e
      simp only [List.find?, e'] at h
      simp only [List.map_cons, e, if_false, List.find?, e']
      exact ih h

theorem Slot.mem?_onMem_ne {x : Slot} {id k : Nat} (f : Member → Member) (hf : ∀ m, (f m).id = m.id) (h : k ≠ id) :
    (x.onMem id f).mem? k = x.mem? k := by
  unfold Slot.mem? Slot.onMem
  simp only
  induction x.members with
  | nil => rfl
  | cons a r ih =>
    by_cases e : a.id = id
    · have g : (a.id == k) = false := by simpa [e] using Ne.symm h
      have g' : ((f a).id == k) = false := by rw [hf]; exact g
      rw [List.map_cons, if_pos e, List.find?_cons_of_neg (by simpa using g'), List.find?_cons_of_neg (by simpa using g), ih]
    · simp only [List.map_cons, e, if_false, List.find?]
      split <;> simp_all

-- metering (R234)

/-- Metering changes a slot's own records and its colony's total alone. -/
theorem State.slot?_charge {s : State} {c n : Nat} {x : Slot} (m : Member) (cls cnt : Nat) (outer : Bool)
    (h : s.slot? c n = some x) :
    ∃ xs, (s.charge c n m cls cnt outer).slot? c n = some { x with xs := xs } ∧
      xs.map (fun r => { r with energy := 0 }) = x.xs.map (fun r => { r with energy := 0 }) := by
  unfold State.charge
  split
  · exact ⟨x.xs, h, rfl⟩
  · simp only [h, State.slot?_onColony, State.slot?_setSlot_self]
    refine ⟨_, rfl, ?_⟩
    simp only [List.map_map]
    apply List.map_congr_left
    intro r _
    simp only [Function.comp]
    repeat' split
    all_goals rfl

theorem State.beside_setSlot (s : State) (c n : Nat) (x : Slot) : (s.setSlot c n x).beside c n = s.beside c n := by
  simp [State.beside, State.setSlot_setSlot]

theorem State.beside_onSlot (s : State) (c n : Nat) (f : Slot → Slot) : (s.onSlot c n f).beside c n = s.beside c n := by
  unfold State.onSlot
  split
  · exact State.beside_setSlot ..
  · rfl

theorem State.beside_issuing (s : State) (c n : Nat) : s.issuing.beside c n = s.beside c n := rfl

theorem State.beside_charge (s : State) (c n : Nat) (m : Member) (cls cnt : Nat) (outer : Bool) :
    (s.charge c n m cls cnt outer).beside c n = s.beside c n := by
  unfold State.charge
  split
  · rfl
  · split
    · rfl
    · rw [← State.beside_setSlot s c n]
      simp only [State.beside, State.onColony, State.setSlot, State.setCore]
      congr 1
      simp only [List.map_map]
      apply List.map_congr_left
      intro z _
      simp only [Function.comp]
      split <;> rfl

@[simp] theorem State.mem_charge (s : State) (c n : Nat) (m : Member) (cls cnt : Nat) (outer : Bool) :
    (s.charge c n m cls cnt outer).mem = s.mem := by
  unfold State.charge
  split
  · rfl
  · split <;> rfl

@[simp] theorem State.hdrs_charge (s : State) (c n : Nat) (m : Member) (cls cnt : Nat) (outer : Bool) :
    (s.charge c n m cls cnt outer).hdrs = s.hdrs := by
  unfold State.charge
  split
  · rfl
  · split <;> rfl

@[simp] theorem State.now_charge (s : State) (c n : Nat) (m : Member) (cls cnt : Nat) (outer : Bool) :
    (s.charge c n m cls cnt outer).now = s.now := by
  unfold State.charge
  split
  · rfl
  · split <;> rfl

-- what an instruction leaves behind

/-- The frame of an effect on the slot alone. -/
theorem OnlySlot.of {e : Env} {s t : State} {x y : Slot} (hb : s.slot? e.c e.n = some x) (ha : t.slot? e.c e.n = some y)
    (h : t.beside e.c e.n = s.beside e.c e.n) : OnlySlot e s t x y := by
  refine ⟨hb, ha, h, fun a => ?_, fun a => ?_⟩
  · have := congrArg State.mem h
    simp only [State.beside, State.setSlot_mem] at this
    simp [State.rdByte, this]
  · have := congrArg State.hdrs h
    simp only [State.beside, State.setSlot_hdrs] at this
    simp [State.rdHdr, this]

/-- An instruction that is done: its slot as its effect left it, its member behind it. -/
theorem settle_go {s t : State} {e : Env} {h : Hdr} {cls cnt : Nat} {outer : Bool} {x y : Slot}
    (hx : s.slot? e.c e.n = some x) (hy : t.slot? e.c e.n = some y) (hb : t.beside e.c e.n = s.beside e.c e.n)
    (hm : x.mem? e.m.id = some e.m) (hms : y.members = x.members) :
    ∃ s' z, (Res.go t cnt).settle e h cls outer = s' ∧ OnlySlot e s s' x z ∧ OneMember e.m.id x z (Passed h) ∧
      z.plain = y.plain ∧ (∀ l, z.fibre? l = y.fibre? l) ∧ z.lanes = y.lanes ∧ z.sregs = y.sregs ∧ z.fflags = y.fflags ∧
      z.late = y.late ∧ z.mtx = y.mtx ∧ z.badRegs = y.badRegs := by
  obtain ⟨xs, h1, h2⟩ := State.slot?_charge e.m cls cnt outer hy
  refine ⟨_, _, rfl, OnlySlot.of hx (State.slot?_onSlot_self _ h1) ?_, ⟨⟨e.m, _, hm, Slot.mem?_onMem_self (m := e.m) ?_ ?_, ?_⟩, ?_⟩, ?_, ?_, ?_, ?_, ?_, ?_, ?_, ?_⟩
  · simp only [Res.settle, State.passOn, State.beside_onSlot, State.beside_charge, hb]
  · simpa [Slot.mem?, hms] using hm
  · intro k; rfl
  · exact ⟨rfl, rfl, rfl, rfl, rfl⟩
  · intro k hk
    refine (Slot.mem?_onMem_ne _ ?_ hk).trans ?_
    · intro m; rfl
    simp [Slot.mem?, hms]
  · simp only [Slot.plain, Slot.onMem, Slot.mk.injEq, and_self, true_and, and_true]
    exact h2
  all_goals intros; rfl

-- instructions that only pass, park or trap

theorem SameRegs.refl (x : Slot) : SameRegs x x := ⟨fun _ _ => rfl, fun _ => rfl, fun _ _ => rfl, rfl, rfl, rfl, rfl⟩

theorem passes_of {h : Hdr} {cls cnt : Nat} {u : Uses} {w : Where} {outer : Bool} {k : Env → State → Res} {s : State} {e : Env}
    (hi : Issues h u w s e) (hk : k e s.issuing = .go s.issuing cnt) : Passes (issue h cls u w outer k s) h s e := by
  obtain ⟨x, hx, hm, _, _⟩ := State.env_spec hi.env
  have hx' : s.issuing.slot? e.c e.n = some x := hx
  obtain ⟨s', z, h1, h2, h3, h4, h5, h6, h7, h8, h9, h10, h11⟩ := settle_go (h := h) (cls := cls) (cnt := cnt) (outer := outer) hx hx'
    (State.beside_issuing _ _ _) hm rfl
  refine ⟨s', x, z, by rw [issue_own hi, hk, h1], h2, h3, h4, ?_, ?_, ?_, h8, h9, h10, h11⟩
  · intro l n; simp [Slot.v, Slot.fibre, h6]
  · intro n; simp [Slot.s, h7]
  · intro l n; simp [Slot.pbit, Slot.fibre, h6]

/-- A park that is none of R220's ends no lease. -/
theorem Core.leaseEnds_of {p : Park} (h : p.endsLease = false) (k : Core) : k.leaseEnds p = false := by
  simp [Core.leaseEnds, h]

/-- A park that ends no lease changes the member alone. -/
theorem parkMem_only {s t : State} {c n id : Nat} {h : Hdr} {p : Park} {next : Bool} {x y : Slot} {m : Member}
    (hy : t.slot? c n = some y) (hm : y.mem? id = some m) (hp : p.endsLease = false)
    (hb : t.beside c n = s.beside c n) (hxm : x.mem? id = some m)
    (hms : y.members = x.members) :
    ∃ z, (t.parkMem c n id h p next).slot? c n = some z ∧ (t.parkMem c n id h p next).beside c n = s.beside c n ∧
      OneMember id x z (Parked p (if next then m.nextPc h else m.pc)) ∧ z.plain = y.plain ∧ SameRegs y z := by
  have e : t.parkMem c n id h p next = t.onSlot c n fun x => x.onMem id fun m =>
      { m with pc := if next then m.pc + BitVec.ofNat 64 (lenBytes h.len) else m.pc, src := m.pc, len := lenBytes h.len, last := t.now
               y := h.y, st := p, usec := if p.again then m.usec else none, waited := if p.again then m.waited else 0, left := none } := by
    unfold State.parkMem
    simp only [Core.leaseEnds_of hp, Bool.false_eq_true, if_false]
    rw [State.onSlot_eq _ hy]
    unfold State.onCore
    simp only [State.setSlot, State.core_setCore_self, State.setCore_setCore]
  rw [e]
  refine ⟨_, State.slot?_onSlot_self _ hy, by rw [State.beside_onSlot, hb], ⟨⟨m, _, hxm, Slot.mem?_onMem_self hm ?_, ?_⟩, ?_⟩, ?_, ?_⟩
  · intro k; rfl
  · exact ⟨by cases next <;> rfl, rfl, rfl, rfl, rfl, rfl⟩
  · intro k hk
    refine (Slot.mem?_onMem_ne _ ?_ hk).trans ?_
    · intro m; rfl
    · simp [Slot.mem?, hms]
  · rfl
  · exact ⟨fun _ _ => rfl, fun _ => rfl, fun _ _ => rfl, rfl, rfl, rfl, rfl⟩

theorem parks_charged {h : Hdr} {cls : Nat} {outer next : Bool} {s : State} {e : Env} {p : Park} {x : Slot}
    (hx : s.slot? e.c e.n = some x) (hm : x.mem? e.m.id = some e.m) (hp : p.endsLease = false) :
    Parks (.next ((s.issuing.charge e.c e.n e.m cls 1 outer).parkMem e.c e.n e.m.id h p next)) s e p (if next then e.m.nextPc h else e.m.pc) := by
  have hx' : s.issuing.slot? e.c e.n = some x := hx
  obtain ⟨xs, h1, h2⟩ := State.slot?_charge e.m cls 1 outer hx'
  obtain ⟨z, hz, hb, ho, hpl, hs⟩ := parkMem_only (s := s) (h := h) (next := next) h1 (m := e.m) hm hp (by rw [State.beside_charge, State.beside_issuing]) hm rfl
  refine ⟨_, x, z, rfl, OnlySlot.of hx hz hb, ho, hpl.trans ?_, ⟨hs.v, hs.s, hs.p, hs.flags, hs.late, hs.mtx, hs.bad⟩⟩
  simp only [Slot.plain, Slot.mk.injEq, and_self, true_and, and_true]
  exact h2

theorem parks_wait {h : Hdr} {cls : Nat} {u : Uses} {w : Where} {outer : Bool} {k : Env → State → Res} {s : State} {e : Env} {p : Park}
    (hi : Issues h u w s e) (hk : k e s.issuing = .wait s.issuing p) (hp : p.endsLease = false) :
    Parks (issue h cls u w outer k s) s e p (e.m.nextPc h) := by
  obtain ⟨x, hx, hm, _, _⟩ := State.env_spec hi.env
  rw [issue_own hi, hk]
  exact parks_charged (next := true) hx hm hp

theorem parks_hold {h : Hdr} {cls : Nat} {u : Uses} {w : Where} {outer : Bool} {k : Env → State → Res} {s : State} {e : Env} {p : Park}
    (hi : Issues h u w s e) (hk : k e s.issuing = .hold s.issuing p) (hp : p.endsLease = false) :
    Parks (issue h cls u w outer k s) s e p e.m.pc := by
  obtain ⟨x, hx, hm, _, _⟩ := State.env_spec hi.env
  rw [issue_own hi, hk]
  exact parks_charged (next := false) hx hm hp

/-- Suspending a lease changes nothing of a slot but its lease. -/
theorem Core.slot?_suspendLease {k : Core} {n : Nat} {x : Slot} (seq : Nat) (h : k.slot? n = some x) :
    ∃ z, (k.suspendLease n seq).slot? n = some { x with lease := z } := by
  have this : ∀ (f : Engine), ({ k with engine := f } : Core).slot? n = some x := by
    intro f; simpa [Core.slot?] using h
  unfold Core.suspendLease
  simp only [this]
  repeat' split
  all_goals first
    | exact ⟨x.lease, h⟩
    | exact ⟨_, Core.slot?_setSlot_self _ _ _⟩

theorem mem_addPend (p : Pend) (l : List Pend) : p ∈ addPend p l := by
  induction l with
  | nil => simp [addPend]
  | cons a r ih => unfold addPend; split <;> simp [ih]

/-- A trap raised for a member of a swarm. -/
theorem raiseTrap_spec {s : State} {c n id : Nat} {x : Slot} {m : Member} (t : TrapRec) (hn : n ≠ 64) (hx : s.slot? c n = some x) (hm : x.mem? id = some m) :
    ∃ y, (s.raiseTrap c n id t).slot? c n = some y ∧
      OneMember id x y (fun m m' => m'.st = .trap t ∧ m'.pc = t.pc ∧ m'.mask = m.mask) ∧
      { cyc := s.now, slot := n, mem := some id, tr := t } ∈ ((s.raiseTrap c n id t).core c).handler.pending ∧
      y.lanes = x.lanes ∧ y.sregs = x.sregs ∧ y.fflags = x.fflags ∧ (s.raiseTrap c n id t).mem = s.mem ∧ (s.raiseTrap c n id t).hdrs = s.hdrs := by
  unfold State.raiseTrap
  rw [if_neg hn, State.onSlot_eq _ hx]
  have h1 : ((s.setSlot c n (x.onMem id fun m => { m with st := .trap t, pc := t.pc, src := t.pc, y := false, usec := none, waited := 0 })).core c).slot? n =
      some (x.onMem id fun m => { m with st := .trap t, pc := t.pc, src := t.pc, y := false, usec := none, waited := 0 }) := State.slot?_setSlot_self _ _ _ _
  obtain ⟨z, h2⟩ := Core.slot?_suspendLease (s.setSlot c n (x.onMem id fun m => { m with st := .trap t, pc := t.pc, src := t.pc, y := false, usec := none, waited := 0 })).seq h1
  refine ⟨{ (x.onMem id fun m => { m with st := .trap t, pc := t.pc, src := t.pc, y := false, usec := none, waited := 0 }) with lease := z }, ?_, ⟨⟨m, _, hm, Slot.mem?_onMem_self hm ?_, rfl, rfl, rfl⟩, ?_⟩, ?_, rfl, rfl, rfl, ?_, ?_⟩
  · simp only [State.slot?, State.core_onCore_self]
    simp only [Core.slot?] at h2 ⊢
    rw [if_neg hn] at h2 ⊢
    exact h2
  · intro k; rfl
  · intro k hk; exact Slot.mem?_onMem_ne _ (fun _ => rfl) hk
  · simp only [State.core_onCore_self]
    exact mem_addPend _ _
  · simp
  · simp

theorem traps_at {h : Hdr} {cls : Nat} {outer : Bool} {s t : State} {e : Env} {r : Tr} {x y : Slot} (hx : s.slot? e.c e.n = some x)
    (hm : x.mem? e.m.id = some e.m) (hn : e.n ≠ 64) (hy : t.slot? e.c e.n = some y) (hms : y.members = x.members)
    (hl : y.lanes = x.lanes) (hs : y.sregs = x.sregs) (hf : y.fflags = x.fflags) (hmem : t.mem = s.mem) (hnow : t.now = s.now) :
    Traps (.next ((Res.trap t r).settle e h cls outer)) s e
      { cause := r.cause, pc := e.m.pc, mask := r.mask, addr := r.addr, info := BitVec.ofNat 32 r.info } := by
  have hm' : y.mem? e.m.id = some e.m := by simpa [Slot.mem?, hms] using hm
  obtain ⟨z, h1, h2, h3, h4, h5, h6, h7, _⟩ := raiseTrap_spec
    { cause := r.cause, pc := e.m.pc, mask := r.mask, addr := r.addr, info := BitVec.ofNat 32 r.info } hn hy hm'
  obtain ⟨⟨m, m', a, b, c⟩, o⟩ := h2
  refine ⟨_, x, z, rfl, hx, h1, ⟨⟨m, m', ?_, b, c⟩, ?_⟩, by rw [← hnow]; exact h3, ?_, ?_, ?_, h6.trans hf, ?_⟩
  · simpa [Slot.mem?, hms] using a
  · intro k hk; rw [o k hk]; simp [Slot.mem?, hms]
  · intro l n; simp [Slot.v, Slot.fibre, h4, hl]
  · intro n; simp [Slot.s, h5, hs]
  · intro l n; simp [Slot.pbit, Slot.fibre, h4, hl]
  · intro a; simp only [State.rdByte]; rw [← hmem]; exact congrArg (fun m => lget memDefault m a) h7

theorem traps_of {h : Hdr} {cls : Nat} {u : Uses} {w : Where} {outer : Bool} {k : Env → State → Res} {s : State} {e : Env} {r : Tr}
    (hi : Issues h u w s e) (hn : e.n ≠ 64) (hk : k e s.issuing = .trap s.issuing r) :
    Traps (issue h cls u w outer k s) s e { cause := r.cause, pc := e.m.pc, mask := r.mask, addr := r.addr, info := BitVec.ofNat 32 r.info } := by
  obtain ⟨x, hx, hm, _, _⟩ := State.env_spec hi.env
  rw [issue_own hi, hk]
  exact traps_at hx hm hn (y := x) hx rfl rfl rfl rfl rfl rfl

theorem traps_after {h : Hdr} {cls : Nat} {u : Uses} {w : Where} {outer : Bool} {k : Env → State → Res} {s : State} {e : Env} {r : Tr}
    (hi : Issues h u w s e) (hn : e.n ≠ 64) (hk : k e s.issuing = .after s.issuing r) :
    Traps (issue h cls u w outer k s) s e { cause := r.cause, pc := e.m.nextPc h, mask := r.mask, addr := r.addr, info := BitVec.ofNat 32 r.info } := by
  obtain ⟨x, hx, hm, _, _⟩ := State.env_spec hi.env
  rw [issue_own hi, hk]
  have hx' : s.issuing.slot? e.c e.n = some x := hx
  obtain ⟨xs, h1, _⟩ := State.slot?_charge e.m cls 1 outer hx'
  obtain ⟨z, h2, h3, h4, h5, h6, h7, h8, _⟩ := raiseTrap_spec (m := e.m)
    { cause := r.cause, pc := e.m.nextPc h, mask := r.mask, addr := r.addr, info := BitVec.ofNat 32 r.info } hn h1 hm
  have hnow : (s.issuing.charge e.c e.n e.m cls 1 outer).now = s.now := by simp
  obtain ⟨⟨a, b, ha, hb, hq⟩, ho⟩ := h3
  refine ⟨_, x, z.onMem e.m.id fun m => { m with y := h.y }, rfl, hx, State.slot?_onSlot_self _ h2,
    ⟨⟨a, _, ha, Slot.mem?_onMem_self hb fun _ => rfl, hq⟩, fun k hk => ?_⟩, ?_, ?_, ?_, ?_, h7, ?_⟩
  · refine (Slot.mem?_onMem_ne _ ?_ hk).trans (ho k hk)
    intro m; rfl
  · rw [hnow] at h4
    unfold Member.nextPc at h2 h4
    simp only [Res.settle]
    rw [State.onSlot_eq _ h2]
    simp only [State.setSlot, State.core_setCore_self, Core.setSlot, if_neg hn]
    exact h4
  · intro l n; simp [Slot.v, Slot.fibre, h5]
  · intro n; simp [Slot.s, h6]
  · intro l n; simp [Slot.pbit, Slot.fibre, h5]
  · intro a; simp only [State.rdByte]
    have : ((s.issuing.charge e.c e.n e.m cls 1 outer).mem) = s.mem := by simp
    rw [← this, ← h8]; unfold Member.nextPc at h2 ⊢; simp only [Res.settle]
    rw [State.onSlot_eq _ h2]; rfl

-- save areas

theorem lget_of_absent {α : Type} (d : α) (l : List (Nat × α)) (n : Nat) (h : ∀ e ∈ l, e.1 ≠ n) : lget d l n = d := by
  induction l with
  | nil => rfl
  | cons e r ih => rw [lget, if_neg (h e (by simp))]; exact ih fun x hx => h x (by simp [hx])

/-- Writing an area changes no byte below it. -/
theorem State.rdByte_wrArea_lt (s : State) {a b : Nat} (len : Nat) (fs : List Field) (h : b < a) : (s.wrArea a len fs).rdByte b = s.rdByte b := by
  have base : (s.wrBytes a (List.replicate len 0)).rdByte b = s.rdByte b := by rw [State.rdByte_wrBytes, if_neg (by omega)]
  rw [← base, State.wrArea]
  generalize s.wrBytes a (List.replicate len 0) = t
  induction fs generalizing t with
  | nil => rfl
  | cons f r ih => rw [List.foldl_cons, ih, State.wrNat, State.rdByte_wrBytes, if_neg (by omega)]

theorem State.queues_wrArea (s : State) (a len : Nat) (fs : List Field) : (s.wrArea a len fs).queues = s.queues := by
  have base : (s.wrBytes a (List.replicate len 0)).queues = s.queues := by simp
  rw [← base, State.wrArea]
  generalize s.wrBytes a (List.replicate len 0) = t
  induction fs generalizing t with
  | nil => rfl
  | cons f r ih => rw [List.foldl_cons, ih, State.wrNat, State.wrBytes_queues]

theorem State.acc_wrArea (s : State) (a len : Nat) (fs : List Field) : (s.wrArea a len fs).acc = s.acc := by
  have base : (s.wrBytes a (List.replicate len 0)).acc = s.acc := by simp
  rw [← base, State.wrArea]
  generalize s.wrBytes a (List.replicate len 0) = t
  induction fs generalizing t with
  | nil => rfl
  | cons f r ih => rw [List.foldl_cons, ih, State.wrNat, State.wrBytes_acc]

/-- What an access may do rests on the access tables alone. -/
theorem State.allowedRange_congr {s t : State} (h : t.acc = s.acc) (m a n : Nat) (k : Acc) : t.allowedRange m a n k = s.allowedRange m a n k := by
  simp [State.allowedRange, State.allowed, h]

/-- The first entry of a save directory below a saved area is found as before. -/
theorem State.dirAddr_saveSwarm {s : State} {a q kind core id grid col p : Nat} {x : Slot} (hp : (s.queue q).sdir + 32 ≤ a)
    (h : s.dirFind (s.queue q).sdir kind core id grid col 1 = some p) : (s.saveSwarm a x).dirAddr q kind core id grid col = some p := by
  have rd : ∀ o n, o + n ≤ 32 → (s.saveSwarm a x).rdNat ((s.queue q).sdir + o) n = s.rdNat ((s.queue q).sdir + o) n := fun o n ho =>
    State.rdNat_congr fun i hi => State.rdByte_wrArea_lt s _ _ (by omega)
  have hq : (s.saveSwarm a x).queue q = s.queue q := by rw [State.queue, State.saveSwarm, State.queues_wrArea, ← State.queue]
  have r0 := rd 0 1 (by omega)
  rw [Nat.add_zero] at r0
  have step : ∀ n, (s.saveSwarm a x).dirFind (s.queue q).sdir kind core id grid col (n + 1) = some p := by
    intro n
    simp only [State.dirFind, r0, rd 1 2 (by omega), rd 3 1 (by omega), rd 4 4 (by omega), rd 8 4 (by omega), rd 12 8 (by omega)] at h ⊢
    rw [State.allowedRange_congr (s := s) (t := s.saveSwarm a x) (State.acc_wrArea ..)]
    by_cases hz : (decide (s.rdNat (s.queue q).sdir 1 = 0) || !s.allowedRange mHandler (s.queue q).sdir 32 .read) = true
    · rw [if_pos hz] at h; cases h
    · rw [if_neg hz] at h ⊢
      split at h
      · rename_i hc; rw [if_pos hc]; exact h
      · cases h
  rw [State.dirAddr, hq]
  exact step 30719

/-- The reserved bytes of an area are zero where no listed address is one of them. -/
theorem State.reservedOk_of {s : State} {a : Nat} {l : List (Nat × Nat × Nat × Nat × Nat)}
    (h : (s.mem.all fun c => l.all fun r => (List.range r.2.2.1).all fun i =>
      decide (c.1 < a + r.1 + r.2.1 * i + r.2.2.2.1) || decide (a + r.1 + r.2.1 * i + r.2.2.2.1 + (r.2.2.2.2 + 1 - r.2.2.2.1) ≤ c.1)) = true) :
    s.reservedOk a l = true := by
  simp only [State.reservedOk, List.all_eq_true, State.zeroRange] at h ⊢
  intro r hr i hi b hb
  have range : ∀ n o, b ∈ s.rdBytes o n → ∃ j, j < n ∧ b = s.rdByte (o + j) := by
    intro n
    induction n with
    | zero => intro o hb; cases hb
    | succ n ih =>
      intro o hb
      rcases List.mem_cons.mp hb with rfl | hb
      · exact ⟨0, by omega, rfl⟩
      · obtain ⟨j, hj, rfl⟩ := ih _ hb
        exact ⟨j + 1, by omega, by rw [show o + (j + 1) = o + 1 + j by omega]⟩
  obtain ⟨j, hj, rfl⟩ := range _ _ hb
  refine beq_iff_eq.mpr (lget_of_absent _ _ _ fun e he => ?_)
  have := h e he r hr i hi
  simp only [Bool.or_eq_true, decide_eq_true_eq] at this
  omega

end Sys2Proof.Machine
end

