-- ==== Sys2Proof/Laws/Operands.lean ====
section
/-! SUPPORT. What writing registers at once can do (R24, R25), and register instructions as a whole: those with
fixed results and those with late ones. -/

namespace Sys2Proof.Machine

/-- One slot is another with the registers `W` written at once: everything else of it is as before. -/
structure Wrote (W : Dest → Bool) (x y : Slot) : Prop where
  plain : y.plain = x.plain
  members : y.members = x.members
  fib : ∀ l, (y.fibre? l).isSome = (x.fibre? l).isSome
  v : ∀ l n, W (.v l n) = false → y.v l n = x.v l n
  s : ∀ n, W (.s n) = false → y.s n = x.s n
  p : ∀ l n, W (.p l n) = false → y.pbit l n = x.pbit l n
  late : y.late = x.late.map (·.over W)
  mtx : y.mtx.map MtxOp.bare = x.mtx.map MtxOp.bare
  bad : y.badRegs = x.badRegs.filter fun b => !W b.1

theorem LateOp.over_none (o : LateOp) : o.over (fun _ => false) = o := by
  cases o; simp [LateOp.over]

theorem LateOp.over_over (o : LateOp) (W V : Dest → Bool) : (o.over W).over V = o.over fun d => W d || V d := by
  simp only [LateOp.over, List.map_map]
  congr 1
  apply List.map_congr_left
  intro e _
  simp only [Function.comp]
  by_cases h : W e.dst = true <;> by_cases g : V e.dst = true <;> simp [h, g]

theorem Wrote.refl (x : Slot) : Wrote (fun _ => false) x x where
  plain := rfl
  members := rfl
  fib _ := rfl
  v _ _ _ := rfl
  s _ _ := rfl
  p _ _ _ := rfl
  late := by rw [List.map_congr_left (g := id) (fun o _ => LateOp.over_none o)]; simp
  mtx := rfl
  bad := by simp

theorem Wrote.trans {W V : Dest → Bool} {x y z : Slot} (a : Wrote W x y) (b : Wrote V y z) : Wrote (fun d => W d || V d) x z where
  plain := b.plain.trans a.plain
  members := b.members.trans a.members
  fib l := (b.fib l).trans (a.fib l)
  v l n h := by rw [Bool.or_eq_false_iff] at h; exact (b.v l n h.2).trans (a.v l n h.1)
  s n h := by rw [Bool.or_eq_false_iff] at h; exact (b.s n h.2).trans (a.s n h.1)
  p l n h := by rw [Bool.or_eq_false_iff] at h; exact (b.p l n h.2).trans (a.p l n h.1)
  late := by rw [b.late, a.late, List.map_map]; apply List.map_congr_left; intro o _; exact LateOp.over_over o W V
  mtx := b.mtx.trans a.mtx
  bad := by
    rw [b.bad, a.bad, List.filter_filter]
    apply List.filter_congr; intro d _
    simp [Bool.not_or, Bool.and_comm]

theorem Wrote.congr {W V : Dest → Bool} {x y : Slot} (a : Wrote W x y) (h : ∀ d, W d = V d) : Wrote V x y := by
  have : W = V := funext h
  exact this ▸ a

-- one write

@[simp] theorem Slot.fibre?_onFibre (x : Slot) (l k : Nat) (f : Fibre → Fibre) :
    (x.onFibre l f).fibre? k = if k = l then (x.fibre? k).map f else x.fibre? k := by
  simp only [Slot.fibre?, Slot.onFibre]
  exact lfind_map_key f l k x.lanes

theorem Slot.fibre_onFibre (x : Slot) (l k : Nat) (f : Fibre → Fibre) :
    (x.onFibre l f).fibre k = if k = l ∧ (x.fibre? k).isSome then f (x.fibre k) else x.fibre k := by
  simp only [Slot.fibre, Slot.fibre?, Slot.onFibre]
  exact lget_map_key fibreReset f l k x.lanes

theorem Slot.lanes_onFibre_bare (x : Slot) (l : Nat) (f : Fibre → Fibre) (hf : ∀ g, (f g).bare = g.bare) :
    (x.onFibre l f).lanes.map (fun e => (e.1, e.2.bare)) = x.lanes.map fun e => (e.1, e.2.bare) := by
  simp only [Slot.onFibre, List.map_map]
  apply List.map_congr_left
  intro e _
  by_cases h : e.1 = l <;> simp [h, hf]

@[simp] theorem Fibre.bare_setV (f : Fibre) (n : Nat) (w : Img) : (f.setV n w).bare = f.bare := rfl
@[simp] theorem Fibre.bare_setP (f : Fibre) (n : BitVec 3) (b : Bool) : (f.setP n b).bare = f.bare := by
  unfold Fibre.setP; split <;> rfl
@[simp] theorem Fibre.v_setV (f : Fibre) (n m : Nat) (w : Img) : (f.setV n w).v m = if m = n then w else f.v m := lget_cset ..
@[simp] theorem Fibre.v_setP (f : Fibre) (n : BitVec 3) (b : Bool) (m : Nat) : (f.setP n b).v m = f.v m := by
  unfold Fibre.setP; split <;> rfl
@[simp] theorem Fibre.preds_setV (f : Fibre) (n : Nat) (w : Img) : (f.setV n w).preds = f.preds := rfl

theorem Fibre.preds_setP (f : Fibre) (n : BitVec 3) (b : Bool) (m : Nat) (hn : n ≠ 7) :
    (f.setP n b).preds.getLsbD m = if m = n.toNat then b else f.preds.getLsbD m := by
  have hn' : n.toNat < 7 := by
    have := n.isLt
    rcases Nat.lt_or_ge n.toNat 7 with h | h
    · exact h
    · exact absurd (BitVec.eq_of_toNat_eq (by simp; omega)) hn
  have one : ∀ k, k < 7 → (1#7 <<< k).getLsbD m = decide (m = k) := by
    intro k hk
    rw [BitVec.getLsbD_shiftLeft, BitVec.getLsbD_one]
    by_cases e : m = k
    · subst e; simp [hk]
    · by_cases g : m < k
      · simp [e, g]
      · have : m - k ≠ 0 := by omega
        simp [e, this]
  unfold Fibre.setP
  rw [if_neg hn]
  cases b
  · simp only [Bool.false_eq_true, if_false, BitVec.getLsbD_and, BitVec.getLsbD_not, one _ hn']
    by_cases h : m = n.toNat
    · simp [h]
    · by_cases g : m < 7
      · simp [h, g]
      · simp [h, g, BitVec.getLsbD_of_ge f.preds m (by omega)]
  · simp only [if_true, BitVec.getLsbD_or, one _ hn']
    by_cases h : m = n.toNat <;> simp [h]

theorem MtxOp.bare_noteSrc (o : MtxOp) (l n : Nat) (old : Img) (w : Option Nat) : (o.noteSrc l n old w).bare = o.bare := by
  unfold MtxOp.noteSrc; repeat' split
  all_goals rfl

theorem MtxOp.bare_noteWrite (o : MtxOp) (l n : Nat) (old : Img) (w : Option Nat) : (o.noteWrite l n old w).bare = o.bare := by
  unfold MtxOp.noteWrite
  simp only
  split
  · exact MtxOp.bare_noteSrc o l n old w
  · exact MtxOp.bare_noteSrc o l n old w

/-- A register of a lane is written. -/
theorem Wrote.put (x : Slot) (d : Dest) (w : Img) (hd : ∀ l n, d = .p l n → n < 7) : Wrote (fun b => b == d) x (x.put d w) where
  plain := by
    cases d with
    | v l n =>
      have := Slot.lanes_onFibre_bare x l (·.setV n w) (fun g => Fibre.bare_setV g n w)
      simpa [Slot.plain, Slot.put, Slot.raw] using this
    | s n => simp [Slot.plain, Slot.put, Slot.raw]
    | p l n =>
      have := Slot.lanes_onFibre_bare x l (·.setP (BitVec.ofNat 3 n) (w.getLsbD 0)) (fun g => Fibre.bare_setP g _ _)
      simpa [Slot.plain, Slot.put, Slot.raw] using this
  members := by cases d <;> rfl
  fib l := by
    cases d with
    | v k n =>
      have : (x.put (.v k n) w).fibre? l = (x.onFibre k (·.setV n w)).fibre? l := rfl
      rw [this, Slot.fibre?_onFibre]; split <;> simp
    | s n => rfl
    | p k n =>
      have : (x.put (.p k n) w).fibre? l = (x.onFibre k (·.setP (BitVec.ofNat 3 n) (w.getLsbD 0))).fibre? l := rfl
      rw [this, Slot.fibre?_onFibre]; split <;> simp
  v l n h := by
    cases d with
    | v k m =>
      have : (x.put (.v k m) w).v l n = ((x.onFibre k (·.setV m w)).fibre l).v n := rfl
      rw [this, Slot.fibre_onFibre]
      split
      · rename_i g
        have : n ≠ m := by
          intro e; subst e; simp [g.1] at h
        simp [this, Slot.v]
      · rfl
    | s n => rfl
    | p k m =>
      have : (x.put (.p k m) w).v l n = ((x.onFibre k (·.setP (BitVec.ofNat 3 m) (w.getLsbD 0))).fibre l).v n := rfl
      rw [this, Slot.fibre_onFibre]
      split <;> simp [Slot.v]
  s n h := by
    cases d with
    | v k m => rfl
    | s m =>
      have e : n ≠ m := by intro e; subst e; simp at h
      have : (x.put (.s m) w).s n = lget 0 (cset 0 x.sregs m w) n := rfl
      rw [this, lget_cset, if_neg e]; rfl
    | p k m => rfl
  p l n h := by
    cases d with
    | v k m =>
      have : (x.put (.v k m) w).pbit l n = ((x.onFibre k (·.setV m w)).fibre l).preds.getLsbD n := rfl
      rw [this, Slot.fibre_onFibre]; split <;> rfl
    | s m => rfl
    | p k m =>
      have hm := hd k m rfl
      have : (x.put (.p k m) w).pbit l n = ((x.onFibre k (·.setP (BitVec.ofNat 3 m) (w.getLsbD 0))).fibre l).preds.getLsbD n := rfl
      rw [this, Slot.fibre_onFibre]
      split
      · rename_i g
        have h7 : BitVec.ofNat 3 m ≠ 7 := by
          intro e; have := congrArg BitVec.toNat e; simp at this; omega
        rw [Fibre.preds_setP _ _ _ _ h7]
        have : n ≠ (BitVec.ofNat 3 m).toNat := by
          simp; intro e; rw [Nat.mod_eq_of_lt (by omega)] at e; subst e; simp [g.1] at h
        rw [if_neg this]; rfl
      · rfl
  late := by
    have : (x.put d w).late = x.late.map fun o => { o with writes := o.writes.map fun e => if e.dst = d then { e with clobbered := true } else e } := by
      cases d <;> rfl
    rw [this]
    apply List.map_congr_left; intro o _
    simp [LateOp.over]
  mtx := by
    cases d with
    | v l n =>
      have : (x.put (.v l n) w).mtx = x.mtx.map fun o => o.noteWrite l n (x.v l n) ((x.raw (.v l n) w).writerOf o l n) := rfl
      rw [this, List.map_map]
      apply List.map_congr_left; intro o _; exact MtxOp.bare_noteWrite ..
    | s n => rfl
    | p l n => rfl
  bad := by
    have : (x.put d w).badRegs = x.badRegs.filter (·.1 != d) := by cases d <;> rfl
    rw [this]; rfl

/-- The register written reads as the value. -/
theorem Slot.v_put (x : Slot) (l n : Nat) (w : Img) (h : (x.fibre? l).isSome = true) : (x.put (.v l n) w).v l n = w := by
  have : (x.put (.v l n) w).v l n = ((x.onFibre l (·.setV n w)).fibre l).v n := rfl
  rw [this, Slot.fibre_onFibre]; simp [h]

theorem Slot.s_put (x : Slot) (n : Nat) (w : Img) : (x.put (.s n) w).s n = w := by
  have : (x.put (.s n) w).s n = lget 0 (cset 0 x.sregs n w) n := rfl
  rw [this, lget_cset, if_pos rfl]

@[simp] theorem Slot.fflags_putV (x : Slot) (l n : Nat) (w : Img) : (x.putV l n w).fflags = x.fflags := rfl
@[simp] theorem Slot.fflags_putS (x : Slot) (n : Nat) (w : Img) : (x.putS n w).fflags = x.fflags := rfl
@[simp] theorem Slot.fflags_putP (x : Slot) (l : Nat) (n : BitVec 3) (b : Bool) : (x.putP l n b).fflags = x.fflags := by
  unfold Slot.putP; split <;> rfl

theorem pred_lt {n : BitVec 3} (h : n ≠ 7) : n.toNat < 7 := by
  have := n.isLt
  rcases Nat.lt_or_ge n.toNat 7 with g | g
  · exact g
  · exact absurd (BitVec.eq_of_toNat_eq (by simp; omega)) h

theorem Wrote.putP (x : Slot) (l : Nat) (n : BitVec 3) (b : Bool) :
    Wrote (fun d => n != 7 && d == .p l n.toNat) x (x.putP l n b) := by
  unfold Slot.putP
  by_cases h : n = 7
  · rw [if_pos h]; exact (Wrote.refl x).congr (by simp [h])
  · rw [if_neg h]
    refine (Wrote.put x (.p l n.toNat) _ ?_).congr (fun d => by simp [bne]; exact fun _ => h)
    intro k m e; cases e; exact pred_lt h

theorem Slot.pbit_putP (x : Slot) (l : Nat) (n : BitVec 3) (b : Bool) (h : n ≠ 7) (hf : (x.fibre? l).isSome = true) :
    (x.putP l n b).pbit l n.toNat = b := by
  unfold Slot.putP
  rw [if_neg h]
  have : (x.put (.p l n.toNat) (if b then 1 else 0)).pbit l n.toNat =
    ((x.onFibre l (·.setP (BitVec.ofNat 3 n.toNat) ((if b then 1 else 0 : Img).getLsbD 0))).fibre l).preds.getLsbD n.toNat := rfl
  rw [this, Slot.fibre_onFibre]
  simp only [hf, and_self, if_true, BitVec.ofNat_toNat, BitVec.setWidth_eq]
  rw [Fibre.preds_setP _ _ _ _ h]
  cases b <;> simp

-- the writes of one lane

/-- The last value a list of predicate writes gives a predicate. -/
def predLast (n : Nat) (l : List (BitVec 3 × Bool)) : Option Bool := l.foldl (fun a p => if p.1.toNat = n then some p.2 else a) none

theorem predLast_append (n : Nat) (l : List (BitVec 3 × Bool)) (p : BitVec 3 × Bool) :
    predLast n (l ++ [p]) = if p.1.toNat = n then some p.2 else predLast n l := by
  simp [predLast, List.foldl_append]

/-- What the predicate writes of a lane do. -/
theorem wrote_preds (x : Slot) (l : Nat) (ps : List (BitVec 3 × Bool)) :
    Wrote (fun d => ps.any fun p => p.1 != 7 && d == .p l p.1.toNat) x (ps.foldl (fun x p => x.putP l p.1 p.2) x) ∧
      (ps.foldl (fun x p => x.putP l p.1 p.2) x).fflags = x.fflags ∧
      ((x.fibre? l).isSome = true → ∀ n b, n ≠ 7 → predLast n ps = some b → (ps.foldl (fun x p => x.putP l p.1 p.2) x).pbit l n = b) := by
  induction ps using List.reverseRecOn with
  | nil => exact ⟨(Wrote.refl x).congr (by simp), rfl, by simp [predLast]⟩
  | append_singleton ps p ih =>
    obtain ⟨w, f, v⟩ := ih
    rw [List.foldl_append]
    simp only [List.foldl_cons, List.foldl_nil]
    refine ⟨(w.trans (Wrote.putP _ l p.1 p.2)).congr (by simp), by rw [Slot.fflags_putP, f], ?_⟩
    intro hf n b hn hb
    rw [predLast_append] at hb
    by_cases e : p.1.toNat = n
    · rw [if_pos e] at hb
      cases hb
      have h7 : p.1 ≠ 7 := by intro g; rw [g] at e; exact hn (by simpa using e.symm)
      rw [← e]
      exact Slot.pbit_putP _ _ _ _ h7 (by rw [w.fib]; exact hf)
    · rw [if_neg e] at hb
      rw [(Wrote.putP _ l p.1 p.2).p l n (by simp; intro _ g; exact e g.symm)]
      exact v hf n b hn hb

/-- What the vector register writes of a lane do: all their destinations differ. -/
theorem wrote_regs (x : Slot) (l : Nat) (rs : List (Nat × Img)) (hn : (rs.map (·.1)).Nodup) :
    Wrote (fun d => rs.any fun r => d == .v l r.1) x (rs.foldl (fun x r => x.putV l r.1 r.2) x) ∧
      (rs.foldl (fun x r => x.putV l r.1 r.2) x).fflags = x.fflags ∧
      ((x.fibre? l).isSome = true → ∀ r ∈ rs, (rs.foldl (fun x r => x.putV l r.1 r.2) x).v l r.1 = r.2) := by
  induction rs using List.reverseRecOn with
  | nil => exact ⟨(Wrote.refl x).congr (by simp), rfl, by simp⟩
  | append_singleton rs r ih =>
    rw [List.map_append, List.nodup_append] at hn
    obtain ⟨w, f, v⟩ := ih hn.1
    rw [List.foldl_append]
    simp only [List.foldl_cons, List.foldl_nil]
    have wp := Wrote.put (rs.foldl (fun x r => x.putV l r.1 r.2) x) (.v l r.1) r.2 (by intro k m e; cases e)
    refine ⟨(w.trans wp).congr (by simp), by rw [Slot.fflags_putV, f], ?_⟩
    intro hf q hq
    rw [List.mem_append] at hq
    rcases hq with hq | hq
    · have hne : q.1 ≠ r.1 := hn.2.2 q.1 (List.mem_map_of_mem hq) r.1 (by simp)
      have := wp.v l q.1 (by simp [hne])
      exact this.trans (v hf q hq)
    · simp only [List.mem_singleton] at hq
      subst hq
      exact Slot.v_put _ _ _ _ (by rw [w.fib]; exact hf)

theorem wrote_sregs (x : Slot) (rs : List (Nat × Img)) (hn : (rs.map (·.1)).Nodup) :
    Wrote (fun d => rs.any fun r => d == .s r.1) x (rs.foldl (fun x r => x.putS r.1 r.2) x) ∧
      (rs.foldl (fun x r => x.putS r.1 r.2) x).fflags = x.fflags ∧
      (∀ r ∈ rs, (rs.foldl (fun x r => x.putS r.1 r.2) x).s r.1 = r.2) := by
  induction rs using List.reverseRecOn with
  | nil => exact ⟨(Wrote.refl x).congr (by simp), rfl, by simp⟩
  | append_singleton rs r ih =>
    rw [List.map_append, List.nodup_append] at hn
    obtain ⟨w, f, v⟩ := ih hn.1
    rw [List.foldl_append]
    simp only [List.foldl_cons, List.foldl_nil]
    have wp := Wrote.put (rs.foldl (fun x r => x.putS r.1 r.2) x) (.s r.1) r.2 (by intro k m e; cases e)
    refine ⟨(w.trans wp).congr (by simp), by rw [Slot.fflags_putS, f], ?_⟩
    intro q hq
    rw [List.mem_append] at hq
    rcases hq with hq | hq
    · have hne : q.1 ≠ r.1 := hn.2.2 q.1 (List.mem_map_of_mem hq) r.1 (by simp)
      have := wp.s q.1 (by simp [hne])
      exact this.trans (v q hq)
    · simp only [List.mem_singleton] at hq
      subst hq
      exact Slot.s_put _ _ _

-- whole results

theorem mem_lanesOf {m : Mask} {l : Nat} : l ∈ lanesOf m ↔ m.getLsbD l = true := by
  simp only [lanesOf, List.mem_filter, List.mem_range, and_iff_right_iff_imp]
  intro h; exact BitVec.lt_of_getLsbD h

theorem nodup_lanesOf (m : Mask) : (lanesOf m).Nodup := List.nodup_range.filter _

theorem lowest_mem {m : Mask} (h : m ≠ 0) : m.getLsbD (lowest m) = true := by
  have : lanesOf m ≠ [] := by
    intro e
    apply h
    apply BitVec.eq_of_getLsbD_eq
    intro i _
    have : i ∉ lanesOf m := by simp [e]
    rw [mem_lanesOf] at this
    simpa using this
  unfold lowest
  cases hl : lanesOf m with
  | nil => exact absurd hl this
  | cons a r => rw [List.headD_cons, ← mem_lanesOf, hl]; exact List.mem_cons_self

/-- Every lane's results write the registers D and the predicates Q. -/
structure Shape (f : Nat → Outs) (D Q : List Nat) : Prop where
  regs : ∀ l, (f l).regs.map (·.1) = D
  preds : ∀ l, (f l).preds.map (fun p => p.1.toNat) = Q
  nodup : D.Nodup

/-- What one lane's results say of the registers and predicates it has afterwards. -/
def Holds (o : Outs) (r : Nat → Img) (q : Nat → Bool) : Prop :=
  (∀ a ∈ o.regs, r a.1 = a.2) ∧ ∀ n b, n ≠ 7 → predLast n o.preds = some b → q n = b

theorem shape_regs {f : Nat → Outs} {D Q : List Nat} (hs : Shape f D Q) (k n : Nat) : (∃ r ∈ (f k).regs, r.1 = n) ↔ n ∈ D := by
  rw [← hs.regs k]; simp

theorem shape_preds {f : Nat → Outs} {D Q : List Nat} (hs : Shape f D Q) (k n : Nat) :
    (∃ p ∈ (f k).preds, p.1 ≠ 7 ∧ p.1.toNat = n) ↔ n ≠ 7 ∧ n ∈ Q := by
  have h7 : ∀ p : BitVec 3, p ≠ 7 ↔ p.toNat ≠ 7 := by
    intro p; rw [Ne, Ne, ← BitVec.toNat_inj]; rfl
  constructor
  · rintro ⟨p, hp, h, e⟩
    rw [h7, e] at h
    exact ⟨h, by rw [← hs.preds k, List.mem_map]; exact ⟨p, hp, e⟩⟩
  · rintro ⟨h, hq⟩
    rw [← hs.preds k, List.mem_map] at hq
    obtain ⟨p, hp, e⟩ := hq
    exact ⟨p, hp, by rw [h7, e]; exact h, e⟩

theorem wrote_lane {f : Nat → Outs} {D Q : List Nat} (hs : Shape f D Q) (x : Slot) (l : Nat) :
    Wrote (fun d => match d with | .v k n => k == l && D.contains n | .s _ => false | .p k n => k == l && n != 7 && Q.contains n)
        x (x.writeLane l (f l)) ∧
      (x.writeLane l (f l)).fflags = x.fflags ||| (f l).fl ∧
      ((x.fibre? l).isSome = true → Holds (f l) ((x.writeLane l (f l)).v l) ((x.writeLane l (f l)).pbit l)) := by
  obtain ⟨w1, f1, v1⟩ := wrote_regs x l (f l).regs (by rw [hs.regs]; exact hs.nodup)
  obtain ⟨w2, f2, v2⟩ := wrote_preds ((f l).regs.foldl (fun x r => x.putV l r.1 r.2) x) l (f l).preds
  have hw : Wrote _ x (x.writeLane l (f l)) := ⟨(w1.trans w2).plain, (w1.trans w2).members, (w1.trans w2).fib, (w1.trans w2).v, (w1.trans w2).s,
    (w1.trans w2).p, (w1.trans w2).late, (w1.trans w2).mtx, (w1.trans w2).bad⟩
  refine ⟨hw.congr ?_, ?_, ?_⟩
  · intro d
    rw [Bool.eq_iff_iff]
    cases d with
    | v k n =>
      have := shape_regs hs l n
      simp only [Bool.or_eq_true, List.any_eq_true, beq_iff_eq, Bool.and_eq_true, List.contains_iff_mem, Dest.v.injEq, reduceCtorEq, and_false, exists_false, or_false]
      constructor
      · rintro ⟨r, hr, e, e'⟩; exact ⟨e, this.1 ⟨r, hr, e'.symm⟩⟩
      · rintro ⟨e, h⟩; obtain ⟨r, hr, e'⟩ := this.2 h; exact ⟨r, hr, e, e'.symm⟩
    | s n => simp
    | p k n =>
      have := shape_preds hs l n
      simp only [Bool.or_eq_true, List.any_eq_true, beq_iff_eq, Bool.and_eq_true, List.contains_iff_mem, Dest.p.injEq, reduceCtorEq, and_false, exists_false, false_or, bne_iff_ne]
      constructor
      · rintro ⟨r, hr, h, e, e'⟩; have := this.1 ⟨r, hr, h, e'.symm⟩; exact ⟨⟨e, this.1⟩, this.2⟩
      · rintro ⟨⟨e, h⟩, h'⟩; obtain ⟨r, hr, a, e'⟩ := this.2 ⟨h, h'⟩; exact ⟨r, hr, a, e, e'.symm⟩
  · show (((f l).preds.foldl (fun x p => x.putP l p.1 p.2) ((f l).regs.foldl (fun x r => x.putV l r.1 r.2) x)).fflags ||| (f l).fl) = _
    rw [f2, f1]
  · intro hf
    refine ⟨?_, v2 (by rw [w1.fib]; exact hf)⟩
    intro a ha
    have h1 : (x.writeLane l (f l)).v l a.1 = ((f l).regs.foldl (fun x r => x.putV l r.1 r.2) x).v l a.1 := w2.v l a.1 (by simp)
    rw [h1]; exact v1 hf a ha

theorem wrote_lanes {f : Nat → Outs} {D Q : List Nat} (hs : Shape f D Q) (x : Slot) (ls : List Nat) (hl : ls.Nodup) :
    Wrote (fun d => match d with | .v k n => ls.contains k && D.contains n | .s _ => false | .p k n => ls.contains k && n != 7 && Q.contains n)
        x (ls.foldl (fun x l => x.writeLane l (f l)) x) ∧
      (∀ i, (ls.foldl (fun x l => x.writeLane l (f l)) x).fflags.getLsbD i = (x.fflags.getLsbD i || ls.any fun l => (f l).fl.getLsbD i)) ∧
      (∀ l ∈ ls, (x.fibre? l).isSome = true →
        Holds (f l) ((ls.foldl (fun x l => x.writeLane l (f l)) x).v l) ((ls.foldl (fun x l => x.writeLane l (f l)) x).pbit l)) := by
  induction ls using List.reverseRecOn with
  | nil => exact ⟨(Wrote.refl x).congr (by intro d; cases d <;> simp), by simp, by simp⟩
  | append_singleton ls l ih =>
    rw [List.nodup_append] at hl
    obtain ⟨w, fl, v⟩ := ih hl.1
    obtain ⟨w', fl', v'⟩ := wrote_lane hs (ls.foldl (fun x l => x.writeLane l (f l)) x) l
    simp only [List.foldl_append, List.foldl_cons, List.foldl_nil]
    refine ⟨(w.trans w').congr ?_, ?_, ?_⟩
    · intro d
      rw [Bool.eq_iff_iff]
      cases d
      · simp; tauto
      · simp
      · simp; tauto
    · intro i
      rw [fl', BitVec.getLsbD_or, fl]
      simp [Bool.or_assoc]
    · intro k hk hf
      rw [List.mem_append] at hk
      rcases hk with hk | hk
      · have hne : k ≠ l := hl.2.2 k hk l (by simp)
        have := v k hk hf
        refine ⟨fun a ha => ?_, fun n b hn hb => ?_⟩
        · exact (w'.v k a.1 (by simp [hne])).trans (this.1 a ha)
        · exact (w'.p k n (by simp [hne])).trans (this.2 n b hn hb)
      · simp only [List.mem_singleton] at hk
        subst hk
        exact v' (by rw [w.fib]; exact hf)

/-- Predicate results of the scalar form go to every lane taking part. -/
theorem wrote_spreds (x : Slot) (ls : List Nat) (ps : List (BitVec 3 × Bool)) :
    Wrote (fun d => ls.any fun l => ps.any fun p => p.1 != 7 && d == .p l p.1.toNat)
        x (ls.foldl (fun x l => ps.foldl (fun x p => x.putP l p.1 p.2) x) x) ∧
      (ls.foldl (fun x l => ps.foldl (fun x p => x.putP l p.1 p.2) x) x).fflags = x.fflags ∧
      (∀ l ∈ ls, (x.fibre? l).isSome = true → ∀ n b, n ≠ 7 → predLast n ps = some b →
        (ls.foldl (fun x l => ps.foldl (fun x p => x.putP l p.1 p.2) x) x).pbit l n = b) := by
  induction ls using List.reverseRecOn with
  | nil => exact ⟨(Wrote.refl x).congr (by simp), rfl, by simp⟩
  | append_singleton ls l ih =>
    obtain ⟨w, fl, v⟩ := ih
    obtain ⟨w', fl', v'⟩ := wrote_preds (ls.foldl (fun x l => ps.foldl (fun x p => x.putP l p.1 p.2) x) x) l ps
    simp only [List.foldl_append, List.foldl_cons, List.foldl_nil]
    refine ⟨(w.trans w').congr (by simp), fl'.trans fl, ?_⟩
    intro k hk hf n b hn hb
    by_cases hkl : k = l
    · subst hkl; exact v' (by rw [w.fib]; exact hf) n b hn hb
    · have hk' : k ∈ ls := by simpa [hkl] using hk
      rw [w'.p k n (by simp; intros; simp_all)]
      exact v k hk' hf n b hn hb

/-- What `writeAll` leaves. -/
theorem writeAll_fixed {h : Hdr} {e : Env} {f : Nat → Outs} {D Q : List Nat} (hs : Shape f D Q) (x : Slot) :
    FixedResults h e x (x.writeAll h.sc e.act f) D Q (fun l => (f l).fl) (fun l r q => Holds (f l) r q) ∧
      (x.writeAll h.sc e.act f).members = x.members := by
  cases hsc : h.sc with
  | false =>
    obtain ⟨w, fl, v⟩ := wrote_lanes hs x (lanesOf e.act) (nodup_lanesOf _)
    have hW : ∀ d, (match d with | .v k n => (lanesOf e.act).contains k && D.contains n | .s _ => false | .p k n => (lanesOf e.act).contains k && n != 7 && Q.contains n) =
        written h e D Q d := by
      intro d
      have hc : ∀ k, (lanesOf e.act).contains k = e.act.getLsbD k := by
        intro k; rw [Bool.eq_iff_iff, List.contains_iff_mem, mem_lanesOf]
      cases d <;> simp only [written, hsc, hc, Bool.not_false, Bool.true_and, Bool.false_and]
    have w := w.congr hW
    refine ⟨⟨w.plain, w.v, w.s, w.p, ?_, ?_, w.late, w.mtx, w.bad⟩, w.members⟩
    · intro l hl hf
      simp only [giver, hsc, Bool.false_eq_true, if_false]
      exact v l (mem_lanesOf.2 hl) hf
    · simp only [Env.accLanes, hsc, Bool.false_eq_true, if_false]; exact fl
  | true =>
    obtain ⟨w1, f1, v1⟩ := wrote_sregs x (f (lowest e.act)).regs (by rw [hs.regs]; exact hs.nodup)
    obtain ⟨w2, f2, v2⟩ := wrote_spreds ((f (lowest e.act)).regs.foldl (fun x r => x.putS r.1 r.2) x) (lanesOf e.act) (f (lowest e.act)).preds
    have hw : Wrote _ x (x.writeAll true e.act f) := ⟨(w1.trans w2).plain, (w1.trans w2).members, (w1.trans w2).fib, (w1.trans w2).v, (w1.trans w2).s,
      (w1.trans w2).p, (w1.trans w2).late, (w1.trans w2).mtx, (w1.trans w2).bad⟩
    have w : Wrote (written h e D Q) x (x.writeAll true e.act f) := by
      refine hw.congr ?_
      intro d
      rw [Bool.eq_iff_iff]
      cases d with
      | v k n => simp [written, hsc]
      | s n =>
        have := shape_regs hs (lowest e.act) n
        simp only [written, hsc, Bool.or_eq_true, List.any_eq_true, beq_iff_eq, Bool.true_and, List.contains_iff_mem, Dest.s.injEq]
        constructor
        · rintro (⟨r, hr, e'⟩ | ⟨l, _, p, _, hp⟩)
          · exact this.1 ⟨r, hr, e'.symm⟩
          · simp at hp
        · intro h; left; obtain ⟨r, hr, e'⟩ := this.2 h; exact ⟨r, hr, e'.symm⟩
      | p k n =>
        have := shape_preds hs (lowest e.act) n
        simp only [written, Bool.or_eq_true, List.any_eq_true, beq_iff_eq, Bool.and_eq_true, List.contains_iff_mem, Dest.p.injEq, reduceCtorEq, and_false,
          exists_false, false_or, bne_iff_ne]
        constructor
        · rintro ⟨l, hl, r, hr, h', e', e''⟩
          subst e'
          have := this.1 ⟨r, hr, h', e''.symm⟩
          exact ⟨⟨mem_lanesOf.1 hl, this.1⟩, this.2⟩
        · rintro ⟨⟨hk, h'⟩, h''⟩
          obtain ⟨r, hr, a, e'⟩ := this.2 ⟨h', h''⟩
          exact ⟨k, mem_lanesOf.2 hk, r, hr, a, rfl, e'.symm⟩
    refine ⟨⟨w.plain, w.v, w.s, w.p, ?_, ?_, w.late, w.mtx, w.bad⟩, w.members⟩
    · intro l hl hf
      simp only [giver, hsc, if_true]
      refine ⟨?_, v2 l (mem_lanesOf.2 hl) (by rw [w1.fib]; exact hf)⟩
      intro a ha'
      have : (x.writeAll true e.act f).s a.1 = ((f (lowest e.act)).regs.foldl (fun x r => x.putS r.1 r.2) x).s a.1 := w2.s a.1 (by simp)
      exact this.trans (v1 a ha')
    · intro i
      have : (x.writeAll true e.act f).fflags = x.fflags ||| (f (lowest e.act)).fl := by
        show (_ ||| (f (lowest e.act)).fl) = _
        rw [f2, f1]
      rw [this]
      simp [Env.accLanes, hsc]

/-- A register instruction with fixed results that is issued. -/
theorem regOp_fixed {h : Hdr} {cls : Nat} {u : Uses} {f : Env → Nat → Outs} {s : State} {e : Env} {D Q : List Nat} (hi : Issues h u .anywhere s e)
    (hs : Shape (f e) D Q) : Fixed (regOp h cls u f s) h s e D Q (fun l => (f e l).fl) fun l r q => Holds (f e l) r q := by
  obtain ⟨x, hx, hm, _, _⟩ := State.env_spec hi.env
  obtain ⟨fr, ms⟩ := writeAll_fixed (h := h) (e := e) hs x
  have hx' : s.issuing.slot? e.c e.n = some x := hx
  have hy := State.slot?_onSlot_self (fun x => x.writeAll h.sc e.act (f e)) hx'
  obtain ⟨s', z, h1, h2, h3, h4, h5, h6, h7, h8, h9, h10, h11⟩ := settle_go (h := h) (cls := if h.sc then 13 else cls)
    (cnt := if h.sc then 1 else countOf e.act) (outer := false) hx hy (by rw [State.beside_onSlot, State.beside_issuing]) hm ms
  refine ⟨s', x, z, ?_, h2, h3, ?_⟩
  · rw [regOp, issue_own hi, h1]
  · have hv : ∀ l n, z.v l n = (x.writeAll h.sc e.act (f e)).v l n := by intro l n; simp [Slot.v, Slot.fibre, h6]
    have hs' : ∀ n, z.s n = (x.writeAll h.sc e.act (f e)).s n := by intro n; simp [Slot.s, h7]
    have hp : ∀ l n, z.pbit l n = (x.writeAll h.sc e.act (f e)).pbit l n := by intro l n; simp [Slot.pbit, Slot.fibre, h6]
    refine ⟨h4.trans fr.plain, ?_, ?_, ?_, ?_, ?_, h9.trans fr.late, ?_, h11.trans fr.bad⟩
    · intro l n hw; rw [hv]; exact fr.v l n hw
    · intro n hw; rw [hs']; exact fr.s n hw
    · intro l n hw; rw [hp]; exact fr.p l n hw
    · intro l hl hf
      have := fr.result l hl hf
      simp only [hv, hs', hp]; exact this
    · intro i; rw [h8]; exact fr.flags i
    · rw [h10]; exact fr.mtx

theorem Fixed.mono {o : Out} {h : Hdr} {s : State} {e : Env} {D Q : List Nat} {fl : Nat → Fl} {P R : Nat → (Nat → Img) → (Nat → Bool) → Prop}
    (a : Fixed o h s e D Q fl P) (hp : ∀ l r q, P l r q → R l r q) : Fixed o h s e D Q fl R := by
  obtain ⟨t, x, y, h1, h2, h3, h4⟩ := a
  exact ⟨t, x, y, h1, h2, h3, h4.plain, h4.v, h4.s, h4.p, fun l hl hf => hp _ _ _ (h4.result l hl hf), h4.flags, h4.late, h4.mtx, h4.bad⟩

-- late results

theorem LateOp.value_of {o : LateOp} {w : LateWrite} (hw : w ∈ o.writes) (hu : ∀ v ∈ o.writes, v.dst = w.dst → v.val = w.val) :
    o.value w.dst = w.val := by
  unfold LateOp.value
  cases hf : o.writes.find? fun v => v.dst == w.dst with
  | none =>
    rw [List.find?_eq_none] at hf
    exact absurd (by simp) (hf w hw)
  | some v =>
    have h1 := List.mem_of_find?_eq_some hf
    have h2 := List.find?_some hf
    simpa using hu v h1 (by simpa using h2)

theorem nodup_unique {l : List (Nat × Img)} (hn : (l.map (·.1)).Nodup) {a b : Nat × Img} (ha : a ∈ l) (hb : b ∈ l) (h : a.1 = b.1) : a = b := by
  induction l with
  | nil => cases ha
  | cons c r ih =>
    rw [List.map_cons, List.nodup_cons] at hn
    rcases List.mem_cons.1 ha with rfl | ha' <;> rcases List.mem_cons.1 hb with rfl | hb'
    · rfl
    · exact absurd (List.mem_map.2 ⟨b, hb', h.symm⟩) hn.1
    · exact absurd (List.mem_map.2 ⟨a, ha', h⟩) hn.1
    · exact ih hn.2 ha' hb'

theorem pnodup_unique {l : List (BitVec 3 × Bool)} (hn : (l.map (fun p => p.1.toNat)).Nodup) {a b : BitVec 3 × Bool} (ha : a ∈ l) (hb : b ∈ l)
    (h : a.1.toNat = b.1.toNat) : a = b := by
  induction l with
  | nil => cases ha
  | cons c r ih =>
    rw [List.map_cons, List.nodup_cons] at hn
    rcases List.mem_cons.1 ha with rfl | ha' <;> rcases List.mem_cons.1 hb with rfl | hb'
    · rfl
    · exact absurd (List.mem_map.2 ⟨b, hb', h.symm⟩) hn.1
    · exact absurd (List.mem_map.2 ⟨a, ha', h⟩) hn.1
    · exact ih hn.2 ha' hb'

/-- What one lane's late results say of the values to come. -/
def HoldsLate (o : Outs) (r : Nat → Img) (q : Nat → Bool) : Prop :=
  (∀ a ∈ o.regs, r a.1 = a.2) ∧ ∀ p ∈ o.preds, p.1 ≠ 7 → q p.1.toNat = p.2

theorem mem_lateLane {l : Nat} {o : Outs} {w : LateWrite} : w ∈ lateLane l o ↔
    (∃ r ∈ o.regs, w = { dst := .v l r.1, val := r.2, bad := none, clobbered := false }) ∨
    (∃ p ∈ o.preds, p.1 ≠ 7 ∧ w = { dst := .p l p.1.toNat, val := if p.2 then 1 else 0, bad := none, clobbered := false }) := by
  simp only [lateLane, List.mem_append, List.mem_map, List.mem_filter, bne_iff_ne]
  constructor
  · rintro (⟨r, hr, rfl⟩ | ⟨p, ⟨hp, h⟩, rfl⟩)
    · exact Or.inl ⟨r, hr, rfl⟩
    · exact Or.inr ⟨p, hp, h, rfl⟩
  · rintro (⟨r, hr, rfl⟩ | ⟨p, hp, h, rfl⟩)
    · exact Or.inl ⟨r, hr, rfl⟩
    · exact Or.inr ⟨p, ⟨hp, h⟩, rfl⟩

/-- The outstanding results of an instruction: their destinations and values. -/
theorem lateOf_spec {h : Hdr} {e : Env} {s : State} {smp : Bool} {f : Nat → Outs} {D Q : List Nat} (hs : Shape f D Q) (hq : Q.Nodup)
    (hsq : h.sc = true → Q = []) :
    (∀ w ∈ (lateOf s h.sc e.act smp f).writes, written h e D Q w.dst = true ∧ w.clobbered = false) ∧
    (∀ d, written h e D Q d = true → ∃ w ∈ (lateOf s h.sc e.act smp f).writes, w.dst = d) ∧
    (∀ l, e.act.getLsbD l = true →
      HoldsLate (f (giver h e l)) (fun n => (lateOf s h.sc e.act smp f).value (if h.sc then .s n else .v l n)) (fun n => (lateOf s h.sc e.act smp f).value (.p l n) != 0)) := by
  cases hsc : h.sc with
  | false =>
    have hmem : ∀ w, w ∈ (lateOf s false e.act smp f).writes ↔ ∃ l ∈ lanesOf e.act, w ∈ lateLane l (f l) := by
      intro w; simp [lateOf]
    refine ⟨?_, ?_, ?_⟩
    · intro w hw
      obtain ⟨l, hl, hw⟩ := (hmem w).1 hw
      rw [mem_lateLane] at hw
      rcases hw with ⟨r, hr, rfl⟩ | ⟨p, hp, h7, rfl⟩
      · have := (shape_regs hs l r.1).1 ⟨r, hr, rfl⟩
        simp [written, hsc, mem_lanesOf.1 hl, this]
      · have := (shape_preds hs l p.1.toNat).1 ⟨p, hp, h7, rfl⟩
        simp [written, mem_lanesOf.1 hl, this]
    · intro d hd
      cases d with
      | v l n =>
        simp only [written, hsc, Bool.not_false, Bool.true_and, Bool.and_eq_true, List.contains_iff_mem] at hd
        obtain ⟨r, hr, e'⟩ := (shape_regs hs l n).2 hd.2
        exact ⟨_, (hmem _).2 ⟨l, mem_lanesOf.2 hd.1, mem_lateLane.2 (Or.inl ⟨r, hr, rfl⟩)⟩, by rw [e']⟩
      | s n => simp [written, hsc] at hd
      | p l n =>
        simp only [written, Bool.and_eq_true, List.contains_iff_mem, bne_iff_ne] at hd
        obtain ⟨p, hp, h7, e'⟩ := (shape_preds hs l n).2 ⟨hd.1.2, hd.2⟩
        exact ⟨_, (hmem _).2 ⟨l, mem_lanesOf.2 hd.1.1, mem_lateLane.2 (Or.inr ⟨p, hp, h7, rfl⟩)⟩, by rw [e']⟩
    · intro l hl
      simp only [giver, hsc, Bool.false_eq_true, if_false]
      refine ⟨fun a ha => ?_, fun p hp h7 => ?_⟩
      · refine LateOp.value_of (w := { dst := .v l a.1, val := a.2, bad := none, clobbered := false })
          ((hmem _).2 ⟨l, mem_lanesOf.2 hl, mem_lateLane.2 (Or.inl ⟨a, ha, rfl⟩)⟩) ?_
        intro v hv hd
        obtain ⟨k, _, hv⟩ := (hmem v).1 hv
        rw [mem_lateLane] at hv
        rcases hv with ⟨r, hr, rfl⟩ | ⟨p, hp, h7, rfl⟩
        · simp only [Dest.v.injEq] at hd
          obtain ⟨rfl, hd⟩ := hd
          rw [nodup_unique (by rw [hs.regs]; exact hs.nodup) hr ha hd]
        · simp at hd
      · have : (lateOf s false e.act smp f).value (.p l p.1.toNat) = if p.2 then 1 else 0 := by
          refine LateOp.value_of (w := { dst := .p l p.1.toNat, val := if p.2 then 1 else 0, bad := none, clobbered := false })
            ((hmem _).2 ⟨l, mem_lanesOf.2 hl, mem_lateLane.2 (Or.inr ⟨p, hp, h7, rfl⟩)⟩) ?_
          intro v hv hd
          obtain ⟨k, _, hv⟩ := (hmem v).1 hv
          rw [mem_lateLane] at hv
          rcases hv with ⟨r, hr, rfl⟩ | ⟨p', hp', h7', rfl⟩
          · simp at hd
          · simp only [Dest.p.injEq] at hd
            obtain ⟨rfl, hd⟩ := hd
            rw [pnodup_unique (by rw [hs.preds]; exact hq) hp' hp hd]
        show ((lateOf s false e.act smp f).value (.p l p.1.toNat) != 0) = p.2
        rw [this]; cases p.2 <;> simp
  | true =>
    have hQ : Q = [] := hsq hsc
    have hmem : ∀ w, w ∈ (lateOf s true e.act smp f).writes ↔ ∃ r ∈ (f (lowest e.act)).regs, w = { dst := .s r.1, val := r.2, bad := none, clobbered := false } := by
      intro w; simp only [lateOf, if_true, lateScalar, List.mem_map]
      constructor
      · rintro ⟨r, hr, rfl⟩; exact ⟨r, hr, rfl⟩
      · rintro ⟨r, hr, rfl⟩; exact ⟨r, hr, rfl⟩
    refine ⟨?_, ?_, ?_⟩
    · intro w hw
      obtain ⟨r, hr, rfl⟩ := (hmem w).1 hw
      have := (shape_regs hs (lowest e.act) r.1).1 ⟨r, hr, rfl⟩
      simp [written, hsc, this]
    · intro d hd
      cases d with
      | v l n => simp [written, hsc] at hd
      | s n =>
        simp only [written, hsc, Bool.true_and, List.contains_iff_mem] at hd
        obtain ⟨r, hr, e'⟩ := (shape_regs hs (lowest e.act) n).2 hd
        exact ⟨_, (hmem _).2 ⟨r, hr, rfl⟩, by rw [e']⟩
      | p l n => simp [written, hQ] at hd
    · intro l hl
      simp only [giver, hsc, if_true]
      refine ⟨fun a ha => ?_, fun p hp h7 => ?_⟩
      · refine LateOp.value_of (w := { dst := .s a.1, val := a.2, bad := none, clobbered := false }) ((hmem _).2 ⟨a, ha, rfl⟩) ?_
        intro v hv hd
        obtain ⟨r, hr, rfl⟩ := (hmem v).1 hv
        simp only [Dest.s.injEq] at hd
        rw [nodup_unique (by rw [hs.regs]; exact hs.nodup) hr ha hd]
      · have := hs.preds (lowest e.act)
        rw [hQ] at this
        simp only [List.map_eq_nil_iff] at this
        rw [this] at hp; cases hp

theorem lateOf_flags (s : State) (sc : Bool) (e : Env) (smp : Bool) (f : Nat → Outs) (i : Nat) :
    (lateOf s sc e.act smp f).flags.getLsbD i = (e.accLanes sc).any fun l => (f l).fl.getLsbD i := by
  have fold : ∀ (ls : List Nat) (a : Fl), (ls.foldl (fun a l => a ||| (f l).fl) a).getLsbD i = (a.getLsbD i || ls.any fun l => (f l).fl.getLsbD i) := by
    intro ls
    induction ls with
    | nil => simp
    | cons l r ih => intro a; rw [List.foldl_cons, ih, BitVec.getLsbD_or]; simp [Bool.or_assoc]
  cases sc with
  | true => simp [lateOf, Env.accLanes]
  | false => simp only [lateOf, Env.accLanes, Bool.false_eq_true, if_false]; rw [fold]; simp

/-- An effect that only adds outstanding results. -/
theorem late_added {h : Hdr} {cls cnt : Nat} {outer : Bool} {s t : State} {e : Env} {x : Slot} {o : LateOp} (hx : s.slot? e.c e.n = some x)
    (hm : x.mem? e.m.id = some e.m) (ht : t = s.issuing.onSlot e.c e.n fun x => x.addLate o) :
    ∃ s' z, (Res.go t cnt).settle e h cls outer = s' ∧ OnlySlot e s s' x z ∧ OneMember e.m.id x z (Passed h) ∧ z.plain = x.plain ∧
      (∀ l n, z.v l n = x.v l n) ∧ (∀ n, z.s n = x.s n) ∧ (∀ l n, z.pbit l n = x.pbit l n) ∧ z.fflags = x.fflags ∧ z.mtx = x.mtx ∧
      z.badRegs = x.badRegs ∧ z.late = x.late ++ [o] := by
  subst ht
  have hx' : s.issuing.slot? e.c e.n = some x := hx
  have hy := State.slot?_onSlot_self (fun x => x.addLate o) hx'
  obtain ⟨s', z, h1, h2, h3, h4, h5, h6, h7, h8, h9, h10, h11⟩ := settle_go (h := h) (cls := cls) (cnt := cnt) (outer := outer) hx hy
    (by rw [State.beside_onSlot, State.beside_issuing]) hm rfl
  refine ⟨s', z, h1, h2, h3, h4, ?_, ?_, ?_, h8, h10, h11, h9⟩
  · intro l n; simp [Slot.v, Slot.fibre, h6]
  · intro n; simp [Slot.s, h7]
  · intro l n; simp [Slot.pbit, Slot.fibre, h6]

/-- A register instruction with late results that is issued. -/
theorem lateRegOp_late {h : Hdr} {cls : Nat} {u : Uses} {f : Env → Nat → Outs} {s : State} {e : Env} {D Q : List Nat} (hi : Issues h u.later .anywhere s e)
    (hs : Shape (f e) D Q) (hq : Q.Nodup) (hsq : h.sc = true → Q = []) :
    Late (lateRegOp h cls u f s) h s e D Q (fun l => (f e l).fl) fun l r q => HoldsLate (f e l) r q := by
  obtain ⟨x, hx, hm, _, _⟩ := State.env_spec hi.env
  obtain ⟨s', z, h1, h2, h3, h4, h5, h6, h7, h8, h9, h10, h11⟩ := late_added (h := h) (cls := if h.sc then 13 else cls)
    (cnt := if h.sc then 1 else countOf e.act) (outer := false) (o := lateOf s.issuing h.sc e.act false (f e)) hx hm rfl
  obtain ⟨a, b, c⟩ := lateOf_spec (h := h) (e := e) (s := s.issuing) (smp := false) hs hq hsq
  exact ⟨s', x, z, by rw [lateRegOp, issue_own hi, h1], h2, h3, h4, h5, h6, h7, h8, h9, h10, _, h11, a, b, lateOf_flags _ _ _ _ _, c⟩

theorem Late.mono {o : Out} {h : Hdr} {s : State} {e : Env} {D Q : List Nat} {fl : Nat → Fl} {P R : Nat → (Nat → Img) → (Nat → Bool) → Prop}
    (a : Late o h s e D Q fl P) (hp : ∀ l r q, P l r q → R l r q) : Late o h s e D Q fl R := by
  obtain ⟨t, x, y, h1, h2, h3, h4⟩ := a
  obtain ⟨w, h5, h6, h7, h8, h9⟩ := h4.late
  exact ⟨t, x, y, h1, h2, h3, h4.plain, h4.v, h4.s, h4.p, h4.flags, h4.mtx, h4.bad, w, h5, h6, h7, h8, fun l hl => hp _ _ _ (h9 l hl)⟩

-- what an instruction reads beside outstanding results (R25): registers and predicates alone may differ

theorem Slot.plain_raw (x : Slot) (d : Dest) (w : Img) : (x.raw d w).plain = x.plain := by
  cases d with
  | v l n => simp only [Slot.raw, Slot.plain]; rw [Slot.lanes_onFibre_bare x l _ fun g => Fibre.bare_setV g n w]; rfl
  | s n => rfl
  | p l n => simp only [Slot.raw, Slot.plain]; rw [Slot.lanes_onFibre_bare x l _ fun g => Fibre.bare_setP g (BitVec.ofNat 3 n) (w.getLsbD 0)]; rfl

theorem foldl_plain {α : Type} (f : Slot → α → Slot) (hf : ∀ x a, (f x a).plain = x.plain) (l : List α) (x : Slot) :
    (l.foldl f x).plain = x.plain := by
  induction l generalizing x with
  | nil => rfl
  | cons a r ih => rw [List.foldl_cons, ih, hf]

theorem Slot.plain_view (x : Slot) (ctr : Nat) : (x.view ctr).plain = x.plain :=
  foldl_plain _ (fun x _ => foldl_plain _ (fun x _ => by split; exacts [Slot.plain_raw .., rfl]) _ x) _ x

theorem foldl_plain_snd {α : Type} (f : Slot × Slot → α → Slot × Slot) (hf : ∀ t a, (f t a).2.plain = t.2.plain) (l : List α) (t : Slot × Slot) :
    (l.foldl f t).2.plain = t.2.plain := by
  induction l generalizing t with
  | nil => rfl
  | cons a r ih => rw [List.foldl_cons, ih, hf]

theorem Slot.plain_mtxView (x : Slot) (ctr : Nat) : (x.mtxView ctr).plain = x.plain :=
  foldl_plain_snd _ (fun t o => foldl_plain_snd _ (fun t r => by
    show (if Config.freeBit ctr (256 + r.1) r.2.1 then t.2.raw (.v r.1 r.2.1) r.2.2 else t.2).plain = t.2.plain
    split
    exacts [Slot.plain_raw .., rfl]) _ t) _ (x, x)

/-- The slot as its issuing member reads it is the slot, beside registers, predicates and what else `plain` leaves out. -/
theorem State.env_plain {s : State} {h : Hdr} {e : Env} (he : s.env h = some e) : ∃ x, s.slot? e.c e.n = some x ∧ e.x.plain = x.plain := by
  obtain ⟨x, h1, -, h2, -⟩ := State.env_spec he
  exact ⟨x, h1, by rw [h2, Slot.plain_mtxView, Slot.plain_view]⟩

end Sys2Proof.Machine
end

