-- ==== Sys2Proof/Laws/PerInstr.lean ====
section
/-! SUPPORT. Facts of the syntax, one lemma per constructor. The family Header: an encoding carries in its word 0
exactly the header its instruction carries (R36), and an event has none. -/

namespace Sys2Proof

@[simp] theorem Raw.start_hdr (op : BitVec 8) (h : Hdr) : (Raw.start op h).hdr = h := rfl
@[simp] theorem Raw.setA_hdr (r : Raw) (a : Src) : (r.setA a).hdr = r.hdr := by cases a <;> rfl
@[simp] theorem Raw.setB_hdr (r : Raw) (a : Src) : (r.setB a).hdr = r.hdr := by cases a <;> rfl
@[simp] theorem Raw.setC_hdr (r : Raw) (a : Src) : (r.setC a).hdr = r.hdr := by cases a <;> rfl
@[simp] theorem Raw.setM_hdr (r : Raw) (m : MemOpd) (low : BitVec 8) : (r.setM m low).hdr = r.hdr := by
  unfold Raw.setM
  split
  · exact Raw.setA_hdr r m.base
  · exact (Raw.setB_hdr _ _).trans (Raw.setA_hdr r m.base)
@[simp] theorem Raw.setTile_hdr (r : Raw) (t : TileSel) : (r.setTile t).hdr = r.hdr := by cases t <;> rfl

namespace Laws.Header

/-- The header that a constructor of the encoded instructions carries. -/
def carried : Instr → Option Hdr
  | .nop h => some h
  | .nopLong h => some h
  | .bra h _ _ => some h
  | .brx h _ _ => some h
  | .call h _ _ _ => some h
  | .callx h _ _ _ => some h
  | .ret h _ _ => some h
  | .rcv h => some h
  | .fork h _ _ _ => some h
  | .endf h => some h
  | .sleep h _ _ _ => some h
  | .barWait h _ _ => some h
  | .barPass h _ _ => some h
  | .vcall h _ _ _ _ _ => some h
  | .vret h => some h
  | .vqual h _ => some h
  | .vpeek h _ _ _ _ _ _ => some h
  | .vbud h _ _ => some h
  | .launch h _ _ => some h
  | .lwait h _ => some h
  | .brk h _ => some h
  | .trap h _ => some h
  | .eret h => some h
  | .prio h _ => some h
  | .csrr h _ _ => some h
  | .csrw h _ _ => some h
  | .tlbiVa h _ => some h
  | .tlbiAs h => some h
  | .tlbiAll h => some h
  | .savec h _ => some h
  | .rstc h _ => some h
  | .waiti h => some h
  | .iadd h _ _ _ _ => some h
  | .isub h _ _ _ _ => some h
  | .imul h _ _ _ => some h
  | .imulh h _ _ _ _ => some h
  | .imad h _ _ _ _ => some h
  | .imadw h _ _ _ _ _ => some h
  | .imin h _ _ _ _ => some h
  | .imax h _ _ _ _ => some h
  | .iabs h _ _ _ => some h
  | .ineg h _ _ _ => some h
  | .isetp h _ _ _ _ _ _ => some h
  | .iset h _ _ _ _ _ => some h
  | .shl h _ _ _ => some h
  | .shr h _ _ _ => some h
  | .sar h _ _ _ => some h
  | .rol h _ _ _ => some h
  | .and h _ _ _ => some h
  | .or h _ _ _ => some h
  | .xor h _ _ _ => some h
  | .not h _ _ => some h
  | .lop3 h _ _ _ _ _ => some h
  | .bperm h _ _ _ _ => some h
  | .bfx h _ _ _ _ => some h
  | .bfi h _ _ _ _ => some h
  | .popc h _ _ => some h
  | .clz h _ _ => some h
  | .brev h _ _ => some h
  | .sel h _ _ _ _ => some h
  | .mov h _ _ => some h
  | .movl h _ _ => some h
  | .lea h _ _ _ _ _ _ => some h
  | .iadd64 h _ _ _ _ _ => some h
  | .icmp64 h _ _ _ _ _ _ => some h
  | .pget h _ => some h
  | .pset h _ _ => some h
  | .plop h _ _ _ _ _ => some h
  | .fadd h _ _ _ _ _ _ => some h
  | .fsub h _ _ _ _ _ _ => some h
  | .fmul h _ _ _ _ _ _ => some h
  | .ffma h _ _ _ _ _ _ _ _ => some h
  | .fmin h _ _ _ _ _ => some h
  | .fmax h _ _ _ _ _ => some h
  | .fcmp h _ _ _ _ _ _ _ => some h
  | .fclass h _ _ _ => some h
  | .frnd h _ _ _ _ => some h
  | .fscale h _ _ _ _ _ => some h
  | .flogb h _ _ => some h
  | .rcp h _ _ _ _ => some h
  | .rsq h _ _ _ _ => some h
  | .sqrt h _ _ _ _ => some h
  | .ex2 h _ _ _ => some h
  | .lg2 h _ _ _ => some h
  | .sin h _ _ _ => some h
  | .cos h _ _ _ => some h
  | .tanh h _ _ _ => some h
  | .cvt h _ _ _ _ => some h
  | .f2i h _ _ _ _ _ => some h
  | .i2f h _ _ _ _ => some h
  | .fin h _ _ _ _ _ => some h
  | .pack h _ _ _ _ _ _ _ => some h
  | .unpk h _ _ _ _ => some h
  | .stkr h _ _ => some h
  | .stkw h _ _ _ => some h
  | .shfl h _ _ _ _ _ => some h
  | .shflb h _ _ _ _ => some h
  | .shflp h _ _ _ _ => some h
  | .vote h _ _ => some h
  | .redx h _ _ _ _ _ => some h
  | .scanx h _ _ _ _ _ _ => some h
  | .gath h _ _ _ _ _ => some h
  | .rebal h _ _ _ _ => some h
  | .matchx h _ _ _ => some h
  | .ld h _ _ _ _ => some h
  | .st h _ _ _ _ _ => some h
  | .lds h _ _ _ _ => some h
  | .sts h _ _ _ _ => some h
  | .ldb h _ _ _ _ _ => some h
  | .stb h _ _ _ _ _ => some h
  | .atom h _ _ _ _ _ _ _ _ => some h
  | .atoms h _ _ _ _ _ _ _ _ => some h
  | .fence h _ => some h
  | .fenco h _ => some h
  | .fencr h _ => some h
  | .storeBufferSerialise _ => none
  | .spill h _ _ _ _ => some h
  | .fill h _ _ _ _ => some h
  | .cpyG2s h _ _ _ => some h
  | .cpyS2g h _ _ _ => some h
  | .cpyt h _ _ _ _ _ => some h
  | .waitc h _ _ => some h
  | .tset h _ _ _ => some h
  | .trel h _ => some h
  | .trel64 h _ => some h
  | .tstat h _ _ => some h
  | .ldtFrag h _ _ _ => some h
  | .ldtWord h _ _ _ => some h
  | .pref h _ _ => some h
  | .cctlIc h _ => some h
  | .cctlInv h _ => some h
  | .mma h _ _ _ _ _ _ _ => some h
  | .mmad h _ _ _ _ _ _ _ _ => some h
  | .mcvt h _ _ _ _ _ _ _ _ _ => some h
  | .mzero h _ => some h
  | .msclAdd h _ _ => some h
  | .msclSet h _ _ => some h
  | .mlease h => some h
  | .mfree h => some h
  | .lateResultReturn _ _ _ => none
  | .parkEnd _ _ _ => none
  | .swarmResidency _ => none
  | .familyRelease _ _ _ => none
  | .slotRetire _ _ => none
  | .binTimerExpiry _ _ => none
  | .binLaunchNoAdd _ _ => none
  | .gridComplete _ => none
  | .doneAddition _ => none
  | .childCountOut _ _ => none
  | .variantDispatch _ _ _ => none
  | .vcallMerge _ _ _ => none
  | .vretFramePop _ _ _ => none
  | .tagUpdate _ => none
  | .copyRetire _ _ _ => none
  | .tileReady _ _ => none
  | .tileDrainEmpty _ _ => none
  | .tileFree _ _ => none
  | .postedAtomicRetire _ _ => none
  | .matrixOpRetire _ _ _ => none
  | .leaseGrant _ => none
  | .matrixBoostAck _ => none
  | .matrixBoostRemove _ => none
  | .rampDownFiller _ _ => none
  | .sleepRecheck _ _ _ => none
  | .sleepTimeout _ _ _ => none
  | .handlerStart _ => none
  | .colonyRestore _ _ _ => none
  | .tlbShootdown _ => none
  | .placementDecision => none
  | .controlPeriodLatch _ _ _ => none
  | .peerNotice _ _ => none
  | .clkreqWrite _ _ => none
  | .railChangeDone _ => none
  | .sliceClockSwitch _ _ => none
  | .ageingMeasure _ _ => none
  | .kick _ _ => none
  | .packetRetry _ => none
  | .pktNop _ => none
  | .pktLaunch _ => none
  | .pktFence _ => none
  | .fenceCountersPass _ => none
  | .pktSignal _ => none
  | .pktCopy _ => none
  | .vtabFreeze _ => none
  | .vtabThaw _ => none
  | .vtabReset _ => none
  | .pktMode _ => none
  | .qcmdEnable _ => none
  | .qcmdPreempt _ => none
  | .qcmdResume _ => none
  | .qcmdDiscard _ => none
  | .qcmdDisable _ => none
  | .fserv _ _ => none
  | .fqhead _ _ => none
  | .registerWrite _ _ => none
  | .hostAccess _ => none
  | .peerAccess _ _ => none
  | .peerPortDown _ => none
  | .attestationRequest _ => none
  | .powerOnReset => none
  | .dramTrainingDone _ => none
  | .firmwareVerify _ => none
  | .firmwareLoadDone _ => none
  | .bypass => none
  | .idcode => none
  | .samplePreload => none
  | .extest _ => none
  | .peerPortUp _ => none
  | .noticeRelease _ => none
  | .firmwareEvent _ => none
  | .copyPacketDone _ => none
  | .railsUp => none
  | .powerLoss => none

/-- The fields of an encoding carry its instruction's header; an event has no encoding. -/
def Statement (i : Instr) : Prop := i.raw.map Raw.hdr = carried i

theorem nop (h : Hdr) : Statement (.nop h) := rfl
theorem nopLong (h : Hdr) : Statement (.nopLong h) := rfl
theorem bra (h : Hdr) (u : Bool) (off : Word) : Statement (.bra h u off) := rfl
theorem brx (h : Hdr) (u : Bool) (a : Src) : Statement (.brx h u a) := congrArg some (Raw.setA_hdr _ _)
theorem call (h : Hdr) (u : Bool) (d : BitVec 8) (off : Word) : Statement (.call h u d off) := rfl
theorem callx (h : Hdr) (u : Bool) (d : BitVec 8) (a : Src) : Statement (.callx h u d a) := congrArg some (Raw.setA_hdr _ _)
theorem ret (h : Hdr) (u : Bool) (a : Src) : Statement (.ret h u a) := congrArg some (Raw.setA_hdr _ _)
theorem rcv (h : Hdr) : Statement (.rcv h) := rfl
theorem fork (h : Hdr) (pd : BitVec 3) (t : Tgt) (c : BitVec 8) : Statement (.fork h pd t c) := by
  cases t <;> first | rfl | exact congrArg some (Raw.setA_hdr _ _)
theorem endf (h : Hdr) : Statement (.endf h) := rfl
theorem sleep (h : Hdr) (m : MemOpd) (d : BitVec 8) (t : BitVec 5) : Statement (.sleep h m d t) := congrArg some (Raw.setM_hdr _ _ _)
theorem barWait (h : Hdr) (b : BitVec 4) (c : Cnt) : Statement (.barWait h b c) := by
  cases c <;> rfl
theorem barPass (h : Hdr) (b : BitVec 4) (c : Cnt) : Statement (.barPass h b c) := by
  cases c <;> rfl
theorem vcall (h : Hdr) (tab : BitVec 9) (disp : Word) (m : VMode) (l1 l2 : Src) : Statement (.vcall h tab disp m l1 l2) := rfl
theorem vret (h : Hdr) : Statement (.vret h) := rfl
theorem vqual (h : Hdr) (q : Src) : Statement (.vqual h q) := congrArg some (Raw.setB_hdr _ _)
theorem vpeek (h : Hdr) (d : BitVec 8) (tab : BitVec 9) (disp : Word) (m : VMode) (l1 l2 : Src) : Statement (.vpeek h d tab disp m l1 l2) := rfl
theorem vbud (h : Hdr) (energy : Bool) (x : Src) : Statement (.vbud h energy x) := congrArg some (Raw.setB_hdr _ _)
theorem launch (h : Hdr) (m : MemOpd) (arg : Option Src) : Statement (.launch h m arg) := congrArg some (Raw.setM_hdr _ _ _)
theorem lwait (h : Hdr) (n : BitVec 6) : Statement (.lwait h n) := rfl
theorem brk (h : Hdr) (code : BitVec 8) : Statement (.brk h code) := rfl
theorem trap (h : Hdr) (code : BitVec 16) : Statement (.trap h code) := rfl
theorem eret (h : Hdr) : Statement (.eret h) := rfl
theorem prio (h : Hdr) (x : Src) : Statement (.prio h x) := congrArg some (Raw.setB_hdr _ _)
theorem csrr (h : Hdr) (d : BitVec 9) (n : BitVec 12) : Statement (.csrr h d n) := rfl
theorem csrw (h : Hdr) (a : Src) (n : BitVec 12) : Statement (.csrw h a n) := congrArg some (Raw.setA_hdr _ _)
theorem tlbiVa (h : Hdr) (m : MemOpd) : Statement (.tlbiVa h m) := congrArg some (Raw.setM_hdr _ _ _)
theorem tlbiAs (h : Hdr) : Statement (.tlbiAs h) := rfl
theorem tlbiAll (h : Hdr) : Statement (.tlbiAll h) := rfl
theorem savec (h : Hdr) (m : MemOpd) : Statement (.savec h m) := congrArg some (Raw.setM_hdr _ _ _)
theorem rstc (h : Hdr) (m : MemOpd) : Statement (.rstc h m) := congrArg some (Raw.setM_hdr _ _ _)
theorem waiti (h : Hdr) : Statement (.waiti h) := rfl
theorem iadd (h : Hdr) (d : BitVec 9) (a b : Src) (f : AddForm) : Statement (.iadd h d a b f) := by
  cases f <;> exact congrArg some ((Raw.setB_hdr _ _).trans (Raw.setA_hdr _ _))
theorem isub (h : Hdr) (d : BitVec 9) (a b : Src) (f : AddForm) : Statement (.isub h d a b f) := by
  cases f <;> exact congrArg some ((Raw.setB_hdr _ _).trans (Raw.setA_hdr _ _))
theorem imul (h : Hdr) (d : BitVec 9) (a b : Src) : Statement (.imul h d a b) := congrArg some ((Raw.setB_hdr _ _).trans (Raw.setA_hdr _ _))
theorem imulh (h : Hdr) (d : BitVec 9) (a b : Src) (u : Bool) : Statement (.imulh h d a b u) := congrArg some ((Raw.setB_hdr _ _).trans (Raw.setA_hdr _ _))
theorem imad (h : Hdr) (d : BitVec 9) (a b c : Src) : Statement (.imad h d a b c) := congrArg some ((Raw.setC_hdr _ _).trans ((Raw.setB_hdr _ _).trans (Raw.setA_hdr _ _)))
theorem imadw (h : Hdr) (d : BitVec 9) (a b c : Src) (u : Bool) : Statement (.imadw h d a b c u) := congrArg some ((Raw.setC_hdr _ _).trans ((Raw.setB_hdr _ _).trans (Raw.setA_hdr _ _)))
theorem imin (h : Hdr) (d : BitVec 9) (a b : Src) (u : Bool) : Statement (.imin h d a b u) := congrArg some ((Raw.setB_hdr _ _).trans (Raw.setA_hdr _ _))
theorem imax (h : Hdr) (d : BitVec 9) (a b : Src) (u : Bool) : Statement (.imax h d a b u) := congrArg some ((Raw.setB_hdr _ _).trans (Raw.setA_hdr _ _))
theorem iabs (h : Hdr) (d : BitVec 9) (a : Src) (sat : Bool) : Statement (.iabs h d a sat) := congrArg some (Raw.setA_hdr _ _)
theorem ineg (h : Hdr) (d : BitVec 9) (a : Src) (sat : Bool) : Statement (.ineg h d a sat) := congrArg some (Raw.setA_hdr _ _)
theorem isetp (h : Hdr) (pd pq : BitVec 3) (a b : Src) (c : Cond) (u : Bool) : Statement (.isetp h pd pq a b c u) := congrArg some ((Raw.setB_hdr _ _).trans (Raw.setA_hdr _ _))
theorem iset (h : Hdr) (d : BitVec 9) (a b : Src) (c : Cond) (u : Bool) : Statement (.iset h d a b c u) := congrArg some ((Raw.setB_hdr _ _).trans (Raw.setA_hdr _ _))
theorem shl (h : Hdr) (d : BitVec 9) (a b : Src) : Statement (.shl h d a b) := congrArg some ((Raw.setB_hdr _ _).trans (Raw.setA_hdr _ _))
theorem shr (h : Hdr) (d : BitVec 9) (a b : Src) : Statement (.shr h d a b) := congrArg some ((Raw.setB_hdr _ _).trans (Raw.setA_hdr _ _))
theorem sar (h : Hdr) (d : BitVec 9) (a b : Src) : Statement (.sar h d a b) := congrArg some ((Raw.setB_hdr _ _).trans (Raw.setA_hdr _ _))
theorem rol (h : Hdr) (d : BitVec 9) (a b : Src) : Statement (.rol h d a b) := congrArg some ((Raw.setB_hdr _ _).trans (Raw.setA_hdr _ _))
theorem and (h : Hdr) (d : BitVec 9) (a b : Src) : Statement (.and h d a b) := congrArg some ((Raw.setB_hdr _ _).trans (Raw.setA_hdr _ _))
theorem or (h : Hdr) (d : BitVec 9) (a b : Src) : Statement (.or h d a b) := congrArg some ((Raw.setB_hdr _ _).trans (Raw.setA_hdr _ _))
theorem xor (h : Hdr) (d : BitVec 9) (a b : Src) : Statement (.xor h d a b) := congrArg some ((Raw.setB_hdr _ _).trans (Raw.setA_hdr _ _))
theorem not (h : Hdr) (d : BitVec 9) (a : Src) : Statement (.not h d a) := congrArg some (Raw.setA_hdr _ _)
theorem lop3 (h : Hdr) (d : BitVec 9) (a b c : Src) (t : BitVec 8) : Statement (.lop3 h d a b c t) := congrArg some ((Raw.setC_hdr _ _).trans ((Raw.setB_hdr _ _).trans (Raw.setA_hdr _ _)))
theorem bperm (h : Hdr) (d : BitVec 9) (a c b : Src) : Statement (.bperm h d a c b) := congrArg some ((Raw.setC_hdr _ _).trans ((Raw.setB_hdr _ _).trans (Raw.setA_hdr _ _)))
theorem bfx (h : Hdr) (d : BitVec 9) (a b : Src) (sx : Bool) : Statement (.bfx h d a b sx) := congrArg some ((Raw.setB_hdr _ _).trans (Raw.setA_hdr _ _))
theorem bfi (h : Hdr) (d : BitVec 9) (a b c : Src) : Statement (.bfi h d a b c) := congrArg some ((Raw.setC_hdr _ _).trans ((Raw.setB_hdr _ _).trans (Raw.setA_hdr _ _)))
theorem popc (h : Hdr) (d : BitVec 9) (a : Src) : Statement (.popc h d a) := congrArg some (Raw.setA_hdr _ _)
theorem clz (h : Hdr) (d : BitVec 9) (a : Src) : Statement (.clz h d a) := congrArg some (Raw.setA_hdr _ _)
theorem brev (h : Hdr) (d : BitVec 9) (a : Src) : Statement (.brev h d a) := congrArg some (Raw.setA_hdr _ _)
theorem sel (h : Hdr) (d : BitVec 9) (a b : Src) (p : PSrc) : Statement (.sel h d a b p) := congrArg some ((Raw.setB_hdr _ _).trans (Raw.setA_hdr _ _))
theorem mov (h : Hdr) (d : BitVec 9) (a : Src) : Statement (.mov h d a) := congrArg some (Raw.setA_hdr _ _)
theorem movl (h : Hdr) (d : BitVec 9) (w : Word) : Statement (.movl h d w) := rfl
theorem lea (h : Hdr) (d : BitVec 9) (a b : Src) (sh : BitVec 5) (u a52 : Bool) : Statement (.lea h d a b sh u a52) := congrArg some ((Raw.setB_hdr _ _).trans (Raw.setA_hdr _ _))
theorem iadd64 (h : Hdr) (d : BitVec 9) (a b : Src) (sub u : Bool) : Statement (.iadd64 h d a b sub u) := congrArg some ((Raw.setB_hdr _ _).trans (Raw.setA_hdr _ _))
theorem icmp64 (h : Hdr) (pd pq : BitVec 3) (a b : Src) (c : Cond) (u : Bool) : Statement (.icmp64 h pd pq a b c u) := congrArg some ((Raw.setB_hdr _ _).trans (Raw.setA_hdr _ _))
theorem pget (h : Hdr) (d : BitVec 9) : Statement (.pget h d) := rfl
theorem pset (h : Hdr) (a b : Src) : Statement (.pset h a b) := congrArg some ((Raw.setB_hdr _ _).trans (Raw.setA_hdr _ _))
theorem plop (h : Hdr) (pd : BitVec 3) (pa pb pc : PSrc) (t : BitVec 8) : Statement (.plop h pd pa pb pc t) := rfl
theorem fadd (h : Hdr) (d : BitVec 9) (a b : Src) (ma mb : OMod) (rm : RMod) : Statement (.fadd h d a b ma mb rm) := congrArg some ((Raw.setB_hdr _ _).trans (Raw.setA_hdr _ _))
theorem fsub (h : Hdr) (d : BitVec 9) (a b : Src) (ma mb : OMod) (rm : RMod) : Statement (.fsub h d a b ma mb rm) := congrArg some ((Raw.setB_hdr _ _).trans (Raw.setA_hdr _ _))
theorem fmul (h : Hdr) (d : BitVec 9) (a b : Src) (ma mb : OMod) (rm : RMod) : Statement (.fmul h d a b ma mb rm) := congrArg some ((Raw.setB_hdr _ _).trans (Raw.setA_hdr _ _))
theorem ffma (h : Hdr) (d : BitVec 9) (a b c : Src) (ma mb mc : OMod) (rm : RMod) : Statement (.ffma h d a b c ma mb mc rm) := congrArg some ((Raw.setC_hdr _ _).trans ((Raw.setB_hdr _ _).trans (Raw.setA_hdr _ _)))
theorem fmin (h : Hdr) (d : BitVec 9) (a b : Src) (ma mb : OMod) : Statement (.fmin h d a b ma mb) := congrArg some ((Raw.setB_hdr _ _).trans (Raw.setA_hdr _ _))
theorem fmax (h : Hdr) (d : BitVec 9) (a b : Src) (ma mb : OMod) : Statement (.fmax h d a b ma mb) := congrArg some ((Raw.setB_hdr _ _).trans (Raw.setA_hdr _ _))
theorem fcmp (h : Hdr) (pd pq : BitVec 3) (a b : Src) (ma mb : OMod) (c : FCond) : Statement (.fcmp h pd pq a b ma mb c) := congrArg some ((Raw.setB_hdr _ _).trans (Raw.setA_hdr _ _))
theorem fclass (h : Hdr) (d : BitVec 9) (a : Src) (f : Fmt) : Statement (.fclass h d a f) := congrArg some (Raw.setA_hdr _ _)
theorem frnd (h : Hdr) (d : BitVec 9) (a : Src) (ma : OMod) (rm : RMod) : Statement (.frnd h d a ma rm) := congrArg some (Raw.setA_hdr _ _)
theorem fscale (h : Hdr) (d : BitVec 9) (a b : Src) (ma : OMod) (rm : RMod) : Statement (.fscale h d a b ma rm) := congrArg some ((Raw.setB_hdr _ _).trans (Raw.setA_hdr _ _))
theorem flogb (h : Hdr) (d : BitVec 9) (a : Src) : Statement (.flogb h d a) := congrArg some (Raw.setA_hdr _ _)
theorem rcp (h : Hdr) (d : BitVec 9) (a : Src) (ma : OMod) (rm : RMod) : Statement (.rcp h d a ma rm) := congrArg some (Raw.setA_hdr _ _)
theorem rsq (h : Hdr) (d : BitVec 9) (a : Src) (ma : OMod) (rm : RMod) : Statement (.rsq h d a ma rm) := congrArg some (Raw.setA_hdr _ _)
theorem sqrt (h : Hdr) (d : BitVec 9) (a : Src) (ma : OMod) (rm : RMod) : Statement (.sqrt h d a ma rm) := congrArg some (Raw.setA_hdr _ _)
theorem ex2 (h : Hdr) (d : BitVec 9) (a : Src) (ma : OMod) : Statement (.ex2 h d a ma) := congrArg some (Raw.setA_hdr _ _)
theorem lg2 (h : Hdr) (d : BitVec 9) (a : Src) (ma : OMod) : Statement (.lg2 h d a ma) := congrArg some (Raw.setA_hdr _ _)
theorem sin (h : Hdr) (d : BitVec 9) (a : Src) (ma : OMod) : Statement (.sin h d a ma) := congrArg some (Raw.setA_hdr _ _)
theorem cos (h : Hdr) (d : BitVec 9) (a : Src) (ma : OMod) : Statement (.cos h d a ma) := congrArg some (Raw.setA_hdr _ _)
theorem tanh (h : Hdr) (d : BitVec 9) (a : Src) (ma : OMod) : Statement (.tanh h d a ma) := congrArg some (Raw.setA_hdr _ _)
theorem cvt (h : Hdr) (d : BitVec 9) (a : Src) (g f : Fmt) : Statement (.cvt h d a g f) := congrArg some (Raw.setA_hdr _ _)
theorem f2i (h : Hdr) (d : BitVec 9) (a : Src) (u : Bool) (f : Fmt) (rm : RMod) : Statement (.f2i h d a u f rm) := congrArg some (Raw.setA_hdr _ _)
theorem i2f (h : Hdr) (d : BitVec 9) (a : Src) (k : IKind) (rm : RMod) : Statement (.i2f h d a k rm) := congrArg some (Raw.setA_hdr _ _)
theorem fin (h : Hdr) (d : BitVec 9) (a : Src) (g f : Fmt) (rm : RMod) : Statement (.fin h d a g f rm) := congrArg some (Raw.setA_hdr _ _)
theorem pack (h : Hdr) (d : BitVec 8) (a : BitVec 8) (g f : Fmt) (rm : RMod) (as sp : Bool) : Statement (.pack h d a g f rm as sp) := rfl
theorem unpk (h : Hdr) (d : BitVec 8) (a : BitVec 8) (g : Fmt) (raw : Bool) : Statement (.unpk h d a g raw) := rfl
theorem stkr (h : Hdr) (d : BitVec 9) (a : Src) : Statement (.stkr h d a) := congrArg some (Raw.setA_hdr _ _)
theorem stkw (h : Hdr) (d : BitVec 9) (a : Src) (f : StkForm) : Statement (.stkw h d a f) := by
  cases f <;> first
  | exact congrArg some (Raw.setA_hdr _ _)
  | exact congrArg some ((Raw.setB_hdr _ _).trans (Raw.setA_hdr _ _))
theorem shfl (h : Hdr) (d : BitVec 8) (a : Src) (m : ShMode) (n : ShOff) (p : PSrc) : Statement (.shfl h d a m n p) := by
  cases n <;> first
  | exact congrArg some (Raw.setA_hdr _ _)
  | exact congrArg some ((Raw.setB_hdr _ _).trans (Raw.setA_hdr _ _))
theorem shflb (h : Hdr) (d : BitVec 8) (a : Src) (l : ShbSel) (p : PSrc) : Statement (.shflb h d a l p) := by
  cases l <;> first
  | exact congrArg some (Raw.setA_hdr _ _)
  | exact congrArg some ((Raw.setB_hdr _ _).trans (Raw.setA_hdr _ _))
theorem shflp (h : Hdr) (d : BitVec 8) (a b : Src) (p : PSrc) : Statement (.shflp h d a b p) := congrArg some ((Raw.setB_hdr _ _).trans (Raw.setA_hdr _ _))
theorem vote (h : Hdr) (f : VoteForm) (pa : PSrc) : Statement (.vote h f pa) := by
  cases f <;> rfl
theorem redx (h : Hdr) (d : BitVec 8) (a : Src) (o : ROp) (rm : RMod) (p : PSrc) : Statement (.redx h d a o rm p) := congrArg some (Raw.setA_hdr _ _)
theorem scanx (h : Hdr) (d : BitVec 8) (a : Src) (o : ROp) (rm : RMod) (exc : Bool) (p : PSrc) : Statement (.scanx h d a o rm exc p) := congrArg some (Raw.setA_hdr _ _)
theorem gath (h : Hdr) (d a : BitVec 8) (b : Src) (n : BitVec 4) (p : PSrc) : Statement (.gath h d a b n p) := congrArg some (Raw.setB_hdr _ _)
theorem rebal (h : Hdr) (d : BitVec 8) (a b : Src) (p : PSrc) : Statement (.rebal h d a b p) := congrArg some ((Raw.setB_hdr _ _).trans (Raw.setA_hdr _ _))
theorem matchx (h : Hdr) (f : MatchForm) (a : Src) (p : PSrc) : Statement (.matchx h f a p) := by
  cases f <;> exact congrArg some (Raw.setA_hdr _ _)
theorem ld (h : Hdr) (t : LdT) (o : Ordk) (d : BitVec 9) (m : MemOpd) : Statement (.ld h t o d m) := congrArg some (Raw.setM_hdr _ _ _)
theorem st (h : Hdr) (t : StT) (tick : Bool) (o : Ordk) (d : BitVec 9) (m : MemOpd) : Statement (.st h t tick o d m) := congrArg some (Raw.setM_hdr _ _ _)
theorem lds (h : Hdr) (t : LdT) (o : Ordk) (d : BitVec 9) (m : MemOpd) : Statement (.lds h t o d m) := congrArg some (Raw.setM_hdr _ _ _)
theorem sts (h : Hdr) (t : StT) (o : Ordk) (d : BitVec 9) (m : MemOpd) : Statement (.sts h t o d m) := congrArg some (Raw.setM_hdr _ _ _)
theorem ldb (h : Hdr) (g : Option Fmt) (spad : Bool) (o : Ordk) (d : BitVec 8) (m : MemOpd) : Statement (.ldb h g spad o d m) := congrArg some (Raw.setM_hdr _ _ _)
theorem stb (h : Hdr) (f : StbForm) (spad : Bool) (o : Ordk) (d : BitVec 8) (m : MemOpd) : Statement (.stb h f spad o d m) := by
  cases f <;> exact congrArg some (Raw.setM_hdr _ _ _)
theorem atom (h : Hdr) (o : AtOp) (w64 ar post : Bool) (sc : Scope) (d : BitVec 9) (b : Src) (m : MemOpd) : Statement (.atom h o w64 ar post sc d b m) := congrArg some ((Raw.setB_hdr _ _).trans (Raw.setM_hdr _ _ _))
theorem atoms (h : Hdr) (o : AtOp) (w64 ar post : Bool) (sc : Scope) (d : BitVec 9) (b : Src) (m : MemOpd) : Statement (.atoms h o w64 ar post sc d b m) := congrArg some ((Raw.setB_hdr _ _).trans (Raw.setM_hdr _ _ _))
theorem fence (h : Hdr) (sc : Scope) : Statement (.fence h sc) := rfl
theorem fenco (h : Hdr) (sc : Scope) : Statement (.fenco h sc) := rfl
theorem fencr (h : Hdr) (sc : Scope) : Statement (.fencr h sc) := rfl
theorem storeBufferSerialise (core : Nat) : Statement (.storeBufferSerialise core) := rfl
theorem spill (h : Hdr) (n : BitVec 5) (spad : Bool) (d : BitVec 8) (m : MemOpd) : Statement (.spill h n spad d m) := congrArg some (Raw.setM_hdr _ _ _)
theorem fill (h : Hdr) (n : BitVec 5) (spad : Bool) (d : BitVec 8) (m : MemOpd) : Statement (.fill h n spad d m) := congrArg some (Raw.setM_hdr _ _ _)
theorem cpyG2s (h : Hdr) (d : BitVec 8) (m : MemOpd) (n : Src) : Statement (.cpyG2s h d m n) := congrArg some ((Raw.setB_hdr _ _).trans (Raw.setM_hdr _ _ _))
theorem cpyS2g (h : Hdr) (d : BitVec 8) (m : MemOpd) (n : Src) : Statement (.cpyS2g h d m n) := congrArg some ((Raw.setB_hdr _ _).trans (Raw.setM_hdr _ _ _))
theorem cpyt (h : Hdr) (t : BitVec 8) (base : BitVec 9) (disp : Word) (stride : Option (BitVec 9)) (cnt : BitVec 10) : Statement (.cpyt h t base disp stride cnt) := by
  cases stride <;> rfl
theorem waitc (h : Hdr) (c : EngClass) (n : BitVec 6) : Statement (.waitc h c n) := rfl
theorem tset (h : Hdr) (t : BitVec 8) (so : BitVec 9) (x : Src) : Statement (.tset h t so x) := congrArg some (Raw.setB_hdr _ _)
theorem trel (h : Hdr) (t : BitVec 8) : Statement (.trel h t) := rfl
theorem trel64 (h : Hdr) (t : TileSel) : Statement (.trel64 h t) := congrArg some (Raw.setTile_hdr _ _)
theorem tstat (h : Hdr) (d : BitVec 8) (t : TileSel) : Statement (.tstat h d t) := congrArg some (Raw.setTile_hdr _ _)
theorem ldtFrag (h : Hdr) (d : BitVec 8) (t : TileSel) (b : Src) : Statement (.ldtFrag h d t b) := congrArg some ((Raw.setB_hdr _ _).trans (Raw.setTile_hdr _ _))
theorem ldtWord (h : Hdr) (d : BitVec 8) (t : TileSel) (b : Src) : Statement (.ldtWord h d t b) := congrArg some ((Raw.setB_hdr _ _).trans (Raw.setTile_hdr _ _))
theorem pref (h : Hdr) (l2 : Bool) (m : MemOpd) : Statement (.pref h l2 m) := congrArg some (Raw.setM_hdr _ _ _)
theorem cctlIc (h : Hdr) (m : MemOpd) : Statement (.cctlIc h m) := congrArg some (Raw.setM_hdr _ _ _)
theorem cctlInv (h : Hdr) (m : MemOpd) : Statement (.cctlInv h m) := congrArg some (Raw.setM_hdr _ _ _)
theorem mma (h : Hdr) (d a b : BitVec 8) (fa fb : Fmt) (rm : RMod) (zc : Bool) : Statement (.mma h d a b fa fb rm zc) := rfl
theorem mmad (h : Hdr) (d e a b : BitVec 8) (fa fb : Fmt) (rm : RMod) (zc : Bool) : Statement (.mmad h d e a b fa fb rm zc) := rfl
theorem mcvt (h : Hdr) (d a : BitVec 8) (g : Fmt) (i32 : Bool) (rm : RMod) (as sp hi : Bool) (vh : Option (BitVec 8)) : Statement (.mcvt h d a g i32 rm as sp hi vh) := rfl
theorem mzero (h : Hdr) (d : BitVec 8) : Statement (.mzero h d) := rfl
theorem msclAdd (h : Hdr) (d : BitVec 8) (b : Src) : Statement (.msclAdd h d b) := congrArg some (Raw.setB_hdr _ _)
theorem msclSet (h : Hdr) (d : BitVec 8) (b : Src) : Statement (.msclSet h d b) := congrArg some (Raw.setB_hdr _ _)
theorem mlease (h : Hdr) : Statement (.mlease h) := rfl
theorem mfree (h : Hdr) : Statement (.mfree h) := rfl
theorem lateResultReturn (core slot k : Nat) : Statement (.lateResultReturn core slot k) := rfl
theorem parkEnd (core slot mem : Nat) : Statement (.parkEnd core slot mem) := rfl
theorem swarmResidency (core : Nat) : Statement (.swarmResidency core) := rfl
theorem familyRelease (core slot fam : Nat) : Statement (.familyRelease core slot fam) := rfl
theorem slotRetire (core slot : Nat) : Statement (.slotRetire core slot) := rfl
theorem binTimerExpiry (core bin : Nat) : Statement (.binTimerExpiry core bin) := rfl
theorem binLaunchNoAdd (grid col : Nat) : Statement (.binLaunchNoAdd grid col) := rfl
theorem gridComplete (grid : Nat) : Statement (.gridComplete grid) := rfl
theorem doneAddition (grid : Nat) : Statement (.doneAddition grid) := rfl
theorem childCountOut (core slot : Nat) : Statement (.childCountOut core slot) := rfl
theorem variantDispatch (core slot mem : Nat) : Statement (.variantDispatch core slot mem) := rfl
theorem vcallMerge (core slot fam : Nat) : Statement (.vcallMerge core slot fam) := rfl
theorem vretFramePop (core slot x : Nat) : Statement (.vretFramePop core slot x) := rfl
theorem tagUpdate (k : Nat) : Statement (.tagUpdate k) := rfl
theorem copyRetire (core slot k : Nat) : Statement (.copyRetire core slot k) := rfl
theorem tileReady (core tile : Nat) : Statement (.tileReady core tile) := rfl
theorem tileDrainEmpty (core tile : Nat) : Statement (.tileDrainEmpty core tile) := rfl
theorem tileFree (core tile : Nat) : Statement (.tileFree core tile) := rfl
theorem postedAtomicRetire (core slot : Nat) : Statement (.postedAtomicRetire core slot) := rfl
theorem matrixOpRetire (core slot : Nat) (r : Residue) : Statement (.matrixOpRetire core slot r) := rfl
theorem leaseGrant (core : Nat) : Statement (.leaseGrant core) := rfl
theorem matrixBoostAck (core : Nat) : Statement (.matrixBoostAck core) := rfl
theorem matrixBoostRemove (core : Nat) : Statement (.matrixBoostRemove core) := rfl
theorem rampDownFiller (core n : Nat) : Statement (.rampDownFiller core n) := rfl
theorem sleepRecheck (core slot mem : Nat) : Statement (.sleepRecheck core slot mem) := rfl
theorem sleepTimeout (core slot mem : Nat) : Statement (.sleepTimeout core slot mem) := rfl
theorem handlerStart (core : Nat) : Statement (.handlerStart core) := rfl
theorem colonyRestore (core grid col : Nat) : Statement (.colonyRestore core grid col) := rfl
theorem tlbShootdown (what : Shoot) : Statement (.tlbShootdown what) := rfl
theorem placementDecision : Statement (.placementDecision) := rfl
theorem controlPeriodLatch (temps : List (Nat × Int)) (droop : List (Nat × Nat)) (next : Option PlaceParams) : Statement (.controlPeriodLatch temps droop next) := rfl
theorem peerNotice (port : Nat) (set : Bool) : Statement (.peerNotice port set) := rfl
theorem clkreqWrite (core : Nat) (w : Word) : Statement (.clkreqWrite core w) := rfl
theorem railChangeDone (core : Nat) : Statement (.railChangeDone core) := rfl
theorem sliceClockSwitch (core slice : Nat) : Statement (.sliceClockSwitch core slice) := rfl
theorem ageingMeasure (core slow : Nat) : Statement (.ageingMeasure core slow) := rfl
theorem kick (q : Nat) (w : Word) : Statement (.kick q w) := rfl
theorem packetRetry (q : Nat) : Statement (.packetRetry q) := rfl
theorem pktNop (q : Nat) : Statement (.pktNop q) := rfl
theorem pktLaunch (q : Nat) : Statement (.pktLaunch q) := rfl
theorem pktFence (q : Nat) : Statement (.pktFence q) := rfl
theorem fenceCountersPass (q : Nat) : Statement (.fenceCountersPass q) := rfl
theorem pktSignal (q : Nat) : Statement (.pktSignal q) := rfl
theorem pktCopy (q : Nat) : Statement (.pktCopy q) := rfl
theorem vtabFreeze (q : Nat) : Statement (.vtabFreeze q) := rfl
theorem vtabThaw (q : Nat) : Statement (.vtabThaw q) := rfl
theorem vtabReset (q : Nat) : Statement (.vtabReset q) := rfl
theorem pktMode (q : Nat) : Statement (.pktMode q) := rfl
theorem qcmdEnable (q : Nat) : Statement (.qcmdEnable q) := rfl
theorem qcmdPreempt (q : Nat) : Statement (.qcmdPreempt q) := rfl
theorem qcmdResume (q : Nat) : Statement (.qcmdResume q) := rfl
theorem qcmdDiscard (q : Nat) : Statement (.qcmdDiscard q) := rfl
theorem qcmdDisable (q : Nat) : Statement (.qcmdDisable q) := rfl
theorem fserv (q : Nat) (n : Word) : Statement (.fserv q n) := rfl
theorem fqhead (q : Nat) (n : Word) : Statement (.fqhead q n) := rfl
theorem registerWrite (off : Nat) (w : Word) : Statement (.registerWrite off w) := rfl
theorem hostAccess (a : ExtAcc) : Statement (.hostAccess a) := rfl
theorem peerAccess (port : Nat) (a : ExtAcc) : Statement (.peerAccess port a) := rfl
theorem peerPortDown (port : Nat) : Statement (.peerPortDown port) := rfl
theorem attestationRequest (nonce : List Byte) : Statement (.attestationRequest nonce) := rfl
theorem powerOnReset : Statement (.powerOnReset) := rfl
theorem dramTrainingDone (ok : Bool) : Statement (.dramTrainingDone ok) := rfl
theorem firmwareVerify (key : List Byte) : Statement (.firmwareVerify key) := rfl
theorem firmwareLoadDone (f : FwLoad) : Statement (.firmwareLoadDone f) := rfl
theorem bypass : Statement (.bypass) := rfl
theorem idcode : Statement (.idcode) := rfl
theorem samplePreload : Statement (.samplePreload) := rfl
theorem extest (selected : Bool) : Statement (.extest selected) := rfl
theorem peerPortUp (port : Nat) : Statement (.peerPortUp port) := rfl
theorem noticeRelease (port : Nat) : Statement (.noticeRelease port) := rfl
theorem firmwareEvent (core : Nat) : Statement (.firmwareEvent core) := rfl
theorem copyPacketDone (q : Nat) : Statement (.copyPacketDone q) := rfl
theorem railsUp : Statement (.railsUp) := rfl
theorem powerLoss : Statement (.powerLoss) := rfl

end Laws.Header

end Sys2Proof
end

