-- ==== Sys2Proof/Machine/Image.lean ====
section
/-! DEFINITION. What a program image holds and how it reaches memory (R41, R307, R310, R314 to R320): the placing of
instructions in fetch blocks, typed blocks, variant tables and launch records as bytes, and the loader. The text of
the assembler's source lines is no part of the device. -/

namespace Sys2Proof.Machine

-- code (R41, R310)

/-- The length an assembler chooses (R310), as a LEN code: the only one; 32 bits for TREL with a literal tile; or 96
bits for a literal, a label or a displacement that is not zero, else 64 bits. `place` says that the form has a place
for what is given; none is the error that it has not. -/
def chosenLen (legal : List (BitVec 2)) (place tile literal label : Bool) (disp : Word) : Option (BitVec 2) :=
  let long := literal || label || disp != 0
  if tile then some 0
  else if long && !place then none
  else match legal with
  | [l] => some l
  | _ => some (if long then 2 else 1)

/-- The words of instructions from an address on, with NOPs in front of one that would cross a fetch block (R41). -/
def placeWords : Nat → List (List Word) → List Word
  | _, [] => []
  | a, w :: r =>
    let gap := if a % 32 + 4 * w.length ≤ 32 then 0 else (32 - a % 32) / 4
    List.replicate gap 0x00000038#32 ++ w ++ placeWords (a + 4 * (gap + w.length)) r

-- data (R314 to R318)

/-- A rational n/d (R313) divided by 2^(scale - 127), as a value that rounds to nearest on every format's grid as it
does: the first 160 bits behind the point, and a last bit that says whether more follow. -/
def ratVal (n : Int) (d scale : Nat) : Val :=
  let top := n.natAbs * 2 ^ (160 + (127 - scale))
  let bot := d * 2 ^ (scale - 127)
  .fin (decide (n < 0)) (2 * (top / bot) + (if top % bot = 0 then 0 else 1)) (-161)

/-- A typed block of values of a floating format, rationals, divided by 2^(scale - 127) and rounded once to nearest
even; none where one overflows, a field is out of range, or the place is not a multiple of 64 (R315). -/
def typedBlock (at_ : Nat) (g : Fmt) (scale : Nat) (sp : Option Nat) (vs : List (Int × Nat)) : Option (List Byte × Word) :=
  let rs := vs.map fun v => match sp with
    | some c => roundSp c .ne (ratVal v.1 v.2 scale)
    | none => roundF g .ne (ratVal v.1 v.2 scale)
  if g.isFloat && at_ % 64 == 0 && decide (scale ≤ 254) && sp.all (fun c => g == .e2m1 && decide (c ≤ 255)) && vs.all (fun v => v.2 != 0) && vs.length == elems g && rs.all fun r => r.fl &&& fOF == 0 then
    some (natLe 64 (layCodes (fmtBits g) (rs.map (·.code))), mkHdr (fmtNum g) scale (sp.getD 0) sp.isSome)
  else none

/-- A typed block of integers, to which the scale is not applied (R315, R93). -/
def typedInts (at_ : Nat) (g : Fmt) (scale : Nat) (vs : List Int) : Option (List Byte × Word) :=
  if !g.isFloat && at_ % 64 == 0 && decide (scale ≤ 254) && vs.length == elems g && vs.all fun v => decide (intMin g ≤ v) && decide (v ≤ intMax g) then
    some (natLe 64 (layCodes (fmtBits g) (vs.map (intCode g))), mkHdr (fmtNum g) scale 0 false)
  else none

/-- The 32 bytes of a table entry, its reserved bytes zero (R227, R316). -/
def entryBytes (v : VEntry) : List Byte :=
  natLe 8 v.addr ++ natLe 4 v.ttag ++ natLe 4 v.etag ++ natLe 2 v.qtag ++ natLe 1 v.nsamp ++ natLe 1 v.eflags ++ natLe 4 v.stamp ++ natLe 1 v.win ++ natLe 7 0

/-- A variant table in memory, with FORMAT 1 and UPD 0 (R226, R316); none where a check of R229 fails that does not
depend on the grid, a value does not fit its field, it has another number of entries, or its place is not a multiple
of 64. -/
def vtabBytes (at_ count policy defidx age mins : Nat) (es : List VEntry) : Option (List Byte) :=
  let b := natLe 1 1 ++ natLe 1 count ++ natLe 1 policy ++ natLe 1 defidx ++ natLe 4 age ++ natLe 1 mins ++ natLe 55 0 ++ es.flatMap entryBytes
  let t : VTable := { format := 1, count := count, policy := policy, defidx := defidx, age := age, mins := mins, zero := true, entries := es }
  if at_ % 64 = 0 ∧ es.length = count ∧ readTable b = t ∧ tableFault t 255 = none then some b else none

/-- The 64 bytes of a launch record (R66, R318); none where a check of R66 fails, or its place is not a multiple of
64. -/
def launchBytes (at_ : Nat) (r : LaunchRec) : Option (List Byte) :=
  let b := natLe 8 r.entry ++ natLe 4 r.colonies ++ natLe 2 r.fibres ++ natLe 1 r.cores ++ natLe 1 (r.win / 32) ++ natLe 4 r.spad ++ natLe 1 r.heat ++ natLe 1 (b2n r.dn) ++
    natLe 2 0 ++ natLe 8 r.arg.toNat ++ natLe 8 r.done ++ natLe 24 0
  if at_ % 64 = 0 ∧ readLaunch b = some r then some b else none

-- images (R320)

/-- An image: its plain segments, and its typed blocks with their headers, at virtual addresses. -/
structure Image where
  segs : List (Nat × List Byte)
  blocks : List (Nat × List Byte × Word)
  deriving DecidableEq, Repr

/-- No plain byte lies in the block of a header, and each block is whole (R315, R320). -/
def Image.linked (im : Image) : Bool :=
  im.blocks.all fun b => b.1 % 64 == 0 && b.2.1.length == 64 && im.segs.all fun g => decide (g.1 + g.2.length ≤ b.1) || decide (b.1 + 64 ≤ g.1)

/-- The physical address of a virtual one under a queue's page tables, with whether its page is typed. -/
def State.mapped (s : State) (q va : Nat) : Option (Nat × Bool) :=
  if 2 ^ 52 ≤ va then none
  else match walk s q va 4 (s.queue q).root with
  | .leaf t _ _ => some (t.pa + (va - t.va), t.typ)
  | _ => none

def Image.cells (im : Image) : List (Nat × Byte) :=
  (im.segs ++ im.blocks.map fun b => (b.1, b.2.1)).flatMap fun g => g.2.zipIdx.map fun e => (g.1 + e.2, e.1)

/-- Loads an image into the space of a queue: every byte at the physical address its page tables give, then each header
where its page is typed; none, and nothing is loaded, where an address has no valid leaf that its queue reaches (R320). -/
def State.loadImage (s : State) (q : Nat) (im : Image) : Option State :=
  if im.linked && im.cells.all fun c => (s.mapped q c.1).isSome then
    let t := im.cells.foldl (fun t c => match s.mapped q c.1 with | some p => t.wrByte p.1 c.2 | none => t) s
    some (im.blocks.foldl (fun t b => match s.mapped q b.1 with | some (a, true) => t.wrHdr a b.2.2 | _ => t) t)
  else none

end Sys2Proof.Machine
end

