-- ==== Sys2Proof/Tests/Slice0.lean ====
section
/-! SUPPORT. Tests: ill-formed terms that the checks refuse, words of the spec and what they decode to, single
steps on small states, and for every statement with hypotheses a state and operands that meet them: a theorem
wit_<what> stands for the statement, or the clause of one, that its name or its comment names. -/

set_option Elab.async false

namespace Sys2Proof.Tests

open Sys2Proof.Machine

def h0 : Hdr := { len := 0, y := false, pg := 7, pn := false, sc := false }
def h1 : Hdr := { h0 with len := 1 }
def h2 : Hdr := { h0 with len := 2 }
def h3 : Hdr := { h0 with len := 3 }

/-- One fibre of queue 0 on core 0, READY at 0x30000. -/
def m0 : State := { State.reset.withFetchWord 32 0x38 with cur := some ⟨0, 0, 1⟩ }
def on (f : Slot → Slot) : State := m0.onSlot 0 0 f

def noEnv : Env := ⟨0, 0, handlerSlot, { id := 0, mask := 0, pc := 0, st := .ready, fam := 0, ent := none, last := 0, since := 0, y := false, len := 0, src := 0 }, 0⟩
def envOf (h : Hdr) (s : State) : Env := (s.env h).getD noEnv

/-- The member in hand issues an instruction with these operands and no common check stops it. -/
def issuesB (h : Hdr) (u : Uses) (w : Where) (s : State) : Bool :=
  (s.env h).isSome && (precheck (envOf h s) h u w s).isNone && (envOf h s).act != 0

theorem issues_of {h : Hdr} {u : Uses} {w : Where} {s : State} (hb : issuesB h u w s = true) : Issues h u w s (envOf h s) := by
  simp only [issuesB, Bool.and_eq_true, Option.isNone_iff_eq_none, bne_iff_ne, ne_eq] at hb
  obtain ⟨⟨h1, h2⟩, h3⟩ := hb
  obtain ⟨e, he⟩ := Option.isSome_iff_exists.mp h1
  exact ⟨by simp only [envOf, he, Option.getD_some], h2, h3⟩


-- states

/-- Four fibres, FIDs 0 to 3. -/
def four (x : Slot) : Slot :=
  { x with lanes := (List.range 4).map fun l => (l, { fibreReset with fid := l }), members := x.members.map fun m => { m with mask := 15 } }
def m4 : State := on four
def onMem (f : Member → Member) : State := on fun x => { x with members := x.members.map f }

/-- A trap of the fibre that is pending at its core. -/
def pend : Pend := { cyc := 0, slot := 0, mem := some 1, tr := { cause := 16, pc := 0x30000, mask := 1, addr := 0, info := 5 } }
/-- The handler serving that trap, READY at 0x40000. -/
def mh : State :=
  { (m0.onCore 0 fun k => { k with handler := { k.handler with slot := k.handler.slot.single 0x40000 .ready 0, service := some pend } }) with
    cur := some ⟨0, 64, 0⟩ }

def isNext (o : Out) : Bool := match o with | .next _ => true | _ => false

-- hypotheses that can be met: reset, decoding, selection, the step

theorem wit_DecodingInvertsEncoding :
    (Instr.ld h2 .b128 (.strong .system) 508 ⟨.s 510, none, 0xFFFFFFFC⟩).wf = false ∧
    (Instr.ld h2 .b32 (.strong .system) 255 ⟨.s 510, some (.v 255), 0xFFFFFFFC⟩).wf = true ∧
    (Instr.ld h2 .b32 (.strong .system) 255 ⟨.s 510, some (.v 255), 0xFFFFFFFC⟩).raw.isSome = true := by decide +kernel

theorem wit_StepKeepsInvariant_reset : State.reset.Inv ∧ isNext (step State.reset) = true :=
  ⟨⟨by decide +kernel, by decide +kernel, by decide, by decide, by decide⟩, by decide +kernel⟩
theorem wit_StepKeepsInvariant_run : m0.Inv ∧ isNext (step m0) = true :=
  ⟨⟨by decide +kernel, by decide +kernel, by decide +kernel, by decide +kernel, by decide +kernel⟩, by decide +kernel⟩

theorem wit_IssueSelection : (m0.select 0 0).map (·.1) = some 0 := by decide +kernel
theorem wit_IssueSelection_handler : (mh.select 0 0).map (·.1) = some 64 := by decide +kernel
theorem wit_IssueSelection_can : m0.stoppedCore 0 = false ∧ ((m0.core 0).power.slice 0).edge m0.now = true ∧
    (∀ k ∈ (m0.core 0).handler.slot.members, k.st = .waiti) ∧ (m0.core 0).handler.pending = [] ∧ (m0.core 0).handler.slot.last ≠ m0.now + 1 ∧
    ((m0.core 0).slots.countP fun e => e.2.slice == 0 && e.2.last == m0.now + 1) < 2 ∧
    ((m0.core 0).slots.any fun e => e.2.slice == 0 && e.2.last != m0.now + 1 && !e.2.stopped && (m0.queue (m0.queueOf e.2.grid)).st == .running &&
      e.2.members.any fun m => m.st == .ready && m.mask != 0) = true := by decide +kernel

/-- The hypotheses of a step that issues, with what the fetched bytes decode to. -/
def fetched (s : State) : Option Dec :=
  match s.agenda with
  | ⟨dt, .issue c sl⟩ :: r =>
    let s2 := (({ s with agenda := r } : State).advance dt).parkMerges c
    match s2.select c sl with
    | some (n, x, m) =>
      if s2.slot? c n = some x ∧ x.mem? m.id = some m then
        match (s2.fetching c sl n m).fetchAt c n x m with
        | .ok pa s4 =>
          let len := lenBytes ((s4.busByte pa).extractLsb' 0 2)
          if s4.badLoc (.phys pa) = none ∧ lfind (s4.core c).icache (pa / 64) = none then
            if pa % 32 + len ≤ 32 then some (decodeBytes (s4.busBytes pa len)) else some (.error 0)
          else none
        | _ => none
      else none
    | none => none
  | _ => none

def at_ (s : State) (pc : Dword) : State := { (s.onSlot 0 0 fun x => { x with members := x.members.map fun m => { m with pc := pc } }) with agenda := [⟨3, .issue 0 0⟩] }

theorem wit_StepRuns : fetched m0 = some (.ok (.nop h0)) := by decide +kernel
theorem wit_StepRuns_later : fetched (at_ (m0.wrBytes 0x30100 (wordsBytes [0x00025D38])) 0x30100) = some (.ok (.fencr h0 .colony)) := by decide +kernel
theorem wit_StepRuns_event : m0.admits (.sliceClockSwitch 0 0) = true ∧ State.reset.admits .railsUp = true := by decide +kernel
theorem wit_FetchTraps_illegal : fetched (at_ (m0.wrBytes 0x30100 (wordsBytes [0x00007FF8])) 0x30100) = some (.error 1) := by decide +kernel
/-- The fetch of the member that slice 0 selects. -/
def fetchOf (s : State) : Option (Option Tr) :=
  let s2 := (({ s with agenda := [] } : State).advance 3).parkMerges 0
  match s2.select 0 0 with
  | some (n, x, m) => match (s2.fetching 0 0 n m).fetchAt 0 n x m with
    | .trap t _ => some (some t)
    | .ok _ _ => some none
    | _ => none
  | none => none
theorem wit_FetchTraps_odd : (fetchOf (at_ m0 0x30002)).map (·.map (·.info)) = some (some 2) := by decide +kernel
theorem wit_FetchTraps_high : (fetchOf (at_ m0 0x10000000000000)).map (·.map (·.info)) = some (some 3) := by decide +kernel
theorem wit_FetchTraps_denied : (fetchOf (at_ (m0.wrNat 0x20000 8 0x33) 0x30000)).map (·.map (·.cause)) = some (some 9) := by decide +kernel
theorem wit_FetchTraps_crossing : fetched (at_ (m0.wrBytes 0x3001C (wordsBytes [0x39])) 0x3001C) = some (.error 0) := by decide +kernel


-- hypotheses that can be met: what every instruction goes through

theorem wit_SavedSwarmReadsBack : let x := (m4.slot? 0 0).getD handlerSlot
    Memory.wf m4.mem = true ∧ x.win % 32 = 0 ∧ x.win = 256 ∧ (x.lanes.map (·.1)).Pairwise (· < ·) ∧ x.lanes.length = 4 ∧
    (∀ e ∈ x.lanes, e.1 < 64 ∧ e.2.fid < 2 ^ 32 ∧ e.2.forks < 2 ^ 32 ∧ e.2.frames.length ≤ 16) ∧ (x.sregs.map (·.1)).Pairwise (· < ·) ∧
    (∀ e ∈ x.sregs, e.1 < 512) ∧ x.members.length ≤ 64 ∧ x.fams.length ≤ 63 ∧ x.kids.length ≤ 64 ∧ x.prio < 256 ∧ x.col < 2 ^ 32 ∧ x.rank < 256 := by
  decide +kernel

theorem wit_GuardFalse : let i : Instr := .st { h1 with pg := 0 } .b32 false .weak 2 ⟨.s 6, some (.v 1), 0⟩
    (i.raw.map Raw.hdr) = some { h1 with pg := 0 } ∧ (m4.env { h1 with pg := 0 }).isSome = true ∧
      (envOf { h1 with pg := 0 } m4).act = 0 ∧ (envOf { h1 with pg := 0 } m4).n ≠ 64 := by decide +kernel

def lateTo (d : Dest) : LateOp := { seq := 1, writes := [⟨d, 0x3F800000, none, false⟩], flags := 0, sample := false, issued := 0 }
/-- A grid in debug mode, with a result outstanding to v5. -/
def mDebug : State := { (on fun x => { x with late := [lateTo (.v 0 5)] }) with grids := m0.grids.map fun g => { g with debug := true } }
def mBad : State := on fun x => { x with badRegs := [(.v 0 5, 1)] }

theorem wit_CommonTraps_window : let e := envOf h1 (on fun x => { x with win := 32 })
    ((on fun x => { x with win := 32 }).env h1).isSome = true ∧ e.n ≠ 64 ∧ e.x.win ≤ (32#8).toNat ∧ ¬e.x.win ≤ (31#8).toNat := by decide +kernel
theorem wit_CommonTraps_debug : (mDebug.env h1).isSome = true ∧ (envOf h1 mDebug).n ≠ 64 ∧ (envOf h1 mDebug).act.getLsbD 0 = true ∧
    (mDebug.slot? 0 0).map (·.mtx) = some [] ∧ ((mDebug.slot? 0 0).map fun x => x.late.all fun o => o.writes.all fun w => w.dst == .v 0 5) = some true := by
  decide +kernel
theorem wit_CommonTraps_debugOf : mDebug.debugOf (envOf h1 mDebug) = true ∧ 5 < (envOf h1 mDebug).x.win := by
  obtain ⟨x, hx, hp⟩ := State.env_plain (s := mDebug) (h := h1) (e := envOf h1 mDebug) (by
    obtain ⟨e, he⟩ := Option.isSome_iff_exists.mp wit_CommonTraps_debug.1
    simp only [envOf, he, Option.getD_some])
  have hg : (envOf h1 mDebug).x.grid = x.grid := congrArg (fun y => y.grid) hp
  have hw : (envOf h1 mDebug).x.win = x.win := congrArg (fun y => y.win) hp
  have h0 : (mDebug.slot? 0 0).map (fun x => (x.grid, x.win)) = some (0, 256) := by decide +kernel
  have hx : mDebug.slot? 0 0 = some x := hx
  rw [hx] at h0
  simp only [Option.map_some, Option.some.injEq, Prod.mk.injEq] at h0
  rw [State.debugOf, hg, hw, h0.1, h0.2]
  decide +kernel
theorem wit_CommonTraps_bad : let e := envOf h1 mBad
    (mBad.env h1).isSome = true ∧ e.n ≠ 64 ∧ mBad.debugOf e = false ∧ e.act.getLsbD 0 = true ∧ (mBad.slot? 0 0).map (·.badRegs) = some [(.v 0 5, 1)] ∧
    e.x.badRegs = [(.v 0 5, 1)] := by decide +kernel
theorem wit_CommonTraps_handler : (m0.env h1).isSome = true ∧ (envOf h1 m0).n ≠ 64 ∧
    (∀ n ∈ (memUses false ⟨.s 6, some (.v 255), 0⟩).rv, n < (envOf h1 m0).x.win) := by decide +kernel
theorem wit_CommonTraps_swarm : (mh.env h1).isSome = true ∧ (envOf h1 mh).n = 64 := by decide +kernel

-- hypotheses that can be met: registers to registers

def hS : Hdr := { h1 with sc := true }

/-- The two-source forms with per-lane operands: IntegerArithmetic, ShiftsLogicAndFields, FloatArithmetic,
FloatSelectCompareClassify, FloatRoundScaleExponent (FSCALE), ConversionResults (STKW). -/
theorem wit_two_sources : Issues h1 (usesOf h1 [.v 0, .v 255] [] [] (some 255) 1 []) .anywhere m4 (envOf h1 m4) := issues_of (by decide +kernel)
/-- The same in the scalar form, with the highest scalar registers. -/
theorem wit_two_sources_scalar : Issues hS (usesOf hS [.s 0, .s 511] [] [] (some 511) 1 []) .anywhere m4 (envOf hS m4) := issues_of (by decide +kernel)
/-- The same with a broadcast scalar and the literal. -/
theorem wit_two_sources_literal : Issues h2 (usesOf h2 [.s 511, .lit 0xFFFFFFFF] [] [] (some 0) 1 []) .anywhere m4 (envOf h2 m4) := issues_of (by decide +kernel)
theorem wit_two_sources_handler : Issues h1 (usesOf h1 [.v 0, .v 63] [] [] (some 63) 1 []) .anywhere mh (envOf h1 mh) := issues_of (by decide +kernel)
theorem wit_IntegerArithmetic_carry : Issues h1 (usesOf h1 [.v 0, .v 1] [] [⟨3, true⟩] (some 2) 1 [3]) .anywhere m4 (envOf h1 m4) := issues_of (by decide +kernel)
/-- ShiftsLogicAndFields (IMAD, LOP3, BPERM, BFI) and FloatArithmetic (FFMA). -/
theorem wit_ThreeSource : Issues h1 (usesOf h1 [.v 0, .v 1, .s 300] [] [] (some 2) 1 []) .anywhere m4 (envOf h1 m4) := issues_of (by decide +kernel)
/-- OneSourceAndPairResults, FloatRoundScaleExponent, SpecialFunctionResults, ConversionResults. -/
theorem wit_OneSource : Issues h1 (usesOf h1 [.v 0] [] [] (some 0) 1 []) .anywhere m4 (envOf h1 m4) := issues_of (by decide +kernel)
theorem wit_OneSource_none : Issues h2 (usesOf h2 [] [] [] (some 255) 1 []) .anywhere m4 (envOf h2 m4) := issues_of (by decide +kernel)
theorem wit_OneSource_sel : Issues h1 (usesOf h1 [.v 0, .v 1] [] [⟨7, true⟩] (some 2) 1 []) .anywhere m4 (envOf h1 m4) := issues_of (by decide +kernel)
theorem wit_Pair_imadw : Issues h1 (usesOf h1 [.v 0, .v 1] [.v 2] [] (some 254) 2 []) .anywhere m4 (envOf h1 m4) := issues_of (by decide +kernel)
theorem wit_Pair_lea : Issues h1 (usesOf h1 [.v 0] [.s 510] [] (some 254) 2 []) .anywhere m4 (envOf h1 m4) := issues_of (by decide +kernel)
theorem wit_Pair_iadd64 : Issues hS (usesOf hS [] [.s 510, .s 0] [] (some 510) 2 []) .anywhere m4 (envOf hS m4) := issues_of (by decide +kernel)
/-- PredicateResults; FCMP of FloatSelectCompareClassify has the same operands. -/
theorem wit_Predicate_isetp : Issues h1 (usesOf h1 [.v 0, .v 1] [] [] none 0 [0, 7]) .anywhere m4 (envOf h1 m4) := issues_of (by decide +kernel)
theorem wit_Predicate_icmp64 : Issues h1 (usesOf h1 [] [.v 0, .v 254] [] none 0 [6, 6]) .anywhere m4 (envOf h1 m4) := issues_of (by decide +kernel)
theorem wit_Predicate_plop : Issues h1 (usesOf h1 [] [] [⟨0, true⟩, ⟨6, false⟩, ⟨7, false⟩] none 0 [2]) .anywhere m4 (envOf h1 m4) := issues_of (by decide +kernel)
theorem wit_Predicate_pget : Issues h1 (usesOf h1 [] [] allPreds (some 1) 1 []) .anywhere m4 (envOf h1 m4) := issues_of (by decide +kernel)
theorem wit_Predicate_pset : Issues h1 (usesOf h1 [.v 0, .v 1] [] [] none 0 (List.range 7)) .anywhere m4 (envOf h1 m4) := issues_of (by decide +kernel)
/-- The largest finite magnitude is within the range, and the next is not. -/
theorem wit_Rounding : Fmt.isFloat .e4m3 = true ∧
    cmpMag 448 0 (magOf (fmtP .e4m3).mb (eminOf .e4m3) (maxCode .e4m3)).1 (magOf (fmtP .e4m3).mb (eminOf .e4m3) (maxCode .e4m3)).2 = .eq ∧
    cmpMag 449 0 (magOf (fmtP .e4m3).mb (eminOf .e4m3) (maxCode .e4m3)).1 (magOf (fmtP .e4m3).mb (eminOf .e4m3) (maxCode .e4m3)).2 = .gt := by decide +kernel
theorem wit_Special : Issues h1 (Uses.later (usesOf h1 [.v 0] [] [] (some 255) 1 [])) .anywhere m4 (envOf h1 m4) := issues_of (by decide +kernel)
theorem wit_Conversion_pair : Issues h1 (usesOf h1 [] [.v 254] [] (some 1) 1 []) .anywhere m4 (envOf h1 m4) := issues_of (by decide +kernel)
theorem wit_Conversion_formats : contains .fp32 .bf16 = true ∧ contains .bf16 .fp32 = false ∧ Fmt.isFloat .e2m1 = true := by decide
/-- PackAndUnpack. -/
theorem wit_Pack : Issues h1 { rv := List.range' 100 (elems .e2m1), wv := List.range' 239 17, late := true } .anywhere m4 (envOf h1 m4) := issues_of (by decide +kernel)
/-- Two blocks whose headers are of format FP16 and malformed. -/
def mBlk : State := on fun x => (four x).onFibre 1 fun f => f.setV 20 0xFF
theorem wit_Unpack : Issues h1 { rv := List.range' 4 17, wv := List.range' 32 (elems .fp16), late := true } .anywhere mBlk (envOf h1 mBlk) := issues_of (by decide +kernel)
theorem wit_Unpack_headers : badHdr (pay ((envOf h1 mBlk).x.v 0 20)) = false ∧ hdrFmt (pay ((envOf h1 mBlk).x.v 0 20)) = 0 ∧ badHdr (pay ((envOf h1 mBlk).x.v 1 20)) = true ∧
    (envOf h1 mBlk).act.getLsbD 1 = true := by decide +kernel

-- hypotheses that can be met: cross-lane

/-- ShuffleResults; SHFLB and SHFLP have the same operands; so have REDX and SCANX of ReductionsScansRebalance with one source. -/
theorem wit_Shuffle : Issues h1 (Uses.later (usesOf h1 [.v 1, .s 2] [] [⟨7, false⟩] (some ((5#8).setWidth 9)) 1 [])) .anywhere m4 (envOf h1 m4) := issues_of (by decide +kernel)
theorem wit_Shuffle_wrel : Issues h1 (Uses.later (usesOf h1 [.v 1] [] [⟨7, false⟩] (some ((5#8).setWidth 9)) 1 [])) .anywhere m4 (envOf h1 m4) := issues_of (by decide +kernel)
theorem wit_Gath : Issues h1 { usesOf h1 [.v 9] [] [⟨7, false⟩] (some ((5#8).setWidth 9)) 1 [] with
    rv := (usesOf h1 [.v 9] [] [⟨7, false⟩] (some ((5#8).setWidth 9)) 1 []).rv ++ List.range' 240 ((15#4).toNat + 1), late := true } .anywhere m4 (envOf h1 m4) :=
  issues_of (by decide +kernel)
/-- VotesAndMatches. -/
theorem wit_Vote : Issues h1 { rp := [(7#3).toNat], wp := [(0#3).toNat], late := true } .anywhere m4 (envOf h1 m4) := issues_of (by decide +kernel)
theorem wit_Vote_mask : Issues h1 { rp := [(7#3).toNat], wv := List.range' (254#8).toNat 2, late := true } .anywhere m4 (envOf h1 m4) := issues_of (by decide +kernel)
theorem wit_Match_mask : Issues h1 (Uses.later (usesOf h1 [.v 1] [] [⟨0, true⟩] (some ((254#8).setWidth 9)) 2 [])) .anywhere m4 (envOf h1 m4) := issues_of (by decide +kernel)
theorem wit_Match_one : Issues h1 (Uses.later (usesOf h1 [.v 1] [] [⟨0, true⟩] none 0 [(6#3).toNat])) .anywhere m4 (envOf h1 m4) := issues_of (by decide +kernel)
theorem wit_Rebalance : Issues h1 (Uses.later (usesOf h1 [.v 1, .v 2] [] [⟨7, false⟩] (some ((254#8).setWidth 9)) 2 [])) .anywhere m4 (envOf h1 m4) := issues_of (by decide +kernel)


-- hypotheses that can be met: control

theorem wit_Passes : Issues h0 {} .anywhere m4 (envOf h0 m4) := issues_of (by decide +kernel)
theorem wit_Passes_pref : Issues h1 { memUses false ⟨.s 6, some (.v 1), 0⟩ with quiet := true } .anywhere m4 (envOf h1 m4) := issues_of (by decide +kernel)
theorem wit_SoftwareTraps : Issues h0 {} .swarm m4 (envOf h0 m4) ∧ (envOf h0 m4).n ≠ 64 := ⟨issues_of (by decide +kernel), by decide +kernel⟩

/-- Two lanes whose pairs v2:v3 hold these addresses. -/
def mPair (a b : Dword) : State := on fun x =>
  { x with
    lanes := [(0, { fibreReset with fid := 0, regs := [(2, pureImg (a.extractLsb' 0 32)), (3, pureImg (a.extractLsb' 32 32))] }),
              (1, { fibreReset with fid := 1, regs := [(2, pureImg (b.extractLsb' 0 32)), (3, pureImg (b.extractLsb' 32 32))] })]
    members := x.members.map fun m => { m with mask := 3 } }
def targets (s : State) : List Dword := [(envOf h1 s).pair 0 false (.v 2), (envOf h1 s).pair 1 false (.v 2)]
theorem wit_ControlTransfers : ∀ s ∈ [mPair 0x40000 0x40002, mPair 0x40000 0x10000000040000, mPair 0x40000 0x40004, mPair 0x40000 0x40000],
    issuesB h1 (linkUses 10 [.v 2]) .anywhere s = true ∧ issuesB h1 { rv := useV 2 (.v 2), rs := useS 2 (.v 2) } .anywhere s = true := by decide +kernel
theorem wit_ControlTransfers_targets : (targets (mPair 0x40000 0x40002)).map (·.extractLsb' 0 2) = [0, 2] ∧
    (targets (mPair 0x40000 0x10000000040000)).map (·.extractLsb' 52 12) = [0, 1] ∧ targets (mPair 0x40000 0x40004) = [0x40000, 0x40004] ∧
    targets (mPair 0x40000 0x40000) = [0x40000, 0x40000] := by decide +kernel
theorem wit_ControlTransfers_off : Issues h2 {} .anywhere m4 (envOf h2 m4) := issues_of (by decide +kernel)
theorem wit_ControlTransfers_call : Issues h2 { wv := List.range' 254 2 } .anywhere m4 (envOf h2 m4) := issues_of (by decide +kernel)

/-- A member in a family of this kind. -/
def mFam (k : FamKind) : State := on fun x =>
  { four x with fams := [{ id := 1, outer := 0, kind := k, ent := none }], members := (four x).members.map fun m => { m with fam := 1 } }
theorem wit_Reconvergence : ∀ k ∈ [FamKind.branch, .merged, .vcall 1 0x30010], issuesB h0 {} .anywhere (mFam k) = true ∧
    (((mFam k).slot? 0 0).bind fun x => x.fam? (envOf h0 (mFam k)).m.fam).map (·.kind) = some k := by decide +kernel
theorem wit_Reconvergence_none : issuesB h0 {} .anywhere m4 = true ∧ ((m4.slot? 0 0).bind fun x => x.fam? (envOf h0 m4).m.fam) = none := by decide +kernel
def aCopy : CopyOp := { bytes := [], tile := none, hdrs := [], finished := false }
def aMtx : MtxOp := { seq := 1, op := .mcvt h3 200 64 .e4m3 false .fmode false false false none, pc := 0x30000, rows := 0, cols := 15, fm := 0, xs := [], shadows := [], clobbered := [], leased := false }
def mCount : State := on fun x => { four x with copies := [aCopy], posts := 2, kids := [7], mtx := [aMtx] }
theorem wit_CounterWaits : Issues h1 {} .anywhere mCount (envOf h1 mCount) ∧ Issues h1 {} .swarm mCount (envOf h1 mCount) ∧
    (mCount.slot? 0 0).map (fun x => (x.copies.length, x.mtx.length, x.posts, x.kids.length, x.due)) = some (1, 1, 2, 1, []) :=
  ⟨issues_of (by decide +kernel), issues_of (by decide +kernel), by decide +kernel⟩
theorem wit_End : Issues h0 {} .swarm mCount (envOf h0 mCount) ∧ (mCount.colony? 0 0).isSome = true := ⟨issues_of (by decide +kernel), by decide +kernel⟩

def mFork (live : Nat) : State := m0.onColony 0 0 fun z => { z with live := live }
def aBin : Bin := { grid := 0, col := 0, entry := 0x30020, fibres := [{ fid := some 1, parent := 0, seq := 0, args := [0, 0, 0, 0] }], limit := 100 }
def mBin : State := m0.onCore 0 fun k => { k with bins := [(0, aBin)] }
theorem wit_Fork : Issues h2 { rv := List.range' 252 4, wp := [1] } .swarm (mFork 16384) (envOf h2 (mFork 16384)) ∧
    ((mFork 16384).grid? 0).isSome = true ∧ ((mFork 16384).colony? 0 0).map (·.live) = some 16384 ∧ ((envOf h2 (mFork 16384)).x.fibre 0).done = false ∧
    ((envOf h2 (mFork 16384)).m.pc + (0x20#32).signExtend 64).extractLsb' 0 2 = 0#2 := ⟨issues_of (by decide +kernel), by decide +kernel⟩
theorem wit_Fork_bin : Issues h2 { rv := List.range' 252 4, wp := [1] } .swarm mBin (envOf h2 mBin) ∧ (envOf h2 mBin).act = 1#64 <<< 0 ∧
    ((mBin.core 0).bins.find? fun k => k.2.grid == 0 && k.2.col == 0 && k.2.entry == (envOf h2 mBin).m.pc + (0x20#32).signExtend 64 && decide (k.1 < 1024) &&
      decide (k.2.fibres.length < 64)) = some (0, aBin) ∧ lfind (mBin.core 0).bins 0 = some aBin ∧ aBin.fibres.length % 64 = 1 ∧
    (mBin.colony? 0 0).map (fun z => decide (z.nextFid + mBin.unnamed 0 0 < 0x80000000)) = some true ∧ (mBin.grid? 0).map (·.det) = some false :=
  ⟨issues_of (by decide +kernel), by decide +kernel⟩

/-- Four fibres of a colony of `live`, with barrier 2 in this round. -/
def mBar (live : Nat) (b : Barrier) : State := m4.onColony 0 0 fun z => { z with live := live, bars := z.bars.set 2 b }
def arrivals (s : State) (h : Hdr) : Option (Nat × Nat × List Nat) := (s.colony? 0 0).map fun z =>
  ((z.bar 2).arrived, (if (z.bar 2).arrived = 0 then z.live else (z.bar 2).expected), (lanesOf (envOf h s).act).filter fun l => ((z.bar 2).fids.contains ((envOf h s).x.fibre l).fid))
theorem wit_Barrier : ∀ s ∈ [mBar 8 ⟨0, 0, 0, []⟩, mBar 4 ⟨0, 0, 0, []⟩, mBar 8 ⟨8, 0, 4, [4, 5, 6, 7]⟩, mBar 8 ⟨8, 0, 1, [2]⟩, mBar 8 ⟨3, 3, 1, [9]⟩],
    issuesB h1 (cntUses .allLive) .swarm s = true ∧ (envOf h1 s).m.mask &&& ~~~(envOf h1 s).act = 0 ∧ (s.colony? 0 0).map (·.bars.length) = some 16 := by decide +kernel
theorem wit_Barrier_rounds : arrivals (mBar 8 ⟨0, 0, 0, []⟩) h1 = some (0, 8, []) ∧ arrivals (mBar 4 ⟨0, 0, 0, []⟩) h1 = some (0, 4, []) ∧
    arrivals (mBar 8 ⟨8, 0, 4, [4, 5, 6, 7]⟩) h1 = some (4, 8, []) ∧ arrivals (mBar 8 ⟨8, 0, 1, [2]⟩) h1 = some (1, 8, [2]) ∧
    arrivals (mBar 8 ⟨3, 3, 1, [9]⟩) h1 = some (1, 3, []) := by decide +kernel
theorem wit_Barrier_large : issuesB h2 (cntUses (.lit 16385)) .swarm (mBar 8 ⟨0, 0, 0, []⟩) = true ∧ 16384 < (16385#32).toNat := by decide +kernel
/-- p0 is true in lane 0 alone. -/
def hP : Hdr := { h1 with pg := 0 }
def mGuard : State := m4.onSlot 0 0 fun x => x.onFibre 0 fun f => f.setP 0 true
theorem wit_Barrier_apart : issuesB hP (cntUses .allLive) .swarm mGuard = true ∧ (envOf hP mGuard).m.mask &&& ~~~(envOf hP mGuard).act = 14 := by decide +kernel

-- hypotheses that can be met: status registers and the handler

theorem wit_StatusReads : Issues h2 { wv := [255], ws := [] } .anywhere m4 (envOf h2 m4) ∧ (envOf h2 m4).n ≠ 64 := ⟨issues_of (by decide +kernel), by decide +kernel⟩
theorem wit_StatusReads_scalar : Issues { h2 with sc := true } { wv := [], ws := [511] } .anywhere m4 (envOf { h2 with sc := true } m4) := issues_of (by decide +kernel)
/-- A lane with a variant frame, whose budgets VTB, VEB and VQL show. -/
def aFrame (x : Nat) : Frame :=
  { vtb := 50, veb := 60, vql := 7, entry := 1, tier := 0, table := 0x50000, ret := 0x30010, tchg := 5, echg := 6, report := some 9, x := x }
def mFrame : State := on fun x => { four x with lanes := (four x).lanes.map fun e => (e.1, { e.2 with frames := [aFrame 2] }) }
theorem wit_StatusReads_frames : issuesB h2 { wv := [255], ws := [] } .anywhere mFrame = true ∧
    (mFrame.slot? 0 0).map (fun x => (x.fibre 3).frames.head?.map (·.vtb)) = some (some 50) ∧ (mFrame.colony? 0 0).isSome = true ∧ (mFrame.grid? 0).isSome = true := by
  decide +kernel
def mVal (w : Word) : State := on fun x => { four x with sregs := [(5, pureImg w)] }
theorem wit_StatusWrites : Issues h2 { rv := useV 1 (.s 5), rs := useS 1 (.s 5) } .anywhere (mVal 4) (envOf h2 (mVal 4)) ∧
    ((envOf h2 (mVal 4)).pay (lowest (envOf h2 (mVal 4)).act) (.s 5)).toNat % 8 = 4 := ⟨issues_of (by decide +kernel), by decide +kernel⟩
theorem wit_StatusWrites_mode : issuesB h2 { rv := useV 1 (.s 5), rs := useS 1 (.s 5) } .anywhere (mVal 5) = true ∧
    ((envOf h2 (mVal 5)).pay (lowest (envOf h2 (mVal 5)).act) (.s 5)).toNat % 8 = 5 ∧ (envOf h2 (mVal 5)).n ≠ 64 := by decide +kernel
theorem wit_StatusWrites_handler : issuesB h2 { rv := useV 1 (.s 5), rs := useS 1 (.s 5) } .anywhere mh = true ∧ (envOf h2 mh).n = 64 := by decide +kernel
theorem wit_Prio : Issues h1 { rs := useS 1 (.s 5) } .swarm (mVal 9) (envOf h1 (mVal 9)) ∧ ((mVal 9).grid? 0).isSome = true := ⟨issues_of (by decide +kernel), by decide +kernel⟩

def mPending : State := m0.onCore 0 fun k => { k with handler := { k.handler with pending := [pend] } }
theorem wit_HandlerEntry : (mPending.core 0).handler.service = none ∧ (mPending.core 0).handler.pending = [pend] ∧
    ∀ m ∈ (mPending.core 0).handler.slot.members, m.st = .waiti := by decide +kernel
theorem wit_HandlerReturn : Issues h0 {} .handler mh (envOf h0 mh) ∧ (mh.core 0).handler.service = some pend ∧ (mh.core 0).handler.saved = false ∧ pend.mem = some 1 ∧
    pend.tr.cause ≠ 0x0D ∧ ((mh.slot? 0 0).bind fun x => x.mem? 1).isSome = true := ⟨issues_of (by decide +kernel), by decide +kernel⟩
theorem wit_HandlerMaintenance : Issues h1 (memUses false ⟨.s 6, none, 0x50000⟩) .handler mh (envOf h1 mh) ∧
    let a := (envOf h1 mh).gaddr (lowest (envOf h1 mh).act) ⟨.s 6, none, 0x50000⟩
    a.toNat % 256 = 0 ∧ a.toNat < 2 ^ 50 ∧ (mh.subject 0 64).map (fun x => mh.allowedRange mHandler a.toNat (swarmLen x.win) .write) = some true ∧
      mh.allowedRange mHandler a.toNat (swarmLen (32 * mh.rdNat (a.toNat + 4) 1)) .read = true := ⟨issues_of (by decide +kernel), by decide +kernel⟩

-- hypotheses that can be met: variants

/-- A table of two entries at 0x50000, and limits in s8 and s9. -/
def mTab (lim : Word) (frames : List Frame) : State :=
  let s := on fun x => { four x with sregs := [(8, pureImg lim)], lanes := (four x).lanes.map fun e => (e.1, { e.2 with frames := frames }) }
  (s.wrNat 0x50000 8 0xFFFFFFFFFF000201).wrBytes 0x50040 (natLe 8 0x40000 ++ natLe 4 10 ++ natLe 4 20 ++ natLe 2 5 ++ [1, 1] ++ natLe 4 0 ++ [1, 0, 0, 0, 0, 0, 0, 0] ++
    (natLe 8 0x41000 ++ natLe 4 5 ++ natLe 4 30 ++ natLe 2 5 ++ [1, 1] ++ natLe 4 0 ++ [1, 0, 0, 0, 0, 0, 0, 0]))
/-- What the lowest lane finds at its table: entries, whether its header and its whole are legal, and what it would choose under `.tq`. -/
def tableOf (s : State) : Option (Nat × Option Nat × Option Nat × Option (Nat × Nat)) :=
  let e := envOf h3 s
  let r : Req := { spad := false, acc := 1, strong := true, align := 64, ainfo := 2, typed := false }
  let a := e.pair (lowest e.act) false (.s 6) + (0x50000#32).signExtend 64
  match s.issuing.check e r [⟨lowest e.act, a, 64⟩] with
  | .ok s1 p1 [] none =>
    let t1 := readTable (s1.load e.own (p1.flatMap (·.2)))
    match s1.check e r [⟨lowest e.act, a, 64 + 32 * t1.count⟩] with
    | .ok s2 p2 [] none =>
      let t := readTable (s2.load e.own (p2.flatMap (·.2)))
      if s1.readFault (p1.map fun p => (p.1, a, p.2)) = none ∧ s2.readFault (p2.map fun p => (p.1, a, p.2)) = none then
        some (t.entries.length, headerFault t1, tableFault t (e.x.win / 32), t.select .tq 0 (e.pay 0 (.s 8)).toNat 0xFFFFFFFF 0)
      else none
    | _ => none
  | _ => none
def vcUses : Uses := { parked := true, rv := useV 1 (.s 8) ++ useV 1 (.s 9), rs := [6, 7] ++ useS 1 (.s 8) ++ useS 1 (.s 9) }
theorem wit_Vpeek : Issues h3 ((Uses.and { wv := [200] } vcUses)) .swarm (mTab 10 []) (envOf h3 (mTab 10 [])) ∧ tableOf (mTab 10 []) = some (2, none, none, some (0, 0)) ∧
    (((mTab 10 []).slot? 0 0).map fun x => (x.drained, x.due)) = some (true, []) := ⟨issues_of (by decide +kernel), by decide +kernel⟩
theorem wit_Vcall : Issues h3 (Uses.and {} vcUses) .swarm (mTab 9 []) (envOf h3 (mTab 9 [])) ∧ tableOf (mTab 9 []) = some (2, none, none, some (1, 0)) :=
  ⟨issues_of (by decide +kernel), by decide +kernel⟩
theorem wit_Vcall_none : issuesB h3 (Uses.and {} vcUses) .swarm (mTab 4 []) = true ∧ tableOf (mTab 4 []) = some (2, none, none, none) ∧
    (envOf h3 (mTab 4 [])).act = (envOf h3 (mTab 4 [])).m.mask := by decide +kernel
theorem wit_Vcall_deep : issuesB h3 (Uses.and {} vcUses) .swarm (mTab 9 (List.replicate 16 (aFrame 1))) = true ∧
    tableOf (mTab 9 (List.replicate 16 (aFrame 1))) = some (2, none, none, some (1, 0)) ∧
    ((envOf h3 (mTab 9 (List.replicate 16 (aFrame 1)))).x.fibre 3).frames.length = 16 := by decide +kernel
theorem wit_Vcall_drained : issuesB h3 (Uses.and {} vcUses) .swarm mCount = true ∧ (mCount.slot? 0 0).map (·.drained) = some false := by decide +kernel
theorem wit_Vret : issuesB h0 {} .swarm mFrame = true ∧ ((envOf h0 mFrame).x.fibre (lowest (envOf h0 mFrame).act)).frames = [aFrame 2] ∧
    issuesB h0 {} .swarm m4 = true ∧ ((envOf h0 m4).x.fibre 3).frames = [] ∧ (envOf h0 m4).act = (envOf h0 m4).m.mask := by decide +kernel
theorem wit_Vret_apart : issuesB { h0 with pg := 0 } {} .swarm mGuard = true ∧ (envOf { h0 with pg := 0 } mGuard).act ≠ (envOf { h0 with pg := 0 } mGuard).m.mask := by decide +kernel
theorem wit_Vqual : Issues h1 { rv := useV 1 (.v 4), rs := useS 1 (.v 4) } .swarm mFrame (envOf h1 mFrame) := issues_of (by decide +kernel)

/-- Two sub-swarms of one VCALL, of the entries 0 and 1, the second not yet dispatched. -/
def mVc (a b : Park) : State := on fun x =>
  { four x with
    fams := [{ id := 1, outer := 0, kind := .vcall 1 0x30010, ent := none }]
    lanes := (four x).lanes.map fun e => (e.1, { e.2 with frames := [aFrame 2] })
    members := (four x).members.flatMap fun m => [{ m with id := 2, mask := 3, fam := 1, ent := some 0, st := a }, { m with id := 3, mask := 12, fam := 1, ent := some 1, st := b }] }
theorem wit_Dispatch : ((mVc (.undispatched 0) (.undispatched 1)).slot? 0 0).map (fun x => x.members.map fun m => (m.id, m.st, m.fam, m.ent)) =
    some [(2, .undispatched 0, 1, some 0), (3, .undispatched 1, 1, some 1)] := by decide +kernel
theorem wit_Dispatch_later : ((mVc .ready (.undispatched 1)).slot? 0 0).map (fun x => x.members.map fun m => (m.id, m.st, m.fam, m.ent)) =
    some [(2, .ready, 1, some 0), (3, .undispatched 1, 1, some 1)] := by decide +kernel
def mMerge : State := on fun x =>
  { four x with fams := [{ id := 1, outer := 0, kind := .vcall 1 0x30010, ent := none }], members := (four x).members.map fun m => { m with fam := 1, st := .merge } }
theorem wit_Merge : (mMerge.slot? 0 0).map (fun x => (x.drained, x.members.map fun m => (m.fam, m.st, m.mask.toNat), x.fams.map fun f => (f.id, f.outer))) =
    some (true, [(1, .merge, 15)], [(1, 0)]) := by decide +kernel
def mVret : State := on fun x =>
  { x with
    lanes := [(5, { fibreReset with fid := 0, frames := [aFrame 2] })]
    members := x.members.map fun m => { m with st := .vret 2, mask := 1#64 <<< 5 }
    xs := [{ id := 2, entry := 1, table := 0x50000, start := some 0, before := 3, energy := 32, share := 4 }] }
theorem wit_VretPop : (mVret.slot? 0 0).map (fun x => (x.xs.map (·.id), x.members.map fun m => (m.st, m.mask), x.fams.length, x.lanes.map (·.1), mVret.detSlot 0 x)) =
    some ([2], [(.vret 2, 1#64 <<< 5)], 0, [5], false) := by decide +kernel
def tagReq : TagReq := { q := 0, grid := 0, col := 0, form := 0, seq := 0, table := 0x50000, entry := 1, t := 100, en := 200, qual := some 9 }
def mTag : State := { mTab 9 [] with updates := [tagReq] }
theorem wit_TagUpdates : mTag.updates = [tagReq] ∧ mTag.tagAddr 0 0x50000 = some 0x50000 ∧ mTag.tagAddr 0 (0x50000 + 64 + 32 * 1) = some 0x50060 ∧
    mTag.rdNat (0x50000 + 0xC) 1 % 2 = 0 ∧ 1 < mTag.rdNat (0x50000 + 1) 1 ∧ mTag.pending = [] ∧ mTag.rdNat (0x50060 + 0x12) 1 = 1 ∧
    walk mTag 0 0x50000 4 (mTag.queue 0).root = walk mTag 0 (0x50000 + 64 + 32) 4 (mTag.queue 0).root := by decide +kernel
theorem wit_TagUpdates_frozen : (mTag.wrByte 0x5000C 1).rdNat (0x50000 + 0xC) 1 % 2 = 1 ∧ (mTag.wrByte 0x5000C 1).frozen.length < 65536 := by decide +kernel

/-- A walk depends on the table entries that it reads. -/
theorem walk_of {v : State} {a : Nat} (ha : a ∈ [0x50000, 0x50060]) (c : v.acc = mTag.acc) (e1 : v.rdNat 0x10000 8 = 0x20001) (e2 : v.rdNat 0x20000 8 = 0x73) :
    walk v 0 a 4 0x10000 = .leaf (leafEntry 0 2 a 0x73) 0x20000 false := by
  have k1 : v.allowedRange 0 0x10000 8 .read = true := (State.allowedRange_congr c _ _ _ _).trans (by decide +kernel : mTag.allowedRange 0 0x10000 8 .read = true)
  have k2 : v.allowedRange 0 0x20000 8 .read = true := (State.allowedRange_congr c _ _ _ _).trans (by decide +kernel : mTag.allowedRange 0 0x20000 8 .read = true)
  have h : ∀ n, n / 2 ^ 43 % 512 = 0 → n / 2 ^ 34 % 512 = 0 → walk v 0 n 4 0x10000 = .leaf (leafEntry 0 2 n 0x73) 0x20000 false := by
    intro n h1 h2
    have a' : v.rdNat (0x10000 + 8 * (n / 2 ^ (16 + 9 * 3) % 512)) 8 = 0x20001 := by rw [h1]; exact e1
    have b' : v.rdNat (0x20001 / 65536 % 2 ^ 34 * 65536 + 8 * (n / 2 ^ (16 + 9 * 2) % 512)) 8 = 0x73 := by rw [h2]; exact e2
    have k1' : v.allowedRange 0 (0x10000 + 8 * (n / 2 ^ (16 + 9 * 3) % 512)) 8 .read = true := by rw [h1]; exact k1
    have k2' : v.allowedRange 0 (0x20001 / 65536 % 2 ^ 34 * 65536 + 8 * (n / 2 ^ (16 + 9 * 2) % 512)) 8 .read = true := by rw [h2]; exact k2
    simp only [walk, a', k1']
    rw [if_neg (by decide), if_neg (by decide), if_neg (by decide), if_neg (by decide)]
    simp only [b', k2']
    rw [if_neg (by decide), if_neg (by decide), if_neg (by decide), if_pos (by decide), if_neg (by decide), h2]
    rfl
  rcases List.mem_pair.mp ha with rfl | rfl <;> exact h _ (by decide) (by decide)
theorem wit_TagUpdates_walk (u : State) (ha : u.acc = mTag.acc) (h : ∀ a, ¬(0x50060 ≤ a ∧ a < 0x50060 + 32) → u.rdByte a = mTag.rdByte a) :
    walk u 0 0x50000 4 (mTag.queue 0).root = walk mTag 0 0x50000 4 (mTag.queue 0).root := by
  have hr : (mTag.queue 0).root = 0x10000 := by decide +kernel
  have f1 : mTag.rdNat 0x10000 8 = 0x20001 := by decide +kernel
  have f2 : mTag.rdNat 0x20000 8 = 0x73 := by decide +kernel
  rw [hr, walk_of (by decide) ha ((State.rdNat_congr fun i hi => h _ (by omega)).trans f1) ((State.rdNat_congr fun i hi => h _ (by omega)).trans f2), walk_of (by decide) rfl f1 f2]


-- hypotheses that can be met: memory

/-- The lanes of an access that is allowed and meets no uncorrectable word, with the places it reaches. -/
def allowed (s : State) (h : Hdr) (r : Req) (spad : Bool) (m : MemOpd) (n : Nat) : Option (List (Nat × List Loc)) :=
  let e := envOf h s
  match s.issuing.check e r (e.accs h.sc spad m n) with
  | .ok s' ps _ none => if s'.readFault (e.located spad m ps) = none then some (ps.map fun p => (p.1, locsOf p.2)) else none
  | _ => none
def ordinary (l : Option (List (Nat × List Loc))) : Bool := match l with
  | some l => !l.isEmpty && l.all fun p => p.2.all fun k => match k with | .phys a => target a == some .dram || target a == some .host | .spad _ _ => true
  | none => false
theorem memLoc_of {l : Loc} (h : (match l with | .phys a => target a == some .dram || target a == some .host | .spad _ _ => true) = true) : MemLoc l := by
  cases l with
  | phys a => simpa [MemLoc] using h
  | spad c a => trivial

/-- v1 holds an address beside s6:s7 = 0, per lane, and s4 of the scratchpad forms is 0. -/
def mAdr (a : Nat → Nat) : State := on fun x =>
  { four x with lanes := (four x).lanes.map fun e => (e.1, { e.2 with regs := [(1, pureImg (BitVec.ofNat 32 (a e.1)))] }) }
def gm : MemOpd := ⟨.s 6, some (.v 1), 0⟩
def sm : MemOpd := ⟨.s 4, some (.v 1), 0⟩
def rq (spad : Bool) (acc align ainfo : Nat) : Req := { spad := spad, acc := acc, strong := align != 1, align := align, ainfo := ainfo, typed := false }
def trapOf (c : Chk) : Option (Nat × Nat × Mask) := match c with | .trap t => some (t.cause, t.info, t.mask) | _ => none
def chk (s : State) (r : Req) (spad : Bool) (m : MemOpd) (n : Nat) : Chk := s.check (envOf h1 s) r ((envOf h1 s).accs false spad m n)

/-- The premises of each clause: odd addresses; far, ranks beyond the colony, ends past the allocation; high bits. -/
theorem wit_AccessChecks : trapOf (chk (mAdr fun l => 0x40000 + l) (rq false 1 4 1) false gm 4) = some (6, 1, 14#64) ∧
    trapOf (chk (mAdr fun l => 0x800000 * (l % 2)) (rq true 1 1 1) true sm 4) = some (7, 1, 10#64) ∧
    trapOf (chk (mAdr fun l => 0x100000 * (l % 2)) (rq true 1 1 1) true sm 4) = some (7, 2, 10#64) ∧
    trapOf (chk (mAdr fun l => 0xFFFFD * (l % 2)) (rq true 1 1 1) true sm 4) = some (7, 3, 10#64) ∧
    ((mAdr id).subject 0 0).isSome = true ∧ ((mAdr id).colony? 0 0).isSome = true ∧ ((mAdr id).grid? 0).isSome = true := by decide +kernel
theorem wit_AccessChecks_ok : allowed (mAdr fun l => 0xFFFFC * (l % 2)) h1 (rq true 1 1 1) true sm 4 =
    some ((List.range 4).map fun l => (l, (List.range 4).map fun i => .spad 0 (0xFFFFC * (l % 2) + i))) := by decide +kernel
theorem wit_AccessChecks_high : trapOf (m4.check (envOf h1 m4) (rq false 1 1 1) [⟨0, 0x10000000000000, 4⟩, ⟨1, 0xFFFFFFFFFFFFE, 4⟩]) = some (9, 1, 3#64) := by decide +kernel

theorem wit_Loads : Issues h1 ((memUses false gm).and { wv := List.range' 252 4, ws := [], late := true }) .anywhere (mAdr fun l => 0x40000 + 16 * l) (envOf h1 (mAdr fun l => 0x40000 + 16 * l)) ∧
    ordinary (allowed (mAdr fun l => 0x40000 + 16 * l) h1 (rq false 1 16 1) false gm 16) = true := ⟨issues_of (by decide +kernel), by decide +kernel⟩
theorem wit_Loads_scratch : issuesB h1 ((memUses true sm).and { wv := List.range' 3 1, ws := [], late := true }) .anywhere (mAdr fun l => 4 * l) = true ∧
    ordinary (allowed (mAdr fun l => 4 * l) h1 (rq true 1 1 1) true sm 4) = true := by decide +kernel
theorem wit_Loads_block : Issues h1 ((memUses false gm).and { wv := List.range' 239 17, late := true }) .anywhere (mAdr fun l => 0x40000 + 64 * l) (envOf h1 (mAdr fun l => 0x40000 + 64 * l)) ∧
    ordinary (allowed (mAdr fun l => 0x40000 + 64 * l) h1 (rq false 1 64 2) false gm 64) = true ∧
    badHdr ((mAdr id).blockHdr (some .fp16) [⟨.phys 0x40000, 64, false, false, false, (0, 0)⟩]) = false ∧
    hdrFmt ((mAdr id).blockHdr (some .fp16) [⟨.phys 0x40000, 64, false, false, false, (0, 0)⟩]) = fmtNum .fp16 := ⟨issues_of (by decide +kernel), by decide +kernel⟩
theorem wit_Loads_fill : Issues h1 ((memUses false gm).and { wv := List.range' 224 32, late := true }) .anywhere (mAdr fun l => 0x40000 + 132 * l) (envOf h1 (mAdr fun l => 0x40000 + 132 * l)) ∧
    ordinary (allowed (mAdr fun l => 0x40000 + 132 * l) h1 { rq false 1 4 2 with strong := false } false gm (4 * 32 + 4)) = true :=
  ⟨issues_of (by decide +kernel), by decide +kernel⟩
theorem wit_Stores : Issues h1 ((memUses false gm).and { rv := List.range' 2 1, rs := [] }) .anywhere (mAdr fun _ => 0x40000) (envOf h1 (mAdr fun _ => 0x40000)) ∧
    ordinary (allowed (mAdr fun _ => 0x40000) h1 (rq false 2 4 1) false gm 4) = true ∧ owedFault (envOf h1 (mAdr fun _ => 0x40000)) (mAdr fun _ => 0x40000).issuing true = none :=
  ⟨issues_of (by decide +kernel), by decide +kernel, by
    have : (owedFault (envOf h1 (mAdr fun _ => 0x40000)) (mAdr fun _ => 0x40000).issuing true).isNone = true := by decide +kernel
    exact Option.isNone_iff_eq_none.mp this⟩
/-- A deterministic grid whose colony is not the ticket's. -/
def mDet : State := { (mAdr fun l => 0x40000 + 4 * l) with grids := m0.grids.map fun g => { g with det := true } }
theorem wit_Stores_staged : mDet.stages (envOf h1 mDet) true = false ∧ (mDet.onSlot 0 0 fun x => { x with col := 3 }).stages (envOf h1 (mDet.onSlot 0 0 fun x => { x with col := 3 })) true = true := by
  decide +kernel
theorem wit_Stores_block : issuesB h1 ((memUses false gm).and { rv := List.range' 2 17 }) .anywhere (mAdr fun l => 0x40000 + 64 * l) = true ∧
    ordinary (allowed (mAdr fun l => 0x40000 + 64 * l) h1 (rq false 2 64 2) false gm 64) = true ∧
    badHdr (pay ((envOf h1 (mAdr fun l => 0x40000 + 64 * l)).x.v 3 18)) = false := by decide +kernel
theorem wit_Stores_spill : issuesB h1 ((memUses true sm).and { rv := List.range' 224 32 }) .anywhere (mAdr fun l => 132 * l) = true ∧
    ordinary (allowed (mAdr fun l => 132 * l) h1 { rq true 2 4 2 with strong := false } true sm (4 * 32 + 4)) = true := by decide +kernel
theorem wit_Atomics : Issues h1 ((memUses false ⟨.v 2, none, 0x40000⟩).and { rv := useV 4 (.v 4), rs := useS 4 (.v 4), wv := List.range' 254 2, ws := [], late := true }) .anywhere m4 (envOf h1 m4) ∧
    ordinary (allowed m4 h1 (rq false 3 8 1) false ⟨.v 2, none, 0x40000⟩ 8) = true ∧ m4.pending = [] := ⟨issues_of (by decide +kernel), by decide +kernel⟩
def mPosts (n : Nat) : State := mDet.onSlot 0 0 fun x => { x with posts := n }
theorem wit_Atomics_posted : ∀ n ∈ [62, 63], issuesB h1 ((memUses false ⟨.v 2, none, 0x40000⟩).and { rv := useV 1 (.v 4), rs := useS 1 (.v 4), wv := [], ws := [], late := true }) .anywhere (mPosts n) = true ∧
    (mPosts n).detSlot 0 (((mPosts n).slot? 0 0).getD handlerSlot) = true ∧ ((mPosts n).slot? 0 0).map (·.posts) = some n ∧
    ordinary (allowed (mPosts n) h1 (rq false 3 4 1) false ⟨.v 2, none, 0x40000⟩ 4) = true := by decide +kernel
theorem wit_Fences : Issues h0 {} .anywhere m4 (envOf h0 m4) ∧ ((envOf h0 m4).x.fibre 0).owed = false := ⟨issues_of (by decide +kernel), by decide +kernel⟩
def mOwed : State := on fun x => { four x with lanes := (four x).lanes.map fun e => (e.1, { e.2 with owed := e.1 == 2 }) }
theorem wit_Fences_owed : issuesB h0 {} .anywhere mOwed = true ∧ ((envOf h0 mOwed).x.fibre 2).owed = true ∧ (envOf h0 mOwed).act.getLsbD 2 = true := by decide +kernel
theorem wit_Fences_serialise : ((m0.onCore 7 fun k => { k with serialise := true }).core 7).serialise = true := by decide +kernel
theorem wit_Caches : issuesB h1 (memUses false gm) .anywhere (mAdr fun l => 0x40000 + 64 * l) = true ∧
    ordinary (allowed (mAdr fun l => 0x40000 + 64 * l) h1 (rq false 1 1 1) false gm 1) = true := by decide +kernel
theorem wit_Sleep : issuesB h1 ((memUses false gm).and { rv := [2] }) .swarm (mAdr fun _ => 0x40000) = true ∧
    ordinary (allowed (mAdr fun _ => 0x40000) h1 (rq false 1 4 1) false gm 4) = true ∧ (mAdr id).rdNat 0x40000 4 = 0 := by decide +kernel

-- hypotheses that can be met: copies, tiles, launches, the matrix engine

/-- The two checks of a CPY of 32 bytes a lane. -/
def cpyOk (s : State) : Bool :=
  let e := envOf h1 s
  match s.issuing.check e { spad := true, acc := 2, strong := false, align := 32, ainfo := 2, typed := false } ((lanesOf e.act).map fun l => ⟨l, (pay (e.x.v l 8)).setWidth 64, 32⟩) with
  | .ok s1 _ [] none => match s1.check e { spad := false, acc := 1, strong := false, align := 1, ainfo := 1, typed := false } ((lanesOf e.act).map fun l => ⟨l, e.gaddr l gm, min (e.pay l (.v 9)).toNat 32⟩) with
    | .ok _ ps _ none => ps.length == 4
    | _ => false
  | _ => false
theorem wit_Copies : Issues h1 ((memUses false gm).and { rv := 8 :: useV 1 (.v 9), rs := useS 1 (.v 9) }) .anywhere (mAdr fun l => 0x40000 + 32 * l) (envOf h1 (mAdr fun l => 0x40000 + 32 * l)) ∧
    cpyOk (mAdr fun l => 0x40000 + 32 * l) = true := ⟨issues_of (by decide +kernel), by decide +kernel⟩
def mFull : State := (mAdr fun l => 0x40000 + 32 * l).onSlot 0 0 fun x => { x with copies := List.replicate 63 aCopy }
theorem wit_Copies_full : issuesB h1 ((memUses false gm).and { rv := 8 :: useV 1 (.v 9), rs := useS 1 (.v 9) }) .anywhere mFull = true ∧ (mFull.slot? 0 0).map (·.copies.length) = some 63 := by
  decide +kernel

/-- A tile of the fibre's colony, or another's, in a state; s8 its place and s9 the word of TSET. -/
def mTile (col : Nat) (st : TileSt) (off w : Word) : State :=
  (on fun x => { four x with sregs := [(8, pureImg off), (9, pureImg w)] }).onCore 0 fun k =>
    { k with tiles := [(5, { grid := 0, col := col, off := 0x400, size := 2, readers := 2, count := 1, st := st })] }
def tsetView (s : State) : Bool × Option Nat × Option (Nat × TileSt) × Nat × Nat :=
  (issuesB h1 { rs := 8 :: useS 1 (.s 9) } .anywhere s, (s.grid? 0).map (·.launch.spad), ((s.core 0).tile? 5).map (fun y => (y.col, y.st)),
    (pay ((envOf h1 s).x.s 8)).toNat, ((envOf h1 s).pay (lowest (envOf h1 s).act) (.s 9)).toNat)
theorem wit_Tset : [mTile 1 .empty 0 0x10001, mTile 0 .ready 0 0x10001, mTile 0 .empty 0 0x10401, mTile 0 .empty 0xFFFC0 0x10002, mTile 0 .empty 0xFFFC0 0x10001].map tsetView =
    [(true, some 0x100000, some (1, .empty), 0, 0x10001), (true, some 0x100000, some (0, .ready), 0, 0x10001), (true, some 0x100000, some (0, .empty), 0, 0x10401),
     (true, some 0x100000, some (0, .empty), 0xFFFC0, 0x10002), (true, some 0x100000, some (0, .empty), 0xFFFC0, 0x10001)] := by decide +kernel
def cpytView (s : State) : Bool × Option TileSt × Option (Nat × Nat) :=
  (issuesB h3 { rs := [6, 7] } .anywhere s, (s.issuing.ownTile (envOf h3 s) 5).map (·.st), s.rankBase 0 0 0)
theorem wit_Cpyt : cpytView (mTile 0 .empty 0 0) = (true, some .empty, some (0, 0)) ∧ cpytView (mTile 0 .ready 0 0) = (true, some .ready, some (0, 0)) ∧
    (match (mTile 0 .empty 0 0).issuing.check (envOf h3 (mTile 0 .empty 0 0)) { spad := false, acc := 1, strong := false, align := 1, ainfo := 2, typed := true }
      ((List.range 2).map fun k => ⟨0, 0x40000 + 64 * BitVec.ofNat 64 k, 64⟩) with | .ok _ ps _ none => ps.length == 2 | _ => false) = false := by decide +kernel
/-- The same on a typed page. -/
def mTyped : State := (mTile 0 .empty 0 0).wrNat 0x20000 8 0x273
theorem wit_Cpyt_typed : cpytView mTyped = (true, some .empty, some (0, 0)) ∧
    (match mTyped.issuing.check (envOf h3 mTyped) { spad := false, acc := 1, strong := false, align := 1, ainfo := 2, typed := true }
      ((List.range 2).map fun k => ⟨0, 0x40000 + 64 * BitVec.ofNat 64 k, 64⟩) with | .ok _ ps _ none => ps.length == 2 | _ => false) = true := by decide +kernel
theorem wit_TileReaders : ∀ t ∈ [TileSel.imm 5, .reg 8], issuesB h1 { rs := tileUses t } .anywhere (mTile 0 .ready 5 0) = true ∧
    (envOf h1 (mTile 0 .ready 5 0)).tileNo t = 5 ∧ issuesB h1 { rs := tileUses t, wv := [255] } .anywhere (mTile 0 .ready 5 0) = true ∧
    issuesB h1 { rs := tileUses t ++ useS 1 (.s 10), rv := useV 1 (.s 10), wv := List.range' 239 17, late := true } .anywhere (mTile 0 .ready 5 0) = true ∧
    ((mTile 0 .ready 5 0).issuing.ownTile (envOf h1 (mTile 0 .ready 5 0)) 5).map (·.size) = some 2 ∧ (envOf h1 (mTile 0 .ready 5 0)).index 1 (.s 10) = 1 := by decide +kernel

/-- A legal launch record at 0x60000, and one lane. -/
def record : List Byte := natLe 8 0x70000 ++ natLe 4 0xFFFFFF ++ natLe 2 16384 ++ [8, 8] ++ natLe 4 0x100000 ++ [7, 1, 0, 0] ++ natLe 8 5 ++ natLe 8 0x80008 ++ List.replicate 24 0
def mLaunch (depth kids : Nat) : State :=
  { ((on fun x => { x with kids := List.replicate kids 9 }).wrBytes 0x60000 record) with grids := m0.grids.map fun g => { g with depth := depth } }
def launchUses : Uses := (memUses false ⟨.s 6, none, 0x60000⟩).and { rv := [], rs := [] }
def launchView (s : State) : Bool × Nat × Option Nat × Option Nat × Bool :=
  let e := envOf h3 s
  let a := e.gaddr (lowest e.act) ⟨.s 6, none, 0x60000⟩
  (issuesB h3 launchUses .swarm s && e.act == 1#64 <<< lowest e.act, a.toNat, (s.grid? 0).map (·.depth), (s.slot? 0 0).map (·.kids.length),
    match s.issuing.check e { spad := false, acc := 1, strong := false, align := 64, ainfo := 2, typed := false } [⟨lowest e.act, a, 64⟩] with
    | .ok s' ps [] none => (readLaunch (s'.load e.own (ps.flatMap (·.2)))).isSome && (s'.loadFault (ps.map fun p => (p.1, a, p.2))).isNone
    | _ => false)
theorem wit_Launch : launchView (mLaunch 8 62) = (true, 0x60000, some 8, some 62, true) ∧ launchView (mLaunch 9 0) = (true, 0x60000, some 9, some 0, true) ∧
    launchView (mLaunch 0 63) = (true, 0x60000, some 0, some 63, true) ∧ launchView ((mLaunch 0 0).wrByte 0x60014 8) = (true, 0x60000, some 0, some 0, false) := by decide +kernel
theorem wit_Launch_two : issuesB h3 launchUses .swarm m4 = true ∧ (envOf h3 m4).act ≠ 1#64 <<< lowest (envOf h3 m4).act := by decide +kernel

/-- Fragments of FP16 headers in v16 and v36 of four lanes. -/
def mMat (n : Nat) : State := on fun x =>
  { four x with
    mtx := List.replicate n aMtx
    lanes := (four x).lanes.map fun e => (e.1, { e.2 with regs := [(16, pureImg (mkHdr (fmtNum .fp16) 127 0 false)), (36, pureImg (mkHdr (fmtNum .fp16) 127 0 false))] }) }
def mmaUses : Uses :=
  { rv := (List.range' 0 17 ++ List.range' 20 17) ++ List.range' 64 64, wv := List.range' 64 64, cols := List.range' 20 17, mtx := true, late := true }
theorem wit_Mma : Issues h3 mmaUses .anywhere (mMat 62) (envOf h3 (mMat 62)) ∧ (mtxHdr (envOf h3 (mMat 62)) (((mMat 62).slot? 0 0).getD handlerSlot) (mmaHdrs (envOf h3 (mMat 62)) 0 20 .fp16 .fp16)).isNone = true ∧
    (∀ r ∈ List.range' 0 17 ++ List.range' 20 17, ¬(64 ≤ r ∧ r < 64 + 64)) := ⟨issues_of (by decide +kernel), by decide +kernel, by decide⟩
theorem wit_Mma_full : issuesB h3 mmaUses .anywhere (mMat 63) = true ∧ ((mMat 63).slot? 0 0).map (·.mtx.length) = some 63 := by decide +kernel
theorem wit_Mmad : issuesB h3 { mmaUses with wv := List.range' 64 64 ++ List.range' 128 17 } .anywhere (mMat 0) = true ∧ ¬(64 < 128 + 17 ∧ 128 < 64 + 64) := by decide +kernel
theorem wit_Mma_overlap : issuesB h3 { rv := (List.range' 0 17 ++ List.range' 20 17) ++ List.range' 36 64, wv := List.range' 36 64, cols := List.range' 20 17, mtx := true, late := true } .anywhere (mMat 0) = true ∧
    (∃ r ∈ List.range' 0 17 ++ List.range' 20 17, 36 ≤ r ∧ r < 36 + 64) ∧ (envOf h3 (mMat 0)).n ≠ 64 := ⟨by decide +kernel, ⟨36, by decide, by decide⟩, by decide +kernel⟩
theorem wit_Mcvt : issuesB h3 { rv := (mtxSrc (.mcvt h3 200 64 .e4m3 false .fmode true false false none)).flatMap fun r => List.range' r.1 r.2, wv := List.range' 200 17, mtx := true, late := true } .anywhere (mMat 0) = true := by
  decide +kernel
theorem wit_Mzero : Issues h1 { wv := List.range' 192 64 } .anywhere m4 (envOf h1 m4) := issues_of (by decide +kernel)
theorem wit_Mscl : Issues h1 { rv := (0 + 16) :: useV 1 (.s 5), rs := useS 1 (.s 5), wv := [0 + 16] } .anywhere (mMat 0) (envOf h1 (mMat 0)) ∧
    badHdr (pay ((envOf h1 (mMat 0)).x.v 3 16)) = false ∧ badHdr (pay ((envOf h1 mBlk).x.v 1 20)) = true := ⟨issues_of (by decide +kernel), by decide +kernel⟩
def mLease : State := { m4 with grids := m0.grids.map fun g => { g with lease := true } }
theorem wit_Lease : Issues h0 {} .anywhere mLease (envOf h0 mLease) ∧ (mLease.grid? 0).map (·.lease) = some true ∧ issuesB h0 {} .anywhere m4 = true ∧ (m4.grid? 0).map (·.lease) = some false :=
  ⟨issues_of (by decide +kernel), by decide +kernel⟩
theorem wit_MatrixResults : ((mMat 2).slot? 0 0).map (·.mtx) = some [aMtx, aMtx] ∧ ((mMat 2).core 0).mayPerform 0 (mMat 2).now aMtx = true ∧
    (((mMat 2).onCore 0 fun k => { k with engine := { k.engine with waitBoost := true } }).core 0).mayPerform 0 0 aMtx = false ∧ aMtx.checked = false ∧
    ({ aMtx with op := .mma h3 64 0 20 .fp16 .fp16 .fmode true } : MtxOp).checked = true := by decide +kernel


-- hypotheses that can be met: what the device does by itself

def mLate : State := on fun x => { four x with late := [{ lateTo (.v 3 5) with writes := [⟨.v 3 5, 7, none, false⟩, ⟨.s 511, 8, none, false⟩, ⟨.p 0 6, 1, none, false⟩] }] }
theorem wit_LateReturn : (mLate.slot? 0 0).map (fun x => x.late.map fun o => (o.writes.map (·.dst), o.writes.map (·.clobbered))) =
    some [([.v 3 5, .s 511, .p 0 6], [false, false, false])] ∧ [Dest.v 3 5, .s 511, .p 0 6].Nodup := by decide +kernel
def mPark (p : Park) (f : Slot → Slot) : State := on fun x => f { four x with members := (four x).members.map fun m => { m with st := p } }
/-- The states of parks, with what each waits for: met and not met. -/
theorem wit_ParkEnd : ∀ p ∈ [Park.marker, .rcv, .waitc .post 1, .redo (.drained 5), .redo (.counter .copy), .redo (.tileEmpty 5), .redo (.tileReady 5), .redo .bin, .fence, .fencr true [], .fencr false [0],
      .icinv, .tlbi], ((mPark p id).slot? 0 0).map (fun x => (x.members.map (·.st), x.drained, x.due)) = some ([p], true, []) ∧
    ((mPark p fun x => { x with late := [{ lateTo (.s 1) with sample := true, load := true }], posts := 2, copies := List.replicate 63 aCopy }).slot? 0 0).map
      (fun x => (x.members.map (·.st), x.drained, x.counter .post, x.counter .copy)) = some ([p], false, 2, 63) := by decide +kernel
theorem wit_ParkEnd_due : ((mPark .marker fun x => { x with due := [⟨1, 1, 0x30000, 0⟩] }).slot? 0 0).map (fun x => (x.due, x.drained)) = some ([⟨1, 1, 0x30000, 0⟩], true) := by decide +kernel

def waiter : Slot := newSlot 0 0 0 256 0 1 0x30000 [(0, []), (1, [])] 0
def mWait (n : Nat) : State := m0.onCore 0 fun k => { k with waiting := [waiter], slots := (List.range n).map fun i => (i, { newSlot 0 0 0 256 0 0 0x30000 [(0, [])] 0 with slice := i % 8 }) }
theorem wit_Residency : ∀ n ∈ [0, 1, 23, 24], ((mWait n).core 0).waiting = [waiter] ∧ ((mWait n).queue ((mWait n).queueOf waiter.grid)).st = .running ∧ ((mWait n).core 0).restoring = [] ∧
    (lfind ((mWait n).core 0).slots n).isNone = true ∧ (((mWait n).core 0).slots.map fun e => e.2.win).sum = 256 * n := by decide +kernel
def mRcv (late : List LateOp) (b : Park) : State := on fun x =>
  { four x with
    late := late
    fams := [{ id := 1, outer := 0, kind := .branch, ent := none }]
    members := (four x).members.flatMap fun m => [{ m with id := 2, mask := 3, fam := 1, st := .rcv }, { m with id := 3, mask := 12, fam := 1, st := b }] }
theorem wit_FamilyRelease : ((mRcv [] .rcv).slot? 0 0).map (fun x => (x.drained, x.members.map (·.id), x.members.map (·.st), x.members.map (·.mask.toNat))) =
    some (true, [2, 3], [.rcv, .rcv], [3, 12]) ∧ ((mRcv [lateTo (.s 1)] .rcv).slot? 0 0).map (·.drained) = some false ∧
    ((mRcv [] .ready).slot? 0 0).map (fun x => x.members.any fun m => m.st == .ready && m.mask != 0) = some true := by decide +kernel
def mEmpty (posts : Nat) : State := (on fun x => { x with lanes := [], members := [], posts := posts }).onColony 0 0 fun z => { z with live := 0 }
theorem wit_SlotRetire : (lfind ((mEmpty 0).core 0).slots 0).map (fun x => (x.lanes, x.copies, x.mtx, x.posts)) = some ([], [], [], 0) ∧ ((mEmpty 0).core 0).handler.service = none ∧
    ((mEmpty 0).grid? 0).map (·.staged) = some [] ∧ ((mEmpty 0).colony? 0 0).map (fun z => (z.live, z.saved)) = some (0, []) ∧
    (mEmpty 0).cores.map (·.1) = [0] ∧ (lfind ((mEmpty 1).core 0).slots 0).map (·.posts) = some 1 := by decide +kernel

/-- The bin beside no other fibre that could add to it. -/
def mNoAdd (det : Bool) (fid : Option Nat) : State :=
  { (mEmpty 0).onCore 0 (fun k => { k with slots := [], bins := [(0, { aBin with fibres := [{ fid := fid, parent := 0, seq := 0, args := [1, 2, 3, 4] }] })] }) with
    now := 100, grids := m0.grids.map fun g => { g with det := det } }
theorem wit_Bins : (lfind (mBin.core 0).bins 0).map (·.limit) = some 100 ∧ mBin.now < 100 ∧ ((mNoAdd false (some 1)).now = 100) ∧
    (lfind ((mNoAdd false (some 1)).core 0).bins 0).isSome = true ∧ ((mNoAdd false (some 1)).grid? 0).map (·.det) = some false ∧ ((mNoAdd false (some 1)).colony? 0 0).isSome = true ∧
    (mNoAdd false (some 1)).cannotAdd 0 0 = true ∧ (mNoAdd true none).cannotAdd 0 0 = true ∧ (mNoAdd true none).cores.map (·.1) = [0] := by decide +kernel
def mGrid (st : GridSt) (combs : List Comb) (kids : List Grid) : State := { m0 with grids := (m0.grids.map fun g => { g with st := st, combs := combs, gone := false, launch := { g.launch with done := 0x80000 } }) ++ kids }
def aKid (st : GridSt) : Grid := { fetchGrid queueReset with id := 7, depth := 1, parent := some 0, st := st }
theorem wit_GridComplete : ((mGrid .children [⟨0x40000, 0, 0, 0x3F800000, (0, 0)⟩, ⟨0x40000, 1, 0, 0x40000000, (0, 0)⟩] [aKid .complete]).grid? 0).map (fun g => (g.st, g.combs.map (·.addr), g.bufs.length, g.updates.length)) =
    some (.children, [0x40000, 0x40000], 0, 0) ∧ target 0x40003 = some .dram ∧ ((mGrid .children [] [aKid .running]).grids.any fun k => k.parent == some 0 && k.st != .complete) = true := by decide +kernel
theorem wit_DoneAddition : ((mGrid .complete [] []).grid? 0).map (fun g => (g.st, g.gone, g.doneSeq)) = some (.complete, false, none) ∧
    (match (mGrid .complete [] []).translateDev 0 0x80000 .write with | .ok p => p.pa == 0x80000 && !p.uo && (mGrid .complete [] []).allowedRange 0 p.pa 8 .write | _ => false) = true ∧
    (match walk (mGrid .complete [] []) 0 0x80000 4 ((mGrid .complete [] []).queue 0).root with | .leaf _ _ b => !b | _ => false) = true ∧ target 0x80007 = some .dram := by decide +kernel
theorem wit_ChildOut : ∀ st ∈ [GridSt.running, .complete], (((mGrid .running [] [aKid st]).onSlot 0 0 fun x => { x with kids := [7] }).slot? 0 0).map (·.kids) = some [7] ∧
    ((mGrid .running [] [aKid st]).grid? 7).map (fun g => (g.st, g.gone)) = some (st, true) := by decide +kernel

/-- The budgets of queue 0 grant a transfer's requests. -/
def granted (s : State) (t : Toll) (l : List (Nat × Nat)) : Bool := ((s.queue (s.queueOf 0)).grant t l).2.2
def cop : CopyOp := { aCopy with bytes := [⟨.spad 0 0, .loc (.phys 0x40000), false⟩, ⟨.spad 0 1, .zero, false⟩] }
def mCopy (o : CopyOp) (cby : Nat) : State := (on fun x => { four x with copies := [o] }).onQueue 0 fun q => { q with cby := cby, cbyUsed := cby }
theorem wit_CopyRetire : ((mCopy cop 0).slot? 0 0).map (·.copies) = some [cop] ∧ (mCopy cop 0).pending = cop.bytes ∧ (cop.bytes.map (·.dst)).Nodup ∧ (mCopy cop 0).badMem = [] ∧
    ((mCopy cop 0).core 0).badSpad = [] ∧ granted (mCopy cop 0) cop.toll (copyCosts cop.bytes) = true ∧ granted (mCopy cop 4096) cop.toll (copyCosts cop.bytes) = false ∧
    target 0x40000 = some .dram := by decide +kernel
def tileY (st : TileSt) (col : Nat) : Tile := { grid := 0, col := col, off := 0, size := 1, readers := 1, count := 1, st := st }
def mTiles (st : TileSt) (col : Nat) : State := (mCopy { cop with tile := some 5, hdrs := [(0, .block 0x1000)] } 0).onCore 0 fun k => { k with tiles := [(5, tileY st col)] }
theorem wit_TileEvents : ∀ st ∈ [TileSt.empty, .filling, .ready, .draining], ((mTiles st 0).core 0).tile? 5 = some (tileY st 0) ∧ ((mTiles st 0).core 0).fillOf 5 = some (0, 0) ∧
    ((mTiles st 0).colony? 0 0).isSome = true ∧ ((mTiles st 1).colony? 0 1).isNone = true := by decide +kernel
theorem wit_TileFree : (((mTiles .ready 1).onSlot 0 0 fun x => { x with copies := [] }).core 0).fillOf 5 = none := by decide +kernel
def mReq (holder : Option (Nat × Nat)) (n : Nat) : State := (mMat n).onCore 0 fun k => { k with engine := { k.engine with holder := holder, requests := [(0, 256)], drainTo := 0 } }
theorem wit_LeaseGrant : ((mReq none 0).core 0).engine.requests = [(0, 256)] ∧ ((mReq none 0).core 0).mtxOps = [] ∧ ((mReq none 1).core 0).mtxOps.all (fun o => !o.2.leased && decide (0 < o.2.seq)) = true ∧
    ((mReq (some (3, 9)) 0).core 0).engine.holder ≠ none ∧ (((mReq none 1).onCore 0 fun k => { k with engine := { k.engine with drainTo := 1 } }).core 0).mtxOps.any (fun o => decide (o.2.seq ≤ 1)) = true := by
  decide +kernel
def mRamp (u n : Nat) : State := (mMat n).onCore 0 fun k => { k with engine := { k.engine with busySince := some 10, lastOp := some u, lastClass := some (0, 0, 10) } }
theorem wit_Ramp : ∀ u ∈ [2009, 2010], ((mRamp u 0).core 0).engine.lastOp = some u ∧ ((mRamp u 0).core 0).mtxOps = [] ∧ ((mRamp u 1).core 0).mtxOps.any (·.2.ret.isNone) = true ∧ ((mRamp u 0).colony? 0 0).isSome = true := by decide +kernel

-- hypotheses that can be met: clocks, sleep, restoring, placement, periods

/-- The premises of the codes 2 to 7 of a CLKREQ, in their order, and of one that is carried out. -/
theorem wit_ClockRequests : (m0.core 0).power.todo = [] ∧ (m0.core 0).power.vset = 75 ∧ (m0.core 0).power.ceil = 85 ∧ m0.vminAt 16 = 75 ∧ m0.vminAt 4 = 55 ∧ m0.cap 0 = 16 ∧
    ({ m0 with thermal := { m0.thermal with slow := true } } : State).cap 0 = 8 ∧ (m0.core 0).power.slices.length = 8 := by decide +kernel
theorem wit_ClockRequests_words : (0x80000000#32).getLsbD 31 = true ∧ (0x00010003#32).toNat % 32 = 3 ∧ (0x36000000#32).toNat / 2 ^ 24 % 128 = 54 ∧ (0x56000000#32).toNat / 2 ^ 24 % 128 = 86 ∧
    (0x37010004#32).toNat / 2 ^ 24 % 128 = 55 ∧ (0x00FF0004#32).toNat % 32 = 4 := by decide
def mClk (l : List ClkAct) : State := m0.onCore 0 fun k => { k with power := { k.power with todo := l, boost := true }, engine := { k.engine with lastOp := some 0, waitBoost := true } }
theorem wit_ClockSteps : ((mClk [.rail 80, .done]).core 0).power.todo = [.rail 80, .done] ∧ ((mClk [.switch 3 8, .done]).core 0).power.todo = [.switch 3 8, .done] ∧
    ((mClk []).core 0).engine.waitBoost = true ∧ ((mClk []).core 0).power.boost = true ∧ ((mClk []).core 0).power.newG = none := by decide +kernel
def tlbE : TlbEntry := { q := 0, va := 0, size := 0x400000000, pa := 0, typ := false, ord := 0, x := true, w := true, r := true }
def mSleep (lim : Nat) : State := (mPark (.sleep lim [(0, 0x40000, 0), (1, 0x40004, 5)]) id).onCore 0 fun k => { k with tlb := [tlbE] }
theorem wit_SleepEvents : ((mSleep 9).slot? 0 0).map (fun x => (x.members.map (·.st), (x.members.map (·.id)).Nodup)) = some ([.sleep 9 [(0, 0x40000, 0), (1, 0x40004, 5)]], [1].Nodup) ∧
    ((mSleep 9).core 0).tlb.find? (·.hit ((mSleep 9).queueOf 0) 0x40004) = some tlbE ∧ (mSleep 9).allowedRange ((mSleep 9).queueOf 0) 0x40004 4 .read = true ∧ target 0x40007 = some .dram ∧
    (mSleep 9).pending = [] ∧ ((mSleep 9).grid? 0).map (·.staged) = some [] ∧ (mSleep 9).rdNat 0x40000 4 = 0 ∧ (mSleep 0).now = 0 := by
  refine ⟨?_, by decide +kernel⟩
  have h : ((mSleep 9).slot? 0 0).map (fun x => (x.members.map (·.st), x.members.map (·.id))) = some ([.sleep 9 [(0, 0x40000, 0), (1, 0x40004, 5)]], [1]) := by decide +kernel
  cases hx : (mSleep 9).slot? 0 0 with
  | none => rw [hx] at h; cases h
  | some x =>
    rw [hx] at h
    simp only [Option.map_some, Option.some.injEq, Prod.mk.injEq] at h ⊢
    exact ⟨h.1, by rw [h.2]⟩
theorem wit_FirmwareEvent : (m0.core 0).handler.service = none ∧ (m0.core 0).handler.pending = [] ∧ (∀ m ∈ (m0.core 0).handler.slot.members, m.st = .waiti) ∧ (mPending.core 0).handler.pending ≠ [] := by
  decide +kernel

/-- A core of a colony of two that waits for its record at 0x100000, found through a directory at 0x90000. -/
def mRestore : State :=
  let s := (m0.onColony 0 0 fun z => { z with cores := [0, 1] }).onCore 1 fun k => { k with restoring := [(0, 0)] }
  let s := s.onQueue 0 fun x => { x with sdir := 0x90000 }
  let s := (s.wrArea 0x90000 24 (dirFields 0x100000 (0, ⟨2, 1, 1, 0, 0, coreRecLen 64⟩)))
  ((s.wrNat 0x100000 4 2).wrNat 0x10000C 1 1).wrNat 0x100010 4 64
theorem wit_Restore : (0, 0) ∈ (mRestore.core 1).restoring ∧ (mRestore.queue (mRestore.queueOf 0)).st = .running ∧ (mRestore.colony? 0 0).map (fun z => z.cores.findIdx (· == 1)) = some 1 ∧
    mRestore.rdNat 0x100000 4 = 2 ∧ mRestore.rdNat 0x10000C 1 ≠ 0 ∧ (mRestore.core 1).tiles = [] ∧ (mRestore.core 1).allocs = [] ∧ mRestore.rdNat 0x100010 4 = 64 ∧ mRestore.badMem = [] := by decide +kernel
theorem wit_Restore_directory : mRestore.dirAddr (mRestore.queueOf 0) 2 1 1 0 0 = some 0x100000 := by decide +kernel

/-- A grid of queue 0 whose first colony is to be placed on two cores. -/
def mPlace (forced : Bool) (refusals spad : Nat) : State :=
  { m0 with
    cores := [], colonies := []
    grids := m0.grids.map fun g => { g with st := .queued, nextCol := 0, forced := forced, refusals := refusals, launch := { g.launch with cores := 2, spad := spad, colonies := 1 } } }
theorem wit_Placement : (mPlace false 0 64).nextQueue = some 0 ∧ ((mPlace false 0 64).placeHead 0).map (·.id) = some 0 ∧ ((mPlace false 0 64).groups 2).head? = some [0, 1] ∧
    (mPlace false 0 64).eligible 64 [0, 1] = true ∧ (mPlace false 0 64).accepts ((mPlace false 0 64).place.ht.getD 0 0) false [0, 1] = true ∧ ((mPlace false 0 64).colony? 0 0).isNone = true := by decide +kernel
theorem wit_Placement_refused : ∀ r ∈ [0, 63], (mPlace false r 0x100001).nextQueue = some 0 ∧ ((mPlace false r 0x100001).groups 2).all (fun g => !(mPlace false r 0x100001).eligible 0x100001 g) = true := by
  decide +kernel
theorem wit_Placement_none : State.reset.nextQueue = none := by decide +kernel
theorem wit_Notices : (0 : BitVec 16).getLsbD 15 = State.reset.thermal.peerUp.getLsbD 15 ∧ ({ State.reset with thermal := { State.reset.thermal with peerUp := 0x8000 } } : State).thermal.peerUp.getLsbD 15 = true := by
  decide

-- hypotheses that can be met: the host

theorem wit_Kick : (m0.queue 0).tail < 2 * 2 ^ (m0.queue 0).logN ∧ (((16#32).toNat : Int) - (m0.queue 0).tail) % (2 * 2 ^ (m0.queue 0).logN : Nat) = 16 ∧
    (((17#32).toNat : Int) - (m0.queue 0).tail) % (2 * 2 ^ (m0.queue 0).logN : Nat) = 17 ∧ (((m0.queue 0).head : Int) + (2 ^ (m0.queue 0).logN : Nat) - (m0.queue 0).tail) % (2 * 2 ^ (m0.queue 0).logN : Nat) = 16 := by
  decide +kernel
def mQ (st : QSt) (reason : Nat) : State := m0.onQueue 0 fun x => { x with st := st, freason := reason, sregSz := 2 }
theorem wit_Commands : State.reset.phase ≠ 5 ∧ (∀ st ∈ [QSt.disabled, .running, .stopping, .preempted, .faulted], (mQ st 1).phase = 5 ∧ ((mQ st 1).queue 0).st = st) ∧
    ((mQ .faulted 6).queue 0).freason = 6 ∧ (layOut 0 ((mQ .running 1).saveItems 0 none)).2 ≤ 65536 * 40 := by decide +kernel
theorem wit_Commands_room : (layOut 0 ((m0.onQueue 0 fun x => { x with sregSz := 40 }).saveItems 0 none)).2 ≤ 65536 * ((m0.onQueue 0 fun x => { x with sregSz := 40 }).queue 0).sregSz := by decide +kernel
theorem wit_Commands_slots : (m0.slot? 0 0).map (fun x => m0.queueOf x.grid) = some 0 ∧ (∀ g ∈ m0.grids, g.id = 0 → g.q = 0) := by decide +kernel

/-- A packet with its check, sequence number 0, in slot 0 of the ring at 0x60000. -/
def sealed (b : List Byte) : List Byte :=
  let l := b ++ List.replicate (64 - b.length) 0
  l.take 2 ++ natLe 2 (packetCheck l).toNat ++ l.drop 4
def mPkt (b : List Byte) (f : Queue → Queue) : State :=
  (m0.wrBytes 0x60000 (sealed b)).onQueue 0 fun x => f { x with ring := 0x60000, tail := 1, sregSz := 40 }
def isDram (l : Loc) : Bool := match l with | .phys a => target a == some .dram | .spad _ _ => false
def isOk (o : Opd) : Bool := match o with | .ok ps => (locsOf ps).all isDram | _ => false
/-- The packet at the head of the ring of queue 0 is `b`, whole, of one type. -/
abbrev Holds (s : State) (b : List Byte) (n : Nat) : Prop :=
  s.phase = 5 ∧ (s.queue 0).st = .running ∧ (s.queue 0).head ≠ (s.queue 0).tail ∧ (s.queue 0).parse.free = true ∧ s.allowedRange 0 (s.queue 0).slotAddr 64 .read = true ∧
    s.busBytes (s.queue 0).slotAddr 64 = b ∧ (packetCheck b).toNat = numAt b 2 2 ∧ numAt b 4 4 = (s.queue 0).seq ∧ numAt b 0 1 = n
theorem packet_of {s : State} {b : List Byte} {n : Nat} (h : Holds s b n) : s.packet 0 = .ok b ∧ numAt b 0 1 = n := by
  obtain ⟨h1, h2, h3, h4, h5, h6, h7, h8, h9⟩ := h
  refine ⟨?_, h9⟩
  simp only [State.packet, h1, h2, h4, h5, h6, h7, h8, h3, ne_eq, not_true_eq_false, or_self, Bool.not_true, Bool.false_eq_true, Bool.true_eq_false, if_false, and_self, if_true]
theorem wit_Packets : ((mPkt [0] id).packet 0 = .ok (sealed [0]) ∧ numAt (sealed [0]) 0 1 = 0) ∧ ((mPkt [7] id).packet 0 = .ok (sealed [7]) ∧ numAt (sealed [7]) 0 1 = 7) ∧
    (mPkt [0] id).pending = [] ∧ unnamedZero (sealed [0]) [] = true ∧ unnamedZero (sealed [0, 0, 0, 0, 0, 0, 0, 0, 1]) [] = false ∧
    (layOut 0 ((mPkt [0] id).saveItems 0 none)).2 ≤ 65536 * ((mPkt [0] id).queue 0).sregSz :=
  ⟨packet_of (by decide +kernel), packet_of (by decide +kernel), by decide +kernel⟩
def pktLaunchBytes : List Byte := [1, 0, 0, 0, 0, 0, 0, 0] ++ record.take 40
theorem wit_Packets_launch : ((mPkt pktLaunchBytes id).packet 0 = .ok (sealed pktLaunchBytes) ∧ numAt (sealed pktLaunchBytes) 0 1 = 1) ∧ unnamedZero (sealed pktLaunchBytes) [(8, 40)] = true ∧
    (readLaunch (((sealed pktLaunchBytes).drop 8).take 40 ++ List.replicate 24 0)).isSome = true ∧ (readLaunch (((sealed [1]).drop 8).take 40 ++ List.replicate 24 0)).isNone = true :=
  ⟨packet_of (by decide +kernel), by decide +kernel⟩
def pktFenceBytes (n : Byte) (a : Nat) : List Byte := [2, 0, 0, 0, 0, 0, 0, 0] ++ natLe 8 a ++ [n]
theorem wit_Packets_fence : ∀ n ∈ [(0 : Byte), 12], ((mPkt (pktFenceBytes n 0x70000) id).packet 0 = .ok (sealed (pktFenceBytes n 0x70000)) ∧ numAt (sealed (pktFenceBytes n 0x70000)) 0 1 = 2) ∧
    unnamedZero (sealed (pktFenceBytes n 0x70000)) [(8, 9)] = true ∧ isOk ((mPkt (pktFenceBytes n 0x70000) id).operand 0 0x70000 (16 * n.toNat) .read) = true := by
  have h1 : ∀ n ∈ [(0 : Byte), 12], Holds (mPkt (pktFenceBytes n 0x70000) id) (sealed (pktFenceBytes n 0x70000)) 2 := by decide +kernel
  have h2 : ∀ n ∈ [(0 : Byte), 12], unnamedZero (sealed (pktFenceBytes n 0x70000)) [(8, 9)] = true ∧ isOk ((mPkt (pktFenceBytes n 0x70000) id).operand 0 0x70000 (16 * n.toNat) .read) = true := by decide +kernel
  exact fun n h => ⟨packet_of (h1 n h), h2 n h⟩
/-- Thirteen counters, a list that is not aligned, and a deterministic queue with work outstanding. -/
theorem wit_Packets_fence_bad : ((mPkt (pktFenceBytes 13 0x70000) id).packet 0 = .ok (sealed (pktFenceBytes 13 0x70000)) ∧ numAt (sealed (pktFenceBytes 13 0x70000)) 0 1 = 2) ∧
    ((mPkt (pktFenceBytes 1 0x70020) id).packet 0 = .ok (sealed (pktFenceBytes 1 0x70020)) ∧ numAt (sealed (pktFenceBytes 1 0x70020)) 0 1 = 2) ∧
    ((mPkt (pktFenceBytes 1 0x70000) fun x => { x with det := true }).queue 0).det = true ∧ (mPkt (pktFenceBytes 1 0x70000) id).allComplete 0 = false :=
  ⟨packet_of (by decide +kernel), packet_of (by decide +kernel), by decide +kernel⟩
def pktSignalBytes (a : Nat) (op : List Byte) : List Byte := [3, 0, 0, 0, 0, 0, 0, 0] ++ natLe 8 a ++ natLe 8 0xFFFFFFFFFFFFFFFF ++ op
/-- The packet alone in its queue, all earlier work complete. -/
def mAlone (b : List Byte) : State := { mPkt b id with grids := [] }
theorem wit_Packets_signal : ∀ op ∈ [[(0 : Byte), 0, 0], [1, 1, 9]], ((mAlone (pktSignalBytes 0x70008 op)).packet 0 = .ok (sealed (pktSignalBytes 0x70008 op)) ∧
      numAt (sealed (pktSignalBytes 0x70008 op)) 0 1 = 3) ∧ unnamedZero (sealed (pktSignalBytes 0x70008 op)) [(8, 19)] = true ∧
    (mAlone (pktSignalBytes 0x70008 op)).allComplete 0 = true ∧ ((mAlone (pktSignalBytes 0x70008 op)).queue 0).copies = [] ∧
    isOk ((mAlone (pktSignalBytes 0x70008 op)).operand 0 0x70008 8 .write) = true ∧ (mAlone (pktSignalBytes 0x70008 op)).devWrites 0 0x70008 8 = mAlone (pktSignalBytes 0x70008 op) := by
  have h1 : ∀ op ∈ [[(0 : Byte), 0, 0], [1, 1, 9]], Holds (mAlone (pktSignalBytes 0x70008 op)) (sealed (pktSignalBytes 0x70008 op)) 3 := by decide +kernel
  have h2 : ∀ op ∈ [[(0 : Byte), 0, 0], [1, 1, 9]], unnamedZero (sealed (pktSignalBytes 0x70008 op)) [(8, 19)] = true ∧
    (mAlone (pktSignalBytes 0x70008 op)).allComplete 0 = true ∧ ((mAlone (pktSignalBytes 0x70008 op)).queue 0).copies = [] ∧
    isOk ((mAlone (pktSignalBytes 0x70008 op)).operand 0 0x70008 8 .write) = true ∧ (mAlone (pktSignalBytes 0x70008 op)).devWrites 0 0x70008 8 = mAlone (pktSignalBytes 0x70008 op) := by decide +kernel
  exact fun n h => ⟨packet_of (h1 n h), h2 n h⟩
def pktCopyBytes : List Byte := [4, 0, 0, 0, 0, 0, 0, 0] ++ natLe 8 0x70000 ++ natLe 8 0x80000 ++ natLe 4 100 ++ [0, 0, 0, 0] ++ natLe 8 0
theorem wit_Packets_copy : ((mPkt pktCopyBytes id).packet 0 = .ok (sealed pktCopyBytes) ∧ numAt (sealed pktCopyBytes) 0 1 = 4) ∧ unnamedZero (sealed pktCopyBytes) [(8, 21), (32, 8)] = true ∧
    numAt (sealed pktCopyBytes) 28 1 = 0 ∧ isOk ((mPkt pktCopyBytes id).operand 0 0x70000 100 .read) = true ∧ isOk ((mPkt pktCopyBytes id).operand 0 0x80000 100 .write) = true ∧
    (mPkt pktCopyBytes id).devWrites 0 0x80000 100 = mPkt pktCopyBytes id :=
  ⟨packet_of (by decide +kernel), by decide +kernel⟩
def pktTabBytes (op : Byte) : List Byte := [5, 0, 0, 0, 0, 0, 0, 0] ++ natLe 8 0x70000 ++ [op]
def mTabPkt (op : Byte) (hd : Nat) : State := (mPkt (pktTabBytes op) id).wrNat 0x70000 8 hd
theorem wit_Packets_table : ∀ op ∈ [(0 : Byte), 1, 2], ((mTabPkt op 0xFF000201).packet 0 = .ok (sealed (pktTabBytes op)) ∧ numAt (sealed (pktTabBytes op)) 0 1 = 5) ∧
    unnamedZero (sealed (pktTabBytes op)) [(8, 9)] = true ∧ isOk ((mTabPkt op 0xFF000201).operand 0 0x70000 64 .write) = true ∧ headerOk (readTable ((mTabPkt op 0xFF000201).rdBytes 0x70000 64)) = true ∧
    headerOk (readTable ((mTabPkt op 0xFF000202).rdBytes 0x70000 64)) = false ∧ isOk ((mTabPkt op 0xFF000201).operand 0 0x70000 128 .write) = true ∧ (mTabPkt op 0xFF000201).frozen = [] ∧
    (mTabPkt op 0xFF000201).devWrite 0 0x70000 = mTabPkt op 0xFF000201 := by
  have h1 : ∀ op ∈ [(0 : Byte), 1, 2], Holds (mTabPkt op 0xFF000201) (sealed (pktTabBytes op)) 5 := by decide +kernel
  have h2 : ∀ op ∈ [(0 : Byte), 1, 2], unnamedZero (sealed (pktTabBytes op)) [(8, 9)] = true ∧ isOk ((mTabPkt op 0xFF000201).operand 0 0x70000 64 .write) = true ∧
    headerOk (readTable ((mTabPkt op 0xFF000201).rdBytes 0x70000 64)) = true ∧
    headerOk (readTable ((mTabPkt op 0xFF000202).rdBytes 0x70000 64)) = false ∧ isOk ((mTabPkt op 0xFF000201).operand 0 0x70000 128 .write) = true ∧ (mTabPkt op 0xFF000201).frozen = [] ∧
    (mTabPkt op 0xFF000201).devWrite 0 0x70000 = mTabPkt op 0xFF000201 := by decide +kernel
  exact fun n h => ⟨packet_of (h1 n h), h2 n h⟩
def pktModeBytes (m : Byte) (bint : Nat) : List Byte := [6, 0, 0, 0, 0, 0, 0, 0, m, 0, 0, 0] ++ natLe 4 4096 ++ natLe 4 0 ++ natLe 4 bint
theorem wit_Packets_mode : (∀ m ∈ [(0 : Byte), 7, 8], ((mPkt (pktModeBytes m 16) id).packet 0 = .ok (sealed (pktModeBytes m 16)) ∧ numAt (sealed (pktModeBytes m 16)) 0 1 = 6) ∧
      unnamedZero (sealed (pktModeBytes m 16)) [(8, 1), (12, 12)] = true) ∧
    ((mPkt (pktModeBytes 0 15) id).packet 0 = .ok (sealed (pktModeBytes 0 15)) ∧ numAt (sealed (pktModeBytes 0 15)) 0 1 = 6) ∧ numAt (sealed (pktModeBytes 0 15)) 20 4 = 15 ∧
    ((mPkt (pktModeBytes 7 16) id).queue 0).det = false := by
  have h1 : ∀ m ∈ [(0 : Byte), 7, 8], Holds (mPkt (pktModeBytes m 16) id) (sealed (pktModeBytes m 16)) 6 := by decide +kernel
  have h2 : ∀ m ∈ [(0 : Byte), 7, 8], unnamedZero (sealed (pktModeBytes m 16)) [(8, 1), (12, 12)] = true := by decide +kernel
  exact ⟨fun n h => ⟨packet_of (h1 n h), h2 n h⟩, packet_of (by decide +kernel), by decide +kernel⟩
def tornB (s : State) : Bool := match s.packet 0 with | .torn => true | _ => false
def mTorn (n : Nat) : State := (m0.wrBytes 0x60000 [9]).onQueue 0 fun x => { x with ring := 0x60000, tail := 1, sregSz := 40, parse := .retry n }
theorem wit_Packets_torn : ∀ n ∈ [0, 6, 7], tornB (mTorn n) = true ∧ ((mTorn n).queue 0).parse = .retry n := by decide +kernel
def mFence (v : Nat) : State := (m0.wrNat 0x70008 8 v).onQueue 0 fun x => { x with parse := .fence [(0x70008, 5)] }
def oneB (o : Opd) : Bool := match o with | .ok [p] => p.loc == .phys 0x70008 && p.n == 8 && !p.uo | _ => false
theorem wit_FencePasses : ∀ v ∈ [4, 5], ((mFence v).queue 0).parse = .fence [(0x70008, 5)] ∧ ((mFence v).queue 0).st = .running ∧ (mFence v).rdNat 0x70008 8 = v ∧
    oneB ((mFence v).operand 0 0x70008 8 .read) = true := by decide +kernel
def pcopy : List CopyByte := [⟨.phys 0x80000, .loc (.phys 0x70000), false⟩, ⟨.phys 0x80001, .zero, false⟩]
def mPcopy (vbw : Nat) : State := m0.onQueue 0 fun x => { x with copies := [.copy pcopy [] 0 {}], vbw := vbw, vbwUsed := vbw }
theorem wit_CopyPacket : (mPcopy 0).pending = pcopy ∧ granted (mPcopy 0) {} (copyCosts pcopy) = true ∧ granted (mPcopy 4096) {} (copyCosts pcopy) = false ∧ (mPcopy 0).badMem = [] ∧ (pcopy.map (·.dst)).Nodup := by
  decide +kernel

def mOut : State := { m0 with
  acc := m0.acc.map fun e => (e.1, [{ base := 0, limit := 0xFF, master := none, r := true, w := true, x := true }])
  thermal := { m0.thermal with peerUp := 0x8000 } }
theorem wit_Outside : mOut.allowedRange mHost 0x40000 8 .write = true ∧ mOut.allowedRange mHost 0x200000 8 .write = false ∧ mOut.thermal.peerUp.getLsbD 15 = true ∧
    mOut.thermal.peerUp.getLsbD 14 = false ∧ mOut.allowedRange (mPeer 15) 0x40000 8 .write = true ∧ mOut.allowedRange (mPeer 15) 0x200000 8 .write = false := by decide +kernel
theorem wit_Attestation : (List.replicate 32 (0 : Byte)).length = 32 ∧ m0.phase = 5 ∧ State.reset.phase ≠ 4 ∧ m0.leaf ≤ 32767 ∧ 32767 < ({ m0 with leaf := 32768 } : State).leaf := by decide +kernel
theorem wit_BringUp : State.reset.phase = 1 ∧ ((List.range 32).filter fun i => State.reset.clMask.getLsbD i).length = 30 ∧
    ((List.range 32).filter fun i => (0x01FFFFFF#32).getLsbD i).length = 25 ∧ State.reset.jtag ≠ .extest := by decide +kernel

-- ill-formed terms, which the checks refuse

/-- Length, the never-true guard with an examined field, S where no scalar form exists, S on NOP. -/
theorem smoke_header : [Instr.bra h1 false 0, .rcv h1, .vcall h2 14 0 .tq (.v 20) (.v 21), .rcv { h0 with pg := 7, pn := true }, .rcv { h0 with sc := true }, .nop { h0 with sc := true }, .nopLong h0].map
    Instr.wf = List.replicate 7 false := by decide
/-- A literal where a register stands, a vector register in the scalar form, B beside a literal word and without one,
a ninth destination bit in the vector form. -/
theorem smoke_operands : [Instr.mov h1 3 (.lit 1), .mov { h1 with sc := true } 3 (.v 1), .imul h2 3 (.v 1) (.v 2), .imul h1 3 (.v 1) (.lit 2), .imul h1 300 (.v 1) (.v 2),
    .ffma h1 3 (.v 1) (.v 2) (.lit 0) ⟨false, false⟩ ⟨false, false⟩ ⟨false, false⟩ .rn, .stkw h1 3 (.v 1) (.bit (.lit 1)), .prio h1 (.v 1), .csrw h2 (.s 3) 0, .shflp h1 3 (.v 1) (.lit 0) ⟨7, false⟩,
    .shflb h1 3 (.v 1) (.lane (.v 2)) ⟨7, false⟩, .shfl h2 3 (.v 1) .at (.wrel 1) ⟨7, false⟩, .shfl h1 3 (.v 1) .at (.wrel 0) ⟨7, false⟩, .gath h1 3 4 (.lit 0) 2 ⟨7, false⟩].map
    Instr.wf = List.replicate 14 false := by decide
/-- Odd registers where a pair stands. -/
theorem smoke_pairs : [Instr.brx h1 false (.v 1), .callx h1 false 3 (.v 2), .call h2 false 3 0, .imadw h1 3 (.v 1) (.v 2) (.v 4) false, .iadd64 h1 2 (.v 4) (.v 7) false false,
    .icmp64 h1 0 1 (.v 3) (.v 4) .lt false, .lea h1 2 (.v 5) (.v 6) 3 false false, .i2f h1 3 (.v 5) .s64 .fmode, .vote h1 (.mask 3) ⟨7, false⟩, .matchx h1 (.mask 3) (.v 1) ⟨7, false⟩,
    .rebal h1 3 (.v 1) (.v 2) ⟨7, false⟩, .vcall h3 13 0 .tq (.v 20) (.v 21), .cpyt h3 5 3 0 none 0, .launch h3 ⟨.s 6, none, 0⟩ (some (.v 3)), .ld h1 .b64 .weak 3 ⟨.s 6, none, 0⟩,
    .ld h1 .b128 .weak 6 ⟨.s 6, none, 0⟩, .st h1 .b128 false .weak 2 ⟨.s 6, none, 0⟩, .atom h1 .add true false false .device 3 (.v 4) ⟨.s 6, none, 0⟩].map Instr.wf = List.replicate 18 false := by decide
/-- Memory operands: an odd global base, a displacement without its word, a literal base, an offset where none may
stand, a scope of R160 that no access names, a relaxed strong store marked `.t`. -/
theorem smoke_memory : [Instr.ld h1 .b32 .weak 3 ⟨.s 7, none, 0⟩, .ld h1 .b32 .weak 3 ⟨.s 6, none, 4⟩, .ld h2 .b32 .weak 3 ⟨.lit 6, none, 4⟩, .ld h2 .b32 .weak 3 ⟨.s 6, some (.lit 1), 4⟩,
    .atom h1 .add false false false .device 3 (.v 4) ⟨.s 6, some (.v 1), 0⟩, .cpyG2s h1 3 ⟨.s 6, some (.v 1), 0⟩ (.v 2), .ld h1 .b32 (.strong .fibre) 3 ⟨.s 6, none, 0⟩,
    .st h1 .b32 true (.strong .device) 3 ⟨.s 6, none, 0⟩, .atom h1 .add false false false .fibre 3 (.v 4) ⟨.s 6, none, 0⟩, .lds h1 .b32 .weak 3 ⟨.s 7, none, 4⟩].map Instr.wf = List.replicate 10 false := by
  decide
/-- Modifiers an encoding does not admit. -/
theorem smoke_modifiers : [Instr.bra h2 false 2, .fork h2 0 (.off 1) 4, .sleep h1 ⟨.s 6, none, 0⟩ 4 21, .barWait h2 0 .allLive, .barWait h1 0 (.lit 4), .iadd h2 3 (.v 1) (.lit 2) (.cc ⟨0, false⟩),
    .iadd64 h1 2 (.v 4) (.v 6) false true, .fclass h1 3 (.v 1) .int8, .cvt h1 3 (.v 1) .int4 .fp32, .pack h1 3 4 .e4m3 .fp32 .fmode false true, .redx h1 3 (.v 1) .umin .rz ⟨7, false⟩,
    .atom h1 .exch false false true .device 0 (.v 4) ⟨.s 6, none, 0⟩, .atom h1 .fadd true false false .device 2 (.v 4) ⟨.s 6, none, 0⟩, .atom h1 .add false false true .device 3 (.v 4) ⟨.s 6, none, 0⟩,
    .st h1 (.commit .e2m1 .fp32 .fmode) false .weak 3 ⟨.s 6, none, 0⟩, .stb h1 (.block .int8 .int8 .fmode false false) false .weak 3 ⟨.s 6, none, 0⟩, .fenco h0 .swarm, .fencr h0 .system,
    .mma h3 16 96 113 .e4m3 .bf16 .fmode true, .mma h3 16 96 113 .int8 .uint8 .rn true, .mcvt h3 0 1 .fp32 false .fmode false false false none,
    .mcvt h3 0 1 .e4m3 false .fmode false false true none, .mcvt h3 0 1 .bf16 true .fmode false false false none].map Instr.wf = List.replicate 23 false := by decide
/-- An event is no instruction word. -/
theorem smoke_event : (Instr.kick 0 0).wf = false ∧ (Instr.kick 0 0).raw = none := by decide
/-- One well-formed term beside each group. -/
theorem smoke_good : [Instr.bra h2 false 4, .mov h1 3 (.v 1), .imul h2 3 (.v 1) (.lit 2), .imul { h1 with sc := true } 300 (.s 1) (.s 2), .brx h1 false (.v 2), .ld h2 .b64 (.sync .system) 4 ⟨.s 6, some (.v 7), 4⟩,
    .lds h1 .b32 .weak 3 ⟨.s 7, none, 0⟩, .mma h3 16 96 113 .e4m3 .e5m2 .rn true, .barWait h1 0 .allLive].map Instr.wf = List.replicate 9 true := by decide

-- decoding: words written out from the encodings of the spec

def dec (l : List Word) : Dec := decodeBytes (wordsBytes l)
/-- The worked encodings of 03_encoding_and_opcode_map. -/
theorem decode_scalar_iadd : dec [0x152C9039, 0x00200016] = .ok (.iadd { h1 with sc := true } 300 (.s 21) (.s 22) (.plain false false)) := by decide +kernel
theorem decode_scalar_iadd_kb : dec [0x152C9039, 0x00280016] = .error 3 ∧ dec [0x152C1039, 0x00200016] = .error 3 := by decide +kernel
theorem decode_broadcast_fmul : dec [0x04043109, 0x0008000A] = .ok (.fmul { h1 with pg := 1 } 4 (.v 4) (.s 10) ⟨false, false⟩ ⟨false, false⟩ .fmode) := by decide +kernel
/-- The worked encoding under R70. -/
theorem decode_vcall : dec [0x0E0005BB, 0x10040000, 0, 0x00005414] = .ok (.vcall h3 14 0 .tq (.v 20) (.v 21)) := by decide +kernel
/-- R170: `atom.add.device v2, [s6:s7], v9`: OP 0xB6, D 2, A 6, KA, B 9, MOD the scope 4. -/
theorem decode_atom : dec [0x06025B39, 0x40040009] = .ok (.atom h1 .add false false false .device 2 (.v 9) ⟨.s 6, none, 0⟩) ∧ dec [0x06025B39, 0x00040009] = .error 6 := by decide +kernel
/-- R174: `waitc post, 3`: D the class 2, A the count 3. -/
theorem decode_waitc : dec [0x03025FB8] = .ok (.waitc h0 .post 3) := by decide +kernel
/-- R176: `cpyt 5, [s2:s3 + 0x40], 8`: word 3 t and count − 1. -/
theorem decode_cpyt : dec [0x02005F3B, 0x00040000, 0x40, 0x00000705] = .ok (.cpyt h3 5 2 0x40 none 7) := by decide +kernel
/-- R179: `tset 5, s3, 0x00020010`. -/
theorem decode_tset : dec [0x0305603A, 0x00040000, 0x00020010] = .ok (.tset h2 5 3 (.lit 0x00020010)) := by decide +kernel
/-- R213: `mma.e4m3.e5m2.zc v16, v96, v113`: FA 3, FB 4, ZC. -/
theorem decode_mma : dec [0x6010703B, 0x00000071, 0, 0x00000143] = .ok (.mma h3 16 96 113 .e4m3 .e5m2 .fmode true) := by decide +kernel
/-- R217, R218: `mzero v64`, `mscl.set v16, s5`. -/
theorem decode_mzero : dec [0x004071B9, 0] = .ok (.mzero h1 64) ∧ dec [0x00107239, 0x00880005] = .ok (.msclSet h1 16 (.s 5)) := by decide +kernel
/-- R116: `isub.cc v3, v1, v2, !p7` has C 0xF; R119: `bperm v4, v1, v3, 0x0008A266`. -/
theorem decode_cc_bperm : dec [0x010310B9, 0x00801E02] = .ok (.isub h1 3 (.v 1) (.v 2) (.cc ⟨7, true⟩)) ∧
    dec [0x01041ABA, 0x00000600, 0x0008A266] = .ok (.bperm h2 4 (.v 1) (.v 3) (.lit 0x0008A266)) := by decide +kernel
/-- R50: an OP value the map does not list, a length it does not give, a reserved SUB. -/
theorem decode_refuses : dec [0x00002FB9, 0] = .error 1 ∧ dec [0x000000B9, 0] = .error 2 ∧ dec [0x01031039, 0x01000002] = .error 6 := by decide +kernel

-- single steps: expected values from the rules and worked examples

def withV (l : List (Nat × Img)) : State := on fun x => { four x with lanes := (List.range 4).map fun k => (k, { fibreReset with fid := k, regs := l }) }
def regOf (o : Out) (l n : Nat) : Option Img := match o with | .next t => (t.slot? 0 0).map fun x => x.v l n | _ => none
def predOf (o : Out) (l : Nat) (n : BitVec 3) : Option Bool := match o with | .next t => (t.slot? 0 0).map fun x => x.p l n | _ => none
def pcOf (o : Out) : Option (List (Nat × Nat)) := match o with | .next t => (t.slot? 0 0).map fun x => x.members.map fun m => (m.mask.toNat, m.pc.toNat) | _ => none
def flagsOf (o : Out) : Option Nat := match o with | .next t => (t.slot? 0 0).map fun x => x.fflags.toNat | _ => none
def S : Img := 0x100000000
def nm : OMod := ⟨false, false⟩
def pT : PSrc := ⟨7, false⟩

theorem test_iadd_wraps : regOf (exec (.iadd h1 3 (.v 1) (.v 2) (.plain false false)) (withV [(1, 0x1FFFFFFFF), (2, 2)])) 2 3 = some 1 := by decide +kernel
theorem test_iadd_saturates : regOf (exec (.iadd h1 3 (.v 1) (.v 2) (.plain true false)) (withV [(1, 0x7FFFFFFF), (2, 2)])) 0 3 = some 0x7FFFFFFF ∧
    regOf (exec (.iadd h1 3 (.v 1) (.v 2) (.plain true true)) (withV [(1, 0xFFFFFFFF), (2, 2)])) 0 3 = some 0xFFFFFFFF := by decide +kernel
/-- R116: with pc = !p7 the carry-in is 0, so 5 − 3 − 1. -/
theorem test_isub_cc : regOf (exec (.isub h1 3 (.v 1) (.v 2) (.cc ⟨7, true⟩)) (withV [(1, 5), (2, 3)])) 0 3 = some 1 ∧
    predOf (exec (.isub h1 3 (.v 1) (.v 2) (.cc ⟨1, true⟩)) (withV [(1, 3), (2, 3)])) 0 1 = some true := by decide +kernel
theorem test_imulh_signed : regOf (exec (.imulh h1 3 (.v 1) (.v 2) false) (withV [(1, 0xFFFFFFFF), (2, 2)])) 0 3 = some 0xFFFFFFFF ∧
    regOf (exec (.imulh h1 3 (.v 1) (.v 2) true) (withV [(1, 0xFFFFFFFF), (2, 2)])) 0 3 = some 1 := by decide +kernel
theorem test_imadw : regOf (exec (.imadw h1 4 (.v 1) (.v 2) (.v 6) true) (withV [(1, 0xFFFFFFFF), (2, 0xFFFFFFFF), (6, 1), (7, 1)])) 0 5 = some 0xFFFFFFFF ∧
    regOf (exec (.imadw h1 4 (.v 1) (.v 2) (.v 6) true) (withV [(1, 0xFFFFFFFF), (2, 0xFFFFFFFF), (6, 1), (7, 1)])) 0 4 = some 2 := by decide +kernel
theorem test_iabs : regOf (exec (.iabs h1 3 (.v 1) false) (withV [(1, 0x80000000)])) 0 3 = some 0x80000000 ∧ regOf (exec (.iabs h1 3 (.v 1) true) (withV [(1, 0x80000000)])) 0 3 = some 0x7FFFFFFF := by
  decide +kernel
/-- R121: pq is written after pd where they name one predicate. -/
theorem test_isetp_same : predOf (exec (.isetp h1 2 2 (.v 1) (.v 2) .lt false) (withV [(1, 1), (2, 2)])) 0 2 = some false ∧
    predOf (exec (.isetp h1 2 3 (.v 1) (.v 2) .lt false) (withV [(1, 0xFFFFFFFF), (2, 2)])) 0 2 = some true ∧
    predOf (exec (.isetp h1 2 3 (.v 1) (.v 2) .lt true) (withV [(1, 0xFFFFFFFF), (2, 2)])) 0 2 = some false := by decide +kernel
/-- The truth table of R118: (a AND b) OR c is 0xF8. -/
theorem test_lop3 : regOf (exec (.lop3 h1 4 (.v 1) (.v 2) (.v 3) 0xF8) (withV [(1, 0xFF00), (2, 0x0FF0), (3, 1)])) 0 4 = some 0x0F01 := by decide +kernel
/-- The worked case of R119. -/
theorem test_bperm : regOf (exec (.bperm h2 4 (.v 1) (.v 3) (.lit 0x0008A266)) (withV [(1, 0x80FF7F01), (3, 0x44332211)])) 0 4 = some 0x0000FF33 := by decide +kernel
theorem test_clz_zero : regOf (exec (.clz h1 4 (.v 1)) (withV [])) 0 4 = some 32 ∧ regOf (exec (.popc h1 4 (.v 1)) (withV [(1, 0xF000000F)])) 0 4 = some 8 := by decide +kernel
theorem test_sar : regOf (exec (.sar h2 4 (.v 1) (.lit 31)) (withV [(1, 0x80000000)])) 0 4 = some 0xFFFFFFFF ∧ regOf (exec (.shr h2 4 (.v 1) (.lit 31)) (withV [(1, 0x80000000)])) 0 4 = some 1 := by
  decide +kernel
/-- R122: MOV and SEL keep S, MOVL clears it. -/
theorem test_mov_keeps_s : regOf (exec (.mov h1 3 (.v 1)) (withV [(1, S + 7)])) 0 3 = some (S + 7) ∧ regOf (exec (.movl h2 1 0x3E000000) (withV [(1, S + 7)])) 0 1 = some 0x3E000000 := by decide +kernel
theorem test_iadd64_carries : regOf (exec (.iadd64 h1 2 (.v 4) (.v 6) false false) (withV [(4, 0xFFFFFFFF), (6, 1)])) 0 3 = some 1 := by decide +kernel

/-- The chains of 07_arithmetic_commentary: truncation to odd, then one commit. -/
theorem test_cvt_odd : regOf (exec (.cvt h1 9 (.v 8) .bf16 .fp32) (withV [(8, 0x40081000)])) 0 9 = some (S + 0x4009) ∧
    regOf (exec (.cvt h1 9 (.v 8) .e4m3 .fp32) (withV [(8, 0x3F980000)])) 0 9 = some (S + 0x39) := by decide +kernel
def byteAt (a : Nat) (o : Out) : Option Byte := match o with | .next t => some (t.rdByte a) | _ => none
theorem test_commit_chain : byteAt 0x50001 (exec (.st h2 (.commit .e4m3 .bf16 .fmode) false .weak 9 ⟨.v 2, none, 1⟩) (withV [(2, 0x50000), (9, S + 0x4009)])) = some 0x41 ∧
    byteAt 0x50001 (exec (.st h2 (.commit .e5m2 .e4m3 .fmode) false .weak 9 ⟨.v 2, none, 1⟩) (withV [(2, 0x50000), (9, S + 0x39)])) = some 0x3C ∧
    byteAt 0x50001 (exec (.st h2 (.commit .e5m2 .fp32 .fmode) false .weak 9 ⟨.v 2, none, 1⟩) (withV [(2, 0x50000), (9, 0x3F980000)])) = some 0x3D := by decide +kernel
/-- DR and NX of the broken chain (R103, R108). -/
theorem test_chain_flags : flagsOf (exec (.st h2 (.commit .e5m2 .e4m3 .fmode) false .weak 9 ⟨.v 2, none, 1⟩) (withV [(2, 0x50000), (9, S + 0x39)])) = some (16 + 32) := by decide +kernel
/-- Decided and undecided comparisons (07_arithmetic_commentary). -/
theorem test_fcmp_decided : let lt (b : Word) := exec (.fcmp h2 1 2 (.v 9) (.lit b) nm nm .lt) (withV [(9, S + 0x40090000)])
    [predOf (lt 0x40100000) 0 1, predOf (lt 0x40100000) 0 2] = [some true, some true] ∧ [predOf (lt 0x40090000) 0 1, predOf (lt 0x40090000) 0 2] = [some false, some false] := by decide +kernel
theorem test_fadd_tie : regOf (exec (.fadd h2 4 (.v 1) (.lit 0x3F800000) nm nm .fmode) (withV [(1, 0x4B800000)])) 0 4 = some (S + 0x4B800000) := by decide +kernel
/-- R140: the other operand of a NaN, and −|v1|. -/
theorem test_fmin_nan : regOf (exec (.fmin h1 4 (.v 1) (.v 2) nm nm) (withV [(1, 0x7FC00000), (2, 0x40000000)])) 0 4 = some 0x40000000 ∧
    regOf (exec (.fmax h1 4 (.v 1) (.v 2) ⟨true, true⟩ nm) (withV [(1, 0x3F800000), (2, 0xC0000000)])) 0 4 = some 0xBF800000 := by decide +kernel
theorem test_f2i_saturates : regOf (exec (.f2i h1 4 (.v 1) false .fp32 .rz) (withV [(1, 0xC0200000)])) 0 4 = some (S + 0xFFFFFFFE) := by decide +kernel

def numOf (a : Nat) (o : Out) : Option Nat := match o with | .next t => some (t.rdNat a 4) | _ => none
/-- The late result of an instruction, delivered. -/
def returned (o : Out) : Out := match o with | .next t => exec (.lateResultReturn 0 0 0) t | o => o
/-- The spill of 10_memory_and_engine_instructions. -/
theorem test_spill : [0, 4, 8].map (fun k => numOf (0x50000 + k) (exec (.spill h1 1 false 9 ⟨.v 20, none, 0⟩) (withV [(20, 0x50000), (9, S + 0x3F89), (10, 0x3F800000)]))) = [some 0x3F89, some 0x3F800000, some 1] := by decide +kernel
/-- R55: the lanes of a false guard fall through; the family is split by target. -/
theorem test_bra_splits : (pcOf (exec (.bra { h2 with pg := 3 } false 0x34) (on fun x => { four x with lanes := (List.range 4).map fun k => (k, { fibreReset with fid := k, preds := if k < 2 then 8 else 0 }) }))) =
    some [(3, 0x30034), (12, 0x3000C)] ∨ (pcOf (exec (.bra { h2 with pg := 3 } false 0x34) (on fun x => { four x with lanes := (List.range 4).map fun k => (k, { fibreReset with fid := k, preds := if k < 2 then 8 else 0 }) }))) =
    some [(12, 0x3000C), (3, 0x30034)] := by decide +kernel
/-- R54, R55: the link is the address after the instruction. -/
theorem test_call_links : regOf (exec (.call h2 false 2 0x40) (withV [])) 1 2 = some 0x3000C ∧ pcOf (exec (.call h2 false 2 0x40) (withV [])) = some [(15, 0x30040)] := by decide +kernel
theorem test_csrr_width : regOf (exec (.csrr h2 5 0) (withV [])) 0 5 ≠ none := by decide +kernel
theorem test_shfl_flip : regOf (returned <| exec (.shfl h2 7 (.v 4) .flip (.opd (.lit 1)) pT) (on fun x => { four x with lanes := (List.range 4).map fun k => (k, { fibreReset with fid := k, regs := [(4, BitVec.ofNat 33 (10 + k))] }) })) 2 7 =
    some 13 := by decide +kernel
theorem test_vote_every : predOf (returned <| exec (.vote h1 (.every 2) ⟨1, true⟩) (withV [])) 3 2 = some true := by decide +kernel
/-- A step fetches, decodes and runs the word at the program counter. -/
theorem test_step_runs : (match step (m4.withFetchWord 64 0x0000000201031039) with | .next t => (t.slot? 0 0).map (fun x => x.members.map (·.pc.toNat)) | _ => none) = some [0x30008] := by decide +kernel

-- the catalogue of ordering tests (13_ordering_catalogue): what is allowed and what is forbidden

def fib (core fid : Nat) : Agent := .fibre core 0 0 0 fid
def bx : Loc := .phys 0x40000
def by_ : Loc := .phys 0x50000
def plainAcc : AccEv := { rd := false, wr := false, strong := false, acq := false, rel := false, sc := .fibre, attr := .rc, bytes := [bx], tick := false }
/-- The instruction that makes an access of these bytes. -/
def opOf (a : AccEv) : Instr :=
  let byte : Bool := a.bytes.length == 1
  let o : Ordk := if a.acq || a.rel then .sync a.sc else if a.strong then .strong a.sc else .weak
  if a.rd && a.wr then .atom h1 .add false a.acq false a.sc 3 (.v 4) gm else if a.rd then .ld h1 (if byte then .u8 else .b32) o 3 gm else .st h1 (if byte then .b8 else .b32) a.tick o 3 gm
def accOf (a : Agent) (f : AccEv) : OrdEvent := { agent := a, kind := .access f, op := some (opOf f) }
def wEv (a : Agent) (b : Loc) (f : AccEv → AccEv) : OrdEvent := accOf a (f { plainAcc with wr := true, bytes := [b] })
def rEv (a : Agent) (b : Loc) (f : AccEv → AccEv) : OrdEvent := accOf a (f { plainAcc with rd := true, bytes := [b] })
def aEv (a : Agent) (b : Loc) : OrdEvent := accOf a { plainAcc with rd := true, wr := true, strong := true, sc := .device, bytes := (List.range 4).map b.add }
def relAt (s : Scope) (a : AccEv) : AccEv := { a with strong := true, rel := true, sc := s }
def acqAt (s : Scope) (a : AccEv) : AccEv := { a with strong := true, acq := true, sc := s }
def strongAt (s : Scope) (a : AccEv) : AccEv := { a with strong := true, sc := s }
def onUo (a : AccEv) : AccEv := { a with attr := .uo }
/-- An event made once for the fibre's swarm; what an engine does; an event that is left out. -/
def onceEv (a : Agent) (k : EvKind) : OrdEvent :=
  { agent := a, kind := k, mask := [a]
    op := match k with | .fence s => some (.fence h1 s) | .fenco s => some (.fenco h1 s) | .fencr s => some (.fencr h1 s) | _ => none }
def engEv (k : EvKind) (i : Option Instr) : OrdEvent := { agent := fib 0 0, kind := k, op := i, engine := true }
def gone : OrdEvent := engEv .park none
def retired : OrdEvent := engEv (.mark .retire) none
def markEv (a : Agent) (m : Mark) (i : Instr) (once : Bool) : OrdEvent := { agent := a, kind := .mark m, mask := if once then [a] else [], op := some i }
/-- A candidate of these events, each of an instruction of its own unless it says otherwise, with one program order for
each agent. -/
def cand (evs : List OrdEvent) (progs : List (List Nat)) : Candidate :=
  { evs := evs.zipIdx.map fun e => { e.1 with nth := if e.1.nth = 0 then 100 + e.2 else e.1.nth }
    progs := progs.filterMap fun l => (l.head?.bind fun i => evs[i]?).map fun o => (o.agent, l)
    rf := [], co := [], dirs := [], serial := [], forks := [], rounds := [], ops := [], tiles := [], grids := [], det := [] }

/-- Message passing: 0 stores x, 1 the flag y, 2 loads y, 3 loads x; the outcome 1 then v3 from `src`. -/
def mp (f g : AccEv → AccEv) (p1 : Agent) (src : Option Nat) : Candidate :=
  { cand [wEv (fib 0 0) bx id, wEv (fib 0 0) by_ f, rEv p1 by_ g, rEv p1 bx id] [[0, 1], [2, 3]] with
    rf := [((2, by_), some 1), ((3, bx), src)], co := [(bx, [0]), (by_, [1])] }
theorem litmus_mp : (mp (relAt .device) (acqAt .device) (fib 1 1) none).allowed = false ∧ (mp (relAt .device) (acqAt .device) (fib 1 1) (some 0)).allowed = true ∧
    (mp id id (fib 1 1) none).allowed = true := by decide +kernel
/-- Reads at two scopes: another colony of the same cluster is outside COLONY scope, and inside CLUSTER scope. -/
theorem litmus_scopes : (mp (relAt .colony) (acqAt .device) (fib 1 1) none).allowed = false ∧ (mp (relAt .colony) (acqAt .device) (.fibre 1 0 0 1 1) none).allowed = true ∧
    (mp (relAt .cluster) (acqAt .device) (.fibre 1 0 0 1 1) none).allowed = false ∧ (mp (relAt .cluster) (acqAt .device) (.fibre 8 0 0 1 1) none).allowed = true := by decide +kernel
/-- The host polls through its window: its two loads are acquires at SYSTEM scope. -/
theorem litmus_host : (let x : Candidate := { cand [wEv (fib 0 0) bx id, wEv (fib 0 0) by_ (relAt .system), rEv .host by_ (acqAt .system), rEv .host bx (acqAt .system)] [[0, 1], [2, 3]] with
    rf := [((2, by_), some 1), ((3, bx), none)], co := [(bx, [0]), (by_, [1])] }
    (x.allowed, ({ x with rf := [((2, by_), some 1), ((3, bx), some 0)] } : Candidate).allowed)) = (false, true) := by decide +kernel
/-- A fence before a strong flag store is a release point. -/
theorem litmus_mp_fence : (let x : Candidate := { cand [wEv (fib 0 0) bx id, onceEv (fib 0 0) (.fence .device), wEv (fib 0 0) by_ (strongAt .device), rEv (fib 1 1) by_ (acqAt .device), rEv (fib 1 1) bx id] [[0, 1, 2], [3, 4]] with
    rf := [((3, by_), some 2), ((4, bx), none)], co := [(bx, [0]), (by_, [2])] }
    (x.allowed, ({ x with rf := [((3, by_), some 2), ((4, bx), some 0)] } : Candidate).allowed)) = (false, true) := by decide +kernel
/-- Message passing on UO with fences in either direction, and without. -/
def uo (fences : Bool) (dirs : List (Nat × Nat)) : Candidate :=
  { cand [wEv (fib 0 0) bx onUo, if fences then onceEv (fib 0 0) (.fence .device) else gone, wEv (fib 0 0) by_ onUo,
          rEv (fib 1 1) by_ onUo, if fences then onceEv (fib 1 1) (.fence .device) else gone, rEv (fib 1 1) bx onUo]
      (if fences then [[0, 1, 2], [3, 4, 5]] else [[0, 2], [3, 5]]) with
    rf := [((3, by_), some 2), ((5, bx), none)], co := [(bx, [0]), (by_, [2])], dirs := dirs }
theorem litmus_uo : (uo true [(1, 4)]).allowed = false ∧ (uo true [(4, 1)]).allowed = false ∧ (uo true []).directed = false ∧ (uo false []).allowed = true := by decide +kernel
/-- Two loads of one byte, first 1, then 0: on UO and on RC. -/
def twice (f : AccEv → AccEv) : Candidate :=
  { cand [wEv (fib 0 0) bx f, rEv (fib 1 1) bx f, rEv (fib 1 1) bx f] [[0], [1, 2]] with rf := [((1, bx), some 0), ((2, bx), none)], co := [(bx, [0])] }
theorem litmus_twice : (twice onUo).allowed = true ∧ (twice id).allowed = false := by decide +kernel
/-- Store buffering with FENCO (event 1) and FENCR (event 4), both loads of 0. -/
def sb (p1 : Agent) (f g : EvKind) (serial : List (Nat × Nat)) : Candidate :=
  { cand [wEv (fib 0 0) bx id, onceEv (fib 0 0) f, rEv (fib 0 0) by_ id, wEv p1 by_ id, onceEv p1 g, rEv p1 bx id] [[0, 1, 2], [3, 4, 5]] with
    rf := [((2, by_), none), ((5, bx), none)], co := [(bx, [0]), (by_, [3])], serial := serial, colonies := [((0, 0), [0, 1]), ((0, 1), [0, 1])] }
theorem litmus_sb : (∀ l ∈ [[], [(1, 4)]], (sb (fib 1 1) (.fenco .colony) (.fencr .colony) l).allowed = false) ∧ (sb (fib 1 1) .park (.fencr .colony) []).allowed = true ∧
    (sb (fib 1 1) (.fenco .colony) (.fenco .colony) []).allowed = true ∧ (sb (.fibre 1 0 0 1 1) (.fenco .colony) (.fencr .colony) []).allowed = true ∧
    ∀ l ∈ [[], [(1, 4)]], (sb (.fibre 1 0 0 1 1) (.fenco .cluster) (.fencr .cluster) l).allowed = false := by decide +kernel
/-- The FENCR's scope holds the FENCO's core where its colony runs there too (R194). -/
theorem litmus_sb_core : ∀ l ∈ [[], [(1, 4)]], (sb (.fibre 0 1 0 1 1) (.fenco .cluster) (.fencr .colony) l).allowed = false ∧
    ({ sb (.fibre 1 1 0 1 1) (.fenco .cluster) (.fencr .colony) l with colonies := [((0, 0), [0]), ((0, 1), [1])] } : Candidate).allowed = true := by decide +kernel
/-- Load buffering, both loads of 1: markers on both, on one, on none; each load writes `d`, and each store stores v3; and with v3
written again in between (R191). -/
def lb (p q : Bool) (d : BitVec 9) (again : Bool := false) : Candidate :=
  let ld (a : Agent) (b : Loc) : OrdEvent := { rEv a b id with op := some (.ld h1 .u8 .weak d gm) }
  let mid (a : Agent) (p : Bool) : OrdEvent := if p then onceEv a .park else if again then { agent := a, kind := .writes [(false, 3)], op := some (.nop h1) } else gone
  let prog (p : Bool) (i : Nat) : List Nat := if p || again then [i, i + 1, i + 2] else [i, i + 2]
  { cand [ld (fib 0 0) bx, mid (fib 0 0) p, wEv (fib 0 0) by_ id, ld (fib 1 1) by_, mid (fib 1 1) q, wEv (fib 1 1) bx id] [prog p 0, prog q 3] with
    rf := [((0, bx), some 5), ((3, by_), some 2)], co := [(bx, [5]), (by_, [2])] }
theorem litmus_lb : (lb true true 9).allowed = false ∧ (lb true false 9).allowed = true ∧ (lb false false 9).allowed = true ∧
    (lb false false 3).allowed = false ∧ (lb false false 3 true).allowed = true := by decide +kernel
/-- Ticket order: colonies 0 and 1 store y (0, 2) and z (1, 3) with `.t`; colony 2 acquires z (4) and loads y (5); of a
deterministic grid, and of another. -/
def tickets (det : List Nat) (z y : Option Nat) (co : List Nat) : Candidate :=
  let t : AccEv → AccEv := fun a => { a with tick := true }
  let c (n : Nat) : Agent := .fibre n 0 0 n 0
  { cand [wEv (c 0) by_ t, wEv (c 0) bx t, wEv (c 1) by_ t, wEv (c 1) bx t, rEv (c 2) bx (acqAt .device), rEv (c 2) by_ id] [[0, 1], [2, 3], [4, 5]] with
    rf := [((4, bx), z), ((5, by_), y)], co := [(bx, [1, 3]), (by_, co)], det := det }
theorem litmus_tickets : (tickets [0] (some 3) none [0, 2]).allowed = false ∧ (tickets [0] (some 3) (some 0) [0, 2]).allowed = true ∧ (tickets [0] (some 1) none [0, 2]).allowed = true ∧
    (tickets [0] (some 3) (some 0) [2, 0]).allowed = false ∧ (tickets [1] (some 3) none [0, 2]).allowed = true := by decide +kernel
def cpyI : Instr := .cpyG2s h1 3 gm (.v 4)
/-- A copy retired under WAITC: the issue 0, the engine write 1, its retirement 2, the resume 3, the load 4. -/
def padB : Loc := .spad 0 0
def copied (s : Option Nat) (n : BitVec 6) : Candidate :=
  let at5 (o : OrdEvent) : OrdEvent := { o with nth := 5 }
  { cand [at5 (markEv (fib 0 0) .issue cpyI false), at5 (engEv (.access { plainAcc with wr := true, bytes := [padB] }) (some cpyI)), retired,
          markEv (fib 0 0) .resume (.waitc h1 .copy n) true, { rEv (fib 0 0) padB id with op := some (.lds h1 .u8 .weak 3 gm) }] [[0, 3, 4]] with
    rf := [((4, padB), s)], co := [(padB, [1])], ops := [⟨0, some 2, none⟩] }
theorem litmus_copy : (copied none 0).allowed = false ∧ (copied (some 1) 0).allowed = true ∧ (copied none 1).allowed = true ∧
    ({ copied none 0 with ops := [] } : Candidate).allowed = false ∧ ({ copied none 0 with ops := [⟨0, none, none⟩] } : Candidate).allowed = false := by decide +kernel
def word : List Loc := (List.range 4).map bx.add
/-- R200: a store between what an atomic reads and its write. -/
theorem litmus_atomicity : ∀ co ∈ [[0, 1], [1, 0]], ({ cand [wEv (fib 0 0) bx id, aEv (fib 1 1) bx] [[0], [1]] with
    rf := word.map fun b => ((1, b), none), co := (bx, co) :: (word.drop 1).map fun b => (b, [1]) } : Candidate).allowed = (co == [1, 0]) := by decide +kernel
/-- R185: a weak read-modify-write, an acquire store, a strong access of a UO page, and an access that its instruction does
not make are no events. -/
theorem litmus_kinds : ∀ e ∈ [accOf (fib 0 0) { plainAcc with rd := true, wr := true }, accOf (fib 0 0) { plainAcc with wr := true, acq := true, strong := true },
      accOf (fib 0 0) { plainAcc with wr := true, strong := true, sc := .device, attr := .uo }, { wEv (fib 0 0) bx id with op := some (.ld h1 .u8 .weak 3 gm) }],
    ({ cand [e] [[0]] with rf := [((0, bx), none)], co := [(bx, [0])] } : Candidate).kinds = false := by decide +kernel
/-- R163, R190: the two lanes of one store, whose bytes meet. -/
def lanes2 (co : List Nat) : Candidate :=
  { cand [{ wEv (fib 0 0) bx id with nth := 1 }, { wEv (fib 0 1) bx id with nth := 1, lane := 1 }] [[0], [1]] with co := [(bx, co)] }
theorem litmus_lanes : (lanes2 [0, 1]).allowed = true ∧ (lanes2 [1, 0]).allowed = false := by decide +kernel
/-- R189: 7 bytes from an odd address. -/
theorem litmus_series : soSeries 32 0x1001 7 = [(0x1001, 1), (0x1002, 2), (0x1004, 4)] ∧ soSeries 32 0x1010 24 = [(0x1010, 16), (0x1020, 8)] := by decide +kernel
/-- R189: two bytes from an odd address of an SO page are two stores, and not one. -/
def odd1 : Loc := .phys 0x40001
def odd2 : Loc := .phys 0x40002
def op16 : OrdEvent := { accOf (fib 0 0) plainAcc with op := some (.st h1 .b16 false .weak 3 gm), nth := 1 }
def soW (l : List Loc) (p : Nat) : OrdEvent := { op16 with part := p, kind := .access { plainAcc with wr := true, attr := .so, bytes := l } }
def soPair (l : List Nat) : Candidate := { cand [soW [odd1] 0, soW [odd2] 1] [l] with co := [(odd1, [0]), (odd2, [1])] }
theorem litmus_so : (soPair [0, 1]).allowed = true ∧ (soPair [1, 0]).allowed = false ∧
    ({ cand [soW [odd1, odd2] 0] [[0]] with co := [(odd1, [0]), (odd2, [0])] } : Candidate).allowed = false := by decide +kernel

-- hypotheses that can be met: ordering (OrderedAccesses)

/-- The store 0 is ppo-before the release 1, which synchronises with the acquire 2 of the load 3. -/
theorem wit_OrderedAccesses : let x := mp (relAt .device) (acqAt .device) (fib 1 1) (some 0)
    x.allowed = true ∧ x.stores 0 bx = true ∧ x.loads 3 bx = true ∧ x.ppo 0 1 = true ∧ x.sw 1 2 = true ∧ x.ppo 2 3 = true ∧ (0, 3) ∈ x.hb := by decide +kernel
/-- The same through fences, before the store's flag and behind the load's. -/
def mpFences : Candidate :=
  { cand [wEv (fib 0 0) bx id, onceEv (fib 0 0) (.fence .device), wEv (fib 0 0) by_ (strongAt .device), rEv (fib 1 1) by_ (strongAt .device), onceEv (fib 1 1) (.fence .device), rEv (fib 1 1) bx id]
      [[0, 1, 2], [3, 4, 5]] with
    rf := [((3, by_), some 2), ((5, bx), some 0)], co := [(bx, [0]), (by_, [2])], dirs := [(1, 4)] }
theorem wit_OrderedAccesses_fences : mpFences.allowed = true ∧ mpFences.fo 0 1 = true ∧ mpFences.sw 1 4 = true ∧ mpFences.fo 4 5 = true := by decide +kernel
def sbSeen : Candidate := { sb (fib 1 1) (.fenco .colony) (.fencr .colony) [(1, 4)] with rf := [((2, by_), none), ((5, bx), some 0)] }
theorem wit_OrderedAccesses_pair : sbSeen.allowed = true ∧ sbSeen.paired 1 4 = true ∧ sbSeen.po 0 1 = true ∧ sbSeen.po 1 2 = true ∧ sbSeen.po 3 4 = true ∧ sbSeen.po 4 5 = true ∧
    sbSeen.stores 0 bx = true ∧ sbSeen.loads 5 bx = true ∧ sbSeen.stores 3 by_ = true ∧ sbSeen.loads 2 by_ = true := by decide +kernel
def rmwAfter : Candidate := { cand [wEv (fib 0 0) bx id, aEv (fib 1 1) bx] [[0], [1]] with
  rf := word.map fun b => ((1, b), if b = bx then some 0 else none), co := (bx, [0, 1]) :: (word.drop 1).map fun b => (b, [1]) }
theorem wit_OrderedAccesses_atomic : rmwAfter.allowed = true ∧ rmwAfter.loads 1 bx = true ∧ rmwAfter.stores 1 bx = true ∧ rmwAfter.stores 0 bx = true ∧ before (rmwAfter.order bx) 0 1 = true := by
  decide +kernel
theorem wit_OrderedAccesses_lanes : (lanes2 [0, 1]).stores 0 bx = true ∧ (lanes2 [0, 1]).stores 1 bx = true ∧ (lanes2 [0, 1]).sameOp 0 1 = true ∧
    ((lanes2 [0, 1]).evs.map fun o => (o.lane, o.op.isSome)) = [(0, true), (1, true)] := by decide +kernel
theorem wit_OrderedAccesses_so : ((soPair [0, 1]).acc? 1).map (fun a => (a.strong, a.attr)) = some (false, .so) ∧ ((soPair [0, 1]).evs.map (·.engine)) = [false, false] := by decide +kernel
/-- A strong load that reads the whole of a strong store. -/
theorem wit_OrderedAccesses_whole : let x := mp (relAt .device) (acqAt .device) (fib 1 1) (some 0)
    ((x.acc? 2).map fun a => (a.rd, a.strong, a.bytes)) = some (true, true, [by_]) ∧ ((x.acc? 1).map fun a => (a.wr, a.strong, a.bytes)) = some (true, true, [by_]) := by decide +kernel

/-- A KICK that covers a packet whose copy loads what the host stored before it, and one that does not cover it (R294). -/
def kicked (src : Option Nat) : Candidate :=
  { cand [wEv .host bx (relAt .system), { agent := .host, kind := .mark .kick }, { agent := .queue 0, kind := .access { plainAcc with rd := true }, engine := true }] [[0, 1]] with
    rf := [((2, bx), src)], co := [(bx, [0])], kicks := [⟨1, [2]⟩] }
theorem litmus_kick : (kicked none).allowed = false ∧ (kicked (some 0)).allowed = true ∧ ({ kicked none with kicks := [⟨1, []⟩] } : Candidate).allowed = false := by decide +kernel
theorem wit_OrderedAccesses_kick : (kicked (some 0)).agent? 0 = some .host ∧ (kicked (some 0)).po 0 1 = true ∧ (kicked (some 0)).stores 0 bx = true ∧ (kicked (some 0)).loads 2 bx = true := by decide +kernel
/-- A FENCE packet whose poll (3) reads the host's counter store (1), and a later packet's store seen by it (R296). -/
def fencePkt (src : Option Nat) : Candidate :=
  { cand [wEv .host bx (relAt .system), { agent := .host, kind := .mark .kick },
          { agent := .queue 0, kind := .access (acqAt .system { plainAcc with rd := true }), engine := true }, { agent := .queue 0, kind := .access { plainAcc with rd := true }, engine := true }] [[1, 0]] with
    rf := [((2, bx), some 0), ((3, bx), src)], co := [(bx, [0])], kicks := [⟨1, [2, 3]⟩], fencePkts := [⟨[2], [3]⟩] }
theorem litmus_fence_packet : (fencePkt none).allowed = false ∧ (fencePkt (some 0)).allowed = true := by decide +kernel
theorem wit_OrderedAccesses_fence_packet : (fencePkt (some 0)).src 2 bx = some (some 0) ∧ (fencePkt (some 0)).stores 0 bx = true ∧ (fencePkt (some 0)).loads 3 bx = true := by decide +kernel
/-- R202, R186, R188, R197, R62: a strong store made twice, a scalar form of one fibre, a scratchpad page of another kind, a posted
atomic of a deterministic grid made at once, and a last read of SLEEP that is no acquire. -/
theorem litmus_single : let twiceStrong : Candidate := { cand [{ wEv (fib 0 0) bx (relAt .device) with nth := 1 }, { wEv (fib 0 0) bx (relAt .device) with nth := 1 }] [[0, 1]] with co := [(bx, [0, 1])] }
    let scalar (m : List Agent) : Candidate := { cand [{ wEv (fib 0 0) bx id with op := some (.st { h1 with sc := true } .b8 false .weak 3 gm), mask := m }] [[0]] with co := [(bx, [0])] }
    let pad (a : Attr) : Candidate := { cand [{ wEv (fib 0 0) (.spad 0 0) (fun x => { x with attr := a }) with op := some (.sts h1 .b8 .weak 3 gm) }] [[0]] with co := [(.spad 0 0, [0])] }
    let posted (det : List Nat) : Candidate :=
      let i : Instr := .atom h1 .add false false true .device 3 (.v 4) gm
      { cand [{ aEv (fib 0 0) bx with op := some i, nth := 3 }, { markEv (fib 0 0) .issue i false with nth := 3 }] [[0, 1]] with
        rf := word.map fun b => ((0, b), none), co := word.map fun b => (b, [0]), det := det, ops := [⟨1, none, none⟩] }
    let sleep (last : AccEv → AccEv) : Candidate :=
      { cand [{ accOf (fib 0 0) (last { plainAcc with rd := true, bytes := word }) with op := some (.sleep h1 gm 3 0) }, wEv (fib 0 0) by_ id] [[0, 1]] with rf := word.map (fun b => ((0, b), none)), co := [(by_, [1])] }
    [twiceStrong.allowed, (scalar []).allowed, (scalar [fib 0 0]).allowed, (pad .uo).allowed, (pad .rc).allowed, (posted [0]).allowed, (posted []).allowed,
      (sleep (strongAt .device)).allowed, (sleep (acqAt .device)).allowed] = [false, false, true, false, true, false, true, false, true] := by decide +kernel
theorem wit_OrderedAccesses_single : let x := mp (relAt .device) (acqAt .device) (fib 1 1) (some 0)
    x.allowed = true ∧ (x.evs.map fun o => (o.engine, o.op.isSome)) = List.replicate 4 (false, true) ∧ (x.acc? 1).map (·.strong) = some true := by decide +kernel
/-- A LAUNCH releases what stands before it to its child grid's events (R68, R196). -/
def launched (src : Option Nat) : Candidate :=
  { cand [wEv (fib 0 0) bx id, markEv (fib 0 0) .issue (.launch h1 gm none) false, rEv (.fibre 1 0 7 0 0) bx id] [[0, 1], [2]] with
    rf := [((2, bx), src)], co := [(bx, [0])], ops := [⟨1, none, some 7⟩] }
theorem litmus_launch : (launched none).allowed = false ∧ (launched (some 0)).allowed = true := by decide +kernel
/-- R192: a FORK lane that stands in no pair, and one whose fibre starts behind it. -/
def forked (fs : List (Nat × Nat)) (src : Option Nat) : Candidate :=
  { cand [wEv (fib 0 0) bx id, markEv (fib 0 0) .fork (.fork h1 0 (.off 0) 0) false, { agent := fib 0 1, kind := .mark .start }, rEv (fib 0 1) bx id] [[0, 1], [2, 3]] with
    rf := [((3, bx), src)], co := [(bx, [0])], forks := fs }
theorem litmus_fork : (forked [] none).allowed = false ∧ (forked [(1, 2)] none).allowed = false ∧ (forked [(1, 2)] (some 0)).allowed = true := by decide +kernel
/-- R195: two fibres meet at a barrier; a round that leaves a mark out is none. -/
def met (rs : List RoundEv) (src : Option Nat) : Candidate :=
  let w : Instr := .barWait h1 2 .allLive
  let m (a : Agent) (k : Mark) (n : Nat) : OrdEvent := { markEv a k w false with nth := n, lane := if a = fib 0 0 then 0 else 1 }
  { cand [wEv (fib 0 0) bx id, m (fib 0 0) .arrive 200, m (fib 0 0) .release 200, m (fib 0 1) .arrive 200, m (fib 0 1) .release 200, { rEv (fib 0 1) bx id with nth := 300 }] [[0, 1, 2], [3, 4, 5]] with
    rf := [((5, bx), src)], co := [(bx, [0])], rounds := rs }
theorem litmus_barrier : (met [] none).allowed = false ∧ (met [⟨[1, 3], [2, 4]⟩] none).allowed = false ∧ (met [⟨[1], [2]⟩, ⟨[3], [4]⟩] none).allowed = true ∧
    (met [⟨[1, 3], [2, 4]⟩] (some 0)).allowed = true := by decide +kernel
/-- R196, R178: an LDT reads what the CPYT of its filling wrote. -/
def tiled (src : Option Nat) : Candidate :=
  let c : Instr := .cpyt h1 7 0 0 none 0
  let l : Instr := .ldtWord h1 3 (.imm 7) (.v 4)
  let eng (k : EvKind) : OrdEvent := { engEv k (some c) with nth := 5 }
  let pw : List Loc := (List.range 4).map padB.add
  { cand [{ markEv (fib 0 0) .issue c true with nth := 5 }, eng (.access { plainAcc with wr := true, bytes := pw }), eng (.mark .ready),
          { markEv (fib 0 1) .ldt l false with nth := 6 }, { accOf (fib 0 1) { plainAcc with rd := true, bytes := pw } with op := some l, nth := 6 }] [[0], [3, 4]] with
    rf := pw.map fun b => ((4, b), src), co := pw.map fun b => (b, [1]), ops := [⟨0, none, none⟩], tiles := [⟨0, some 2, [3], none⟩] }
theorem litmus_tile : (tiled none).allowed = false ∧ (tiled (some 1)).allowed = true ∧ ({ tiled none with tiles := [⟨0, some 2, [], none⟩] } : Candidate).allowed = false := by decide +kernel
/-- R255: a staged store of colony 1 (0), an atomic of its own colony behind it (1) and a load of its own (2): the atomic is
co-before the store, whose bytes the load sees; colony 0 stages nothing. -/
def stagedSt (c : Nat) (src : Option Nat) (co : List Nat) : Candidate :=
  let a : Agent := .fibre c 0 0 c 0
  { cand [accOf a { plainAcc with wr := true, tick := true, bytes := word }, aEv a bx, accOf a { plainAcc with rd := true, bytes := word }] [[0, 1, 2]] with
    rf := word.flatMap fun b => [((1, b), if co = [0, 1] then some 0 else none), ((2, b), src)], co := word.map fun b => (b, co), det := [0], staged := [0] }
theorem litmus_staged : (stagedSt 1 (some 0) [1, 0]).allowed = true ∧ (stagedSt 1 (some 1) [1, 0]).allowed = false ∧ (stagedSt 1 (some 1) [0, 1]).allowed = true ∧
    (stagedSt 0 (some 0) [1, 0]).allowed = false ∧ ({ stagedSt 0 (some 0) [1, 0] with staged := [] } : Candidate).allowed = false ∧ (stagedSt 1 (some 0) [1, 0]).bypasses 0 2 = false := by decide +kernel
/-- R197, R252: a posted addition of a deterministic grid is made once, at the flush before its completion (2). -/
def flushed (fl : List Nat) (ev : OrdEvent) : Candidate :=
  let i : Instr := .atom h1 .fadd false false true .device 0 (.v 4) gm
  { cand [{ markEv (fib 0 0) .issue i false with nth := 3 }, { aEv (fib 0 0) bx with op := some i, nth := 3, engine := true }, engEv (.mark .completion) none, ev] [[0]] with
    rf := word.flatMap fun b => ((1, b), none) :: (if ev.kind = .park then [] else [((3, b), some 1)]), co := word.map fun b => (b, if ev.kind = .park then [1] else [1, 3]), det := [0], ops := [⟨0, none, none⟩], grids := [⟨0, 2, [], fl⟩] }
theorem litmus_flush : (flushed [1] gone).allowed = true ∧ (flushed [] gone).allowed = false ∧
    (flushed [1, 3] { aEv (fib 0 0) bx with op := some (.atom h1 .fadd false false true .device 0 (.v 4) gm), nth := 3, engine := true }).allowed = false := by decide +kernel
theorem wit_OrderedAccesses_sync : (forked [(1, 2)] (some 0)).isMark 1 .fork = true ∧ (met [⟨[1, 3], [2, 4]⟩] (some 0)).isMark 4 .release = true ∧ (copied (some 1) 0).covers ⟨0, some 2, none⟩ 3 = true ∧
    (let x := stagedSt 1 (some 0) [1, 0]; x.staged = [0] ∧ x.stores 0 bx = true ∧ x.loads 2 bx = true ∧ x.po 0 2 = true) := by decide +kernel

-- images (24_assembler_reference)

/-- `.tblk e4m3, 127, 1.0` emits 64 bytes of 0x38 and the header 0x00007F04; 1/10 rounds once, to code 0x1D, the nearest of
13/128 and 12/128; a value that overflows, an odd place and a selector above 255 are refused. -/
theorem test_tblk : typedBlock 0x50040 .e4m3 127 none (List.replicate 64 (1, 1)) = some (List.replicate 64 0x38, 0x00007F04) ∧ typedBlock 0x50040 .e4m3 127 none (List.replicate 64 (1000, 1)) = none ∧
    (typedBlock 0 .e4m3 127 none (List.replicate 64 (1, 10))).map (·.1) = some (List.replicate 64 0x1D) ∧ typedBlock 0x50020 .e4m3 127 none (List.replicate 64 (1, 1)) = none ∧
    typedBlock 0 .e2m1 127 (some 256) (List.replicate 128 (1, 1)) = none ∧
    typedInts 0 .int4 127 (List.replicate 128 (-8)) = some (List.replicate 64 0x88, 0x00007F09) ∧ typedInts 0 .int4 127 (List.replicate 128 8) = none := by decide +kernel
/-- `.launch quant, 1, 128, param` emits the bytes of R318. -/
theorem test_launch_bytes : let r : LaunchRec := { entry := 0x08000000, colonies := 1, fibres := 128, cores := 1, win := 256, spad := 0x240, heat := 1, dn := false, arg := 0x10000000, done := 0 }
    launchBytes 0x60000 r = some ([0, 0, 0, 8, 0, 0, 0, 0, 1, 0, 0, 0, 0x80, 0, 1, 8, 0x40, 2, 0, 0, 1, 0, 0, 0, 0, 0, 0, 0x10, 0, 0, 0, 0] ++ List.replicate 32 0) ∧ launchBytes 0x60020 r = none := by decide +kernel
/-- The placing of fragment 3 (03_encoding_and_opcode_map): two NOPs before the FMUL at 0x1020 and before the FADD at 0x1040. -/
theorem test_place : placeWords 0x1000 [[1, 1, 1], [2, 2, 2], [3, 3, 3], [4, 4, 4], [5, 5, 5], [6]] =
    [1, 1, 1, 2, 2, 2, 0x38, 0x38, 3, 3, 3, 4, 4, 4, 0x38, 0x38, 5, 5, 5, 6] := by decide
/-- R310: TREL of a literal tile takes 32 bits; a form of one length without a place for a literal refuses it. -/
theorem test_length : [chosenLen [0, 1] true true true false 0, chosenLen [1, 2] true false false false 4, chosenLen [1, 2] true false false false 0, chosenLen [1] false false true false 0] =
    [some 0, some 2, some 1, none] := by decide
theorem test_table_bytes : let v : VEntry := { addr := 0x40000, ttag := 1, etag := 2, qtag := 3, nsamp := 4, eflags := 1, stamp := 5, win := 8, zero := true }
    ((vtabBytes 0x50000 1 0 0xFF 5 0 [v]).map fun b => (b.length, b.take 9)) = some (96, [1, 1, 0, 0xFF, 5, 0, 0, 0, 0]) ∧ vtabBytes 0x50000 2 0 0xFF 5 0 [] = none ∧
    vtabBytes 0x50020 1 0 0xFF 5 0 [v] = none ∧ vtabBytes 0x50000 257 0 0xFF 5 0 (List.replicate 257 v) = none := by decide +kernel
/-- A segment and a typed block into a typed page of queue 0, whose tables map the space onto itself; an address that no
leaf maps, and one above the 52-bit space, are refused. -/
theorem test_load_image : (((m0.wrNat 0x20000 8 0x273).loadImage 0 ⟨[(0x50000, [7, 8])], [(0x50040, List.replicate 64 0x38, 0x00007F04)]⟩).map fun t => [t.rdNat 0x50000 2, t.rdNat 0x5007F 1, (t.rdHdr 0x50040).toNat]) =
    some [0x0807, 0x38, 0x00007F04] ∧ (∀ a ∈ [0x10000000000, 0x10000000050000], (m0.loadImage 0 ⟨[(a, [7])], []⟩).isNone = true) := by decide +kernel

/-- R293: a tail beyond a ring made smaller in DISABLED counts modulo 2N. -/
theorem test_kick_shrunk : [28, 50].map (fun w => (((m0.onQueue 0 fun q => { q with tail := 40, head := 40, logN := 4 }).kick 0 w).queue 0).tail) = [40, 18] := by decide +kernel

-- hypotheses that can be met: further clauses, by statement

/-- SavedSwarmReadsBack: a swarm with two families, a member at a barrier and one still to be dispatched, frames and a
suspended lease. -/
def mSaved : State := (mVc (.bar 3) (.undispatched 1)).onSlot 0 0 fun x =>
  { x with fams := x.fams ++ [{ id := 9, outer := 1, kind := .branch, ent := some 1 }], lease := ⟨some 7, none⟩, members := x.members ++ x.members.map fun m => { m with id := 20 + m.id, fam := 9, st := .sleep 5 [], left := some 3 } }
theorem wit_SavedSwarm_divided : let x := (mSaved.slot? 0 0).getD handlerSlot
    (∀ e ∈ x.lanes, ∀ f ∈ e.2.frames, f.vtb < 2 ^ 32 ∧ f.veb < 2 ^ 32 ∧ f.vql < 2 ^ 16 ∧ f.entry < 16 ∧ f.tier < 4 ∧ f.tchg < 2 ^ 32 ∧ f.echg < 2 ^ 32 ∧ f.report = some 9) ∧
    (x.lanes.map fun e => e.2.frames.length) = [1, 1, 1, 1] ∧ (x.fams.map (·.id)).Nodup ∧ (∀ f ∈ x.fams, f.id ≠ 0) ∧ x.fams.map (·.kind) = [.vcall 1 0x30010, .branch] ∧
    x.members.map (·.st) = [.bar 3, .undispatched 1, .sleep 5 [], .sleep 5 []] ∧ x.members.map (·.left) = [none, none, some 3, some 3] ∧ x.lease = ⟨some 7, none⟩ ∧
    (mSaved.colony? 0 0).map (·.bars.length) = some 16 := by decide +kernel

/-- CommonTraps: a scalar pair that ends beyond s511, and the handler's window. -/
theorem wit_CommonTraps_scalar : (m4.env h1).isSome = true ∧ (∃ r ∈ List.range' (511#9).toNat 2, 512 ≤ r) ∧ (∀ r ∈ (memUses false gm).rv ++ [63], r < (envOf h1 mh).x.win) ∧
    ∀ r ∈ [(8#9).toNat, (8#9).toNat + 1], r < 512 := by decide +kernel

/-- ReconvergenceAndCounterWaits: an MCHK owed, for a count that covers it and one that does not. -/
def mOwes (after : Nat) : State := (mCount.onSlot 0 0 fun x => { x with due := [⟨1, 1, 0x30000, after⟩] })
theorem wit_CounterWaits_owed : issuesB h1 {} .anywhere (mOwes 2) = true ∧ ((mOwes 2).slot? 0 0).map (fun x => x.due.map fun d => (d.covers .mtx 2, d.covers .mtx 3, d.covers .copy 0)) =
    some [(true, false, false)] := by decide +kernel

/-- StatusRegisterReads: in the handler, with the swarm under service, and a late register. -/
theorem wit_StatusReads_handler : issuesB h2 { wv := [63], ws := [] } .anywhere mh = true ∧ (envOf h2 mh).n = 64 ∧ (mh.subject 0 64).map (fun y => (y.grid, y.col)) = some (0, 0) := by decide +kernel
theorem wit_StatusReads_late : issuesB h2 { wv := [255], ws := [], late := true } .anywhere m4 = true ∧ [0x030, 0x031, 0x032, 0x020].map csrLate = [true, true, true, false] := by decide +kernel
/-- StatusRegisterWrites: MONSEL in the handler, a legal selection and another. -/
def mhVal (w : Word) : State := mh.onCore 0 fun k => { k with handler := { k.handler with slot := { k.handler.slot with sregs := [(5, pureImg w)] } } }
def monView (w : Word) : Bool × Nat × Nat :=
  (issuesB h2 { rv := useV 1 (.s 5), rs := useS 1 (.s 5) } .anywhere (mhVal w), (envOf h2 (mhVal w)).n, ((envOf h2 (mhVal w)).pay (lowest (envOf h2 (mhVal w)).act) (.s 5)).toNat)
theorem wit_StatusWrites_monitor : monView 0x21 = (true, 64, 0x21) ∧ monView 6 = (true, 64, 6) := by decide +kernel

/-- HandlerMaintenance: SAVEC's park with the swarm under service drained and not, with a bad register, and as the last
of its colony. -/
def mSavec (f : Slot → Slot) (mem : Option Nat) : State :=
  (on f).onCore 0 fun k => { k with handler := { k.handler with slot := { k.handler.slot.single 0x40004 (.savec 0x100000) 0 with fams := [] }, service := some { pend with mem := mem } } }
theorem wit_HandlerMaintenance_savec : (((mSavec id (some 1)).core 0).handler.slot.mem? 0).map (·.st) = some (.savec 0x100000) ∧ ((mSavec id (some 1)).core 0).handler.saved = false ∧
    ((mSavec id (some 1)).slot? 0 0).map (fun x => ((mSavec id (some 1)).savable 0 x, x.badRegs, x.due, (mSavec id (some 1)).lastSave 0 x { pend with mem := some 1 })) = some (true, [], [], false) ∧
    ((mSavec (fun x => { x with posts := 1 }) none).slot? 0 0).map ((mSavec (fun x => { x with posts := 1 }) none).savable 0) = some false ∧
    ((mSavec (fun x => { x with badRegs := [(.v 0 5, 1)] }) none).slot? 0 0).map (fun x => (x.badRegs.length, (mSavec (fun x => { x with badRegs := [(.v 0 5, 1)] }) none).savable 0 x)) = some (1, true) ∧
    ((mSavec id none).slot? 0 0).map (fun x => ((mSavec id none).lastSave 0 x { pend with mem := none }, ((mSavec id none).core 0).badAlloc x.grid x.col)) = some (true, false) := by decide +kernel
def mSavecDir : State := ((mSavec id none).onQueue 0 fun x => { x with sdir := 0x90000 }).wrArea 0x90000 24 (dirFields 0x200000 (0, ⟨2, 0, 0, 0, 0, coreRecLen 0x100000⟩))
theorem wit_HandlerMaintenance_savec_record : ∀ x, (mSavecDir.saveSwarm 0x100000 x).dirAddr 0 2 0 0 0 0 = some 0x200000 :=
  fun _ => State.dirAddr_saveSwarm (by decide +kernel) (by decide +kernel)
/-- RSTC's park: a legal area of colony 0, one of another format, and a colony that waits for its core record. -/
def mRstc (fmt : Nat) (r : List (Nat × Nat)) : State :=
  (((m0.wrNat 0x100000 4 fmt).wrNat 0x100004 1 8).wrNat 0x100005 1 1).onCore 0 fun k =>
    { k with restoring := r, handler := { k.handler with slot := k.handler.slot.single 0x40004 (.rstc 0x100000) 0, service := some { pend with mem := none }, saved := true } }
theorem wit_HandlerMaintenance_rstc : (((mRstc 1 []).core 0).handler.slot.mem? 0).map (·.st) = some (.rstc 0x100000) ∧
    ((mRstc 1 []).grids.find? fun g => g.id % 2 ^ 32 == (mRstc 1 []).rdNat 0x10001C 4 && g.st == .running).map (fun g => (g.id, g.launch.win)) = some (0, 32 * (mRstc 1 []).rdNat 0x100004 1) ∧
    (mRstc 1 []).rdNat 0x100000 4 = 1 ∧ (mRstc 2 []).rdNat 0x100000 4 ≠ 1 ∧ (mRstc 1 []).badRange 0x100000 (swarmLen 256) = false ∧
    ((mRstc 1 []).core 0).allocs.map (fun z => (z.grid, z.col, z.rank)) = [(0, (mRstc 1 []).rdNat 0x100018 4, (mRstc 1 []).rdNat 0x100020 1)] ∧
    ((mRstc 1 []).core 0).restoring = [] ∧ ((mRstc 1 [(0, 0)]).core 0).restoring = [(0, 0)] := by decide +kernel
theorem wit_HandlerMaintenance_rstc_reserved : (mRstc 1 []).reservedOk 0x100000 swarmReserved = true := State.reservedOk_of (by decide +kernel)

/-- VcallEffects: the replay of a VSEL group stands in the family its VCALL formed. -/
theorem wit_Vcall_again : let s := (mTab 4 []).onSlot 0 0 fun x => { x with fams := [{ id := 1, outer := 0, kind := .vcall 1 0x30010, ent := none }], members := x.members.map fun m => { m with fam := 1 } }
    ((s.slot? 0 0).bind fun x => x.fam? (envOf h3 s).m.fam).map (·.kind) = some (.vcall (((envOf h3 s).x.fibre 0).frames.length + 1) ((envOf h3 s).m.pc + 16)) ∧ tableOf s = some (2, none, none, none) := by
  decide +kernel
/-- VariantProgress: what is outstanding holds the merge. -/
theorem wit_Merge_waits : ((mMerge.onSlot 0 0 fun x => { x with late := [lateTo (.s 1)] }).slot? 0 0).map (·.drained) = some false := by decide +kernel
/-- TagUpdates: the budget has room for the 72 bytes, or not. -/
theorem wit_TagUpdates_budget : ((mTag.onQueue 0 fun x => { x with vbw := 4096, vbwUsed := 4024 }).queue 0).vbwUsed + 72 ≤ 4096 ∧ ¬((mTag.onQueue 0 fun x => { x with vbw := 4096, vbwUsed := 4025 }).queue 0).vbwUsed + 72 ≤ 4096 ∧
    (Loc.phys 0x50000).inVault = true ∧ (mTag.queue 0).asks = [] ∧ tagReq.toll = {} ∧ 0x50000 % 64 = 0 ∧ 0x50060 % 32 = 0 := by decide +kernel

/-- AccessChecksInOrder: the core's TLB, the cluster's, the walk to a leaf, to a tracked leaf and to none. -/
def nearOf (s : State) (va : Nat) : Bool × Bool × Option Bool :=
  (((s.core 0).tlb.find? (·.hit 0 va)).isSome, ((lget [] s.clTlbs 0).find? (·.hit 0 va)).isSome, match walk s 0 va 4 (s.queue 0).root with | .leaf _ _ t => some t | _ => none)
def mTracked : State := m4.wrNat 0x20000 8 0x473
theorem wit_AccessChecks_translate : [nearOf (mSleep 9) 0x40000, nearOf { m4 with clTlbs := [(0, [tlbE])] } 0x40000, nearOf m4 0x40000, nearOf mTracked 0x40000, nearOf m4 0x400000000] =
    [(true, false, some false), (false, true, some false), (false, false, some false), (false, false, some true), (false, false, none)] ∧ (0x40000 % 65536 + 8 ≤ 65536) ∧
    mTracked.setCore 0 (mTracked.core 0) = mTracked := by decide +kernel
/-- Lane 0 is mapped, and the others lie beyond the one leaf. -/
def mSplit : State := on fun x =>
  { four x with sregs := [(6, pureImg 0xFFFFFFC0), (7, pureImg 3)], lanes := (four x).lanes.map fun e => (e.1, { e.2 with regs := [(1, pureImg (BitVec.ofNat 32 (64 * e.1)))] }) }
def splitOf (s : State) (acc : Nat) : Option (List (List Nat) × Bool) :=
  match s.issuing.check (envOf h1 s) (rq false acc 4 1) ((envOf h1 s).accs false false gm 4) with
  | .ok t ps lv (some f) => some ([ps.map (·.1), lv, [f.acc, f.mask.toNat, f.addr.toNat]], (t.readFault ((envOf h1 s).located false gm ps)).isNone && t.allowedRange 0 ((t.queue 0).recAddr) 64 .write)
  | _ => none
theorem wit_AccessChecks_split : splitOf mSplit 1 = some ([[0], [], [1, 14, 0x400000000]], true) ∧ splitOf mSplit 2 = some ([[0], [], [2, 14, 0x400000000]], true) ∧
    splitOf (mSplit.wrNat 0x20000 8 0x473) 2 = some ([[0], [0x20000], [2, 14, 0x400000000]], true) := by decide +kernel
theorem wit_AccessChecks_mayIssue : issuesB h1 ((memUses false gm).and { wv := [3], late := true }) .anywhere mSplit = true ∧
    (mSplit.queue 0).fq = 0 ∧ (mSplit.slot? 0 0).map (fun x => x.members.all fun k => decide (k.id ≤ x.nextId)) = some true := by decide +kernel

/-- StoreResults: staging space that is used up, and space that is left. -/
def mStage (n : Nat) : State := { (mDet.onSlot 0 0 fun x => { x with col := 3 }) with staging := n }
theorem wit_Stores_full : issuesB h1 ((memUses false gm).and { rv := [2], rs := [] }) .anywhere (mStage 15) = true ∧ (mStage 15).stages (envOf h1 (mStage 15)) true = true ∧
    (mStage 15).staging < (mStage 15).stagedBytes + 4 * (lanesOf (envOf h1 (mStage 15)).act).length ∧ ¬(mStage 16).staging < (mStage 16).stagedBytes + 4 * (lanesOf (envOf h1 (mStage 16)).act).length ∧
    (match (mStage 16).issuing.check (envOf h1 (mStage 16)) (rq false 2 4 1) ((envOf h1 (mStage 16)).accs false false gm 4) with | .ok _ ps [] none => ps.length == 4 | _ => false) = true := by decide +kernel
/-- A store through a tracked page counts in its entry. -/
theorem wit_Stores_tracked : (match ((mAdr fun l => 0x40000 + 4 * l).wrNat 0x20000 8 0x473).issuing.check (envOf h1 (mAdr fun l => 0x40000 + 4 * l)) (rq false 2 4 1) ((envOf h1 (mAdr fun l => 0x40000 + 4 * l)).accs false false gm 4) with
    | .ok _ ps lv none => lv == [0x20000] && ps.length == 4 | _ => false) = true := by decide +kernel

/-- MatrixResults: an operation behind a failure that is owed. -/
theorem wit_MatrixResults_owed : (((mMat 2).onSlot 0 0 fun x => { x with due := [⟨1, 1, 0x30000, 0⟩] }).slot? 0 0).map (fun x => (x.mtx.length, x.due.any (·.covers .mtx 0))) = some (2, true) := by decide +kernel

/-- ParksEndAndResultsReturn: a slice in its clock switch, staging parks, and an MCHK that a WAITC covers. -/
def mFrozen (f : Option Nat) : State := mLate.onCore 0 fun k => { k with power := { k.power with slices := k.power.slices.set 0 { k.power.slice 0 with frozen := f } } }
theorem wit_LateReturn_frozen : (((mFrozen (some 0)).core 0).power.slice 0).isFrozen 0 = true ∧ (((mFrozen (some 1)).core 0).power.slice 0).isFrozen 0 = false ∧
    ((mFrozen (some 0)).slot? 0 0).map (fun x => (x.slice, x.late.length)) = some (0, 1) := by decide +kernel
def mStaging (col n : Nat) : State := { mPark (.redo .staging) (fun x => { x with col := col }) with staging := n }
theorem wit_ParkEnd_staging : ((mStaging 0 0).grid? 0).map (·.ticket) = some 0 ∧ (mStaging 3 1).stagedBytes < (mStaging 3 1).staging ∧ ¬(mStaging 3 0).stagedBytes < (mStaging 3 0).staging ∧
    ((mStaging 3 0).slot? 0 0).map (fun x => (x.members.map (·.st), x.col)) = some ([.redo .staging], 3) := by decide +kernel
theorem wit_ParkEnd_covered : ((mPark (.waitc .mtx 1) fun x => { x with due := [⟨1, 1, 0x30000, 1⟩] }).slot? 0 0).map (fun x => (x.counter .mtx, x.due.map (·.covers .mtx 1))) = some (0, [true]) := by decide +kernel
/-- SlotsFamiliesColonies: a family to be released that owes an MCHK, and a bad register in one of its lanes. -/
def mRcvDue : State := (mRcv [] .rcv).onSlot 0 0 fun x => { x with due := [⟨1, 1, 0x30000, 0⟩], badRegs := [(.v 2 7, 1)] }
theorem wit_FamilyRelease_owed : (mRcvDue.slot? 0 0).map (fun x => (x.due.length, x.drained, (x.fibre? 2).isSome)) = some (1, true, true) ∧
    (mRcvDue.slot? 0 0).map (fun x => x.members.map (·.st)) = some [.rcv, .rcv] ∧ (mRcvDue.slot? 0 0).map (·.badRegs) = some [(.v 2 7, 1)] := by decide +kernel
/-- BinsAndGrids: a flush that the budget grants, and one that it does not. -/
def mFlush (used : Nat) : State := (mGrid .children [⟨0x40000, 0, 0, 0x3F800000, (0, 0)⟩] [aKid .complete]).onQueue 0 fun q => { q with vbw := 4096, vbwUsed := used }
theorem wit_GridComplete_budget : [4088, 4089].map (fun u => ((mFlush u).grid? 0).map fun g => (g.st, ((mFlush u).queue g.q).grant g.toll ((mFlush u).flushCosts g) |>.2.2)) =
    [some (.children, true), some (.children, false)] := by decide +kernel
/-- EngineEvents: a transfer behind an older one, and one that asked before. -/
def qBudget (asks : List Nat) : Queue := { queueReset with vbw := 4096, vbwUsed := 4090, cby := 4096, asks := asks, nextAsk := 9 }
theorem wit_Grant : ((qBudget [3]).grant {} [(4, 4)]).2.2 = false ∧ ((qBudget [3]).grant { ask := some 3 } [(4, 4)]).2.2 = true ∧ ((qBudget []).grant {} [(8, 8)]).2.2 = false ∧ ((qBudget [3]).grant { paid := 1, ask := some 5 } [(4, 4)]).2.2 = true := by
  decide +kernel
/-- Filler within the density of its first half microsecond, and beyond it. -/
theorem wit_Ramp_density : let s : State := { mRamp 2010 0 with now := 2138 }
    (8 * min (s.now - 2010) 1000 + 4 * min (s.now - 2010 - 1000) 1000 + 2 * min (s.now - 2010 - 2000) 1000 + min (s.now - 2010 - 3000) 1000) / 128 = 8 ∧ (s.core 0).engine.ramp = 0 ∧ (s.core 0).mtxOps = [] := by decide +kernel

/-- ClockRequests: a switch that is due, at its freeze edge and behind it; a cap and a slice that it lowered; the ceiling. -/
def mSwitch (f : Option Nat) (now : Nat) (l : List ClkAct) : State :=
  let s := m0.onCore 0 fun k => { k with power := { k.power with todo := l, slices := k.power.slices.set 3 { k.power.slice 3 with frozen := f, past := [] } } }
  { s with now := now }
theorem wit_ClockSwitch : [((mSwitch none 7 [.switch 3 8, .done]).core 0).power.slice 3, ((mSwitch (some 7) 11 [.switch 3 8, .done]).core 0).power.slice 3, ((mSwitch (some 7) 12 [.switch 3 8, .done]).core 0).power.slice 3].map (·.frozen) =
    [none, some 7, some 7] ∧ ((mSwitch none 7 []).core 0).power.slices.length = 8 := by decide +kernel
def mHot : State := { (m0.onColony 0 0 fun z => { z with forced := true }) with now := 5 }
theorem wit_ClockCap : mHot.cap 0 = 8 ∧ mHot.capTarget 0 3 ≠ ((mHot.core 0).power.slice 3).ratio ∧ mHot.cap 1 = 16 ∧ mHot.capTarget 1 3 = ((mHot.core 1).power.slice 3).ratio ∧
    ((m0.onCore 0 fun k => { k with power := { k.power with slices := k.power.slices.set 3 { k.power.slice 3 with ratio := 8, capped := true } } }).capTarget 0 3) = 16 := by decide +kernel
theorem wit_ClockAgeing : max (120 / 10) ((m0.core 0).power.newG.getD 0) = 12 ∧ (m0.core 0).power.guard < 12 ∧ ((mClk [.rail 74, .ageing 20]).core 0).power.todo = [.rail 74, .ageing 20] := by decide +kernel

/-- SleepFirmwareShootdownRestore: a copy through the page in flight; a page's leaf before and after its migration starts, and
with a write counted; a record of another colony. -/
def mFlight : State := mCopy { cop with pages := [(0, 0x400000000)] } 0
theorem wit_Shootdown : mFlight.shootWaits (.page 0 0x40000) = true ∧ mFlight.shootWaits (.page 1 0x40000) = false ∧ m0.shootWaits .all = false ∧ mFlight.shootWaits .all = true := by decide +kernel
def leafOf (s : State) : Option (Nat × Bool × Nat) := match walk s 0 0x40000 4 (s.queue 0).root with | .leaf t a trk => some (a, trk, t.size) | _ => none
theorem wit_Migration : leafOf m0 = some (0x20000, false, 0x400000000) ∧ leafOf (m0.wrNat 0x20000 8 0x473) = some (0x20000, true, 0x400000000) ∧
    leafOf (m0.wrNat 0x20000 8 0x10000000000473) = some (0x20000, true, 0x400000000) ∧ m0.rdNat 0x20000 8 / 2 ^ 52 = 0 ∧ 0x800000000 % 0x400000000 = 0 ∧ m0.pending = [] := by decide +kernel
theorem wit_Restore_its : let z := 0x100000
    (mRestore.rdNat z 4, mRestore.rdNat (z + 4) 4, mRestore.rdNat (z + 8) 4, mRestore.rdNat (z + 0xC) 1) = (2, 0, 0, 1) ∧
    (mRestore.wrNat (z + 4) 4 5).rdNat (z + 4) 4 ≠ 0 ∧ (mRestore.wrNat (z + 4) 4 5).dirAddr 0 2 1 1 0 0 = some z := by decide +kernel
theorem wit_Restore_reserved : mRestore.reservedOk 0x100000 coreReserved = true := State.reservedOk_of (by decide +kernel)

/-- PlacementAndControlPeriods: a queue held to the next period; a latch that is due and one that is not; notices. -/
theorem wit_Placement_held : ((mPlace false 0 64).onQueue 0 fun x => { x with heldTo := 1 }).nextQueue = none ∧ (mPlace false 0 64).thermal.period = 0 := by decide +kernel
theorem wit_Latch : ¬({ m0 with now := 20000 } : State).now < 20000 * (m0.thermal.period + 1) ∧ ({ m0 with now := 19999 } : State).now < 20000 * (m0.thermal.period + 1) := by decide +kernel

/-- OutsideAccessesAndAttestation: the nonce written into the attestation block. -/
theorem wit_Outside_nonce : ({ m0 with acc := [(.status, [{ base := statusBase / 4096, limit := statusBase / 4096 + 4095, master := none, r := true, w := true, x := false }])] } : State).allowedRange mHost (statusBase + 0x1000) 32 .write = true ∧
    m0.pending = [] := by decide +kernel
/-- BringUpAndTestPort: an image staged in the phases that take one. -/
def anImage : FwImage := { magic := 0, version := 1, length := 0, digest := 0, sig := [], body := [] }
theorem wit_BringUp_staged : State.reset.deed (.stageFirmware anImage) = { State.reset with staged := some anImage } ∧ ({ State.reset with phase := 3, staged := some anImage } : State).phase = 3 ∧
    ((({ State.reset with phase := 4, live := List.range 30 } : State).core 239).power.slices.length = 8) := by decide +kernel

-- hypotheses that can be met: the clauses of the second review, by statement

/-- IssueSelection: a slot whose queue runs; a slot that the handler let go on, in a queue that stops; two that have issued
on the edge. -/
def mResumed : State := (on fun x => { x with resumed := true }).onQueue 0 fun q => { q with st := .stopping }
theorem wit_IssueSelection_slot : ∀ s ∈ [m0, mResumed], (s.slot? 0 0).map (fun x => (x.slice, x.stopped, (x.members.any fun m => m.st == .ready && m.mask != 0),
      (s.queue (s.queueOf x.grid)).st == .running || x.resumed)) = some (0, false, true, true) ∧
    ((s.core 0).power.slice 0).issuedAt s.now = [] ∧ ((s.core 0).power.slice 0).isFrozen s.now = false ∧ (s.select 0 0).isSome = true := by decide +kernel
/-- StepRunsTheDecodedInstruction: the member that issued has gone on, and parks to execute again (R269). -/
theorem wit_StepRuns_counted : m0.cur = some ⟨0, 0, 1⟩ ∧ (m0.slot? 0 0).map (fun x => (x.members.map (fun m => (m.id, m.pc)), x.slice)) = some ([(1, 0x30000)], 0) ∧
    ((on fun x => x.onMem 1 fun m => { m with pc := 0x30004 }).slot? 0 0).map (fun x => x.members.map fun m => (m.pc, m.mask)) = some [(0x30004, 1)] ∧
    ((mPark (.redo .bin) id).slot? 0 0).map (fun x => x.members.map fun m => (m.pc, m.st)) = some [(0x30000, .redo .bin)] ∧ (m0.core 0).power.slices.length = 8 := by decide +kernel
/-- StepRunsTheDecodedInstruction, FetchTraps: nothing is due before the first entry of the agenda; and a control period that
ends on the way. -/
theorem wit_StepRuns_free : m0.free ⟨0, .issue 0 0⟩ ∧ m0.free ⟨3, .issue 0 0⟩ ∧ m0.free ⟨3, .ev (.sliceClockSwitch 0 0)⟩ :=
  ⟨⟨by decide +kernel, by decide +kernel⟩, ⟨by decide +kernel, by decide +kernel⟩, ⟨by decide +kernel, by decide +kernel⟩⟩
def mLatch : State := { m0 with agenda := [⟨50000, .issue 0 0⟩] }
theorem wit_StepRuns_latch : mLatch.agenda = [⟨50000, .issue 0 0⟩] ∧ mLatch.isOff = false ∧ mLatch.now < mLatch.periodEnd ∧ mLatch.periodEnd ≤ mLatch.now + 50000 ∧
    (mLatch.cores.all fun e => e.2.power.slices.all fun y => y.frozen.isNone) = true := by decide +kernel

def after (o : Out) : Option State := match o with | .next t => some t | _ => none
/-- GuardFalseChangesNothing, EnergyMetered: one instruction goes on, in its colony, with an X_e that its fibre stands in. -/
def mEnergy : State := on fun x =>
  { x with lanes := [(0, { fibreReset with fid := 0, frames := [aFrame 2] })], xs := [{ id := 2, entry := 1, table := 0x50000, start := some 0, before := 0, energy := 0, share := 0 }] }
theorem wit_EnergyMetered : (mEnergy.env h1).isSome = true ∧ (envOf h1 mEnergy).n ≠ 64 ∧ (mEnergy.core 0).fillersDue mEnergy.now = 0 ∧ (envOf h1 mEnergy).act = 1 ∧
    (mEnergy.slot? 0 0).map (fun y => (y.xs.map (·.id), (mEnergy.colony? y.grid y.col).isSome)) = some ([2], true) ∧
    isNext (exec (.mov h1 9 (.v 5)) mEnergy) = true ∧ (after (exec (.mov h1 9 (.v 5)) mEnergy)).map (fun t => (t.slot? 0 0).map fun z => z.members.map fun m => (m.id, m.mask)) =
      some (some [(1, 1)]) := by decide +kernel

/-- SpecialFunctionResults: a general argument, one that is to be reduced, a power of two. -/
theorem wit_Special_arguments : (f32 (pureImg 0x3FC00000) = .fin false 0xC00000 (-23) ∧ f32 (pureImg 0x48000000) = .fin false 0x800000 (-6) ∧ f32 (pureImg 0x3F800000) = .fin false 0x800000 (-23)) := by
  decide +kernel
/-- PackAndUnpack: no header malformed, and one of another format; a block of numbers and one with a NaN. -/
def mBlk2 : State := on fun x => (four x).onFibre 1 fun f => f.setV 20 (pureImg (mkHdr (fmtNum .e4m3) 127 0 false))
theorem wit_Unpack_other : Issues h1 { rv := List.range' 4 17, wv := List.range' 32 (elems .fp16), late := true } .anywhere mBlk2 (envOf h1 mBlk2) := issues_of (by decide +kernel)
theorem wit_Unpack_other_headers : (∀ l, (envOf h1 mBlk2).act.getLsbD l = true → badHdr (pay ((envOf h1 mBlk2).x.v l 20)) = false) ∧ (envOf h1 mBlk2).act.getLsbD 1 = true ∧
    hdrFmt (pay ((envOf h1 mBlk2).x.v 1 20)) ≠ 0 ∧ hdrFmt (pay ((envOf h1 mBlk2).x.v 1 20)) ≠ fmtNum .fp16 ∧ (envOf h1 mBlk2).n ≠ 64 := by
  refine ⟨fun l h => ?_, by decide +kernel⟩
  have : ∀ l < 64, (envOf h1 mBlk2).act.getLsbD l = true → badHdr (pay ((envOf h1 mBlk2).x.v l 20)) = false := by decide +kernel
  exact this l (BitVec.lt_of_getLsbD h) h

/-- HandlerMaintenance: the colony's last slot with an uncorrectable word in its scratchpad, without a record that it may
write, and with one; and an area with an uncorrectable word. -/
def mLastBad : State := (mSavec id none).onCore 0 fun k => { k with badSpad := [2] }
theorem wit_HandlerMaintenance_last : (mLastBad.slot? 0 0).map (fun x => (mLastBad.savable 0 x, x.badRegs, mLastBad.lastSave 0 x { pend with mem := none }, (mLastBad.core 0).badAlloc x.grid x.col)) =
      some (true, [], true, true) ∧
    ((mSavec id none).slot? 0 0).map (fun x => (mSavec id none).recordOk 0 x) = some false ∧ (mSavecDir.slot? 0 0).map (fun x => mSavecDir.recordOk 0 x) = some true ∧
    (mSavecDir.core 0).allocs.map (fun y => (y.grid, y.col, y.off, y.size)) = [(0, 0, 0, 0x100000)] ∧ (mSavecDir.core 0).spad = [] ∧ (mSavecDir.core 0).tiles = [] ∧ (mSavecDir.core 0).bins = [] ∧
    (mSavecDir.colony? 0 0).map (·.bars.length) = some 16 := by decide +kernel
theorem wit_HandlerMaintenance_rstc_bad : ({ mRstc 1 [] with badMem := [0x4000] } : State).badRange 0x100000 (swarmLen 256) = true ∧ ({ mRstc 1 [] with badMem := [0x4000] } : State).rdNat 0x100004 1 = 8 := by
  decide +kernel

/-- VcallEffects: lanes 0 and 1 find an entry, 2 and 3 none. -/
def mMix : State := (mTab 9 []).onSlot 0 0 fun x =>
  { x with lanes := x.lanes.map fun e => (e.1, { e.2 with regs := [(8, pureImg (if e.1 < 2 then 9 else 4))] }) }
theorem wit_Vcall_mixed : issuesB h3 (Uses.and {} { parked := true, rv := useV 1 (.v 8) ++ useV 1 (.v 9), rs := [6, 7] ++ useS 1 (.v 8) ++ useS 1 (.v 9) }) .swarm mMix = true ∧
    (tableOf mMix).map (·.1) = some 2 ∧ (envOf h3 mMix).n ≠ 64 ∧ (mMix.slot? 0 0).map (fun x => (x.drained, x.due, x.members.all fun k => decide (k.id < x.nextId))) = some (true, [], true) ∧
    (List.range 4).map (fun l => ((envOf h3 mMix).pay l (.v 8)).toNat) = [9, 9, 4, 4] ∧ (envOf h3 mMix).act = 15 ∧
    (List.range 4).all (fun l => (((mMix.slot? 0 0).getD handlerSlot).fibre? l).isSome && ((envOf h3 mMix).x.fibre l).frames.isEmpty) = true := by decide +kernel

/-- VariantProgress: two fibres with a frame around the one that is popped, whose reports differ; the grid deterministic, or the
table frozen, with room and without. -/
def mPop (det : Bool) (frozen : Byte) : State :=
  let s := on fun x =>
    { x with
      lanes := [(5, { fibreReset with fid := 0, frames := [aFrame 2, aFrame 1] }), (6, { fibreReset with fid := 1, frames := [{ aFrame 2 with report := some 3 }, aFrame 1] })]
      members := x.members.map fun m => { m with st := .vret 2, mask := 3#64 <<< 5 }
      xs := [{ id := 2, entry := 1, table := 0x50000, start := some 0, before := 3, energy := 32, share := 4 }] }
  { (s.wrNat 0x50000 8 0xFFFFFFFFFF000201).wrByte 0x5000C frozen with grids := m0.grids.map fun g => { g with det := det } }
def popReq : TagReq := { q := 0, grid := 0, col := 0, form := 0, seq := 0, table := 0x50000, entry := 1, t := 3, en := 6, qual := none }
theorem wit_VretPop_kept : [(mPop true 0, true, false), (mPop false 0, false, false), (mPop false 1, false, true)].all (fun p =>
      (p.1.slot? 0 0).any (fun x => p.1.detSlot 0 x == p.2.1 && p.1.frozenTable { popReq with grid := x.grid, col := x.col, form := x.form } == p.2.2 && x.lanes.map (·.1) == [5, 6] &&
        (x.lanes.map fun e => e.2.frames.map fun f => (f.x, f.ret, f.report)) == [[(2, 0x30010, some 9), (1, 0x30010, some 9)], [(2, 0x30010, some 3), (1, 0x30010, some 9)]] &&
        x.members.map (fun m => (m.st, m.mask)) == [(.vret 2, 3#64 <<< 5)] && p.1.queueOf x.grid == 0) && p.1.frozen.length == 0) = true := by decide +kernel

/-- TagUpdates: a frozen queue that is full; an update of the same table behind the first; and a grid that completes with two
updates of one entry. -/
theorem wit_TagUpdates_full : 65536 ≤ ({ mTag with frozen := List.replicate 65536 tagReq } : State).frozen.length ∧ ({ mTag with updates := [tagReq, tagReq] } : State).updates[1]? = some tagReq :=
  ⟨Nat.le_of_eq (List.length_replicate ..).symm, rfl⟩
def mKept (frozen : Byte) : State :=
  let s := mTab 9 []
  { s.wrByte 0x5000C frozen with grids := s.grids.map fun g => { g with st := .children, updates := [{ tagReq with seq := 7 }, { tagReq with seq := 5 }] } }
theorem wit_TagUpdates_kept : ([mKept 0, mKept 1].all fun s => (s.grid? 0).any (fun g => g.id == 0 && g.st == .children && g.combs.isEmpty && g.bufs.isEmpty && g.updates.map (·.seq) == [7, 5] &&
      g.updates.all (fun r => r.toll.ask.isNone) && ((s.queue g.q).grant g.toll (s.flushCosts g)).2.2) && s.grids.all fun k => k.parent != some 0) = true ∧
    (mKept 1).frozenTable { tagReq with seq := 5 } = true ∧ (mKept 1).frozenTable { tagReq with seq := 7 } = true ∧ (mKept 1).frozen.length + 2 ≤ 65536 := by decide +kernel
theorem wit_TagUpdates_entry : (mKept 0).tagAddr 0 0x50000 = some 0x50000 ∧ (mKept 0).tagAddr 0 (0x50000 + 64 + 32 * 1) = some 0x50060 ∧ (mKept 0).rdNat 0x5000C 1 % 2 = 0 ∧
    1 < (mKept 0).rdNat 0x50001 1 ∧ (mKept 0).pending = [] ∧ walk (mKept 0) 0 0x50000 4 ((mKept 0).queue 0).root = walk (mKept 0) 0 0x50060 4 ((mKept 0).queue 0).root ∧
    (match walk (mKept 0) 0 0x50000 4 ((mKept 0).queue 0).root with | .leaf _ _ t => t | _ => false) = false := by decide +kernel
theorem wit_TagUpdates_entry_walk (w : State) (ha : w.acc = (mKept 0).acc) (h : ∀ a, ¬(0x50060 ≤ a ∧ a < 0x50060 + 32) → ¬(0x50000 ≤ a ∧ a < 0x50000 + 64) → w.rdByte a = (mKept 0).rdByte a) :
    ∀ a, a = 0x50000 ∨ a = 0x50000 + 64 + 32 * 1 → walk w 0 a 4 ((mKept 0).queue 0).root = walk (mKept 0) 0 a 4 ((mKept 0).queue 0).root := by
  have hr : ((mKept 0).queue 0).root = 0x10000 := by decide +kernel
  have f1 : (mKept 0).rdNat 0x10000 8 = 0x20001 := by decide +kernel
  have f2 : (mKept 0).rdNat 0x20000 8 = 0x73 := by decide +kernel
  have hm : (mKept 0).acc = mTag.acc := by decide +kernel
  have k : ∀ a ∈ [0x50000, 0x50060], walk w 0 a 4 ((mKept 0).queue 0).root = walk (mKept 0) 0 a 4 ((mKept 0).queue 0).root := fun a ha2 => by
    rw [hr, walk_of ha2 (ha.trans hm) ((State.rdNat_congr fun i hi => h _ (by omega) (by omega)).trans f1) ((State.rdNat_congr fun i hi => h _ (by omega) (by omega)).trans f2), walk_of ha2 hm f1 f2]
  rintro a (rfl | rfl)
  · exact k _ (by decide)
  · exact k _ (by decide)

/-- AccessChecksInOrder: a rank whose core does not hold the colony yet; and a walk whose table entry the queue may not read. -/
def mNoAlloc : State := (mAdr fun l => 0x100000 * (l % 2)).onColony 0 0 fun z => { z with cores := [0, 1] }
theorem wit_AccessChecks_held : trapOf (chk mNoAlloc (rq true 1 1 1) true sm 4) = some (7, 2, 10#64) ∧ (mNoAlloc.colony? 0 0).map (·.cores.length) = some 2 := by decide +kernel
def mShut : State := { m4 with acc := m4.acc.map fun e => (e.1, [{ base := 0, limit := 0, master := none, r := true, w := true, x := true }]) }
theorem wit_AccessChecks_shut : (match walk mShut 0 0x40000 4 (mShut.queue 0).root with | .shut => true | _ => false) = true ∧ mShut.cores.length = 1 := by decide +kernel

/-- MatrixResults: on an edge, in a clock switch, and with the FIFO full, of operations not yet performed; and one that stands
at the head of the FIFO. -/
def mMatWay (r : Option Residue) (f : Option Nat) (l : List (Nat × Nat)) : State :=
  ((mMat 1).onSlot 0 0 fun x => { x with mtx := x.mtx.map fun o => { o with ret := r }, late := [{ lateTo (.s 1) with seq := 99 }] }).onCore 0 fun k =>
    { k with power := { k.power with slices := k.power.slices.set 0 { k.power.slice 0 with frozen := f, inbox := l } } }
def full16 : List (Nat × Nat) := List.replicate 16 (0, 99)
theorem wit_MatrixResults_way : (∀ e ∈ [(mMatWay none none [], none, []), (mMatWay none (some 0) [], none, []), (mMatWay none none full16, none, full16), (mMatWay (some .replay) none [(0, aMtx.seq)], some Residue.replay, [(0, aMtx.seq)])],
      ((e.1.core 0).power.slice 0).edge 0 = true ∧ ((e.1.core 0).power.slice 0).lastIn = none ∧ (e.1.core 0).inbound 0 = e.2.2 ∧ (e.1.slot? 0 0).map (·.slice) = some 0 ∧ (e.1.slot? 0 0).map (fun x => x.mtx.map (·.ret)) = some [e.2.1]) ∧
    [none, some 0].map (fun f => ((mMatWay none f []).core 0 |>.power.slice 0).isFrozen 0) = [false, true] ∧
    ((mMatWay none (some 0) []).core 0).power.slices.length = 8 ∧ ((mMatWay none (some 0) []).core 0).mayPerform 0 0 aMtx = true := by decide +kernel

/-- ParksEndAndResultsReturn: the inbound FIFO of a slice in its clock switch, empty, holding the result and full; after the
switch with the result at its head and with another there; FENCE with a store of its fibres staged; an MCHK owed at RCV and
at a VCALL. -/
def mInbox (f : Option Nat) (l : List (Nat × Nat)) : State := mLate.onCore 0 fun k => { k with power := { k.power with slices := k.power.slices.set 0 { k.power.slice 0 with frozen := f, inbox := l } } }
theorem wit_LateReturn_fifo : [mInbox (some 0) [], mInbox (some 0) [(0, 1)], mInbox (some 0) (List.replicate 16 (0, 1)), mInbox none [(0, 1)]].map (fun s => (((s.core 0).power.slice 0).isFrozen 0, (s.core 0).inbound 0)) =
      [(true, []), (true, [(0, 1)]), (true, List.replicate 16 (0, 1)), (false, [(0, 1)])] ∧ ((mInbox none [(0, 1)]).core 0).power.slices.length = 8 ∧
    ((mInbox none [(0, 1)]).core 0 |>.power.slice 0).edge 0 = true ∧ ((mInbox none [(0, 1)]).core 0 |>.power.slice 0).lastIn = none := by decide +kernel
theorem wit_LateReturn_head : let s : State := (on fun x => { four x with late := [lateTo (.v 3 5), { lateTo (.v 3 6) with seq := 2 }] }).onCore 0 fun k =>
      { k with power := { k.power with slices := k.power.slices.set 0 { k.power.slice 0 with inbox := [(0, 2), (0, 1)] } } }
    (s.core 0).inbound 0 = [(0, 2), (0, 1)] ∧ (s.slot? 0 0).map (fun x => x.late.map (·.seq)) = some [1, 2] := by decide +kernel
def mFenceStaged (p : Park) (fids : List Nat) : State :=
  let s := mPark p id
  { s with grids := s.grids.map fun g => { g with staged := [{ col := 0, cells := [(0x40000, 7)], fids := fids }] } }
theorem wit_ParkEnd_staged : ∀ p ∈ [Park.fence, .fencr false []], ((mFenceStaged p [2]).slot? 0 0).map (fun x => x.members.map ((mFenceStaged p [2]).hasStaged x)) = some [true] ∧
    ((mFenceStaged p [9]).slot? 0 0).map (fun x => x.members.map ((mFenceStaged p [9]).hasStaged x)) = some [false] := by decide +kernel
theorem wit_ParkEnd_due_other : ∀ p ∈ [Park.rcv, .redo (.drained 5)], ((mPark p fun x => { x with due := [⟨1, 1, 0x30000, 0⟩] }).slot? 0 0).map (fun x => (x.due.length, x.drained, x.members.map (·.st), x.rcvWaits 0)) =
    some (1, true, [p], false) := by decide +kernel

/-- SlotsFamiliesColonies: the colony of the ticket ends, and the next has staged a store. -/
def mTicket : State :=
  let s := mEmpty 0
  { s with grids := s.grids.map fun g => { g with launch := { g.launch with colonies := 2 }, staged := [{ col := 1, cells := [(0x40000, 7), (0x40001, 8)], fids := [2] }] } }
theorem wit_SlotRetire_staged : (mTicket.grid? 0).map (fun g => (g.ended, g.staged.map (fun w => (w.col, w.cells.map (·.1))), g.launch.colonies)) = some ([], [(1, [0x40000, 0x40001])], 2) ∧
    (mTicket.slot? 0 0).map (fun x => (x.lanes.length, x.copies.length, x.posts)) = some (0, 0, 0) ∧ (mTicket.slot? 0 0).map (fun x => (x.mtx.length, x.grid, x.col)) = some (0, 0, 0) ∧
    mTicket.cores.map (fun e => (e.1, e.2.slots.map (·.1))) = [(0, [0])] ∧ (mTicket.core 0).handler.service = none ∧ (mTicket.core 0).waiting = [] ∧ (mTicket.core 0).bins = [] ∧
    (mTicket.colony? 0 0).map (fun z => (z.live, z.saved.length)) = some (0, 0) ∧ target 0x40001 = some .dram := by decide +kernel

/-- BinsAndGrids: the colony's allocation stands on the bin's core, and not; and two atomics kept to the flush. -/
theorem wit_Bins_held : ((mNoAdd false (some 1)).core 0).allocs.map (fun a => (a.grid, a.col)) = [(0, 0)] ∧ ((mNoAdd true none).core 0).bins.map (fun e => (e.1, e.2.fibres.map (·.fid))) = [(0, [none])] ∧
    (((mNoAdd false (some 1)).onCore 0 fun k => { k with allocs := [] }).core 0).allocs = [] := by decide +kernel
def mBufs : State := { m0 with grids := m0.grids.map fun g =>
  { g with st := .children, bufs := [{ col := 1, form := 0, lane := 0, seq := 4, op := .add, w64 := false, addr := 0x40000, val := 5 }, { col := 0, form := 0, lane := 0, seq := 9, op := .exch, w64 := true, addr := 0x40000, val := 6 }] } }
theorem wit_GridComplete_bufs : (mBufs.grid? 0).any (fun g => g.id == 0 && g.st == .children && g.combs.isEmpty && g.updates.isEmpty && g.bufs.map (·.addr) == [0x40000, 0x40000] &&
      ((mBufs.queue g.q).grant g.toll (mBufs.flushCosts g)).2.2) = true ∧ mBufs.pending = [] ∧ target 0x40007 = some .dram ∧ (mBufs.grids.all fun k => k.parent != some 0) = true := by decide +kernel

/-- EngineEvents: filler at the end of the ramp, none asked for, and more than is due. -/
theorem wit_Ramp_ended : ((mRamp 2010 0).core 0).engine.busySince = some 10 ∧ ((mRamp 2010 0).core 0).engine.ramp + 0 = 0 ∧ ({ mRamp 2010 0 with now := 6010 } : State).now = 2010 + 4000 := by decide +kernel

/-- ClockRequests: a number that names no live core; a rail that is to fall while a slice is in its switch; a measurement that
takes effect and wears the cluster out; a switch that begins, ends in its request, and ends outside one. -/
theorem wit_Clock_core : m0.isCore 0 = true ∧ m0.isCore 240 = false ∧ m0.live.length = 30 ∧ m0.live.getD 0 0 = 0 ∧ m0.phase = 5 ∧ ({ m0 with phase := 6 } : State).phase = 6 ∧ (m0.core 0).power.guard < max (100 / 10) ((m0.core 0).power.newG.getD 0) := by decide +kernel
theorem wit_Clock_fall : ((mSwitch (some 7) 9 [.rail 62, .done]).core 0).power.switching = true ∧ ((mSwitch none 9 [.rail 62, .done]).core 0).power.switching = false ∧
    ((mSwitch none 9 [.rail 62, .done]).core 0).power.vset = 75 ∧ ((mClk [.rail 75, .ageing 20]).core 0).power.switching = false ∧ 85 - 20 / 2 < 75 + 20 := by decide +kernel
def mGoal (f : Option Nat) (now : Nat) (l : List ClkAct) (ratio goal want : Nat) : State :=
  let s := mSwitch f now l
  s.onCore 0 fun k => { k with power := { k.power with slices := k.power.slices.set 3 { k.power.slice 3 with ratio := ratio, goal := goal, want := want } } }
theorem wit_Clock_switch : [mGoal (some 7) 12 [.switch 3 8, .done] 16 8 16, mGoal (some 7) 12 [] 16 8 16, mGoal (some 7) 12 [.rail 62, .done] 8 16 16].map (fun s =>
      (((s.core 0).power.slice 3).frozen, ((s.core 0).power.slice 3).goal, (s.core 0).power.todo)) =
      [(some 7, 8, [.switch 3 8, .done]), (some 7, 8, []), (some 7, 16, [.rail 62, .done])] ∧ ((mGoal none 12 [] 16 8 16).core 0).power.slices.length = 8 ∧
    mHot.capTarget 0 3 = 8 ∧ ((mHot.core 0).power.slice 3).frozen = none ∧ (mHot.core 0).power.todo = [] ∧ ((mGoal (some 7) 12 [] 16 8 16).core 0 |>.power.slice 3).coming = 8 := by decide +kernel
theorem wit_Clock_short : let s := mGoal (some 7) 12 [] 8 16 16
    s.vminAt 16 + (s.core 0).power.guard = 75 ∧ s.vminAt ((s.core 0).power.slice 3).coming = 75 := by decide +kernel

/-- SleepFirmwareShootdownRestore: an event of a core that is not live; a page whose entry the management core may write, and
may not; a record that the tables deny the handler. -/
theorem wit_Firmware_core : m0.isCore 0 = true ∧ m0.isCore 240 = false := by decide +kernel
theorem wit_Migration_denied : m0.allowedRange 65 0x20000 8 .write = true ∧ ({ m0 with acc := [(.dram, [{ base := 0, limit := 0xFFFFFF, master := some 0, r := true, w := true, x := true }])] } : State).allowedRange 65 0x20000 8 .write = false := by
  decide +kernel
def mDenied : State := { mRestore with acc := [(.dram, [{ base := 0, limit := 0xF, master := none, r := true, w := true, x := true }])] }
theorem wit_Restore_denied : mDenied.allowedRange 64 0x100000 (coreRecLen (mDenied.rdNat 0x100010 4)) .read = false ∧ (0, 0) ∈ (mDenied.core 1).restoring ∧ mDenied.badMem = [] ∧
    mRestore.allowedRange 64 0x100000 (coreRecLen (mRestore.rdNat 0x100010 4)) .read = true := by decide +kernel
theorem wit_Shootdown_kept : ({ m0 with grids := m0.grids.map fun g => { g with staged := [{ col := 0, cells := [], pages := [(0x40000, 0x10000)] }] } } : State).shootWaits (.page 0 0x40000) = true ∧
    ((mBufs.grids.map fun g => g.bufs.length) = [2]) := by decide +kernel

/-- PlacementAndControlPeriods: periods of a slice, counted; a charge for refreshes; the parks that count as a stall for
memory, and a slice of members READY; a stale notice. -/
def mCounts : State := { (m0.onCore 0 fun k => { k with power := { k.power with slices := k.power.slices.set 0 { k.power.slice 0 with edges := 100, issued := 50, memStall := 25 } } }) with now := 20000 }
theorem wit_Latch_stall : (mCounts.cores.all fun k => k.2.power.newG.isNone) = true ∧ ((mCounts.core 0).power.slices[0]?).map (fun x => (x.edges, x.issued, x.memStall, x.ratio, x.want)) = some (100, 50, 25, 16, 16) ∧
    mCounts.live.length = 30 ∧ mCounts.colonies.length = 1 ∧ (mCounts.colonies.map fun z => (z.grid, z.col)) = [(0, 0)] := by decide +kernel
def mHotVault : State := { mCounts with
  place := { mCounts.place with rw := 3, ht := List.replicate 256 2, ks := 1 }
  thermal := { mCounts.thermal with vaults := [(0, { temp := 960, band := 3, rise := 0 })] } }
theorem wit_Latch_charge : (mHotVault.thermal.vaults.map fun v => (v.1, v.2.band)) = [(0, 3)] ∧ mHotVault.place.rw = 3 ∧ mHotVault.place.ht.getD 0 0 = 2 ∧
    ((mHotVault.core 0).allocs.any fun a => a.grid == 0 && a.col == 0) = true ∧ 20000 * (mHotVault.thermal.period + 1) ≤ mHotVault.now := by decide +kernel
def mIdle (p : Park) (f : Slot → Slot) : State := { mPark p f with now := 9 }
theorem wit_Periods : ([Park.bar 0, .sleep 9 [], .waitc .copy 0, .redo (.tileReady 5), .marker, .ready].all fun p =>
    let s := mIdle p fun x => { x with late := [{ lateTo (.s 1) with load := true }] }
    !s.isOff && (lfind s.cores 0).any (fun k => (k.power.slices[0]?).any fun x => x.frozen.isNone && x.past.isEmpty && x.counted.isNone && x.origin == 0 && x.ratio == 16 && x.edge s.now) &&
    (s.slot? 0 0).any fun x => x.slice == 0 && x.members.map (·.st) == [p]) = true := by decide +kernel
theorem wit_Periods_edge : [7, 9].map (fun n => ((m0.onCore 0 fun k => { k with power := { k.power with slices := k.power.slices.set 0 { k.power.slice 0 with ratio := 8, counted := some 8 } } }).core 0 |>.power.slice 0).edge n) = [false, false] ∧
    ((m0.onCore 0 fun k => { k with power := { k.power with slices := k.power.slices.set 0 { k.power.slice 0 with ratio := 8, counted := some 8 } } }).core 0 |>.power.slice 0).edge 8 = true := by decide +kernel
def mStale (up held stale : BitVec 16) : State := { m0 with thermal := { m0.thermal with peerUp := up, held := held, stale := stale } }
theorem wit_Notices_stale : ((mStale 0x8000 0x8000 0).thermal.stale.getLsbD 15 = false) ∧ (mStale 0x8000 0x8000 0x8000).thermal.stale.getLsbD 15 = true ∧ (mStale 0x8000 0x8000 0).thermal.held.getLsbD 15 = true := by decide

/-- QueueRegistersAndCommands: a queue whose slot the handler let go on, to be resumed. -/
theorem wit_Commands_resumed : ((mResumed.onQueue 0 fun q => { q with st := .preempted }).queue 0).st = .preempted ∧ (mResumed.slot? 0 0).map (fun x => (x.resumed, mResumed.queueOf x.grid)) = some (true, 0) := by
  decide +kernel
/-- PacketEffects: a freeze with an update of its table and of another, and a thaw with one of its and of another frozen. -/
def mMove (op : Byte) (kept : List TagReq) : State :=
  { mTabPkt op 0xFF000201 with updates := [{ tagReq with table := 0x70000 }, { tagReq with table := 0x50000 }], frozen := kept }
theorem wit_Packets_table_moves : [0x70000, 0x50000].map (fun a => (mMove 0 []).tagAddr 0 a) = [some 0x70000, some 0x50000] ∧ ((mMove 0 []).updates.all fun r => r.toll.ask.isNone) = true ∧
    (mMove 0 []).frozen.length + (mMove 0 []).updates.length ≤ 65536 ∧ ((mMove 1 [{ tagReq with home := some 0x70000 }, { tagReq with home := some 0x50000 }]).frozen.map (·.home)) = [some 0x70000, some 0x50000] ∧
    headerOk (readTable ((mMove 1 []).rdBytes 0x70000 64)) = true := by decide +kernel
/-- SIGNAL and its page: OP 1 needs write alone (R283, R296). -/
def mWriteOnly : State := (mAlone (pktSignalBytes 0x70008 [1, 0, 0])).wrNat 0x20000 8 0x63
theorem wit_Packets_signal_write : isOk (mWriteOnly.operand 0 0x70008 8 .write) = true ∧ isOk (mWriteOnly.operand 0 0x70008 8 .read) = false := by decide +kernel
/-- BringUpAndTestPort: EXTEST, and a request in hand at the firmware load. -/
def mExtest : State := { State.reset with jtag := .extest }
theorem wit_BringUp_extest : mExtest.jtag = .extest ∧ ({ mExtest with phase := 4, live := List.range 30, cores := [(0, { (m0.core 0) with power := { (m0.core 0).power with todo := [.rail 80, .done] } })] } : State).phase = 4 ∧
    [ClkAct.rail 80, .done] = [ClkAct.rail 80] ++ [.done] ∧ ClkAct.done ∉ [ClkAct.rail 80] := by decide +kernel

/-- R101: the tie of E4M3's largest magnitude and the one behind it goes to the even code, 448, and is no overflow; beyond it
the result saturates. -/
theorem test_tie_e4m3 : (roundF .e4m3 .na (.fin false 464 0)) = ⟨0x7E, fNX⟩ ∧ (roundF .e4m3 .ne (.fin false 464 0)) = ⟨0x7E, fNX⟩ ∧ (roundF .e4m3 .na (.fin false 465 0)).fl &&& fOF ≠ 0 := by decide +kernel
/-- CopiesAndTiles: LDT.frag of a block whose header is malformed, in one lane. -/
def mTileBad : State := ((mTile 0 .ready 5 0).onCore 0 fun k => { k with spadHdr := [(0x10, 0xFF)] }).onSlot 0 0 fun x => { x with members := x.members.map fun m => { m with mask := 1 } }
theorem wit_TileReaders_header : issuesB h1 { rs := tileUses (.imm 5) ++ useS 1 (.s 10), rv := useV 1 (.s 10), wv := List.range' 239 17, late := true } .anywhere mTileBad = true ∧
    (envOf h1 mTileBad).act = 1#64 <<< 0 ∧ (envOf h1 mTileBad).n ≠ 64 ∧ (envOf h1 mTileBad).index 0 (.s 10) = 0 ∧ mTileBad.rankBase 0 0 0 = some (0, 0) ∧ badHdr (mTileBad.locHdr (.spad 0 0x400)) = true ∧
    (mTileBad.core 0).badSpad = [] := by decide +kernel

end Sys2Proof.Tests
end

section
/-! SUPPORT. Control transfers (R27, R40, R53 to R55): lane masks, the destinations of a member's lanes and their
faults, the groups of lanes by destination, the link pair, and the division of a member. -/

namespace Sys2Proof.Machine

-- lane masks

theorem getLsbD_bitSet (i : Nat) {l : Nat} (hl : l < 64) : (bitSet i).getLsbD l = decide (l = i) := by
  simp only [bitSet, BitVec.getLsbD_shiftLeft, BitVec.getLsbD_one, hl]
  by_cases h : l < i <;> simp [h] <;> omega

theorem getLsbD_maskOf (ls : List Nat) {l : Nat} (hl : l < 64) : (maskOf ls).getLsbD l = decide (l ∈ ls) := by
  induction ls using List.reverseRecOn with
  | nil => simp [maskOf]
  | append_singleton ls i ih =>
    rw [maskOf, List.foldl_append, ← maskOf]
    simp [ih, getLsbD_bitSet i hl]

/-- A guard is judged in the lanes of the member alone (R47). -/
theorem State.env_act_le {s : State} {h : Hdr} {e : Env} (he : s.env h = some e) {l : Nat} (hl : e.act.getLsbD l = true) :
    e.m.mask.getLsbD l = true := by
  obtain ⟨_, _, _, _, hact⟩ := State.env_spec he
  rw [hact, getLsbD_maskOf _ (BitVec.lt_of_getLsbD (hact ▸ hl)), decide_eq_true_eq, List.mem_filter] at hl
  exact mem_lanesOf.1 hl.1

theorem Issues.mask_ne_zero {h : Hdr} {u : Uses} {w : Where} {s : State} {e : Env} (hi : Issues h u w s e) : e.m.mask ≠ 0 := by
  intro h0
  have := State.env_act_le hi.env (lowest_mem hi.some_lane)
  simp [h0] at this

-- destinations

/-- Where a lane goes on: at its target where its guard is true, and else behind the transfer (R53). -/
def Env.goes (e : Env) (h : Hdr) (tgt : Nat → Dword) (l : Nat) : Dword := if e.act.getLsbD l then tgt l else e.m.nextPc h

/-- The lanes of a mask, each with its destination. -/
def aimed (m : Mask) (go : Nat → Dword) : List (Nat × Dword) := (lanesOf m).map fun l => (l, go l)

/-- A destination that is not aligned (R40). -/
def misaligned (a : Dword) : Bool := a.extractLsb' 0 2 != 0
/-- A destination beyond the address space (R40). -/
def tooLarge (a : Dword) : Bool := a.extractLsb' 52 12 != 0

/-- The lanes of a mask whose destinations fail a test. -/
def failing (m : Mask) (go : Nat → Dword) (p : Dword → Bool) : List (Nat × Dword) := (aimed m go).filter fun t => p t.2

/-- The lanes of a mask whose destinations differ from that of its lowest lane (R55). -/
def strays (m : Mask) (go : Nat → Dword) : List (Nat × Dword) := failing m go (· != go (lowest m))

section
variable {m : Mask} {go : Nat → Dword} {p : Dword → Bool}

theorem mem_aimed {t : Nat × Dword} : t ∈ aimed m go ↔ m.getLsbD t.1 = true ∧ t.2 = go t.1 := by
  simp only [aimed, List.mem_map, mem_lanesOf]
  constructor
  · rintro ⟨l, hl, rfl⟩; exact ⟨hl, rfl⟩
  · rintro ⟨hl, ht⟩; exact ⟨t.1, hl, Prod.ext rfl ht.symm⟩

theorem aimed_mem {l : Nat} (hl : m.getLsbD l = true) : (l, go l) ∈ aimed m go := mem_aimed.2 ⟨hl, rfl⟩

theorem mem_failing {t : Nat × Dword} : t ∈ failing m go p ↔ (m.getLsbD t.1 && p (go t.1)) = true ∧ t.2 = go t.1 := by
  rw [failing, List.mem_filter, mem_aimed, Bool.and_eq_true]
  constructor
  · rintro ⟨⟨hl, ht⟩, hp⟩; exact ⟨⟨hl, ht ▸ hp⟩, ht⟩
  · rintro ⟨⟨hl, hp⟩, ht⟩; exact ⟨⟨hl, ht⟩, ht ▸ hp⟩

/-- The mask of a trap names the lanes whose destinations fail. -/
theorem getLsbD_maskOf_failing (p : Dword → Bool) {l : Nat} (hl : l < 64) :
    (maskOf ((failing m go p).map (·.1))).getLsbD l = (m.getLsbD l && p (go l)) := by
  rw [getLsbD_maskOf _ hl, Bool.eq_iff_iff, decide_eq_true_eq, List.mem_map]
  constructor
  · rintro ⟨t, ht, rfl⟩; exact (mem_failing.1 ht).1
  · intro h; exact ⟨(l, go l), mem_failing.2 ⟨h, rfl⟩, rfl⟩

theorem failing_eq_nil : failing m go p = [] ↔ ∀ l, (m.getLsbD l && p (go l)) = false := by
  simp only [List.eq_nil_iff_forall_not_mem, mem_failing, not_and]
  constructor
  · intro h l; rw [← Bool.not_eq_true]; exact fun hl => h (l, go l) hl rfl
  · intro h t ht; simp [h] at ht

/-- The lowest lane that fails comes first. -/
theorem failing_eq_cons {k : Nat} (hk : (m.getLsbD k && p (go k)) = true) (hlow : ∀ l, l < k → (m.getLsbD l && p (go l)) = false) :
    ∃ r, failing m go p = (k, go k) :: r := by
  have hk64 : k < 64 := BitVec.lt_of_getLsbD (Bool.and_eq_true_iff.1 hk).1
  have hfind : (List.range 64).find? (fun l => m.getLsbD l && p (go l)) = some k := by
    rw [List.find?_range_eq_some]
    exact ⟨hk, List.mem_range.2 hk64, fun l hl => by rw [hlow l hl]; rfl⟩
  have hhead : (failing m go p).head? = some (k, go k) := by
    simp only [failing, aimed, lanesOf, List.filter_map, List.filter_filter, List.head?_map, List.head?_filter, Function.comp_def]
    simp only [Bool.and_comm (p _), hfind, Option.map_some]
  exact List.head?_eq_some_iff.1 hhead

theorem head?_aimed (hm : m ≠ 0) : (aimed m go).head? = some (lowest m, go (lowest m)) := by
  have hl := mem_lanesOf.2 (lowest_mem hm)
  unfold aimed lowest at *
  cases hc : lanesOf m with
  | nil => simp [hc] at hl
  | cons a r => rfl

-- faults of destinations (R40, R55)

theorem jumpFault_misaligned {k : Nat} (hk : (m.getLsbD k && misaligned (go k)) = true) (hlow : ∀ l, l < k → (m.getLsbD l && misaligned (go l)) = false) :
    jumpFault (aimed m go) = some { cause := 2, mask := maskOf ((failing m go misaligned).map (·.1)), addr := go k, info := 2 } := by
  obtain ⟨r, hr⟩ := failing_eq_cons hk hlow
  simp only [failing, misaligned] at hr ⊢
  simp only [jumpFault, hr]

theorem jumpFault_tooLarge {k : Nat} (hodd : ∀ l, (m.getLsbD l && misaligned (go l)) = false) (hk : (m.getLsbD k && tooLarge (go k)) = true)
    (hlow : ∀ l, l < k → (m.getLsbD l && tooLarge (go l)) = false) :
    jumpFault (aimed m go) = some { cause := 2, mask := maskOf ((failing m go tooLarge).map (·.1)), addr := go k, info := 3 } := by
  have hnil := failing_eq_nil.2 hodd
  obtain ⟨r, hr⟩ := failing_eq_cons hk hlow
  simp only [failing, misaligned, tooLarge] at hnil hr ⊢
  simp only [jumpFault, hnil, hr]

theorem jumpFault_none (hodd : ∀ l, (m.getLsbD l && misaligned (go l)) = false) (hbig : ∀ l, (m.getLsbD l && tooLarge (go l)) = false) :
    jumpFault (aimed m go) = none := by
  have hnil := failing_eq_nil.2 hodd
  have hnil' := failing_eq_nil.2 hbig
  simp only [failing, misaligned, tooLarge] at hnil hnil'
  simp only [jumpFault, hnil, hnil']

end

-- the groups of lanes by destination (R27)

/-- The groups of a list of lanes with destinations: one per destination, with the lanes that go there. -/
structure Grouped (ts : List (Nat × Dword)) (gs : List (Mask × Dword)) : Prop where
  nodup : (gs.map (·.2)).Nodup
  lanes : ∀ g ∈ gs, ∀ l, g.1.getLsbD l = true ↔ (l, g.2) ∈ ts
  target : ∀ t ∈ ts, ∃ g ∈ gs, g.2 = t.2
  nonempty : ∀ g ∈ gs, ∃ l, (l, g.2) ∈ ts

theorem getLsbD_or_bitSet {m : Mask} {i l : Nat} (hi : i < 64) : (m ||| bitSet i).getLsbD l = true ↔ l = i ∨ m.getLsbD l = true := by
  rw [BitVec.getLsbD_or, Bool.or_eq_true, or_comm]
  refine or_congr_left ?_
  by_cases hl : l < 64
  · rw [getLsbD_bitSet i hl, decide_eq_true_eq]
  · rw [BitVec.getLsbD_of_ge _ _ (by omega)]
    simp only [Bool.false_eq_true, false_iff]
    omega

/-- A lane joins the group of its destination, or opens one. -/
theorem Grouped.cons {r : List (Nat × Dword)} {gs : List (Mask × Dword)} (hg : Grouped r gs) {l : Nat} (t : Dword) (hl : l < 64) (m : Mask)
    (hm : ∀ k, m.getLsbD k = true ↔ (k, t) ∈ r) : Grouped ((l, t) :: r) ((m ||| bitSet l, t) :: gs.filter (·.2 != t)) where
  nodup := by
    rw [List.map_cons, List.nodup_cons]
    refine ⟨?_, hg.nodup.sublist (List.filter_sublist.map _)⟩
    simp
  lanes g hgm k := by
    rw [List.mem_cons, List.mem_filter, bne_iff_ne] at hgm
    rcases hgm with rfl | ⟨hgs, hne⟩
    · rw [getLsbD_or_bitSet hl, hm k]; simp
    · rw [hg.lanes g hgs k]; simp [hne]
  target q hq := by
    by_cases hqt : q.2 = t
    · exact ⟨_, List.mem_cons_self, hqt.symm⟩
    · have hqr : q ∈ r := (List.mem_cons.1 hq).resolve_left fun h => hqt (by rw [h])
      obtain ⟨g, hgs, hgq⟩ := hg.target q hqr
      exact ⟨g, List.mem_cons_of_mem _ (List.mem_filter.2 ⟨hgs, by simpa [hgq] using hqt⟩), hgq⟩
  nonempty g hgm := by
    rw [List.mem_cons, List.mem_filter] at hgm
    rcases hgm with rfl | ⟨hgs, _⟩
    · exact ⟨l, List.mem_cons_self⟩
    · obtain ⟨k, hk⟩ := hg.nonempty g hgs
      exact ⟨k, List.mem_cons_of_mem _ hk⟩

theorem grouped_groups (ts : List (Nat × Dword)) (hts : ∀ t ∈ ts, t.1 < 64) : Grouped ts (groups ts) := by
  induction ts with
  | nil => exact ⟨List.nodup_nil, by simp [groups], by simp, by simp [groups]⟩
  | cons q r ih =>
    obtain ⟨l, t⟩ := q
    have hg := ih fun t ht => hts t (List.mem_cons_of_mem _ ht)
    have hl : l < 64 := hts (l, t) List.mem_cons_self
    rw [groups]
    cases hf : (groups r).find? (·.2 == t) with
    | some g =>
      have hgt : g.2 = t := by simpa using List.find?_some hf
      exact hg.cons t hl g.1 fun k => hgt ▸ hg.lanes g (List.mem_of_find?_eq_some hf) k
    | none =>
      have hne : ∀ g ∈ groups r, g.2 ≠ t := by simpa [List.find?_eq_none] using hf
      have hfresh : ∀ k, (k, t) ∉ r := fun k hk => by
        obtain ⟨g, hgs, hgt⟩ := hg.target _ hk
        exact hne g hgs hgt
      have hopen := hg.cons t hl 0 fun k => by simp [hfresh k]
      rw [show (0 : Mask) ||| bitSet l = bitSet l from BitVec.zero_or, List.filter_eq_self.2 fun g hgs => bne_iff_ne.2 (hne g hgs)] at hopen
      exact hopen

theorem grouped_aimed (m : Mask) (go : Nat → Dword) : Grouped (aimed m go) (groups (aimed m go)) :=
  grouped_groups _ fun _ ht => BitVec.lt_of_getLsbD (mem_aimed.1 ht).1

/-- Lanes with one destination form one group. -/
theorem Grouped.one {ts : List (Nat × Dword)} {gs : List (Mask × Dword)} (hg : Grouped ts gs) (hne : ts ≠ []) {a : Dword} (ha : ∀ t ∈ ts, t.2 = a) :
    ∃ m, gs = [(m, a)] := by
  have hall : ∀ g ∈ gs, g.2 = a := fun g hgs => by
    obtain ⟨l, hl⟩ := hg.nonempty g hgs
    exact ha _ hl
  obtain ⟨t, ht⟩ := List.exists_mem_of_ne_nil _ hne
  obtain ⟨g, hgs, -⟩ := hg.target t ht
  match gs, hg.nodup, hall, hgs with
  | [g'], _, hall, _ => exact ⟨g'.1, by rw [← hall g' List.mem_cons_self]⟩
  | g₁ :: g₂ :: _, hnd, hall, _ =>
    simp [hall g₁ (by simp), hall g₂ (by simp)] at hnd

/-- Lanes with several destinations form several groups. -/
theorem Grouped.length_ne_one {ts : List (Nat × Dword)} {gs : List (Mask × Dword)} (hg : Grouped ts gs) {t q : Nat × Dword} (ht : t ∈ ts) (hq : q ∈ ts)
    (hne : t.2 ≠ q.2) : gs.length ≠ 1 := by
  rw [Ne, List.length_eq_one_iff]
  rintro ⟨g, rfl⟩
  obtain ⟨g₁, h₁, e₁⟩ := hg.target t ht
  obtain ⟨g₂, h₂, e₂⟩ := hg.target q hq
  rw [List.mem_singleton] at h₁ h₂
  exact hne (by rw [← e₁, ← e₂, h₁, h₂])

-- the link pair (R54)

/-- The state once a call has written its return address to the link pair. -/
def State.link (s : State) (e : Env) (link : Option (BitVec 8)) (next : Dword) : State :=
  match link with
  | some d => s.onSlot e.c e.n fun x => (lanesOf e.act).foldl (fun x l => x.writeLane l (out2 (d.setWidth 9) next)) x
  | none => s

@[simp] theorem pay_pureImg (w : Word) : pay (pureImg w) = w := BitVec.extractLsb'_append_eq_right

@[simp] theorem sticky_pureImg (w : Word) : sticky (pureImg w) = false := by
  simp only [sticky, pureImg, img, BitVec.getLsbD_append]
  rfl

theorem toNat_setWidth_nine (d : BitVec 8) : (d.setWidth 9).toNat = d.toNat := by
  rw [BitVec.toNat_setWidth]; exact Nat.mod_eq_of_lt (by omega)

theorem shape_out2 (d : BitVec 8) (next : Dword) : Shape (fun _ => out2 (d.setWidth 9) next) [d.toNat, d.toNat + 1] [] where
  regs _ := by simp only [out2, List.map_cons, List.map_nil, toNat_setWidth_nine]
  preds _ := rfl
  nodup := by simp

/-- The registers of a pair hold an address with S clear. -/
theorem pairOf_of_holds {d : BitVec 8} {next : Dword} {r : Nat → Img} {q : Nat → Bool} (hh : Holds (out2 (d.setWidth 9) next) r q) :
    pairOf r d.toNat = next ∧ sticky (r d.toNat) = false ∧ sticky (r (d.toNat + 1)) = false := by
  obtain ⟨hregs, -⟩ := hh
  simp only [out2, List.forall_mem_cons, toNat_setWidth_nine] at hregs
  obtain ⟨hlo, hhi, -⟩ := hregs
  refine ⟨?_, by simp [hlo], by simp [hhi]⟩
  rw [pairOf, hlo, hhi, pay_pureImg, pay_pureImg]
  exact BitVec.extractLsb'_append_extractLsb'

/-- What a call leaves in its slot, before its member moves. -/
theorem State.link_spec {s : State} {e : Env} {x : Slot} (link : Option (BitVec 8)) (next : Dword) (hx : s.slot? e.c e.n = some x) :
    ∃ y, (s.link e link next).slot? e.c e.n = some y ∧ (s.link e link next).beside e.c e.n = s.beside e.c e.n ∧ y.plain = x.plain ∧
      y.members = x.members ∧ LinkRegs e x y link next := by
  cases link with
  | none => exact ⟨x, hx, rfl, rfl, rfl, SameRegs.refl x⟩
  | some d =>
    obtain ⟨w, hfl, hres⟩ := wrote_lanes (shape_out2 d next) x (lanesOf e.act) (nodup_lanesOf _)
    refine ⟨_, State.slot?_onSlot_self _ hx, State.beside_onSlot .., w.plain, w.members, ?_, ?_, ?_, ?_, ?_⟩
    · intro l n hn
      refine w.v l n ?_
      rw [← Bool.not_eq_true]
      simpa [mem_lanesOf] using hn
    · intro l hl hf
      exact pairOf_of_holds (hres l (mem_lanesOf.2 hl) hf)
    · exact fun n => w.s n rfl
    · exact fun l n => w.p l n (by simp)
    · refine BitVec.eq_of_getLsbD_eq fun i _ => ?_
      rw [hfl]; simp [out2]

/-- Metering, and moving or dividing members, leave the registers of a transfer. -/
theorem LinkRegs.moved {e : Env} {x y : Slot} {link : Option (BitVec 8)} {next : Dword} (a : LinkRegs e x y link next) (xs : List XRec)
    (ms : List Member) (fs : List Family) (n : Nat) : LinkRegs e x { y with xs := xs, members := ms, fams := fs, nextId := n } link next := by
  cases link with
  | none => exact ⟨a.v, a.s, a.p, a.flags, a.late, a.mtx, a.bad⟩
  | some d => exact a

-- the division of a member (R27)

theorem Slot.onMem_congr (x : Slot) {id : Nat} {f g : Member → Member} (h : ∀ k, k.id = id → f k = g k) : x.onMem id f = x.onMem id g := by
  simp only [Slot.onMem, Slot.mk.injEq, true_and, and_true]
  refine List.map_congr_left fun k _ => ?_
  split
  · exact h k ‹_›
  · rfl

/-- The member of a transfer that has been issued, behind which no mark of it stays. -/
def Env.jumped (e : Env) (h : Hdr) (s : State) : Member :=
  { e.m with last := s.now, since := s.now, src := e.m.pc, len := lenBytes h.len, y := false, usec := none }

/-- Replacing the issuing member by another of its number changes that member alone. -/
theorem oneMember_replace {x y : Slot} {m k : Member} {q : Member → Member → Prop} (hm : x.mem? m.id = some m) (hms : y.members = x.members)
    (hk : k.id = m.id) (hq : q m k) : OneMember m.id x (y.onMem m.id fun _ => k) q := by
  have hid : y.onMem m.id (fun _ => k) = y.onMem m.id fun a => { k with id := a.id } :=
    Slot.onMem_congr y fun a ha => by rw [ha, ← hk]
  have hmy : ∀ i, y.mem? i = x.mem? i := fun i => by simp only [Slot.mem?, hms]
  rw [hid]
  refine ⟨⟨m, _, hm, Slot.mem?_onMem_self ((hmy _).trans hm) fun _ => rfl, ?_⟩, fun i hi => ?_⟩
  · rw [← hk]; exact hq
  · exact (Slot.mem?_onMem_ne (x := y) (fun a => { k with id := a.id }) (fun _ => rfl) hi).trans (hmy i)

theorem Slot.mem_split {x : Slot} {m : Member} {kind : FamKind} {parts : List (Mask × Dword × Park × Option Nat)} :
    ∃ new, (x.split m kind parts).members = x.members.filter (fun k => k.id != m.id) ++ new ∧ new.map (·.pc) = parts.map (·.2.1) ∧
      (∀ k ∈ new, k.fam = x.nextId ∧ ∃ p ∈ parts, k.mask = p.1 ∧ k.pc = p.2.1 ∧ k.st = p.2.2.1) ∧ ∀ p ∈ parts, ∃ k ∈ new, k.mask = p.1 := by
  refine ⟨_, rfl, ?_, ?_, ?_⟩
  · rw [List.map_map]
    conv_rhs => rw [← List.zipIdx_map_fst 0 parts, List.map_map]
    rfl
  · intro k hk
    obtain ⟨p, hp, rfl⟩ := List.mem_map.1 hk
    exact ⟨rfl, p.1, List.fst_mem_of_mem_zipIdx hp, rfl, rfl, rfl⟩
  · intro p hp
    rw [← List.zipIdx_map_fst 0 parts] at hp
    obtain ⟨q, hq, rfl⟩ := List.mem_map.1 hp
    exact ⟨_, List.mem_map_of_mem hq, rfl⟩

theorem State.divide_one {s : State} {e : Env} {h : Hdr} {y : Slot} (g : Mask × Dword) (hy : s.slot? e.c e.n = some y) :
    (s.divide e h [g]).slot? e.c e.n = some (y.onMem e.m.id fun _ => { e.jumped h s with pc := g.2, st := afterJump h }) :=
  State.slot?_onSlot_self _ hy

theorem State.divide_many {s : State} {e : Env} {h : Hdr} {y : Slot} {gs : List (Mask × Dword)} (hy : s.slot? e.c e.n = some y) (hgs : gs.length ≠ 1) :
    (s.divide e h gs).slot? e.c e.n = some (y.split (e.jumped h s) .branch (gs.map fun g => (g.1, g.2, afterJump h, e.m.ent))) := by
  refine (State.slot?_onSlot_self _ hy).trans (congrArg some ?_)
  match gs, hgs with
  | [], _ => rfl
  | _ :: _ :: _, _ => rfl

theorem State.beside_divide (s : State) (e : Env) (h : Hdr) (gs : List (Mask × Dword)) : (s.divide e h gs).beside e.c e.n = s.beside e.c e.n :=
  State.beside_onSlot ..

/-- A member split by the groups of its lanes' destinations is divided. -/
theorem divided_split {s : State} {e : Env} {h : Hdr} {x y : Slot} {go : Nat → Dword} {gs : List (Mask × Dword)}
    (hg : Grouped (aimed e.m.mask go) gs) (hms : y.members = x.members) (hfams : y.fams = x.fams) (hid : y.nextId = x.nextId) :
    Divided e x (y.split (e.jumped h s) .branch (gs.map fun g => (g.1, g.2, afterJump h, e.m.ent))) (afterJump h) go := by
  obtain ⟨new, hnew, hpc, hof, hto⟩ := Slot.mem_split (x := y) (m := e.jumped h s) (kind := .branch)
    (parts := gs.map fun g => (g.1, g.2, afterJump h, e.m.ent))
  refine ⟨new, by rw [hnew, hms]; rfl, ?_, ?_, ?_, by rw [← hfams, ← hid]; rfl⟩
  · rw [hpc, List.map_map]; exact hg.nodup
  · intro k hk
    obtain ⟨hfam, p, hp, hmask, hkpc, hst⟩ := hof k hk
    obtain ⟨g, hgs, rfl⟩ := List.mem_map.1 hp
    obtain ⟨l, hl⟩ := hg.nonempty g hgs
    refine ⟨fun h0 => ?_, hst, hfam.trans hid, fun l hl => ?_⟩
    · have := (hg.lanes g hgs l).2 hl
      simp [show g.1 = 0 from hmask.symm.trans h0] at this
    · obtain ⟨hlane, hgo⟩ := mem_aimed.1 ((hg.lanes g hgs l).1 (hmask ▸ hl))
      exact ⟨hlane, hkpc.trans hgo⟩
  · intro l hl
    have hla : (l, go l) ∈ aimed e.m.mask go := aimed_mem hl
    obtain ⟨g, hgs, hgo⟩ := hg.target _ hla
    obtain ⟨k, hk, hmask⟩ := hto _ (List.mem_map_of_mem hgs)
    refine ⟨k, hk, ?_⟩
    rw [hmask]
    exact (hg.lanes g hgs l).2 (hgo ▸ hla)

-- what a transfer does (R27, R40, R53, R55)

section
variable {h : Hdr} {u : Bool} {us : Uses} {link : Option (BitVec 8)} {tgt : Env → Nat → Dword} {s : State} {e : Env}

/-- A destination that fails traps before anything changes (R40). -/
theorem jump_traps_fault {r : Tr} (hi : Issues h us .anywhere s e) (hn : e.n ≠ 64) (hf : jumpFault (aimed e.m.mask (e.goes h (tgt e))) = some r) :
    Traps (jump h u us link tgt s) s e { cause := r.cause, pc := e.m.pc, mask := r.mask, addr := r.addr, info := BitVec.ofNat 32 r.info } := by
  refine traps_of hi hn ?_
  simp only [aimed, Env.goes, Member.nextPc] at hf
  simp only [hf]

/-- The first destination of a transfer is that of the lowest lane. -/
theorem first_goes (hi : Issues h us .anywhere s e) (go : Nat → Dword) (next : Dword) :
    (((aimed e.m.mask go).head?).map (·.2)).getD next = go (lowest e.m.mask) := by
  rw [head?_aimed hi.mask_ne_zero]; rfl

/-- Under `.u`, lanes that leave the lowest one trap (R55). -/
theorem jump_traps_apart (hi : Issues h us .anywhere s e) (hn : e.n ≠ 64) (hf : jumpFault (aimed e.m.mask (e.goes h (tgt e))) = none)
    (hoff : strays e.m.mask (e.goes h (tgt e)) ≠ []) :
    Traps (jump h true us link tgt s) s e
      { cause := 4, pc := e.m.pc, mask := maskOf ((strays e.m.mask (e.goes h (tgt e))).map (·.1)), addr := 0, info := BitVec.ofNat 32 0 } := by
  refine traps_of (r := { cause := 4, mask := maskOf ((strays e.m.mask (e.goes h (tgt e))).map (·.1)) }) hi hn ?_
  have hfirst := first_goes hi (e.goes h (tgt e)) (e.m.nextPc h)
  rw [← List.isEmpty_eq_false_iff] at hoff
  simp only [strays, failing, aimed, Env.goes, Member.nextPc] at hf hoff hfirst ⊢
  simp only [hf, hfirst, hoff, Bool.not_false, Bool.and_self, if_true]

/-- A transfer that does not trap writes its link and moves its lanes. -/
theorem jump_moves (hi : Issues h us .anywhere s e) (hf : jumpFault (aimed e.m.mask (e.goes h (tgt e))) = none)
    (hoff : u = false ∨ strays e.m.mask (e.goes h (tgt e)) = []) :
    jump h u us link tgt s =
      .next (((s.issuing.link e link (e.m.nextPc h)).charge e.c e.n e.m 13 1 false).divide e h (groups (aimed e.m.mask (e.goes h (tgt e))))) := by
  have hfirst := first_goes hi (e.goes h (tgt e)) (e.m.nextPc h)
  refine (issue_own hi).trans (congrArg Host.Outcome.next ?_)
  have hno : (u && !(strays e.m.mask (e.goes h (tgt e))).isEmpty) = false := by
    rcases hoff with hu | hnil
    · simp [hu]
    · simp [hnil]
  simp only [strays, failing, aimed, Env.goes, Member.nextPc] at hf hno hfirst ⊢
  simp only [hf, hfirst, hno, Bool.false_eq_true, if_false]
  cases link <;> rfl

/-- The slot of a transfer that does not trap, before its member moves: its link pair is written and it is charged. -/
theorem charged_link_spec {x : Slot} (link : Option (BitVec 8)) (next : Dword) (hx : s.slot? e.c e.n = some x) :
    ∃ y, ((s.issuing.link e link next).charge e.c e.n e.m 13 1 false).slot? e.c e.n = some y ∧
      ((s.issuing.link e link next).charge e.c e.n e.m 13 1 false).beside e.c e.n = s.beside e.c e.n ∧ y.plain = x.plain ∧ y.members = x.members ∧
      LinkRegs e x y link next := by
  obtain ⟨y, hy, hb, hpl, hms, hlr⟩ := State.link_spec (s := s.issuing) link next hx
  obtain ⟨xs, hc, hxs⟩ := State.slot?_charge e.m 13 1 false hy
  refine ⟨_, hc, ?_, Eq.trans ?_ hpl, hms, hlr.moved xs _ _ _⟩
  · rw [State.beside_charge, hb, State.beside_issuing]
  · simp only [Slot.plain, Slot.mk.injEq, and_self, true_and, and_true]
    exact hxs

/-- Every control transfer does what R53 to R55 say, with the target of each lane. -/
theorem jump_transfers (hi : Issues h us .anywhere s e) : Transfers (jump h u us link tgt s) h s e u link (tgt e) := by
  obtain ⟨x, hx, hm, -, -⟩ := State.env_spec hi.env
  have hts : aimed e.m.mask (e.goes h (tgt e)) ≠ [] := List.ne_nil_of_mem (aimed_mem (lowest_mem hi.mask_ne_zero))
  have hgr := grouped_aimed e.m.mask (e.goes h (tgt e))
  obtain ⟨y, hy, hb, hpl, hms, hlr⟩ := charged_link_spec (e := e) link (e.m.nextPc h) hx
  refine ⟨?misaligned, ?tooLarge, ?apart, ?together, ?divided⟩
  case misaligned =>
    intro k hk hlow hn
    exact ⟨_, fun l hl => getLsbD_maskOf_failing misaligned hl, jump_traps_fault hi hn (jumpFault_misaligned hk hlow)⟩
  case tooLarge =>
    intro hodd k hk hlow hn
    exact ⟨_, fun l hl => getLsbD_maskOf_failing tooLarge hl, jump_traps_fault hi hn (jumpFault_tooLarge hodd hk hlow)⟩
  case apart =>
    rintro hodd hbig rfl ⟨l, hl⟩ hn
    refine ⟨_, fun l hl => getLsbD_maskOf_failing _ hl, jump_traps_apart hi hn (jumpFault_none hodd hbig) ?_⟩
    exact fun hnil => Bool.eq_false_iff.1 (failing_eq_nil.1 hnil l) hl
  case together =>
    intro hodd hbig hoff
    have hnil : strays e.m.mask (e.goes h (tgt e)) = [] := failing_eq_nil.2 hoff
    obtain ⟨g, hg⟩ := hgr.one hts fun t ht => by simpa using List.filter_eq_nil_iff.1 hnil t ht
    have hmv := jump_moves (u := u) (link := link) hi (jumpFault_none hodd hbig) (.inr hnil)
    rw [hg] at hmv
    refine ⟨_, x, _, hmv, OnlySlot.of hx (State.divide_one _ hy) ((State.beside_divide ..).trans hb), hlr.moved _ _ _ _, hpl,
      oneMember_replace hm hms rfl ⟨rfl, rfl, rfl, rfl, rfl⟩⟩
  case divided =>
    rintro hodd hbig hu ⟨l, hl⟩
    have hfams : y.plain.fams = x.plain.fams := congrArg Slot.fams hpl
    have hid : y.plain.nextId = x.plain.nextId := congrArg Slot.nextId hpl
    obtain ⟨hlane, hne⟩ := Bool.and_eq_true_iff.1 hl
    have hlen := hgr.length_ne_one (aimed_mem hlane) (aimed_mem (lowest_mem hi.mask_ne_zero)) (bne_iff_ne.1 hne)
    refine ⟨_, x, _, jump_moves hi (jumpFault_none hodd hbig) (.inl hu), OnlySlot.of hx (State.divide_many hy hlen) ((State.beside_divide ..).trans hb),
      hlr.moved _ _ _ _, congrArg (fun z => { z with fams := [], nextId := 0 }) hpl,
      divided_split hgr hms hfams hid, l, hlane⟩

end

-- the five transfers

theorem exec_bra (h : Hdr) (u : Bool) (off : Word) (s : State) :
    exec (.bra h u off) s = jump h u {} none (fun e _ => e.m.pc + off.signExtend 64) s := rfl

theorem exec_call (h : Hdr) (u : Bool) (d : BitVec 8) (off : Word) (s : State) :
    exec (.call h u d off) s = jump h u { wv := List.range' d.toNat 2 } (some d) (fun e _ => e.m.pc + off.signExtend 64) s := rfl

theorem exec_brx (h : Hdr) (u : Bool) (a : Src) (s : State) :
    exec (.brx h u a) s = jump h u { rv := useV 2 a, rs := useS 2 a } none (fun e l => e.pair l false a) s := rfl

theorem exec_ret (h : Hdr) (u : Bool) (a : Src) (s : State) : exec (.ret h u a) s = exec (.brx h u a) s := rfl

theorem exec_callx (h : Hdr) (u : Bool) (d : BitVec 8) (a : Src) (s : State) :
    exec (.callx h u d a) s = jump h u (linkUses d [a]) (some d) (fun e l => e.pair l false a) s := rfl

/-- Settles O26: BRA, CALL, BRX, RET and CALLX are one transfer (R55), each with its own targets and link pair. -/
theorem controlTransfers : Obligations.ControlTransfers := by
  refine ⟨fun h u off s e hi => ?_, fun h u d off s e hi => ?_, fun h u a s e hi => ⟨?_, ?_⟩, fun h u d a s e hi => ?_⟩
  · rw [exec_bra]; exact jump_transfers hi
  · rw [exec_call]; exact jump_transfers hi
  · rw [exec_brx]; exact jump_transfers hi
  · rw [exec_ret, exec_brx]; exact jump_transfers hi
  · rw [exec_callx]; exact jump_transfers hi

end Sys2Proof.Machine
end

section
/-! SUPPORT. Values and their order (R86, R109): exact sums, the grid of a floating format, and the comparison of FP32
images by their codes. -/

namespace Sys2Proof.Machine

-- exact sums and comparison (R110)

theorem p2_cast {n : Int} (hn : 0 ≤ n) : ((p2 n : Int) : Rat) = (2 : Rat) ^ n := by
  rw [p2, Int.cast_natCast, Nat.cast_pow, Nat.cast_ofNat, ← zpow_natCast, Int.toNat_of_nonneg hn]

/-- A number at an exponent, written at a lower one. -/
theorem p2_mul_zpow {e f : Int} (hf : f ≤ e) : ((p2 (e - f) : Int) : Rat) * (2 : Rat) ^ f = (2 : Rat) ^ e := by
  rw [p2_cast (by omega), ← zpow_add₀ two_ne_zero, Int.sub_add_cancel]

/-- `sumFin` is exact; what is not finite counts as 0 in it. -/
theorem rat_sumFin (vs : List Val) : ((sumFin vs).1 : Rat) * (2 : Rat) ^ (sumFin vs).2 = (vs.map Val.rat).sum := by
  induction vs with
  | nil => simp [sumFin]
  | cons v r ih =>
    rw [List.map_cons, List.sum_cons]
    cases v with
    | nan => simp [sumFin, ih, Val.rat]
    | inf n => simp [sumFin, ih, Val.rat]
    | fin n m e =>
      simp only [sumFin, Val.rat]
      rw [← ih, Int.cast_add, add_mul, Int.cast_mul, Int.cast_mul, mul_assoc, mul_assoc, p2_mul_zpow (Int.min_le_left ..),
        p2_mul_zpow (Int.min_le_right ..)]
      cases n <;> simp

/-- Finite values are compared as the numbers they stand for. -/
theorem cmpVal_fin (a b : Bool) (m n : Nat) (e f : Int) :
    cmpVal (.fin a m e) (.fin b n f) = compare (Val.fin a m e).rat (Val.fin b n f).rat := by
  have hsum := rat_sumFin [.fin a m e, .fin (!b) n f]
  have hflip : (Val.fin (!b) n f).rat = -(Val.fin b n f).rat := by cases b <;> simp [Val.rat]
  simp only [List.map_cons, List.map_nil, List.sum_cons, List.sum_nil, add_zero, hflip, ← sub_eq_add_neg] at hsum
  show compare (sumFin [.fin a m e, .fin (!b) n f]).1 0 = _
  generalize sumFin [.fin a m e, .fin (!b) n f] = s at hsum
  have hpos : (0 : Rat) < (2 : Rat) ^ s.2 := zpow_pos two_pos _
  rcases lt_trichotomy s.1 0 with h | h | h
  · rw [compare_lt_iff_lt.2 h, eq_comm, compare_lt_iff_lt, ← sub_neg, ← hsum]
    exact mul_neg_of_neg_of_pos (Int.cast_lt_zero.2 h) hpos
  · rw [compare_eq_iff_eq.2 h, eq_comm, compare_eq_iff_eq, ← sub_eq_zero, ← hsum, h, Int.cast_zero, zero_mul]
  · rw [compare_gt_iff_gt.2 h, eq_comm, compare_gt_iff_gt, ← sub_pos, ← hsum]
    exact mul_pos (Int.cast_pos.2 h) hpos

-- the grid of a floating format (R86)

/-- The number a code's magnitude stands for, on a grid of fraction width `mb` and least exponent `emin`. -/
def magRat (mb : Nat) (emin : Int) (c : Nat) : Rat := ((magOf mb emin c).1 : Rat) * (2 : Rat) ^ (magOf mb emin c).2

section
variable {mb : Nat} {emin : Int}

theorem magRat_subnormal {c : Nat} (hc : c < 2 ^ mb) : magRat mb emin c = (c : Rat) * (2 : Rat) ^ (emin - mb) := by
  rw [magRat, magOf, if_pos hc]

theorem magRat_normal (q : Nat) {r : Nat} (hr : r < 2 ^ mb) :
    magRat mb emin ((q + 1) * 2 ^ mb + r) = ((2 ^ mb + r : Nat) : Rat) * (2 : Rat) ^ (emin - mb + q) := by
  have hpos : 0 < 2 ^ mb := Nat.two_pow_pos mb
  have hge : ¬(q + 1) * 2 ^ mb + r < 2 ^ mb := by
    rw [Nat.succ_mul]; omega
  have hdiv : ((q + 1) * 2 ^ mb + r) / 2 ^ mb = q + 1 := by
    rw [Nat.mul_comm, Nat.mul_add_div hpos, Nat.div_eq_of_lt hr, Nat.add_zero]
  have hmod : ((q + 1) * 2 ^ mb + r) % 2 ^ mb = r := by
    rw [Nat.mul_comm, Nat.mul_add_mod, Nat.mod_eq_of_lt hr]
  rw [magRat, magOf, if_neg hge, hdiv, hmod]
  push_cast
  ring_nf

theorem magRat_zero : magRat mb emin 0 = 0 := by
  rw [magRat_subnormal (Nat.two_pow_pos mb)]; simp

/-- The least normal magnitude. -/
theorem magRat_two_pow : magRat mb emin (2 ^ mb) = (2 : Rat) ^ emin := by
  have h := magRat_normal (emin := emin) 0 (Nat.two_pow_pos mb)
  rw [Nat.zero_add, Nat.one_mul, Nat.add_zero, Nat.cast_zero, add_zero] at h
  rw [h, Nat.cast_pow, Nat.cast_ofNat, ← zpow_natCast, ← zpow_add₀ two_ne_zero]
  congr 1
  omega

/-- A greater code stands for a greater magnitude, across the subnormals, each binade and the steps between them. -/
theorem magRat_strictMono : StrictMono (magRat mb emin) := by
  refine strictMono_nat_of_lt_succ fun c => ?_
  have hpos (x : Int) : (0 : Rat) < (2 : Rat) ^ x := zpow_pos two_pos _
  by_cases hc : c < 2 ^ mb
  · rw [magRat_subnormal hc]
    by_cases hc1 : c + 1 < 2 ^ mb
    · rw [magRat_subnormal hc1]
      exact mul_lt_mul_of_pos_right (Nat.cast_lt.2 c.lt_succ_self) (hpos _)
    · have hn := magRat_normal (emin := emin) 0 (Nat.two_pow_pos mb)
      rw [show c + 1 = (0 + 1) * 2 ^ mb + 0 by omega, hn, Nat.cast_zero, add_zero (emin - (mb : Int))]
      exact mul_lt_mul_of_pos_right (Nat.cast_lt.2 (by omega)) (hpos _)
  · obtain ⟨q, r, hr, rfl⟩ : ∃ q r, r < 2 ^ mb ∧ c = (q + 1) * 2 ^ mb + r := by
      have hq : 1 ≤ c / 2 ^ mb := (Nat.one_le_div_iff (Nat.two_pow_pos mb)).2 (by omega)
      refine ⟨c / 2 ^ mb - 1, c % 2 ^ mb, Nat.mod_lt _ (Nat.two_pow_pos mb), ?_⟩
      rw [Nat.sub_add_cancel hq, Nat.div_add_mod']
    rw [magRat_normal q hr]
    by_cases hr1 : r + 1 < 2 ^ mb
    · rw [Nat.add_assoc, magRat_normal q hr1]
      exact mul_lt_mul_of_pos_right (Nat.cast_lt.2 (by omega)) (hpos _)
    · have hn := magRat_normal (emin := emin) (q + 1) (Nat.two_pow_pos mb)
      have hstep : (2 : Rat) ^ (emin - mb + ((q + 1 : Nat) : Int)) = 2 * (2 : Rat) ^ (emin - mb + q) := by
        rw [Nat.cast_succ, ← add_assoc, zpow_add_one₀ two_ne_zero, mul_comm]
      rw [show (q + 1) * 2 ^ mb + r + 1 = (q + 1 + 1) * 2 ^ mb + 0 by rw [Nat.succ_mul (q + 1)]; omega, hn, hstep, ← mul_assoc]
      refine mul_lt_mul_of_pos_right ?_ (hpos _)
      exact_mod_cast (by omega : 2 ^ mb + r < (2 ^ mb + 0) * 2)

/-- The number of a signed code. -/
def codeRat (mb : Nat) (emin : Int) (z : Int) : Rat := (z.sign : Rat) * magRat mb emin z.natAbs

/-- Signed codes are in the order of their numbers. -/
theorem codeRat_strictMono : StrictMono (codeRat mb emin) := by
  refine strictMono_of_odd_strictMonoOn_nonneg (fun z => ?_) fun i hi j hj hij => ?_
  · rw [codeRat, codeRat, Int.sign_neg, Int.natAbs_neg, Int.cast_neg, neg_mul]
  · have hof : ∀ k : Int, 0 ≤ k → codeRat mb emin k = magRat mb emin k.natAbs := by
      intro k hk
      rcases hk.eq_or_lt with rfl | hk
      · simp [codeRat, magRat_zero]
      · rw [codeRat, Int.sign_eq_one_of_pos hk, Int.cast_one, one_mul]
    rw [hof i hi, hof j hj]
    exact magRat_strictMono (Int.natAbs_lt_natAbs_of_nonneg_of_lt hi hij)

theorem rat_magOf (n : Bool) (c : Nat) :
    (Val.fin n (magOf mb emin c).1 (magOf mb emin c).2).rat = codeRat mb emin (if n then -(c : Int) else c) := by
  have hz : (Val.fin n (magOf mb emin c).1 (magOf mb emin c).2).rat = (if n then -1 else 1) * magRat mb emin c := by
    rw [Val.rat, mul_assoc, magRat]
  rw [hz, codeRat]
  rcases Nat.eq_zero_or_pos c with rfl | hc
  · simp [magRat_zero]
  · cases n <;> simp [Int.sign_eq_one_of_pos (Int.natCast_pos.2 hc)]

end

-- FP32 codes (R86, R140, R141)

/-- What an image stands for, by its code (R86). -/
theorem f32_eq (x : Img) : f32 x =
    if 0x7F7FFFFF < (pay x).toNat % 2 ^ 31 then (if (pay x).toNat % 2 ^ 31 = 0x7F800000 then .inf (pay x).msb else .nan)
    else .fin (pay x).msb (magOf 23 (-126) ((pay x).toNat % 2 ^ 31)).1 (magOf 23 (-126) ((pay x).toNat % 2 ^ 31)).2 := by
  have hsign : (pay x).msb = ((pay x).toNat / 2 ^ 31 == 1) := by
    rw [BitVec.msb_eq_decide, beq_eq_decide, decide_eq_decide]; omega
  rw [f32, hsign]
  simp only [decodeF, fmtBits, Nat.mod_eq_of_lt (pay x).isLt, reduceCtorEq, false_and, if_false, fmtInf, true_and]
  rfl

theorem f32_of_nan {x : Img} (hx : nanWord (pay x) = true) : f32 x = .nan := by
  rw [nanWord, decide_eq_true_eq] at hx
  rw [f32_eq, if_pos (by omega), if_neg (by omega)]

/-- An image that is not NaN is an infinity, or a number of the grid. -/
theorem f32_cases {x : Img} (hx : nanWord (pay x) = false) :
    ((pay x).toNat % 2 ^ 31 = 0x7F800000 ∧ f32 x = .inf (pay x).msb) ∨
    ((pay x).toNat % 2 ^ 31 < 0x7F800000 ∧
      f32 x = .fin (pay x).msb (magOf 23 (-126) ((pay x).toNat % 2 ^ 31)).1 (magOf 23 (-126) ((pay x).toNat % 2 ^ 31)).2) := by
  rw [nanWord, decide_eq_false_iff_not] at hx
  rcases Nat.lt_or_ge ((pay x).toNat % 2 ^ 31) 0x7F800000 with h | h
  · exact .inr ⟨h, by rw [f32_eq, if_neg (by omega)]⟩
  · exact .inl ⟨by omega, by rw [f32_eq, if_pos (by omega), if_pos (by omega)]⟩

theorem isNan_f32 (x : Img) : (f32 x).isNan = nanWord (pay x) := by
  cases hx : nanWord (pay x)
  · rcases f32_cases hx with ⟨-, hv⟩ | ⟨-, hv⟩ <;> rw [hv] <;> rfl
  · rw [f32_of_nan hx]; rfl

theorem neg_f32 {x : Img} (hx : nanWord (pay x) = false) : (f32 x).neg = (pay x).msb := by
  rcases f32_cases hx with ⟨-, hv⟩ | ⟨-, hv⟩ <;> rw [hv] <;> rfl

theorem rat_fin_keyVal (w : Word) :
    (Val.fin w.msb (magOf 23 (-126) (w.toNat % 2 ^ 31)).1 (magOf 23 (-126) (w.toNat % 2 ^ 31)).2).rat = codeRat 23 (-126) (keyVal w) :=
  rat_magOf _ _

/-- Images that are not NaN are compared as their signed codes, an infinity beyond every number. -/
theorem cmpVal_f32 {x y : Img} (hx : nanWord (pay x) = false) (hy : nanWord (pay y) = false) :
    cmpVal (f32 x) (f32 y) = compare (keyVal (pay x)) (keyVal (pay y)) := by
  rcases f32_cases hx with ⟨cx, vx⟩ | ⟨cx, vx⟩ <;> rcases f32_cases hy with ⟨cy, vy⟩ | ⟨cy, vy⟩ <;> rw [vx, vy]
  · rw [keyVal, keyVal, cx, cy]
    cases (pay x).msb <;> cases (pay y).msb <;> rfl
  · rw [keyVal, keyVal, cx]
    cases (pay x).msb
    · exact (compare_gt_iff_gt.2 (by rw [if_neg Bool.false_ne_true]; split <;> omega)).symm
    · exact (compare_lt_iff_lt.2 (by rw [if_pos rfl]; split <;> omega)).symm
  · rw [keyVal, keyVal, cy]
    cases (pay y).msb
    · exact (compare_lt_iff_lt.2 (by rw [if_neg Bool.false_ne_true]; split <;> omega)).symm
    · exact (compare_gt_iff_gt.2 (by rw [if_pos rfl]; split <;> omega)).symm
  · rw [cmpVal_fin, rat_fin_keyVal, rat_fin_keyVal, ← cmp_eq_compare, ← cmp_eq_compare, codeRat_strictMono.cmp_map_eq]

/-- The order of FMIN and FMAX is that of their values, and among zeros that of the signs (R140). -/
theorem key32_lt_iff {v w : Word} : key32 v < key32 w ↔ keyVal v < keyVal w ∨ (keyVal v = keyVal w ∧ v.msb = true ∧ w.msb = false) := by
  unfold key32 keyVal
  cases v.msb <;> cases w.msb <;> simp only [if_true, Bool.false_eq_true, if_false, reduceCtorEq, and_true, and_false, or_false] <;> omega

end Sys2Proof.Machine
end

section
/-! SUPPORT. FMIN, FMAX, FCMP and FCLASS (R140 to R143) by the codes of their operands. -/

namespace Sys2Proof.Machine

-- selection (R140)

theorem cmpSigned_f32 {x y : Img} (hx : nanWord (pay x) = false) (hy : nanWord (pay y) = false) :
    cmpSigned (f32 x) (f32 y) = compare (key32 (pay x)) (key32 (pay y)) := by
  unfold cmpSigned
  rw [cmpVal_f32 hx hy, neg_f32 hx, neg_f32 hy]
  rcases lt_trichotomy (keyVal (pay x)) (keyVal (pay y)) with h | h | h
  · rw [compare_lt_iff_lt.2 h, compare_lt_iff_lt.2 (key32_lt_iff.2 (.inl h))]
  · rw [compare_eq_iff_eq.2 h]
    have hlt := key32_lt_iff (v := pay x) (w := pay y)
    have hgt := key32_lt_iff (v := pay y) (w := pay x)
    cases hsx : (pay x).msb <;> cases hsy : (pay y).msb <;>
      simp only [h, hsx, hsy, lt_irrefl, false_or, and_true, and_false, reduceCtorEq, iff_true, iff_false] at hlt hgt
    · exact (compare_eq_iff_eq.2 (by omega)).symm
    · exact (compare_gt_iff_gt.2 hgt).symm
    · exact (compare_lt_iff_lt.2 hlt).symm
    · exact (compare_eq_iff_eq.2 (by omega)).symm
  · rw [compare_gt_iff_gt.2 h, compare_gt_iff_gt.2 (key32_lt_iff.2 (.inl h))]

/-- FMAX takes b where a is the lesser, FMIN where b is; an operand that is no NaN goes before one that is (R140). -/
theorem selectF_eq (mx : Bool) (x y : Img) : selectF mx x y =
    if nanWord (pay x) && nanWord (pay y) then nan32 else if nanWord (pay x) then y else if nanWord (pay y) then x
      else if (if mx then key32 (pay x) else key32 (pay y)) < (if mx then key32 (pay y) else key32 (pay x)) then y else x := by
  simp only [selectF, isNan_f32]
  cases hx : nanWord (pay x)
  · cases hy : nanWord (pay y)
    · rw [cmpSigned_f32 hx hy]
      cases mx <;> simp [compare_lt_iff_lt, compare_gt_iff_gt]
    · rfl
  · rfl

-- comparison (R141, R142)

/-- A condition of FCMP on signed codes, and whether an operand is NaN (R141). -/
def condOnCodes (c : FCond) (nan : Bool) (i j : Int) : Bool :=
  match c with
  | .eq => !nan && decide (i = j)
  | .ne => nan || decide (i ≠ j)
  | .lt => !nan && decide (i < j)
  | .le => !nan && decide (i ≤ j)
  | .gt => !nan && decide (j < i)
  | .ge => !nan && decide (j ≤ i)
  | .un => nan
  | .ord => !nan

theorem fcond_f32 (c : FCond) (x y : Img) :
    fcond c (f32 x) (f32 y) = condOnCodes c (nanWord (pay x) || nanWord (pay y)) (keyVal (pay x)) (keyVal (pay y)) := by
  unfold fcond
  rw [isNan_f32, isNan_f32]
  cases hn : nanWord (pay x) || nanWord (pay y)
  · obtain ⟨hx, hy⟩ := Bool.or_eq_false_iff.1 hn
    rw [cmpVal_f32 hx hy]
    cases c <;> rw [Bool.eq_iff_iff] <;> simp [condOnCodes, compare_lt_iff_lt, compare_gt_iff_gt]
  · cases c <;> rfl

theorem decided_f32 (x y : Img) : decided x y =
    (nanWord (pay x) || nanWord (pay y) || decide (keyVal (pay x) ≠ keyVal (pay y)) || (!sticky x && !sticky y)) := by
  simp only [decided, isNan_f32]
  cases hn : nanWord (pay x) || nanWord (pay y)
  · obtain ⟨hx, hy⟩ := Bool.or_eq_false_iff.1 hn
    rw [cmpVal_f32 hx hy]
    congr 2
    rw [Bool.eq_iff_iff, bne_iff_ne, decide_eq_true_eq, Ne, compare_eq_iff_eq]
  · rfl

-- classification (R143)

/-- The number of the class of a value (R143); `tiny` says whether it is below every normal magnitude. -/
def classNum (v : Val) (tiny : Bool) : Nat :=
  match v with
  | .nan => 8
  | .inf n => if n then 0 else 7
  | .fin n m _ => if m = 0 then (if n then 3 else 4) else if tiny then (if n then 2 else 5) else if n then 1 else 6

theorem classWord_eq (f : Fmt) (x : Img) : classWord f x =
    BitVec.ofNat 32 (2 ^ classNum (decodeF f (pay x).toNat) (decide ((pay x).toNat % 2 ^ (fmtBits f - 1) < 2 ^ (fmtP f).mb)) +
      if sticky x then 512 else 0) := rfl

theorem classNum_lt (v : Val) (tiny : Bool) : classNum v tiny < 9 := by
  unfold classNum
  repeat' split
  all_goals decide

/-- The bits of FCLASS's word: the class, and the operand's S in bit 9. -/
theorem getLsbD_classWord (f : Fmt) (x : Img) {i : Nat} (hi : i < 32) : (classWord f x).getLsbD i =
    (decide (classNum (decodeF f (pay x).toNat) (decide ((pay x).toNat % 2 ^ (fmtBits f - 1) < 2 ^ (fmtP f).mb)) = i) ||
      (sticky x && decide (9 = i))) := by
  rw [classWord_eq, BitVec.getLsbD_ofNat, decide_eq_true hi, Bool.true_and]
  generalize hk : classNum _ _ = k
  have hk9 : k < 9 := hk ▸ classNum_lt _ _
  cases sticky x
  · simp [Nat.testBit_two_pow]
  · have hor := Nat.two_pow_add_eq_or_of_lt (Nat.pow_lt_pow_right Nat.one_lt_two hk9) 1
    rw [Nat.mul_one, Nat.add_comm] at hor
    rw [if_pos rfl, show 512 = 2 ^ 9 from rfl, hor, Nat.testBit_or, Nat.testBit_two_pow, Nat.testBit_two_pow, Bool.true_and, Bool.or_comm]

/-- The magnitude of a number of a format, but for E2M1's code that stands for +0 (R86, R126). -/
theorem decodeF_fin {f : Fmt} {w m : Nat} {n : Bool} {e : Int} (hv : decodeF f w = .fin n m e) (hm : m ≠ 0) :
    (m, e) = magOf (fmtP f).mb (eminOf f) (w % 2 ^ (fmtBits f - 1)) := by
  have hdvd : 2 ^ (fmtBits f - 1) ∣ 2 ^ fmtBits f := Nat.pow_dvd_pow 2 (Nat.sub_le _ _)
  simp only [decodeF, Nat.mod_mod_of_dvd _ hdvd] at hv
  split at hv
  · cases hv; exact absurd rfl hm
  · split at hv
    · split at hv <;> cases hv
    · cases hv; rfl

/-- A number is below every normal magnitude of its format where its exponent field is 0. -/
theorem tiny_iff {f : Fmt} {w m : Nat} {n : Bool} {e : Int} (hv : decodeF f w = .fin n m e) (hm : m ≠ 0) :
    (Val.fin n m e).rat * (Val.fin n m e).rat < (2 : Rat) ^ eminOf f * (2 : Rat) ^ eminOf f ↔
      w % 2 ^ (fmtBits f - 1) < 2 ^ (fmtP f).mb := by
  have hme := decodeF_fin hv hm
  have hmag : (m : Rat) * (2 : Rat) ^ e = magRat (fmtP f).mb (eminOf f) (w % 2 ^ (fmtBits f - 1)) := by
    rw [magRat, ← hme]
  have hsq : (Val.fin n m e).rat * (Val.fin n m e).rat = ((m : Rat) * (2 : Rat) ^ e) * ((m : Rat) * (2 : Rat) ^ e) := by
    rw [Val.rat]; cases n <;> simp
  rw [hsq, ← mul_self_lt_mul_self_iff (by positivity) (by positivity), hmag, ← magRat_two_pow, magRat_strictMono.lt_iff_lt]

/-- The class of a value of a format is told by its magnitude as a number (R143). -/
theorem classNum_decodeF (f : Fmt) (w : Nat) :
    classNum (decodeF f w) (decide (w % 2 ^ (fmtBits f - 1) < 2 ^ (fmtP f).mb)) =
      classNum (decodeF f w) (decide ((decodeF f w).rat * (decodeF f w).rat < (2 : Rat) ^ eminOf f * (2 : Rat) ^ eminOf f)) := by
  cases hv : decodeF f w with
  | nan => rfl
  | inf n => rfl
  | fin n m e =>
    by_cases hm : m = 0
    · simp [classNum, hm]
    · simp only [tiny_iff hv hm]

/-- The bit of FCLASS's word that a value, its S and its size set (R143). -/
def classBit (st : Bool) (v : Val) (tiny : Bool) (i : Nat) : Bool :=
  match i, v with
  | 9, _ => st
  | 8, .nan => true
  | 7, .inf false => true
  | 0, .inf true => true
  | 6, .fin false k _ => decide (k ≠ 0) && !tiny
  | 5, .fin false k _ => decide (k ≠ 0) && tiny
  | 4, .fin false k _ => decide (k = 0)
  | 1, .fin true k _ => decide (k ≠ 0) && !tiny
  | 2, .fin true k _ => decide (k ≠ 0) && tiny
  | 3, .fin true k _ => decide (k = 0)
  | _, _ => false

theorem classBit_of_ge (st : Bool) (v : Val) (tiny : Bool) {i : Nat} (hi : 10 ≤ i) : classBit st v tiny i = false := by
  obtain ⟨j, rfl⟩ := Nat.exists_eq_add_of_le' hi
  rfl

/-- Of the bits below 9 exactly that of the class is set. -/
theorem classBit_eq (st : Bool) (v : Val) (tiny : Bool) (i : Nat) :
    classBit st v tiny i = (decide (classNum v tiny = i) || (st && decide (9 = i))) := by
  rcases Nat.lt_or_ge i 10 with hi | hi
  · rcases v with _ | n | ⟨n, m, x⟩
    · interval_cases i <;> simp [classBit, classNum]
    · cases n <;> interval_cases i <;> simp [classBit, classNum]
    · by_cases hm : m = 0
      · cases n <;> interval_cases i <;> simp [classBit, classNum, hm]
      · cases n <;> cases tiny <;> interval_cases i <;> simp [classBit, classNum, hm]
  · have hk : classNum v tiny ≠ i := by have := classNum_lt v tiny; omega
    rw [classBit_of_ge st v tiny hi, decide_eq_false hk, decide_eq_false (by omega : 9 ≠ i), Bool.and_false, Bool.or_false]

/-- FCLASS's word, bit by bit. -/
theorem getLsbD_classWord_eq_classBit (f : Fmt) (x : Img) {i : Nat} (hi : i < 32) : (classWord f x).getLsbD i =
    classBit (sticky x) (decodeF f (pay x).toNat)
      (decide ((decodeF f (pay x).toNat).rat * (decodeF f (pay x).toNat).rat < (2 : Rat) ^ eminOf f * (2 : Rat) ^ eminOf f)) i := by
  rw [getLsbD_classWord f x hi, classNum_decodeF, classBit_eq]

-- register instructions of one result without flags

theorem shape_outI (d : BitVec 9) (g : Nat → Img × Fl) : Shape (fun l => outI d (g l)) [d.toNat] [] where
  regs _ := rfl
  preds _ := rfl
  nodup := List.nodup_singleton _

theorem holds_outI {d : BitVec 9} {v : Img × Fl} {r : Nat → Img} {q : Nat → Bool} (hh : Holds (outI d v) r q) : r d.toNat = v.1 :=
  hh.1 _ (List.mem_singleton_self _)

theorem regOp_gives {h : Hdr} {cls : Nat} {u : Uses} {d : BitVec 9} {s : State} {e : Env} (g : Env → Nat → Img) (hi : Issues h u .anywhere s e) :
    Gives (regOp h cls u (fun e l => outI d (g e l, 0)) s) h s e d fun l r => r = g e l :=
  (regOp_fixed hi (shape_outI d _)).mono fun _ _ _ => holds_outI

theorem Gives.mono {o : Out} {h : Hdr} {s : State} {e : Env} {d : BitVec 9} {P R : Nat → Img → Prop} (a : Gives o h s e d P)
    (hp : ∀ l r, P l r → R l r) : Gives o h s e d R :=
  Fixed.mono a fun l r _ => hp l (r d.toNat)

section
variable {h : Hdr} {s : State} {e : Env}

theorem exec_fmin_gives {d : BitVec 9} {a b : Src} {ma mb : OMod} (hi : Issues h (usesOf h [a, b] [] [] (some d) 1 []) .anywhere s e) :
    Gives (exec (.fmin h d a b ma mb) s) h s e d fun l r => r = selectF false (omod ma (e.src l a)) (omod mb (e.src l b)) :=
  regOp_gives (fun e l => selectF false (omod ma (e.src l a)) (omod mb (e.src l b))) hi

theorem exec_fmax_gives {d : BitVec 9} {a b : Src} {ma mb : OMod} (hi : Issues h (usesOf h [a, b] [] [] (some d) 1 []) .anywhere s e) :
    Gives (exec (.fmax h d a b ma mb) s) h s e d fun l r => r = selectF true (omod ma (e.src l a)) (omod mb (e.src l b)) :=
  regOp_gives (fun e l => selectF true (omod ma (e.src l a)) (omod mb (e.src l b))) hi

theorem exec_fclass_gives {d : BitVec 9} {a : Src} {f : Fmt} (hi : Issues h (usesOf h [a] [] [] (some d) 1 []) .anywhere s e) :
    Gives (exec (.fclass h d a f) s) h s e d fun l r => r = pureImg (classWord f (e.src l a)) :=
  regOp_gives (fun e l => pureImg (classWord f (e.src l a))) hi

/-- What FCMP writes in a lane whose operands are x and y: the condition, then whether it is decided (R141, R142). -/
def fcmpOuts (pd pq : BitVec 3) (c : FCond) (x y : Img) : Outs :=
  { preds := [(pd, fcond c (f32 x) (f32 y)), (pq, decided x y)]
    fl := flIf (FCond.signals c && ((f32 x).isNan || (f32 y).isNan)) fNV }

theorem shape_fcmpOuts (pd pq : BitVec 3) (c : FCond) (x y : Nat → Img) :
    Shape (fun l => fcmpOuts pd pq c (x l) (y l)) [] [pd.toNat, pq.toNat] where
  regs _ := rfl
  preds _ := rfl
  nodup := List.nodup_nil

/-- FCMP signals a NaN under the four conditions of order (R141). -/
theorem fcmpOuts_fl (pd pq : BitVec 3) (c : FCond) (x y : Img) : (fcmpOuts pd pq c x y).fl =
    if (nanWord (pay x) || nanWord (pay y)) && (c == .lt || c == .le || c == .gt || c == .ge) then fNV else 0 := by
  rw [fcmpOuts, isNan_f32, isNan_f32, flIf, Bool.and_comm]
  cases c <;> rfl

/-- Where both predicates of FCMP are one, the decided result stands (R141). -/
theorem holds_fcmpOuts {pd pq : BitVec 3} {c : FCond} {x y : Img} {r : Nat → Img} {q : Nat → Bool} (hh : Holds (fcmpOuts pd pq c x y) r q) :
    (pq ≠ 7 → q pq.toNat = decided x y) ∧ (pd ≠ 7 → pd ≠ pq → q pd.toNat = fcond c (f32 x) (f32 y)) := by
  refine ⟨fun hq => ?_, fun hd hne => ?_⟩
  · exact hh.2 _ _ (pred_lt hq).ne (by simp [predLast, fcmpOuts])
  · exact hh.2 _ _ (pred_lt hd).ne (by simp [predLast, fcmpOuts, BitVec.toNat_inj, Ne.symm hne])

theorem exec_fcmp_fixed {pd pq : BitVec 3} {a b : Src} {ma mb : OMod} {c : FCond}
    (hi : Issues h (usesOf h [a, b] [] [] none 0 [pd.toNat, pq.toNat]) .anywhere s e) :
    Fixed (exec (.fcmp h pd pq a b ma mb c) s) h s e [] [pd.toNat, pq.toNat]
      (fun l => (fcmpOuts pd pq c (omod ma (e.src l a)) (omod mb (e.src l b))).fl) fun l r q =>
      Holds (fcmpOuts pd pq c (omod ma (e.src l a)) (omod mb (e.src l b))) r q :=
  regOp_fixed (f := fun e l => fcmpOuts pd pq c (omod ma (e.src l a)) (omod mb (e.src l b))) hi (shape_fcmpOuts pd pq c _ _)

end

/-- Settles O17: FMIN and FMAX select by the order of codes, FCMP compares by it, and FCLASS's one bit is the class of the
value. -/
theorem floatSelectCompareClassify : Obligations.FloatSelectCompareClassify := by
  refine ⟨fun h d a b ma mb s e hi => ⟨?fmin, ?fmax⟩, fun h pd pq a b ma mb c s e hi => ?fcmp, fun h d a f s e hi _ => ?fclass⟩
  case fmin => exact (exec_fmin_gives hi).mono fun l r hr => hr.trans (selectF_eq false _ _)
  case fmax => exact (exec_fmax_gives hi).mono fun l r hr => hr.trans (selectF_eq true _ _)
  case fcmp =>
    have hex := exec_fcmp_fixed (ma := ma) (mb := mb) (c := c) hi
    simp only [fcmpOuts_fl] at hex
    refine hex.mono fun l r q hh => ?_
    obtain ⟨hq, hd⟩ := holds_fcmpOuts hh
    exact ⟨fun h7 => (hq h7).trans (decided_f32 _ _), fun h7 hne => ((hd h7 hne).trans (fcond_f32 _ _ _)).trans (by cases c <;> rfl)⟩
  case fclass =>
    refine (exec_fclass_gives hi).mono fun l r hr => ?_
    subst hr
    refine ⟨sticky_pureImg _, fun i hi => ?_⟩
    rw [pay_pureImg, getLsbD_classWord_eq_classBit f _ hi]
    rfl

end Sys2Proof.Machine
end

section
/-! SUPPORT. SelectEntry (R230, R231): the entries within a lane's limits, in the order of their indices; the order in
which a mode prefers them; the best of a list; and the choice among fresh entries, probes and the default. -/

namespace Sys2Proof.Machine

-- the order of a mode

/-- What a mode makes least (R231): the energy tag, the time tag, or the quality tag with its sign changed. -/
def VMode.key (m : VMode) (v : VEntry) : Int :=
  match m with
  | .tq => v.etag
  | .eq => v.ttag
  | .te => -v.qtag

theorem better_iff_key_lt {m : VMode} {a b : VEntry} : VMode.better m a b = true ↔ VMode.key m a < VMode.key m b := by
  cases m <;> simp [VMode.better, VMode.key]

/-- An entry goes before another under a mode, or is that one: ties go to the lower index (R231). -/
def Leads (m : VMode) (a b : Nat × VEntry) : Prop := VMode.key m a.2 ≤ VMode.key m b.2 ∧ (VMode.key m a.2 = VMode.key m b.2 → a.1 ≤ b.1)

section
variable {m : VMode} {a b c : Nat × VEntry}

theorem Leads.refl (m : VMode) (a : Nat × VEntry) : Leads m a a := ⟨le_rfl, fun _ => le_rfl⟩

theorem Leads.trans (hab : Leads m a b) (hbc : Leads m b c) : Leads m a c := by
  obtain ⟨hab, iab⟩ := hab
  obtain ⟨hbc, ibc⟩ := hbc
  exact ⟨hab.trans hbc, fun hac => (iab (by omega)).trans (ibc (by omega))⟩

/-- Of two entries in the order of their indices, the later is taken where it is better, and else the earlier. -/
theorem leads_of_better (hb : VMode.better m b.2 a.2 = true) : Leads m b a := by
  have hlt := better_iff_key_lt.1 hb
  exact ⟨hlt.le, fun he => absurd he hlt.ne⟩

theorem leads_of_not_better (hi : a.1 < b.1) (hb : ¬VMode.better m b.2 a.2 = true) : Leads m a b :=
  ⟨not_lt.1 fun hlt => hb (better_iff_key_lt.2 hlt), fun _ => hi.le⟩

end

-- the best of a list

/-- The entries of a list stand in the order of their indices. -/
def Ascending (l : List (Nat × VEntry)) : Prop := l.Pairwise fun a b => a.1 < b.1

/-- Taking the better one from left to right ends with the entry that goes before all others. -/
theorem foldl_better_leads (m : VMode) (r : List (Nat × VEntry)) (e : Nat × VEntry) (h : Ascending (e :: r)) :
    let w := r.foldl (fun b x => if VMode.better m x.2 b.2 then x else b) e
    w ∈ e :: r ∧ ∀ x ∈ e :: r, Leads m w x := by
  induction r generalizing e with
  | nil => simp [Leads.refl]
  | cons x r ih =>
    obtain ⟨he, hxr⟩ := List.pairwise_cons.1 h
    rw [List.foldl_cons]
    split
    next hb =>
      obtain ⟨hw, hl⟩ := ih x hxr
      have hx := hl x List.mem_cons_self
      refine ⟨List.mem_cons_of_mem _ hw, List.forall_mem_cons.2 ⟨hx.trans (leads_of_better hb), hl⟩⟩
    next hb =>
      obtain ⟨hw, hl⟩ := ih e (h.sublist (.cons_cons _ (List.sublist_cons_self ..)))
      obtain ⟨hwe, hr⟩ := List.forall_mem_cons.1 hl
      refine ⟨?_, List.forall_mem_cons.2 ⟨hwe, List.forall_mem_cons.2 ⟨?_, hr⟩⟩⟩
      · exact (List.mem_cons.1 hw).elim (fun hw => List.mem_cons.2 (.inl hw)) fun hw => List.mem_cons_of_mem _ (List.mem_cons_of_mem _ hw)
      · exact hwe.trans (leads_of_not_better (he x List.mem_cons_self) hb)

theorem best_eq_none {m : VMode} {l : List (Nat × VEntry)} : best m l = none ↔ l = [] := by
  cases l <;> simp [best]

/-- `best` is the index of the entry that goes before all others of the list. -/
theorem best_leads {m : VMode} {l : List (Nat × VEntry)} {i : Nat} (h : Ascending l) (hi : best m l = some i) :
    ∃ v, (i, v) ∈ l ∧ ∀ x ∈ l, Leads m (i, v) x := by
  cases l with
  | nil => cases hi
  | cons e r =>
    cases hi
    exact ⟨_, foldl_better_leads m r e h⟩

-- the entries within the limits

/-- The entries of a table within limits, each with its index (R231). -/
def VTable.fitting (t : VTable) (tl el ql : Nat) : List (Nat × VEntry) :=
  (t.entries.zipIdx.map fun e => (e.2, e.1)).filter fun e =>
    e.2.en && decide (e.2.ttag ≤ tl) && decide (e.2.etag ≤ el) && decide (ql ≤ e.2.qtag)

/-- Entry i of a table fits the limits (R231). -/
def VTable.Fits (t : VTable) (tl el ql i : Nat) : Prop :=
  ∃ v, t.entries[i]? = some v ∧ v.en = true ∧ v.ttag ≤ tl ∧ v.etag ≤ el ∧ ql ≤ v.qtag

/-- Entry i of a table is not stale (R230). -/
def VTable.NotStale (t : VTable) (now i : Nat) : Prop :=
  ∃ v, t.entries[i]? = some v ∧ (now + 2 ^ 32 - v.stamp) % 2 ^ 32 ≤ t.age ∧ t.mins ≤ v.nsamp

/-- The default entry may be taken (R231). -/
def VTable.HasDefault (t : VTable) : Prop :=
  t.policy / 2 % 2 = 1 ∧ t.defidx ≠ 0xFF ∧ ∃ v, t.entries[t.defidx]? = some v ∧ v.en = true

/-- The key of a mode at entry i. -/
def VTable.keyAt (t : VTable) (m : VMode) (i : Nat) : Int :=
  match t.entries[i]? with
  | none => 0
  | some v => VMode.key m v

/-- Entry i is the best of those with p, ties to the lower index. -/
def VTable.Best (t : VTable) (m : VMode) (p : Nat → Prop) (i : Nat) : Prop :=
  p i ∧ ∀ j, p j → t.keyAt m i ≤ t.keyAt m j ∧ (t.keyAt m i = t.keyAt m j → i ≤ j)

section
variable {t : VTable} {m : VMode} {now tl el ql i : Nat} {v : VEntry} {l : List (Nat × VEntry)} {p : Nat → Prop}

theorem VTable.keyAt_of (hv : t.entries[i]? = some v) : t.keyAt m i = VMode.key m v := by
  simp only [VTable.keyAt, hv]

theorem VTable.mem_fitting : (i, v) ∈ t.fitting tl el ql ↔
    t.entries[i]? = some v ∧ v.en = true ∧ v.ttag ≤ tl ∧ v.etag ≤ el ∧ ql ≤ v.qtag := by
  simp [VTable.fitting, List.mem_zipIdx_iff_getElem?, and_assoc]

theorem VTable.ascending_fitting (t : VTable) (tl el ql : Nat) : Ascending (t.fitting tl el ql) := by
  refine List.Pairwise.filter _ (List.pairwise_map.2 ?_)
  have hr := List.pairwise_lt_range' (s := 0) (n := t.entries.length)
  rw [← List.zipIdx_map_snd, List.pairwise_map] at hr
  exact hr

/-- An entry is fresh where its age and its samples are within the table's bounds (R230). -/
theorem VTable.stale_eq_false : t.stale now v = false ↔ (now + 2 ^ 32 - v.stamp) % 2 ^ 32 ≤ t.age ∧ t.mins ≤ v.nsamp := by
  simp [VTable.stale]

theorem VTable.fits_iff : t.Fits tl el ql i ↔ ∃ v, (i, v) ∈ t.fitting tl el ql := by
  simp only [VTable.Fits, VTable.mem_fitting]

theorem VTable.fresh_iff : t.Fits tl el ql i ∧ t.NotStale now i ↔
    ∃ v, (i, v) ∈ (t.fitting tl el ql).filter fun e => !t.stale now e.2 := by
  simp only [List.mem_filter, Bool.not_eq_true', VTable.stale_eq_false, VTable.mem_fitting]
  constructor
  · rintro ⟨⟨v, hv, hfit⟩, w, hw, hfresh⟩
    cases hv.symm.trans hw
    exact ⟨v, ⟨hv, hfit⟩, hfresh⟩
  · rintro ⟨v, ⟨hv, hfit⟩, hfresh⟩
    exact ⟨⟨v, hv, hfit⟩, v, hv, hfresh⟩

/-- The best of a list of a table's entries is the best of those that the list holds. -/
theorem VTable.best_of (hasc : Ascending l) (hent : ∀ x ∈ l, t.entries[x.1]? = some x.2) (hp : ∀ j, p j ↔ ∃ v, (j, v) ∈ l)
    (hi : best m l = some i) : t.Best m p i := by
  obtain ⟨v, hv, hlead⟩ := best_leads hasc hi
  refine ⟨(hp i).2 ⟨v, hv⟩, fun j hj => ?_⟩
  obtain ⟨w, hw⟩ := (hp j).1 hj
  rw [VTable.keyAt_of (hent _ hv), VTable.keyAt_of (hent _ hw)]
  exact hlead _ hw

theorem VTable.entry_of_mem_fitting {x : Nat × VEntry} (hx : x ∈ t.fitting tl el ql) : t.entries[x.1]? = some x.2 :=
  (VTable.mem_fitting.1 hx).1

end

-- the choice (R231)

section
variable {t : VTable} {m : VMode} {now tl el ql i : Nat}

theorem picksEntry_fresh : PicksEntry t m now tl el ql (some (i, 0)) ↔ t.Best m (fun j => t.Fits tl el ql j ∧ t.NotStale now j) i := Iff.rfl

theorem picksEntry_probe : PicksEntry t m now tl el ql (some (i, 1)) ↔
    (∀ j, ¬(t.Fits tl el ql j ∧ t.NotStale now j)) ∧ t.policy % 2 = 1 ∧ t.Best m (t.Fits tl el ql) i := Iff.rfl

theorem picksEntry_default : PicksEntry t m now tl el ql (some (i, 2)) ↔
    ((∀ j, ¬(t.Fits tl el ql j ∧ t.NotStale now j)) ∧ (t.policy % 2 = 1 → ∀ j, ¬t.Fits tl el ql j)) ∧ t.HasDefault ∧ i = t.defidx := Iff.rfl

theorem picksEntry_none : PicksEntry t m now tl el ql none ↔
    ((∀ j, ¬(t.Fits tl el ql j ∧ t.NotStale now j)) ∧ (t.policy % 2 = 1 → ∀ j, ¬t.Fits tl el ql j)) ∧ ¬t.HasDefault := Iff.rfl

theorem VTable.hasDefault_iff : t.HasDefault ↔
    t.policy / 2 % 2 = 1 ∧ t.defidx ≠ 0xFF ∧ ((t.entries[t.defidx]?).map (·.en)).getD false = true := by
  cases h : t.entries[t.defidx]? <;> simp [VTable.HasDefault, h]

/-- The probes stand in for fresh entries alone, so they are all that fits (R231). -/
theorem VTable.filter_stale_fitting (h : (t.fitting tl el ql).filter (fun e => !t.stale now e.2) = []) :
    (t.fitting tl el ql).filter (fun e => t.stale now e.2) = t.fitting tl el ql := by
  simpa [List.filter_eq_nil_iff, List.filter_eq_self] using h

end

/-- `select` chooses as R231 says. -/
theorem select_picksEntry (t : VTable) (m : VMode) (now tl el ql : Nat) : PicksEntry t m now tl el ql (t.select m now tl el ql) := by
  have hasc := t.ascending_fitting tl el ql
  unfold VTable.select
  rw [← VTable.fitting]
  dsimp only
  cases hf : best m ((t.fitting tl el ql).filter fun e => !t.stale now e.2) with
  | some i =>
    exact picksEntry_fresh.2 (VTable.best_of (hasc.filter _) (fun x hx => VTable.entry_of_mem_fitting (List.mem_of_mem_filter hx)) (fun j => VTable.fresh_iff) hf)
  | none =>
    have hnil := best_eq_none.1 hf
    have hfresh (j : Nat) : ¬(t.Fits tl el ql j ∧ t.NotStale now j) := by
      rw [VTable.fresh_iff, hnil]; simp
    dsimp only
    rw [VTable.filter_stale_fitting hnil]
    cases hp : (if t.policy % 2 = 1 then best m (t.fitting tl el ql) else none) with
    | some i =>
      obtain ⟨hprb, hi⟩ := Option.ite_none_right_eq_some.1 hp
      exact picksEntry_probe.2 ⟨hfresh, hprb, VTable.best_of hasc (fun x => VTable.entry_of_mem_fitting) (fun j => VTable.fits_iff) hi⟩
    | none =>
      have hfits (hprb : t.policy % 2 = 1) (j : Nat) : ¬t.Fits tl el ql j := by
        rw [if_pos hprb, best_eq_none] at hp
        rw [VTable.fits_iff, hp]; simp
      dsimp only
      split
      next hd => exact picksEntry_default.2 ⟨⟨hfresh, hfits⟩, VTable.hasDefault_iff.2 hd, rfl⟩
      next hd => exact picksEntry_none.2 ⟨⟨hfresh, hfits⟩, fun h => hd (VTable.hasDefault_iff.1 h)⟩

end Sys2Proof.Machine
end

section
/-! SUPPORT. VPEEK (R74): translation keeps every slot (R284), a legal table is read, and results are written at once where
an access has left the state. -/

namespace Sys2Proof.Machine

-- translation keeps every slot (R284)

/-- A core's cached translations are no part of its slots. -/
theorem State.slot?_setCore_tlb (s : State) (c : Nat) (l : List TlbEntry) (d n : Nat) :
    (s.setCore c { s.core c with tlb := l }).slot? d n = s.slot? d n := by
  unfold State.slot?
  by_cases h : d = c
  · rw [h, State.core_setCore_self]; rfl
  · rw [State.core_setCore_ne _ _ h]

theorem State.slot?_lookup (s : State) (c q va d n : Nat) : (s.lookup c q va).2.slot? d n = s.slot? d n := by
  unfold State.lookup
  split
  · rfl
  · split
    · exact State.slot?_setCore_tlb ..
    · split
      · exact State.slot?_setCore_tlb s c _ d n
      · rfl

/-- A translation leaves the state that its lookup leaves. -/
theorem State.translate_state (s : State) (c q va : Nat) (k : Acc) : (s.translate c q va k).2.2 = (s.lookup c q va).2 := by
  unfold State.translate
  split
  next hl => rw [hl]
  next hl => rw [hl]
  next hl => simp only [hl, apply_ite Prod.snd, ite_self]

theorem State.slot?_lookLane (s : State) (c q : Nat) (k : Acc) (x : LaneAcc) (d n : Nat) : (s.lookLane c q k x).2.slot? d n = s.slot? d n := by
  unfold State.lookLane
  refine List.foldlRecOn (motive := fun r : LaneLook × State => r.2.slot? d n = s.slot? d n) _ _ rfl fun r hr p _ => ?_
  have ht : (r.2.translate c q p.1 k).2.2.slot? d n = s.slot? d n := by
    rw [State.translate_state, State.slot?_lookup, hr]
  split
  next heq =>
    rw [heq] at ht
    split <;> exact ht
  next heq => rw [heq] at ht; exact ht
  next heq => rw [heq] at ht; exact ht

theorem State.slot?_lookLanes (s : State) (c q : Nat) (k : Acc) (ls : List LaneAcc) (d n : Nat) :
    (s.lookLanes c q k ls).2.slot? d n = s.slot? d n := by
  induction ls generalizing s with
  | nil => rfl
  | cons x r ih => exact (ih _).trans (State.slot?_lookLane ..)

section
variable {s s' : State} {e : Env} {r : Req} {ls : List LaneAcc} {ps : List (Nat × List Part)} {lv : List Nat} {pf : Option PageFault}

theorem State.slot?_checkGlobal {c q : Nat} (h : s.checkGlobal c q r ls = .ok s' ps lv pf) (d n : Nat) : s'.slot? d n = s.slot? d n := by
  unfold State.checkGlobal at h
  split at h
  · cases h
  · dsimp only at h
    split at h
    · cases h
    · cases h
      exact State.slot?_lookLanes ..

theorem State.checkHandler_ok (h : s.checkHandler r ls = .ok s' ps lv pf) : s' = s := by
  unfold State.checkHandler at h
  generalize (if r.acc = 1 then Acc.read else Acc.write) = k at h
  dsimp only at h
  split at h
  · cases h
  · split at h
    · cases h
    · split at h
      · cases h
      · cases h; rfl

/-- The checks of an access keep every slot (R162). -/
theorem State.slot?_check (h : s.check e r ls = .ok s' ps lv pf) (d n : Nat) : s'.slot? d n = s.slot? d n := by
  unfold State.check at h
  split at h
  · cases h
  · split at h
    · split at h <;> cases h
      rfl
    · split at h
      · rw [State.checkHandler_ok h]
      · exact State.slot?_checkGlobal h d n

/-- An access that every check lets through goes on with its parts. -/
theorem access_of_check (once : Bool) (k : State → List (Nat × List Part) → Res) (h : s.check e r ls = .ok s' ps [] none) :
    access e s r ls once k = k s' ps := by
  simp only [access, accessIf, h, List.foldl_nil]

end

-- a legal table is read (R71, R228, R229)

section
variable {h : Hdr} {us : Uses} {tab : BitVec 9} {disp : Word} {l1 l2 : Src} {s s' : State} {e : Env} {x : Slot} {a : Dword} {t : VTable}

theorem ReadsTable.slot? (ht : ReadsTable s e tab disp a t s') (c n : Nat) : s'.slot? c n = s.slot? c n := by
  obtain ⟨-, s1, p1, p2, hc1, -, -, hc2, -⟩ := ht
  rw [State.slot?_check hc2, State.slot?_check hc1, State.slot?_issuing]

/-- With nothing outstanding and a legal table, VCALL and VPEEK go on with the snapshot. -/
theorem withTable_of_readsTable {k : Env → State → Dword → VTable → Nat → Res}
    (hi : Issues h (us.and { parked := true, rv := useV 1 l1 ++ useV 1 l2, rs := [tab.toNat, tab.toNat + 1] ++ useS 1 l1 ++ useS 1 l2 }) .swarm s e)
    (hx : s.slot? e.c e.n = some x) (hdr : x.drained = true) (hdue : x.due = []) (ht : ReadsTable s e tab disp a t s') :
    withTable h us tab disp l1 l2 k s = .next ((k e s' a t (e.m.usec.getD (s.selUsec e))).settle e h 13 false) := by
  obtain ⟨rfl, s1, p1, p2, hc1, hf1, hh, hc2, hf2, rfl, hlegal⟩ := ht
  refine (issue_own hi).trans (congrArg (fun r : Res => Host.Outcome.next (r.settle e h 13 false)) ?_)
  simp only [State.slot?_issuing, hx, Option.getD_some, hdr, hdue, List.isEmpty_nil, Bool.and_self, Bool.not_true, Bool.false_eq_true, if_false,
    access_of_check true _ hc1, hf1, hh, access_of_check true _ hc2, hf2, hlegal]
  rfl

end

-- results written at once where an access has left the state

section
variable {h : Hdr} {s s' : State} {e : Env} {x : Slot} {D Q : List Nat}

/-- Results written at once stand in every slot that holds the same registers, flags and outstanding results. -/
theorem FixedResults.congr {y z : Slot} {fl : Nat → Fl} {P : Nat → (Nat → Img) → (Nat → Bool) → Prop} (fr : FixedResults h e x y D Q fl P)
    (hplain : z.plain = y.plain) (hlanes : z.lanes = y.lanes) (hsregs : z.sregs = y.sregs) (hflags : z.fflags = y.fflags) (hlate : z.late = y.late)
    (hmtx : z.mtx = y.mtx) (hbad : z.badRegs = y.badRegs) : FixedResults h e x z D Q fl P := by
  have hv (l n : Nat) : z.v l n = y.v l n := by simp only [Slot.v, Slot.fibre, hlanes]
  have hs (n : Nat) : z.s n = y.s n := by simp only [Slot.s, hsregs]
  have hp (l n : Nat) : z.pbit l n = y.pbit l n := by simp only [Slot.pbit, Slot.fibre, hlanes]
  refine ⟨hplain.trans fr.plain, fun l n hw => (hv l n).trans (fr.v l n hw), fun n hw => (hs n).trans (fr.s n hw),
    fun l n hw => (hp l n).trans (fr.p l n hw), fun l hl hf => ?_, fun i => hflags ▸ fr.flags i, hlate.trans fr.late, hmtx ▸ fr.mtx, hbad.trans fr.bad⟩
  simp only [hv, hs, hp]
  exact fr.result l hl hf

/-- An instruction that is done, with results written at once over the state that its access left. -/
theorem settle_writeAll_fixedOver {f : Nat → Outs} {cls cnt : Nat} {outer : Bool} (hs : Shape f D Q) (hm : x.mem? e.m.id = some e.m)
    (hx : s.slot? e.c e.n = some x) (hx' : s'.slot? e.c e.n = some x) :
    FixedOver (.next ((Res.go (s'.onSlot e.c e.n fun x => x.writeAll h.sc e.act f) cnt).settle e h cls outer)) h s s' e D Q
      (fun l => (f l).fl) fun l r q => Holds (f l) r q := by
  obtain ⟨fr, ms⟩ := writeAll_fixed (h := h) (e := e) hs x
  obtain ⟨u, z, hu, hslot, hone, hplain, -, hlanes, hsregs, hflags, hlate, hmtx, hbad⟩ := settle_go (h := h) (cls := cls) (cnt := cnt) (outer := outer)
    hx' (State.slot?_onSlot_self (fun x => x.writeAll h.sc e.act f) hx') (State.beside_onSlot ..) hm ms
  exact ⟨u, x, z, congrArg Host.Outcome.next hu, hx, hslot.after, hslot.beside, hone, fr.congr hplain hlanes hsregs hflags hlate hmtx hbad⟩

theorem FixedOver.mono {o : Out} {fl : Nat → Fl} {P R : Nat → (Nat → Img) → (Nat → Bool) → Prop} (a : FixedOver o h s s' e D Q fl P)
    (hp : ∀ l r q, P l r q → R l r q) : FixedOver o h s s' e D Q fl R := by
  obtain ⟨t, x, y, ho, hx, hy, hb, hone, hr⟩ := a
  exact ⟨t, x, y, ho, hx, hy, hb, hone, hr.plain, hr.v, hr.s, hr.p, fun l hl hf => hp _ _ _ (hr.result l hl hf), hr.flags, hr.late, hr.mtx, hr.bad⟩

end

-- VPEEK (R74)

/-- The word VPEEK writes for a choice: its index and tier, or bit 31 alone. -/
def peekWord (p : Option (Nat × Nat)) : Word :=
  match p with
  | some p => BitVec.ofNat 32 (p.1 + 16 * p.2)
  | none => 0x80000000#32

/-- What a lane chooses from a snapshot within its clipped limits (R71). -/
def laneChoice (e : Env) (m : VMode) (l1 l2 : Src) (t : VTable) (now l : Nat) : Option (Nat × Nat) :=
  t.select m now (limits e l m l1 l2).1 (limits e l m l1 l2).2.1 (limits e l m l1 l2).2.2

/-- The limits of a lane are those of R71. -/
theorem laneLimits_limits (e : Env) (l : Nat) (m : VMode) (l1 l2 : Src) :
    LaneLimits e l m l1 l2 (limits e l m l1 l2).1 (limits e l m l1 l2).2.1 (limits e l m l1 l2).2.2 := by
  cases m <;> exact ⟨rfl, rfl, rfl⟩

theorem shape_out1 (d : BitVec 8) (g : Nat → Word) : Shape (fun l => out1 (d.setWidth 9) (g l)) [d.toNat] [] where
  regs _ := by simp only [out1, List.map_cons, List.map_nil, toNat_setWidth_nine]
  preds _ := rfl
  nodup := List.nodup_singleton _

theorem holds_out1 {d : BitVec 8} {w : Word} {r : Nat → Img} {q : Nat → Bool} (hh : Holds (out1 (d.setWidth 9) w) r q) : r d.toNat = pureImg w := by
  have hr := hh.1 _ (List.mem_singleton_self _)
  rwa [toNat_setWidth_nine] at hr

theorem exec_vpeek (h : Hdr) (d : BitVec 8) (tab : BitVec 9) (disp : Word) (m : VMode) (l1 l2 : Src) (s : State) :
    exec (.vpeek h d tab disp m l1 l2) s = withTable h { wv := [d.toNat] } tab disp l1 l2 (fun e s _ t now =>
      .go (s.onSlot e.c e.n fun x => x.writeAll false e.act fun l => out1 (d.setWidth 9) (peekWord (laneChoice e m l1 l2 t now l))) 1) s := rfl

/-- Settles O35: the best of the entries that fit, by the order of the mode, is found from left to right; VPEEK writes the
choice within the limits of each lane. -/
theorem selectionAndVpeek : Obligations.SelectionAndVpeek := by
  refine ⟨select_picksEntry, fun h d tab disp m l1 l2 s s' e x a t hi hx hdr hdue hsc ht => ?_⟩
  obtain ⟨x', hx', hm, -, -⟩ := State.env_spec hi.env
  cases hx.symm.trans hx'
  rw [exec_vpeek, withTable_of_readsTable hi hx hdr hdue ht, ← hsc]
  refine (settle_writeAll_fixedOver (shape_out1 d _) hm hx ((ht.slot? _ _).trans hx)).mono fun l r q hh => ?_
  exact ⟨_, _, _, _, laneLimits_limits e l m l1 l2, select_picksEntry .., holds_out1 hh⟩

end Sys2Proof.Machine
end
